-- ==== Sys2Proof/Word.lean ====
section
/-! DEFINITION. The word types of the part and their limits. -/

namespace Sys2Proof

/-- A 32-bit data word (5.2 of 00). -/
abbrev Word := BitVec 32

/-- A reading of the plant clock: 48 bits of milliseconds that wrap (R14). -/
abbrev Time := BitVec 48

/-- The greatest strip position, 2^48 − 1 mm (R1). Positions are integers in mm and are held as `Nat`. -/
def maxPos : Nat := 281474976710655

/-- The greatest 32-bit count, 4,294,967,295 (R45, R56, R67, R95). -/
def max32 : Nat := 4294967295

end Sys2Proof
end

