-- ==== Sys2Proof/Syntax.lean ====
section
/-! DEFINITION. The commands of the part: one constructor per row of spec/opcode_table.json. -/

namespace Sys2Proof

/-- One of the four finishing lines (5.3 of 00). -/
abbrev LineId := Fin 4

/-- The entry side and the exit side of a line (1.1 of 01); side 0 and side 1 of a station number. -/
inductive Side where
  | entry
  | exit
  deriving DecidableEq, Repr, Inhabited

/-- The three marker inputs of a line (2.1 of 02). -/
inductive MarkerInput where
  | seamIn
  | hole
  | shear
  deriving DecidableEq, Repr, Inhabited

/-- A data word of a write burst with its four byte enables; bit k enables the byte at the k-th lowest address (R184). -/
structure Lane where
  data : Word
  en : BitVec 4
  deriving DecidableEq, Repr, Inhabited

/-- A write burst: the byte address of its first word and its consecutive words (8.1 of 08). -/
structure WriteBurst where
  addr : Nat
  words : List Lane
  deriving DecidableEq, Repr, Inhabited

/-- A read burst: the byte address of its first word and how many words it reads (8.1 of 08). -/
structure ReadBurst where
  addr : Nat
  count : Nat
  deriving DecidableEq, Repr, Inhabited

/-- The levels one line presents as the tracking well comes up (R17, R3, R4). -/
structure LineLevels where
  run : Bool
  entryForward : Bool
  exitForward : Bool
  seamIn : Bool
  hole : Bool
  shear : Bool
  deriving DecidableEq, Repr, Inhabited

/-- Every level the part reads at a cold start (R178, R181), the AREA_SEL straps among them: they are sampled if the path
reset that forms part of the cold start ends within it (R136, R179). -/
structure Levels where
  lines : Vector LineLevels 4
  ssa : Bool
  ssb : Bool
  prst : Bool
  serverSupply : Bool
  areaSel : BitVec 4
  deriving DecidableEq, Repr

/-- What begins a path reset (R179): PRST is asserted, or the path well loses power. -/
inductive ResetCause where
  | prstAsserted
  | supplyLost
  deriving DecidableEq, Repr, Inhabited

/-- What may end a path reset (R179): PRST is negated, or the path well is powered. -/
inductive ResetEnd where
  | prstNegated
  | supplyReturned
  deriving DecidableEq, Repr, Inhabited

/-- The commands, one per row of the table, in the table's order. -/
inductive Instr where
  | coldStart (levels : Levels)
  | standbyPowerLoss
  | pathResetBegin (cause : ResetCause)
  | pathResetEnd (cause : ResetEnd) (straps : BitVec 4)
  | serverStateChange (ssa ssb : Bool)
  | encoderPulse (line : LineId) (side : Side)
  | runLevelChange (line : LineId) (level : Bool)
  | directionLevelChange (line : LineId) (side : Side) (forward : Bool)
  | timeBaseTick
  | markerRawTransition (line : LineId) (input : MarkerInput)
  | debounceComplete (line : LineId) (input : MarkerInput)
  | passThroughWrite (burst : WriteBurst)
  | passThroughRead (burst : ReadBurst)
  | directiveSlotWrite (burst : WriteBurst)
  | goWord (burst : WriteBurst)
  | intakeWrite (burst : WriteBurst)
  | apertureRead (burst : ReadBurst)
  | apertureReadReturn
  | readDataReturn
  | mSideGrant
  | mSideBurstComplete (data : List Word)
  | journalEntryBegin
  | mirrorGroupWrite
  | mirrorPeriodComplete
  | resolverTurn
  | descendScanVisit
  | unknownCode
  | defineLine
  | defineHolePatterns
  | startTracking
  | stopTracking
  | clearLine
  | setClock
  | announceEntry
  | announceExit
  | withdraw
  | injectMarker
  | nameRecord
  | readRecord
  | trace
  | descend
  | defineStation
  | defineVerdict
  | activateStation
  | deactivateStation
  | openCursor
  | refreshCursor
  | closeCursor
  | setJournal
  | acknowledgeEvents
  | setRouting
  | setMirrorPeriod
  deriving DecidableEq, Repr

end Sys2Proof
end

