-- ==== Sys2Proof/WellFormed.lean ====
section
/-! DEFINITION. What makes a term of `Instr` a command: the shape of the P-side bursts (8.1 of 08, 5.2 of 00). -/

namespace Sys2Proof

/-- The shape every burst has: a word address below 2^34 and 1 to 8 words within one aligned 32-byte block (8.1 of 08). -/
def burstShape (addr count : Nat) : Bool :=
  addr % 4 == 0 && decide (addr < 2 ^ 34) && decide (1 ≤ count) && decide (addr % 32 / 4 + count ≤ 8)

/-- A write burst has the shape of a burst. -/
def WriteBurst.wf (b : WriteBurst) : Bool := burstShape b.addr b.words.length

/-- A read burst has the shape of a burst. -/
def ReadBurst.wf (b : ReadBurst) : Bool := burstShape b.addr b.count

/-- Only the P-side rows can be ill formed: every other operand's type admits only values the spec gives it, and data
shorter than the read in progress asks for completes nothing (R144). -/
def Instr.wf : Instr → Bool
  | .passThroughWrite b => b.wf
  | .directiveSlotWrite b => b.wf
  | .goWord b => b.wf
  | .intakeWrite b => b.wf
  | .passThroughRead b => b.wf
  | .apertureRead b => b.wf
  | .mSideBurstComplete _ => true
  | .coldStart _ => true
  | .standbyPowerLoss => true
  | .pathResetBegin _ => true
  | .pathResetEnd _ _ => true
  | .serverStateChange _ _ => true
  | .encoderPulse _ _ => true
  | .runLevelChange _ _ => true
  | .directionLevelChange _ _ _ => true
  | .timeBaseTick => true
  | .markerRawTransition _ _ => true
  | .debounceComplete _ _ => true
  | .apertureReadReturn => true
  | .readDataReturn => true
  | .mSideGrant => true
  | .journalEntryBegin => true
  | .mirrorGroupWrite => true
  | .mirrorPeriodComplete => true
  | .resolverTurn => true
  | .descendScanVisit => true
  | .unknownCode => true
  | .defineLine => true
  | .defineHolePatterns => true
  | .startTracking => true
  | .stopTracking => true
  | .clearLine => true
  | .setClock => true
  | .announceEntry => true
  | .announceExit => true
  | .withdraw => true
  | .injectMarker => true
  | .nameRecord => true
  | .readRecord => true
  | .trace => true
  | .descend => true
  | .defineStation => true
  | .defineVerdict => true
  | .activateStation => true
  | .deactivateStation => true
  | .openCursor => true
  | .refreshCursor => true
  | .closeCursor => true
  | .setJournal => true
  | .acknowledgeEvents => true
  | .setRouting => true
  | .setMirrorPeriod => true

end Sys2Proof
end

