-- ==== Sys2Proof/Decode.lean ====
section
/-! DEFINITION. No row of spec/opcode_table.json gives bits: no word spells a command. -/

namespace Sys2Proof

/-- The command a word spells by the table's bits: none, since every row's list of bits is empty. -/
def decodeTableWord (_nbits _w : Nat) : Option Instr := none

end Sys2Proof
end

