-- ==== Sys2Proof/Config.lean ====
section
/-! DEFINITION. What is fixed for the part (its capacities) and the free values. -/

namespace Sys2Proof

/-- FREE VALUE (log 2). The `place`-th value the spec leaves open in the `draw`-th group or answer that holds such
values. It has no body: nothing can be proved of which value it is. A narrower field takes its low bits. -/
opaque Config.freeWord (draw place : Nat) : Word

/-- FREE VALUE (log 2). The word written for an offset or a position within a coil of 2^32 mm or more, for which the
spec states no word (R49, R74, R186). It has no body. -/
opaque Config.wideOffset (mm : Nat) : Word

/-- Record places of the coil table (R56). -/
def Config.places : Nat := 8192
/-- Capacity of the seam queue and of the through list (R35). -/
def Config.seamCap : Nat := 16
/-- Capacity of each announcement queue (R36). -/
def Config.announceCap : Nat := 8
/-- Most segments of an EXIT record (R48). -/
def Config.segmentCap : Nat := 16
/-- Most tags of an EXIT record (R49). -/
def Config.tagCap : Nat := 8
/-- Most open bins of a station (R81). -/
def Config.openBinCap : Nat := 256
/-- Most entries of the journal backlog (R163). -/
def Config.backlogCap : Nat := 128
/-- The backlog count from which BACKLOG_HIGH's condition holds (R169). -/
def Config.backlogHigh : Nat := 96
/-- Capacity of the memory request queue (R139). -/
def Config.requestCap : Nat := 32
/-- Capacity of the bookkeeping queue (R142). -/
def Config.bookkeepingCap : Nat := 64
/-- Most ancestors a Trace answer lists (R75). -/
def Config.traceCap : Nat := 12
/-- Most children a Descend answer lists (R77). -/
def Config.descendCap : Nat := 24
/-- Most hops of a lineage walk (R121). -/
def Config.maxHops : Nat := 8

end Sys2Proof
end

