-- ==== Sys2Proof/Machine/State.lean ====
section
/-! DEFINITION. The state of the part as plain data, its value right after reset, and the reasons a step can stop. -/

namespace Sys2Proof.Machine

/-! ## Line units (tracking well) -/

/-- The line states (R7). -/
inductive LineState where
  | unconfigured
  | standby
  | tracking
  deriving DecidableEq, Repr, Inhabited

/-- One side of a line unit: divider, counter, limit mark and direction level (R1, R2, R4, R5). -/
structure SideUnit where
  /-- reload D -/
  reload : Nat
  /-- step length S in mm -/
  stepLen : Nat
  /-- pulses still needed for the next step -/
  remaining : Nat
  /-- position counter -/
  counter : Nat
  limitMark : Bool
  /-- the direction level reads forward -/
  forward : Bool
  deriving DecidableEq, Repr, Inhabited

/-- The edge select of a marker input (R9, R20). -/
inductive EdgeSelect where
  | off
  | rising
  | falling
  | both
  deriving DecidableEq, Repr, Inhabited

/-- A pending change of a marker input (R17). -/
structure Pending where
  level : Bool
  value : Nat
  time : Time
  remaining : Nat
  void : Bool
  deriving DecidableEq, Repr, Inhabited

/-- A marker input with its settings (R17, R8). -/
structure Marker where
  settled : Bool
  pending : Option Pending
  edge : EdgeSelect
  debounce : Nat
  offset : Int
  deriving DecidableEq, Repr, Inhabited

/-- The class of a pattern slot (R24). -/
inductive PatternClass where
  | seam
  | tag
  deriving DecidableEq, Repr, Inhabited

/-- A pattern slot; hole count 0 is an unused slot (R24). -/
structure PatternSlot where
  cls : PatternClass
  holes : Nat
  spacings : List Nat
  deriving DecidableEq, Repr, Inhabited

/-- The hole-code matcher (R27). The alive set is the list of alive slot numbers, rising. -/
inductive Matcher where
  | idle
  | collecting (positions : List Nat) (alive : List (Fin 3))
  | recovery (endPos : Nat)
  deriving DecidableEq, Repr, Inhabited

/-- A seam queue entry (R35). -/
structure SeamEntry where
  pos : Nat
  time : Time
  headed : Nat
  tailed : Option Nat
  deriving DecidableEq, Repr, Inhabited

/-- A line unit (R8, R17, R24, R27, R35). -/
structure Line where
  state : LineState
  /-- gate mode: true for GATED, false for FREE -/
  gated : Bool
  /-- RUN level -/
  run : Bool
  entry : SideUnit
  exit : SideUnit
  seamIn : Marker
  hole : Marker
  shear : Marker
  seamInSpacing : Nat
  seamOutSpacing : Nat
  shearSpacing : Nat
  elongMin : Nat
  elongMax : Nat
  reverseOnPass : Bool
  tolerance : Nat
  gapLimit : Nat
  recoveryLen : Nat
  patterns : Vector PatternSlot 3
  matcher : Matcher
  seamQueue : List SeamEntry
  entryQueue : List Word
  exitQueue : List Word
  through : List Nat
  lastSeamIn : Option Nat
  lastExitSeam : Option Nat
  lastShear : Option Nat
  deriving DecidableEq, Repr

/-! ## Coil table, journal backlog, anomaly log (tracking well) -/

/-- The kinds of coil record (R57). -/
inductive Kind where
  | entry
  | exit
  deriving DecidableEq, Repr, Inhabited

/-- The states of a coil record (R58). -/
inductive RecordState where
  | loading
  | closed
  | through
  | winding
  | cut
  | settled
  deriving DecidableEq, Repr, Inhabited

/-- The flags of a coil record (R59). -/
structure RecordFlags where
  suspect : Bool
  forced : Bool
  truncated : Bool
  tagOverflow : Bool
  renamed : Bool
  deriving DecidableEq, Repr, Inhabited

/-- A segment of an EXIT record (R47, R57). -/
structure Segment where
  exitStart : Nat
  exitEnd : Nat
  serial : Nat
  deriving DecidableEq, Repr, Inhabited

/-- A tag of an EXIT record: pattern slot and position within the coil (R49). -/
structure Tag where
  slot : Fin 3
  pos : Nat
  deriving DecidableEq, Repr, Inhabited

/-- The tally counts of a record (R57, R67). -/
structure Tally where
  sealedBins : Nat
  verdictBins : Nat
  gapBins : Nat
  deriving DecidableEq, Repr, Inhabited

/-- A coil record (R57). `start` and `stop` are entry start and entry end of an ENTRY record, span start and span end of
an EXIT record; the exit span, elongation and source are absent in an EXIT record, segments and tags empty in an ENTRY
record. The tally station is `2 * line + kind` (fixed at allocation, R57). -/
structure Record where
  serial : Nat
  kind : Kind
  line : LineId
  identity : Option Word
  state : RecordState
  flags : RecordFlags
  openedAt : Time
  closedAt : Option Time
  start : Nat
  stop : Option Nat
  exitStart : Option Nat
  exitEnd : Option Nat
  elongation : Option Nat
  source : Option Nat
  segments : List Segment
  tags : List Tag
  tally : Tally
  deriving DecidableEq, Repr, Inhabited

/-- The coil table (R56, R65): records by place, places rising; serials by plant number, numbers rising. -/
structure CoilTable where
  places : List (Nat × Record)
  /-- 0 once the last serial has been given -/
  nextSerial : Nat
  idMap : List (Nat × Nat)
  deriving DecidableEq, Repr, Inhabited

/-- A journal entry (10.1.1 of 10, R70): the record as it settled, its sequence number and settling time. -/
structure JournalEntry where
  seq : Nat
  settledAt : Time
  record : Record
  deriving DecidableEq, Repr, Inhabited

/-- The anomaly codes (R168, R187). -/
inductive AnomalyCode where
  | counterLimit
  | holeMismatch
  | spuriousSeamIn
  | spuriousSeamOut
  | spuriousShear
  | noAnnouncement
  | seamQueueFull
  | orphanSeam
  | throughOverflow
  | elongationImplausible
  | segmentOverflow
  | lateParent
  | unplacedTag
  | forcedSettle
  | journalBacklogFull
  | serverStateIllegal
  deriving DecidableEq, Repr, Inhabited

/-- An entry of the anomaly log (R168). -/
structure Anomaly where
  number : Word
  time : Time
  code : AnomalyCode
  line : Option LineId
  pos : Option Nat
  serial : Option Nat
  deriving DecidableEq, Repr, Inhabited

/-- The tracking well (11.1 of 11). -/
structure Tracking where
  clock : Time
  lines : Vector Line 4
  table : CoilTable
  nextSeq : Nat
  backlog : List JournalEntry
  anomalies : Vector (Option Anomaly) 32
  anomalyCount : Word
  /-- ANOMALY, RECORD_SETTLED, ANNOUNCE_EMPTY, BACKLOG_HIGH in the places of a flag set (R184) -/
  trackingFlags : Word
  trackFaultMask : Word
  illegalMark : Bool
  deriving DecidableEq, Repr

/-! ## Stations (path well) -/

/-- The definition of a station (R82). Offsets of channels beyond the channel count are 0 and are not used. -/
structure StationDef where
  ringBase : Nat
  slotCount : Nat
  binLength : Nat
  tag : Word
  settle : Nat
  channels : Nat
  offsets : Vector Int 12
  deriving DecidableEq, Repr

/-- An open bin (R81); its presence set is the set of channels whose value is present. -/
structure OpenBin where
  values : Vector (Option Word) 12
  fill : Nat
  deriving DecidableEq, Repr

/-- What a LIVE station holds beside its definition (R80): S, H, open bins by rising bin number, sealing paused. -/
structure LiveData where
  sealedBin : Int
  highest : Int
  bins : List (Nat × OpenBin)
  paused : Bool
  deriving DecidableEq, Repr

/-- The station states with what each holds (R80, R85). -/
inductive StationState where
  | off
  | preparing (progress : Nat)
  | live (data : LiveData)
  deriving DecidableEq, Repr

/-- Condition operations of a verdict chain (6.1 of 06). -/
inductive CondOp where
  | load
  | loadNot
  | and
  | andNot
  | or
  | orNot
  deriving DecidableEq, Repr, Inhabited

/-- Block operations of a verdict chain (6.1 of 06). -/
inductive BlockOp where
  | andBlock
  | orBlock
  deriving DecidableEq, Repr, Inhabited

/-- The tests of a condition (6.1 of 06). -/
inductive Test where
  | gt
  | ge
  | lt
  | le
  | present
  deriving DecidableEq, Repr, Inhabited

/-- A term of a verdict chain (R103). -/
inductive Term where
  | cond (op : CondOp) (test : Test) (channel : Nat) (threshold : Word)
  | block (op : BlockOp)
  deriving DecidableEq, Repr, Inhabited

/-- A trend station (R80). -/
structure Station where
  defn : Option StationDef
  chain : List Term
  state : StationState
  incarnation : Word
  discarded : Nat
  deriving DecidableEq, Repr

/-! ## Cursors (path well) -/

/-- The statuses a playback header reports (R126, R128, R132, R185). -/
inductive PointStatus where
  | ok
  | outOfRange
  | untracked
  | lineageLost
  | pending
  | notInLineage
  | depth
  | stationChanged
  | cursorClosed
  | noPoint
  | notReady
  | expired
  | unsealed
  | gap
  deriving DecidableEq, Repr, Inhabited

/-- A resolved entry of a cursor (R113). -/
structure Resolved where
  status : PointStatus
  ancestor : Nat
  pos : Nat
  bin : Option Nat
  incarnation : Option Word
  deriving DecidableEq, Repr, Inhabited

/-- The definition a cursor holds while it is not CLOSED (R113). -/
structure CursorDef where
  target : Nat
  line : LineId
  side : Side
  x0 : Nat
  stepLen : Int
  count : Nat
  deriving DecidableEq, Repr, Inhabited

/-- A cursor (R113). `table` holds the resolved entries, which form a prefix of the points. -/
inductive Cursor where
  | closed
  | resolving (defn : CursorDef) (table : List Resolved)
  | ready (defn : CursorDef) (table : List Resolved)
  deriving DecidableEq, Repr, Inhabited

/-! ## Memory path (path well) -/

/-- The path states (R148). -/
inductive PathState where
  | down
  | opened
  | draining
  | hold
  deriving DecidableEq, Repr, Inhabited

/-- The decoded server states (R180). -/
inductive ServerState where
  | run
  | holdRequest
  | off
  deriving DecidableEq, Repr, Inhabited

/-- A P-side transaction as it is presented (R135). -/
inductive Transaction where
  | write (burst : WriteBurst)
  | read (burst : ReadBurst)
  deriving DecidableEq, Repr, Inhabited

/-- An entry of the memory request queue (R139). A read belongs to the one read held at the port; `mark` is its
bookkeeping mark, the identities of the bursts of R147. -/
inductive Request where
  | write (burst : WriteBurst)
  | read (burst : ReadBurst) (mark : List Nat)
  deriving DecidableEq, Repr, Inhabited

/-- What is held with an aperture read that goes to memory (R131): the requested words `first` to `first + count - 1` of
the point, the bin, ring tag, ancestor and target position, how many M-side reads were entered and the data of those
that have completed. -/
structure ApertureHold where
  first : Nat
  count : Nat
  bin : Nat
  tag : Word
  ancestor : Nat
  pos : Nat
  target : Int
  reads : Nat
  got : List (List Word)
  deriving DecidableEq, Repr, Inhabited

/-- The read held at the P-side port (R135, R140). -/
inductive HeldRead where
  | passThrough (burst : ReadBurst) (data : Option (List Word))
  | aperture (held : ApertureHold)
  deriving DecidableEq, Repr, Inhabited

/-- A burst standing in the bookkeeping queue (R142). `id` only tells bursts apart (log 9). -/
structure Bookkeeping where
  id : Nat
  burst : WriteBurst
  deriving DecidableEq, Repr, Inhabited

/-- A producer on the wait list (R143), with its one burst; a station's sealing waits without one. -/
inductive Waiter where
  | sealing (station : Fin 8)
  | journal (burst : WriteBurst)
  | directive (burst : WriteBurst)
  | mirror (burst : WriteBurst)
  deriving DecidableEq, Repr, Inhabited

/-- The burst in progress on the M-side, with the class it was granted in (R144, R145). -/
inductive MBurst where
  | pWrite (burst : WriteBurst)
  | pRead (burst : ReadBurst)
  | bWrite (burst : WriteBurst)
  | fWrite (burst : WriteBurst)
  deriving DecidableEq, Repr, Inhabited

/-! ## Directive unit, journal writer, mirror (path well) -/

/-- The slot states (R152). -/
inductive SlotState where
  | idle
  | queued
  | running
  deriving DecidableEq, Repr, Inhabited

/-- A slot record (R152). -/
structure Slot where
  state : SlotState
  shadow : Vector Word 48
  code : BitVec 8
  tag : BitVec 16
  deriving DecidableEq, Repr

/-- A child found by a Descend scan, as its place stood at the visit (R77, R78). -/
structure Child where
  serial : Nat
  number : Option Word
  kind : Kind
  line : LineId
  deriving DecidableEq, Repr, Inhabited

/-- The directive unit (R156, R76): while ANSWERING it holds the bursts it has not yet offered. -/
inductive UnitState where
  | free
  | scanning (slot : Fin 16) (target : Nat) (kind : Kind) (next : Nat) (children : List Child)
  | answering (slot : Fin 16) (rest : List WriteBurst)
  deriving DecidableEq, Repr, Inhabited

/-- The journal setting (R164). -/
structure JournalSetting where
  base : Nat
  size : Nat
  deriving DecidableEq, Repr, Inhabited

/-- The path well (11.1 of 11). -/
structure PathWell where
  state : PathState
  areaSel : BitVec 4
  server : Option ServerState
  stations : Vector Station 8
  prepQueue : List (Fin 8)
  cursors : Vector Cursor 8
  resolverMark : Fin 8
  requests : List Request
  port : Option HeldRead
  bookkeeping : List Bookkeeping
  nextId : Nat
  waitList : List Waiter
  inProgress : Option MBurst
  bCount : Nat
  fCount : Nat
  slots : Vector Slot 16
  fifo : List (Fin 16)
  directiveUnit : UnitState
  journal : Option JournalSetting
  journalHead : Nat
  progress : Nat
  dirty : Vector Bool 39
  rotation : Fin 39
  period : Nat
  periodCount : Nat
  /-- DIRECTIVE_DONE, CURSOR_READY, STATION_READY, ACCESS_FAULT, INTAKE_LOSS in the places of a flag set (R184) -/
  pathFlags : Word
  alertMask : Word
  deriving DecidableEq, Repr

/-- The state of the part, its pins, and the commands waiting for it. -/
structure State where
  /-- the tracking well is powered (R177) -/
  powered : Bool
  /-- the path well is powered (R179) -/
  pathPower : Bool
  /-- PRST is asserted -/
  prst : Bool
  ssa : Bool
  ssb : Bool
  track : Tracking
  path : PathWell
  /-- transactions presented at the P-side and not yet accepted, first presented first (R135, log 7) -/
  presented : List Transaction
  /-- the data returned on the P-side, read by read, first returned first (R140, log 8) -/
  returned : List (List Word)
  /-- how many groups of free values have been drawn (log 2) -/
  freeCount : Nat
  /-- the commands that are waiting, first in first out (log 1) -/
  pending : List Instr
  deriving DecidableEq, Repr

/-- Why a step can stop. -/
inductive Fault where
  /-- Raised by the six P-side rows on a term that is no burst (8.1 of 08: 1 to 8 words within one aligned 32-byte block).
  Safe: no transaction of the hardware has that form. -/
  | malformedBurst
  deriving DecidableEq, Repr, Inhabited

/-- Why a command can be refused. -/
inductive Refusal where
  /-- Raised by an arm of `exec` whose command has no meaning yet; no arm does. Safe. -/
  | notModelled (mnemonic : String)
  deriving DecidableEq, Repr, Inhabited

/-! ## Values at cold start and at path reset -/

/-- A side of a line unit at cold start (R8). -/
def SideUnit.cold (forward : Bool) : SideUnit :=
  { reload := 1, stepLen := 1, remaining := 1, counter := 0, limitMark := false, forward := forward }

/-- A marker input at cold start: settled at the level it presents (R8, R17). -/
def Marker.cold (level : Bool) : Marker :=
  { settled := level, pending := none, edge := .off, debounce := 0, offset := 0 }

/-- An unused pattern slot (R24). -/
def PatternSlot.unused : PatternSlot := { cls := .seam, holes := 0, spacings := [] }

/-- A line unit at cold start (R8, R17, R24, R27, R35). -/
def Line.cold (lv : LineLevels) : Line :=
  { state := .unconfigured, gated := false, run := lv.run
    entry := .cold lv.entryForward, exit := .cold lv.exitForward
    seamIn := .cold lv.seamIn, hole := .cold lv.hole, shear := .cold lv.shear
    seamInSpacing := 1, seamOutSpacing := 1, shearSpacing := 1
    elongMin := 500, elongMax := 20000, reverseOnPass := false
    tolerance := 0, gapLimit := 10, recoveryLen := 0
    patterns := .replicate 3 .unused, matcher := .idle
    seamQueue := [], entryQueue := [], exitQueue := [], through := []
    lastSeamIn := none, lastExitSeam := none, lastShear := none }

/-- The tracking well at cold start (R178). -/
def Tracking.cold (lv : Levels) : Tracking :=
  { clock := 0
    lines := #v[.cold lv.lines[0], .cold lv.lines[1], .cold lv.lines[2], .cold lv.lines[3]]
    table := { places := [], nextSerial := 1, idMap := [] }
    nextSeq := 1, backlog := [], anomalies := .replicate 32 none, anomalyCount := 0
    trackingFlags := 0, trackFaultMask := 0, illegalMark := false }

/-- A station after a cold start and after each path reset (R80). -/
def Station.reset : Station :=
  { defn := none, chain := [], state := .off, incarnation := 0, discarded := 0 }

/-- A slot record after a cold start and after each path reset (R152). -/
def Slot.reset : Slot :=
  { state := .idle, shadow := .replicate 48 0, code := 0, tag := 0 }

/-- The path well's reset values (R80, R113, R118, R139, R142, R143, R146, R150, R152, R164, R170, R172, R174, R176), in
path state DOWN. AREA_SEL and the server state are formed at the end of the path reset (R179); that no server state is held
before the next decode is the model's choice (log 25). -/
def PathWell.reset (areaSel : BitVec 4) : PathWell :=
  { state := .down, areaSel := areaSel, server := none
    stations := .replicate 8 .reset, prepQueue := []
    cursors := .replicate 8 .closed, resolverMark := 7
    requests := [], port := none, bookkeeping := [], nextId := 0, waitList := []
    inProgress := none, bCount := 0, fCount := 0
    slots := .replicate 16 .reset, fifo := [], directiveUnit := .free
    journal := none, journalHead := 0, progress := 0
    dirty := .replicate 39 true, rotation := 0, period := 0, periodCount := 0
    pathFlags := 0, alertMask := 0 }

/-- The levels `State.reset` is reached with (DESIGN CHOICE, log 3): direction forward, RUN negated, markers low, server
in RUN, PRST negated, both supplies present, AREA_SEL 0. -/
def Levels.quiet : Levels :=
  { lines := .replicate 4
      { run := false, entryForward := true, exitForward := true, seamIn := false, hole := false, shear := false }
    ssa := true, ssb := true, prst := false, serverSupply := true, areaSel := 0 }

/-- The machine right after reset: a cold start whose path reset has ended with the server in RUN and AREA_SEL 0, so
that the path is OPEN (R178, R179, R148; the pin levels are log 3). -/
def State.reset : State :=
  { powered := true, pathPower := true, prst := false, ssa := true, ssb := true
    track := .cold Levels.quiet
    path := { PathWell.reset 0 with state := .opened, server := some .run }
    presented := [], returned := [], freeCount := 0, pending := [] }

end Sys2Proof.Machine
end

