-- ==== Sys2Proof/Machine/Tables.lean ====
section
/-! DEFINITION. Sparse tables as lists of keys and values with rising keys, and the small list and number helpers. -/

namespace Sys2Proof.Machine

/-- The value a table holds under a key. -/
def tableGet {α : Type} (k : Nat) : List (Nat × α) → Option α
  | [] => none
  | (j, v) :: rest => if j = k then some v else tableGet k rest

/-- The table with a key's value set; keys stay rising. -/
def tableSet {α : Type} (k : Nat) (v : α) : List (Nat × α) → List (Nat × α)
  | [] => [(k, v)]
  | (j, w) :: rest =>
    if k < j then (k, v) :: (j, w) :: rest
    else if j = k then (k, v) :: rest
    else (j, w) :: tableSet k v rest

/-- The table without a key. -/
def tableErase {α : Type} (k : Nat) (t : List (Nat × α)) : List (Nat × α) :=
  t.filter fun e => e.1 != k

/-- Keys rise strictly: the one canonical form of a table. -/
def tableWf {α : Type} : List (Nat × α) → Bool
  | [] => true
  | (j, _) :: rest => rest.all (fun e => decide (j < e.1)) && tableWf rest

/-- Insert a number into a rising list. -/
def insertAsc (n : Nat) : List Nat → List Nat
  | [] => [n]
  | m :: rest => if n ≤ m then n :: m :: rest else m :: insertAsc n rest

/-- A list of numbers in increasing order. -/
def sortAsc : List Nat → List Nat
  | [] => []
  | n :: rest => insertAsc n (sortAsc rest)

/-- Add to a count that stays at 4,294,967,295 (R67, R95). -/
def satAdd (a n : Nat) : Nat := min (a + n) max32

/-- The lowest free place, from place `k` on, of a table whose places rise (R61 way 1). -/
def lowestFree {α : Type} (k : Nat) : List (Nat × α) → Nat
  | [] => k
  | (j, _) :: rest => if j = k then lowestFree (k + 1) rest else k

/-- The four lines in order. -/
def allLines : List LineId := [0, 1, 2, 3]

/-- The eight stations in order. -/
def allStations : List (Fin 8) := [0, 1, 2, 3, 4, 5, 6, 7]

/-- Do two address ranges share a byte? Each is its first address and its length. -/
def overlaps (a alen b blen : Nat) : Bool := decide (a < b + blen) && decide (b < a + alen)

end Sys2Proof.Machine
end

