-- ==== Sys2Proof/Machine/Flags.lean ====
section
/-! DEFINITION. Dirty marks, event flags and their conditions, the anomaly log, and the outputs. -/

namespace Sys2Proof.Machine

/-! ## Dirty marks of the mirror groups (R174, 10.4 of 10) -/

/-- Group of a line: G2 to G5. -/
def lineGroup (l : LineId) : Fin 39 := ⟨2 + l.val, by omega⟩
/-- Group of a station: G6 to G13. -/
def stationGroup (i : Fin 8) : Fin 39 := ⟨6 + i.val, by omega⟩
/-- Group of a cursor: G14 to G21. -/
def cursorGroup (k : Fin 8) : Fin 39 := ⟨14 + k.val, by omega⟩
/-- Group of the journal: G22. -/
def journalGroup : Fin 39 := 22
/-- Group of an anomaly log place: G23 + k holds places 2k and 2k + 1. -/
def anomalyGroup (place : Fin 32) : Fin 39 := ⟨23 + place.val / 2, by omega⟩

/-- Mark a mirror group dirty (R174). -/
def State.mark (s : State) (g : Fin 39) : State :=
  { s with path.dirty := s.path.dirty.set g.val true g.isLt }

/-- Mark a mirror group dirty when its content has changed. -/
def State.markIf (s : State) (changed : Bool) (g : Fin 39) : State :=
  if changed then s.mark g else s

/-- Mark every mirror group dirty (R148). -/
def State.markAll (s : State) : State :=
  { s with path.dirty := .replicate 39 true }

/-! ## Event flags (R169, R170, R184) -/

/-- The tracking flags (R169). -/
inductive TrackFlag where
  | anomaly
  | recordSettled
  | announceEmpty
  | backlogHigh
  deriving DecidableEq, Repr

/-- The path flags (R170). -/
inductive PathFlag where
  | directiveDone
  | cursorReady
  | stationReady
  | accessFault
  | intakeLoss
  deriving DecidableEq, Repr

/-- A tracking flag as its bit of a flag set (R184). -/
def TrackFlag.bit : TrackFlag → Word
  | .anomaly => 0x1
  | .recordSettled => 0x2
  | .announceEmpty => 0x4
  | .backlogHigh => 0x8

/-- A path flag as its bit of a flag set (R184). -/
def PathFlag.bit : PathFlag → Word
  | .directiveDone => 0x100
  | .cursorReady => 0x200
  | .stationReady => 0x400
  | .accessFault => 0x800
  | .intakeLoss => 0x1000

/-- The four tracking flag positions of a flag set (R184). -/
def trackingBits : Word := 0xF
/-- The nine flag positions of a flag set (R184). -/
def flagBits : Word := 0x1F0F

/-- Set a tracking flag; a flag already set stays set, a change marks G1 dirty (R169). -/
def State.raiseTrack (s : State) (f : TrackFlag) : State :=
  if s.track.trackingFlags &&& f.bit = 0 then
    { s with track.trackingFlags := s.track.trackingFlags ||| f.bit }.mark 1
  else s

/-- Set a path flag; a change marks G1 dirty (R170). -/
def State.raisePath (s : State) (f : PathFlag) : State :=
  if s.path.pathFlags &&& f.bit = 0 then
    { s with path.pathFlags := s.path.pathFlags ||| f.bit }.mark 1
  else s

/-- The nine flags as one flag set (R184). -/
def State.flagSet (s : State) : Word := s.track.trackingFlags ||| s.path.pathFlags

/-- The condition of ANNOUNCE_EMPTY: some line in TRACKING has an empty entry announcement queue (R169). -/
def State.announceEmpty (s : State) : Bool :=
  allLines.any fun l => (s.track.lines[l]).state == .tracking && (s.track.lines[l]).entryQueue.isEmpty

/-- The condition of BACKLOG_HIGH: the backlog holds 96 entries or more (R169). -/
def State.backlogHigh (s : State) : Bool := decide (Config.backlogHigh ≤ s.track.backlog.length)

/-- Judge ANNOUNCE_EMPTY (R169). -/
def State.judgeAnnounce (s : State) : State :=
  if s.announceEmpty then s.raiseTrack .announceEmpty else s

/-- Judge BACKLOG_HIGH (R169). -/
def State.judgeBacklog (s : State) : State :=
  if s.backlogHigh then s.raiseTrack .backlogHigh else s

/-! ## Anomaly log (R168) -/

/-- Enter an anomaly: number, time and place from the count and the clock; the count rises; ANOMALY is set; the place's
group and G1 are marked dirty (R168). -/
def State.anomaly (s : State) (code : AnomalyCode) (line : Option LineId) (pos serial : Option Nat) : State :=
  let n := s.track.anomalyCount
  let place : Fin 32 := ⟨n.toNat % 32, Nat.mod_lt _ (by decide)⟩
  let entry : Anomaly := { number := n, time := s.track.clock, code := code, line := line, pos := pos, serial := serial }
  let s1 : State :=
    { s with
      track.anomalies := s.track.anomalies.set place.val (some entry) place.isLt
      track.anomalyCount := n + 1 }
  ((s1.raiseTrack .anomaly).mark (anomalyGroup place)).mark 1

/-! ## Outputs (R148, R173, R177) -/

/-- The part drives its outputs while the tracking well is powered (R177). -/
def State.drives (s : State) : Bool := s.powered

/-- HOLD_ACK is asserted exactly while the path is HOLD (R148, R151). -/
def State.holdAck (s : State) : Bool := s.path.state == .hold

/-- ALERT (R173). -/
def State.alert (s : State) : Bool :=
  s.path.state != .down && s.flagSet &&& s.path.alertMask != 0

/-- TRACK_FAULT (R173). -/
def State.trackFault (s : State) : Bool := s.track.trackingFlags &&& s.track.trackFaultMask != 0

end Sys2Proof.Machine
end

