-- ==== Sys2Proof/Machine/Operands.lean ====
section
/-! DEFINITION. Words and fields: what the part reads from directive words and addresses, and every format it writes
(chapter 12, R136, R159). -/

namespace Sys2Proof.Machine

/-! ## Words and fields (R184) -/

/-- A value placed in the bits from `lo` up of a word, cut to `width` bits. -/
def field (v lo width : Nat) : Word := BitVec.ofNat 32 (v % 2 ^ width * 2 ^ lo)

/-- A flag placed in one bit of a word. -/
def flagBit (b : Bool) (lo : Nat) : Word := if b then field 1 lo 1 else 0

/-- A number as a word: its low 32 bits. -/
def wordOf (n : Nat) : Word := BitVec.ofNat 32 n

/-- The first word of a 48-bit value: bits 31:0 (R184). -/
def low32 (n : Nat) : Word := BitVec.ofNat 32 n

/-- The second word of a 48-bit value: bits 47:32 (R184). -/
def high16 (n : Nat) : Word := field (n / 2 ^ 32) 0 16

/-- A 48-bit value as two words (R184). -/
def words48 (n : Nat) : List Word := [low32 n, high16 n]

/-- The value two words carry, low word first (R15, R52, R82, R166). -/
def joined (lo hi : Word) : Nat := lo.toNat + hi.toNat * 2 ^ 32

/-- An unsigned word lies from `lo` to `hi`. -/
def within (w : Word) (lo hi : Nat) : Bool := decide (lo ≤ w.toNat) && decide (w.toNat ≤ hi)

/-- A signed word lies from `lo` to `hi`. -/
def withinInt (w : Word) (lo hi : Int) : Bool := decide (lo ≤ w.toInt) && decide (w.toInt ≤ hi)

/-- The line a word names, if it lies from 0 to 3. -/
def lineOf (w : Word) : Option LineId := if h : w.toNat < 4 then some ⟨w.toNat, h⟩ else none

/-- The station or cursor a word names, if it lies from 0 to 7. -/
def eightOf (w : Word) : Option (Fin 8) := if h : w.toNat < 8 then some ⟨w.toNat, h⟩ else none

/-- The fill value of a channel: no data (4 of 00). -/
def fillValue : Word := 0x80000000

/-- Each byte of `new` whose enable is set replaces that byte of `old` (R153). -/
def mergeBytes (old new : Word) (en : BitVec 4) : Word :=
  let m : Word :=
    (if en.getLsbD 0 then 0x000000FF else 0) ||| (if en.getLsbD 1 then 0x0000FF00 else 0) |||
    (if en.getLsbD 2 then 0x00FF0000 else 0) ||| (if en.getLsbD 3 then 0xFF000000 else 0)
  (old &&& ~~~m) ||| (new &&& m)

/-- A word written with all four byte enables set. -/
def fullLane (w : Word) : Lane := { data := w, en := 0xF }

/-- A lane whose byte enables are clear; the data it carries is not written anywhere (log 10). -/
def idleLane : Lane := { data := 0, en := 0 }

/-- A burst over the whole 32-byte block at `addr`, with byte enables on the words `f` gives (R94, R142, R158). -/
def blockBurst (addr : Nat) (f : Nat → Option Word) : WriteBurst :=
  { addr := addr
    words := [0, 1, 2, 3, 4, 5, 6, 7].map fun i =>
      match f i with
      | some w => fullLane w
      | none => idleLane }

/-- A burst of full words from `addr`. -/
def fullBurst (addr : Nat) (ws : List Word) : WriteBurst := { addr := addr, words := ws.map fullLane }

/-! ## Addresses (R136, R127) -/

/-- The base of the reserved area: 1 MiB below (AREA_SEL + 1) GiB (R136). -/
def areaBase (areaSel : BitVec 4) : Nat := areaSel.toNat * 0x40000000 + 0x3FF00000

/-- The size of the reserved area: 1 MiB (R136). -/
def areaSize : Nat := 0x100000

/-- The parts of the address space as the decoder divides it (R136); slots, windows and points with the word number of
the address within them. -/
inductive AreaPart where
  | outside
  | slot (k : Fin 16) (word : Nat)
  | status
  | intake (station : Fin 8) (word : Nat)
  | plain
  | aperture (cursor : Fin 8) (point word : Nat)
  deriving DecidableEq, Repr

/-- The part of the reserved area an offset lies in (R136). -/
def partOf (o : Nat) : AreaPart :=
  if h : o < 0x2000 then .slot ⟨o / 512, by omega⟩ (o % 512 / 4)
  else if o < 0x4000 then .status
  else if h : o < 0x4200 then .intake ⟨(o - 0x4000) / 64, by omega⟩ (o % 64 / 4)
  else if o < 0x10000 then .plain
  else if h : o < 0x90000 then .aperture ⟨(o - 0x10000) / 65536, by omega⟩ (o % 65536 / 64) (o % 64 / 4)
  else .plain

/-- The part that holds an address (R136). -/
def decodeArea (base addr : Nat) : AreaPart :=
  if base ≤ addr ∧ addr < base + areaSize then partOf (addr - base) else .outside

/-- The address of word `w` of directive slot `k` (R152). -/
def slotAddr (base : Nat) (k : Fin 16) (w : Nat) : Nat := base + 512 * k.val + 4 * w

/-- The address of mirror group `g` (R174). -/
def mirrorAddr (base : Nat) (g : Fin 39) : Nat := base + 0x2000 + 32 * g.val

/-! ## Directive words (R154, R159, R184) -/

/-- A word of a slot's shadow. -/
def Slot.word (sl : Slot) (i : Nat) : Word := (sl.shadow[i]?).getD 0

/-- The directive code of a go word (R184). -/
def goCode (w : Word) : BitVec 8 := w.setWidth 8

/-- The software tag of a go word (R184). -/
def goTag (w : Word) : BitVec 16 := (w >>> 16).setWidth 16

/-- The refusal reasons (R159). -/
inductive Reason where
  | unknownCode
  | badParameter
  | wrongState
  | queueFull
  | duplicate
  | notFound
  | inUse
  | chainInvalid
  deriving DecidableEq, Repr

/-- The code of a refusal reason in a status word (R184). -/
def Reason.code : Reason → Nat
  | .unknownCode => 1
  | .badParameter => 2
  | .wrongState => 3
  | .queueFull => 4
  | .duplicate => 5
  | .notFound => 6
  | .inUse => 7
  | .chainInvalid => 8

/-- The status word (R159, R184): outcome 1 DONE without a reason, 2 REFUSED with one. -/
def statusWord (tag : BitVec 16) (reason : Option Reason) (count : Nat) : Word :=
  field tag.toNat 0 16 ||| field count 16 7 |||
  match reason with
  | none => field 1 28 2
  | some r => field r.code 24 4 ||| field 2 28 2

/-! ## Ring slot and playback headers (R185) -/

/-- A ring slot header (R185, R98). -/
def ringHeader (tag : Word) (owner bin presence fill : Nat) (verdict forced : Bool) : List Word :=
  [tag, wordOf owner, wordOf (bin / 2 ^ 9),
   field (bin / 2 ^ 41) 0 7 ||| field presence 7 12 ||| field fill 19 8 ||| flagBit verdict 27 ||| flagBit forced 28]

/-- The empty header of ring preparation: bin number 2^48 − 1 (R88). -/
def emptyHeader (tag : Word) : List Word := ringHeader tag 0 maxPos 0 0 false false

/-- The 39 stored bin bits of a ring slot header (R185). -/
def storedBin (w2 w3 : Word) : Nat := w2.toNat + w3.toNat % 2 ^ 7 * 2 ^ 32

/-- The presence set of a ring slot header. -/
def headerPresence (w3 : Word) : Nat := w3.toNat / 2 ^ 7 % 2 ^ 12
/-- The fill count of a ring slot header. -/
def headerFill (w3 : Word) : Nat := w3.toNat / 2 ^ 19 % 2 ^ 8
/-- The verdict of a ring slot header. -/
def headerVerdict (w3 : Word) : Bool := w3.getLsbD 27

/-- The code of a status in a playback header (R185). -/
def PointStatus.code : PointStatus → Nat
  | .ok => 0
  | .outOfRange => 1
  | .untracked => 2
  | .lineageLost => 3
  | .pending => 4
  | .notInLineage => 5
  | .depth => 6
  | .stationChanged => 7
  | .cursorClosed => 8
  | .noPoint => 9
  | .notReady => 10
  | .expired => 11
  | .unsealed => 12
  | .gap => 13

/-- A playback header (R185, R129): the ancestor position is limited to 4,294,967,295, the target position signed. -/
def playbackHeader (st : PointStatus) (verdict : Bool) (presence fill ancestor pos : Nat) (target : Int) : List Word :=
  [field st.code 0 8 ||| flagBit verdict 8 ||| field presence 9 12 ||| field fill 21 8,
   wordOf ancestor, wordOf (min pos max32), BitVec.ofInt 32 target]

/-! ## Record image and journal entry (R186) -/

/-- Code of a record kind. -/
def Kind.code : Kind → Nat
  | .entry => 0
  | .exit => 1

/-- Code of a record state. -/
def RecordState.code : RecordState → Nat
  | .loading => 0
  | .closed => 1
  | .through => 2
  | .winding => 3
  | .cut => 4
  | .settled => 5

/-- The tally station of a record: 2 × line for ENTRY, 2 × line + 1 for EXIT (R57). -/
def Record.station (r : Record) : Fin 8 :=
  ⟨2 * r.line.val + r.kind.code, by cases r.kind <;> simp [Kind.code] <;> omega⟩

/-- The absent mark of a field: set when it is absent or does not belong to the record's kind (R74, R186). -/
def absentMark {α : Type} (belongs : Bool) (o : Option α) (lo : Nat) : Word := flagBit (!belongs || o.isNone) lo

/-- The 22-word record image (R186). The flags stand from bit 8 up in the order the rule lists them (log 24). -/
def recordImage (r : Record) : List Word :=
  let isEntry := r.kind == .entry
  let ofEntry (w : Word) : Word := if isEntry then w else 0
  [wordOf r.serial,
   field r.kind.code 0 1 ||| field r.line.val 1 2 ||| field r.state.code 4 3 ||| flagBit r.flags.suspect 8 |||
     flagBit r.flags.forced 9 ||| flagBit r.flags.truncated 10 ||| flagBit r.flags.tagOverflow 11 |||
     flagBit r.flags.renamed 12,
   absentMark true r.identity 0 ||| absentMark true r.closedAt 1 ||| absentMark true r.stop 2 |||
     absentMark isEntry r.exitStart 3 ||| absentMark isEntry r.exitEnd 4 ||| absentMark isEntry r.elongation 5 |||
     absentMark isEntry r.source 6,
   r.identity.getD 0] ++
  words48 r.openedAt.toNat ++ words48 (r.closedAt.getD 0).toNat ++
  words48 r.start ++ words48 (r.stop.getD 0) ++
  [ofEntry (low32 (r.exitStart.getD 0)), ofEntry (high16 (r.exitStart.getD 0)),
   ofEntry (low32 (r.exitEnd.getD 0)), ofEntry (high16 (r.exitEnd.getD 0)),
   ofEntry (wordOf (r.elongation.getD 0)), ofEntry (wordOf (r.source.getD 0)),
   wordOf r.tally.sealedBins, wordOf r.tally.verdictBins, wordOf r.tally.gapBins,
   field r.station.val 0 3 ||| field r.segments.length 8 5 ||| field r.tags.length 16 4]

/-- An offset or position in mm as one word; the spec states no word for one of 2^32 mm or more: a free value (log 2). -/
def offsetWord (n : Nat) : Word := if n ≤ max32 then wordOf n else Config.wideOffset n

/-- The next-sequence counter as one word; the spec states no word for it once 4,294,967,295 numbers have been given: a
free value (R163, log 2). -/
def sequenceWord (n : Nat) : Word := if n ≤ max32 then wordOf n else Config.wideOffset n

/-- A segment as three words: offsets from the span start, then the entry serial (R74, R186). -/
def segmentWords (spanStart : Nat) (g : Segment) : List Word :=
  [offsetWord (g.exitStart - spanStart), offsetWord (g.exitEnd - spanStart), wordOf g.serial]

/-- A tag as two words (R186). -/
def tagWords (t : Tag) : List Word := [wordOf t.slot.val, offsetWord t.pos]

/-- The 128 words of a journal entry; words it does not fill are 0 (R165, R186). -/
def journalWords (e : JournalEntry) : List Word :=
  let head := wordOf e.seq :: recordImage e.record ++ words48 e.settledAt.toNat
  let segs := (e.record.segments.map (segmentWords e.record.start)).flatten
  let tags := (e.record.tags.map tagWords).flatten
  let segPlaces := (segs ++ List.replicate 48 0).take 48
  let tagPlaces := (tags ++ List.replicate 16 0).take 16
  head ++ segPlaces ++ tagPlaces ++ List.replicate 39 0

/-- Word 2 of a Trace ancestor and the third word of a Descend child (R186). -/
def kinWord (kind : Kind) (line : Nat) (unknown lost noIdentity : Bool) : Word :=
  field kind.code 0 1 ||| field line 1 2 ||| flagBit unknown 3 ||| flagBit lost 4 ||| flagBit noIdentity 5

/-- Word 1 of a Trace and of a Descend answer (R186). -/
def countWord (n : Nat) (truncated : Bool) : Word := field n 0 8 ||| flagBit truncated 31

/-- The code of an anomaly (R187). -/
def AnomalyCode.code : AnomalyCode → Nat
  | .counterLimit => 1
  | .holeMismatch => 2
  | .spuriousSeamIn => 3
  | .spuriousSeamOut => 4
  | .spuriousShear => 5
  | .noAnnouncement => 6
  | .seamQueueFull => 7
  | .orphanSeam => 8
  | .throughOverflow => 9
  | .elongationImplausible => 10
  | .segmentOverflow => 11
  | .lateParent => 12
  | .unplacedTag => 13
  | .forcedSettle => 14
  | .journalBacklogFull => 15
  | .serverStateIllegal => 16

end Sys2Proof.Machine
end

