-- ==== Sys2Proof/Machine/Ops.lean ====
section
/-! DEFINITION. The named operations over the state: line units, stations, the coil table with allocation, reclaim and
settling, the tallies, and the bookkeeping queue's append. -/

namespace Sys2Proof.Machine

/-! ## Line units -/

/-- What a line's mirror group shows of its line unit, beside the counters (R7, R27, R55). -/
structure LineContent where
  state : LineState
  matcher : Nat
  holes : Nat
  seams : Nat
  oldest : Option (Nat × Time)
  entryLen : Nat
  exitLen : Nat
  entryHead : Option Word
  exitHead : Option Word
  throughLen : Nat
  lastSeamIn : Option Nat
  lastExitSeam : Option Nat
  lastShear : Option Nat
  deriving DecidableEq, Repr

/-- The code of a matcher state (R187). -/
def Matcher.code : Matcher → Nat
  | .idle => 0
  | .collecting _ _ => 1
  | .recovery _ => 2

/-- The number of holes a matcher has collected (R27). -/
def Matcher.holes : Matcher → Nat
  | .idle => 0
  | .collecting ps _ => ps.length
  | .recovery _ => 0

/-- The content of a line's mirror group that its line unit holds. -/
def Line.content (ln : Line) : LineContent :=
  { state := ln.state, matcher := ln.matcher.code, holes := ln.matcher.holes, seams := ln.seamQueue.length
    oldest := ln.seamQueue.head?.map fun e => (e.pos, e.time)
    entryLen := ln.entryQueue.length, exitLen := ln.exitQueue.length
    entryHead := ln.entryQueue.head?, exitHead := ln.exitQueue.head?
    throughLen := ln.through.length
    lastSeamIn := ln.lastSeamIn, lastExitSeam := ln.lastExitSeam, lastShear := ln.lastShear }

/-- A line unit. -/
def State.line (s : State) (l : LineId) : Line := s.track.lines[l]

/-- Replace a line unit; a change of what its mirror group shows marks the group dirty (R7, R27, R55). -/
def State.setLine (s : State) (l : LineId) (ln : Line) : State :=
  { s with track.lines := s.track.lines.set l.val ln l.isLt }.markIf ((s.line l).content != ln.content) (lineGroup l)

/-- One side of a line unit. -/
def Line.side (ln : Line) : Side → SideUnit
  | .entry => ln.entry
  | .exit => ln.exit

/-- Replace one side of a line unit. -/
def Line.setSide (ln : Line) (sd : Side) (u : SideUnit) : Line :=
  match sd with
  | .entry => { ln with entry := u }
  | .exit => { ln with exit := u }

/-- A marker input of a line unit. -/
def Line.marker (ln : Line) : MarkerInput → Marker
  | .seamIn => ln.seamIn
  | .hole => ln.hole
  | .shear => ln.shear

/-- Replace a marker input of a line unit. -/
def Line.setMarker (ln : Line) (i : MarkerInput) (m : Marker) : Line :=
  match i with
  | .seamIn => { ln with seamIn := m }
  | .hole => { ln with hole := m }
  | .shear => { ln with shear := m }

/-- The side whose counter a marker input is referenced to (2.1 of 02). -/
def inputSide : MarkerInput → Side
  | .seamIn => .entry
  | .hole => .exit
  | .shear => .exit

/-- A line unit with another seam queue. -/
def Line.withSeams (ln : Line) (q : List SeamEntry) : Line := { ln with seamQueue := q }
/-- A line unit with another through list. -/
def Line.withThrough (ln : Line) (ns : List Nat) : Line := { ln with through := ns }
/-- A line unit with its last SEAM_IN at p. -/
def Line.withLastSeamIn (ln : Line) (p : Nat) : Line := { ln with lastSeamIn := some p }
/-- A line unit with its last exit seam at p. -/
def Line.withLastExitSeam (ln : Line) (p : Nat) : Line := { ln with lastExitSeam := some p }
/-- A line unit with its last SHEAR at p. -/
def Line.withLastShear (ln : Line) (p : Nat) : Line := { ln with lastShear := some p }
/-- A line unit with its matcher in another state. -/
def Line.withMatcher (ln : Line) (m : Matcher) : Line := { ln with matcher := m }

/-- Replace a line's seam queue. -/
def State.setSeams (s : State) (l : LineId) (q : List SeamEntry) : State := s.setLine l ((s.line l).withSeams q)
/-- Replace a line's through list. -/
def State.setThrough (s : State) (l : LineId) (ns : List Nat) : State := s.setLine l ((s.line l).withThrough ns)
/-- Replace a line's matcher. -/
def State.setMatcher (s : State) (l : LineId) (m : Matcher) : State := s.setLine l ((s.line l).withMatcher m)
/-- The last SEAM_IN of a line stands at p. -/
def State.setLastSeamIn (s : State) (l : LineId) (p : Nat) : State := s.setLine l ((s.line l).withLastSeamIn p)
/-- The last exit seam of a line stands at p. -/
def State.setLastExitSeam (s : State) (l : LineId) (p : Nat) : State := s.setLine l ((s.line l).withLastExitSeam p)
/-- The last SHEAR of a line stands at p. -/
def State.setLastShear (s : State) (l : LineId) (p : Nat) : State := s.setLine l ((s.line l).withLastShear p)

/-- The announcement queue of a record kind (R37). -/
def Line.queue (ln : Line) : Kind → List Word
  | .entry => ln.entryQueue
  | .exit => ln.exitQueue

/-- Replace the announcement queue of a record kind. -/
def Line.setQueue (ln : Line) (k : Kind) (q : List Word) : Line :=
  match k with
  | .entry => { ln with entryQueue := q }
  | .exit => { ln with exitQueue := q }

/-- Replace an announcement queue; each change of an entry queue judges ANNOUNCE_EMPTY (R36, R169). -/
def State.setQueue (s : State) (l : LineId) (k : Kind) (q : List Word) : State :=
  let s1 := s.setLine l ((s.line l).setQueue k q)
  match k with
  | .entry => s1.judgeAnnounce
  | .exit => s1

/-! ## Stations -/

/-- The definition a station works with; an undefined station works with none of its values (they are not read). -/
def Station.d (st : Station) : StationDef :=
  st.defn.getD { ringBase := 0, slotCount := 512, binLength := 10, tag := 0, settle := 0, channels := 0
                 offsets := .replicate 12 0 }

/-- What marks a station's mirror group dirty when it changes: state, incarnation, S, H, table population, sealing
paused, discarded-word count (R80). -/
structure StationContent where
  state : Nat
  incarnation : Word
  sealedBin : Int
  highest : Int
  openBins : Nat
  paused : Bool
  discarded : Nat
  deriving DecidableEq, Repr

/-- The content of a station's mirror group (R80). -/
def Station.content (st : Station) : StationContent :=
  match st.state with
  | .off => ⟨0, st.incarnation, 0, 0, 0, false, st.discarded⟩
  | .preparing _ => ⟨1, st.incarnation, 0, 0, 0, false, st.discarded⟩
  | .live d => ⟨2, st.incarnation, d.sealedBin, d.highest, d.bins.length, d.paused, st.discarded⟩

/-- A station. -/
def State.station (s : State) (i : Fin 8) : Station := s.path.stations[i]

/-- Replace a station; a change of its content marks its group dirty (R80). -/
def State.setStation (s : State) (i : Fin 8) (st : Station) : State :=
  { s with path.stations := s.path.stations.set i.val st i.isLt }.markIf ((s.station i).content != st.content)
    (stationGroup i)

/-- What a station holds while LIVE. -/
def Station.live? (st : Station) : Option LiveData :=
  match st.state with
  | .live d => some d
  | _ => none

/-- The line of a station (5 of 05). -/
def stationLine (i : Fin 8) : LineId := ⟨i.val / 2, by omega⟩

/-- The side of a station. -/
def stationSide (i : Fin 8) : Side := if i.val % 2 = 0 then .entry else .exit

/-- The record kind whose tallies a station fills (R97). -/
def stationKind (i : Fin 8) : Kind := if i.val % 2 = 0 then .entry else .exit

/-- Station number 2 × line + side. -/
def stationOf (l : LineId) (sd : Side) : Fin 8 :=
  match sd with
  | .entry => ⟨2 * l.val, by omega⟩
  | .exit => ⟨2 * l.val + 1, by omega⟩

/-- The reference position R of a station: its line's counter as it stands (R80). -/
def State.reference (s : State) (i : Fin 8) : Nat := ((s.line (stationLine i)).side (stationSide i)).counter

/-- The sealed position of a LIVE station: (S + 1) × bin length, 0 while S is −1 (R68). -/
def sealedPosition (st : Station) (d : LiveData) : Nat := (d.sealedBin + 1).toNat * st.d.binLength

/-! ## Coil records -/

/-- The present record with a serial (R64). -/
def CoilTable.find (t : CoilTable) (n : Nat) : Option Record :=
  (t.places.find? fun e => e.2.serial == n).map (·.2)

/-- The records of the table in place order. -/
def CoilTable.records (t : CoilTable) : List Record := t.places.map (·.2)

/-- The present record with a serial. -/
def State.find (s : State) (n : Nat) : Option Record := s.track.table.find n

/-- Change the record with a serial, in its place. -/
def State.modify (s : State) (n : Nat) (f : Record → Record) : State :=
  { s with track.table.places := s.track.table.places.map fun e => if e.2.serial == n then (e.1, f e.2) else e }

/-- The present record of a line, kind and state; for LOADING and WINDING there is at most one (R41, R46). -/
def State.findOpen (s : State) (l : LineId) (st : RecordState) : Option Record :=
  s.track.table.records.find? fun r => decide (r.line = l) && r.state == st

/-- The record with the lowest serial among those a test admits (R61). -/
def lowestSerial (p : Record → Bool) : List Record → Option Record
  | [] => none
  | r :: rest =>
    match lowestSerial p rest with
    | none => if p r then some r else none
    | some m => if p r && decide (r.serial < m.serial) then some r else some m

/-- The record with the greatest serial among those a test admits (R97). -/
def greatestSerial (p : Record → Bool) : List Record → Option Record
  | [] => none
  | r :: rest =>
    match greatestSerial p rest with
    | none => if p r then some r else none
    | some m => if p r && decide (m.serial < r.serial) then some r else some m

/-- A span contains a position: its start is at most the position and its end absent or greater (R97). -/
def Record.spans (r : Record) (pos : Nat) : Bool :=
  decide (r.start ≤ pos) && (match r.stop with | none => true | some e => decide (pos < e))

/-- An ENTRY record's entry end is given: it is CLOSED (R41). -/
def Record.closeAt (r : Record) (p : Nat) (t : Time) : Record :=
  { r with stop := some p, closedAt := some t, state := .closed }
/-- An ENTRY record's exit start is given (R44). -/
def Record.startExit (r : Record) (p : Nat) : Record := { r with exitStart := some p }
/-- An ENTRY record's exit end is given, with its elongation: it is THROUGH (R44, R45). -/
def Record.endExit (r : Record) (p e : Nat) : Record :=
  { r with exitEnd := some p, state := .through, elongation := some e }
/-- An EXIT record is CUT at p with its segments (R46); a cut with an anomaly of R48 is TRUNCATED. -/
def Record.cutAt (r : Record) (p : Nat) (t : Time) (segments : List Segment) (truncated : Bool) : Record :=
  { r with
    stop := some p, closedAt := some t, state := .cut, segments := segments
    flags.truncated := r.flags.truncated || truncated }
/-- A record's source is set (R66). -/
def Record.withSource (r : Record) (n : Nat) : Record := { r with source := some n }
/-- A record is SETTLED (R70). -/
def Record.settled (r : Record) : Record := { r with state := .settled }

/-- Set record flags (R59); a flag that is set stays set. -/
def Record.suspect (r : Record) : Record := { r with flags.suspect := true }
/-- Set FORCED (R71). -/
def Record.force (r : Record) : Record := { r with flags.forced := true }

/-! ## Identity map (R65, R66) -/

/-- The serial the identity map holds for a plant number. -/
def State.lookupNumber (s : State) (n : Word) : Option Nat := tableGet n.toNat s.track.table.idMap

/-- Set the identity map entry of a number. -/
def State.mapSet (s : State) (number : Word) (serial : Nat) : State :=
  { s with track.table.idMap := tableSet number.toNat serial s.track.table.idMap }

/-- Write the identity map for a number: a missing or smaller entry is set, a greater one kept (R65). -/
def State.mapWrite (s : State) (number : Word) (serial : Nat) : State :=
  match s.lookupNumber number with
  | none => s.mapSet number serial
  | some held => if held < serial then s.mapSet number serial else s

/-- Does the write of R65 put this serial into the map? -/
def State.mapWrites (s : State) (number : Word) (serial : Nat) : Bool :=
  match s.lookupNumber number with
  | none => true
  | some held => decide (held < serial)

/-! ## Settling (R67 to R71, R163) -/

/-- The next sequence number is consumed (R70); G22 is marked dirty (R163). -/
def State.nextSequence (s : State) : State := { s with track.nextSeq := s.track.nextSeq + 1 }.mark journalGroup

/-- An entry is appended at the tail of the backlog (R163). -/
def State.keepEntry (s : State) (e : JournalEntry) : State := { s with track.backlog := s.track.backlog ++ [e] }

/-- A journal entry joins the backlog, or is dropped with JOURNAL_BACKLOG_FULL; the sequence number is consumed either
way (R70, R163). -/
def State.joinBacklog (s : State) (r : Record) : State :=
  if s.track.backlog.length < Config.backlogCap then
    (s.nextSequence.keepEntry
      { seq := s.track.nextSeq, settledAt := s.track.clock, record := r }).judgeBacklog
  else s.nextSequence.anomaly .journalBacklogFull (some r.line) none (some r.serial)

/-- Settle the record with a serial (R70): state SETTLED, journal entry, RECORD_SETTLED, G0 dirty. The line's group,
which shows the LOADING and WINDING serials, is marked when one of those settles (R55). -/
def State.settle (s : State) (n : Nat) : State :=
  match s.find n with
  | none => s
  | some r =>
    ((((s.modify n Record.settled).joinBacklog r.settled).raiseTrack .recordSettled).mark 0).markIf
      (r.state == .loading || r.state == .winding) (lineGroup r.line)

/-- Settle by force: FORCED first, then the settling (R71). -/
def State.forceSettle (s : State) (n : Nat) : State := (s.modify n Record.force).settle n

/-- The settle condition (R68). -/
def State.meetsSettle (s : State) (r : Record) : Bool :=
  (r.state == .through || r.state == .cut) &&
  match (s.station r.station).live? with
  | none => true
  | some d =>
    match r.stop with
    | none => false
    | some e => decide (e ≤ sealedPosition (s.station r.station) d)

/-- The settle check of one record (R69, first moment). -/
def State.settleCheck (s : State) (n : Nat) : State :=
  match s.find n with
  | none => s
  | some r => if s.meetsSettle r then s.settle n else s

/-- The settle check of every record whose tally station this is, in increasing serial order (R69). -/
def State.settleStation (s : State) (i : Fin 8) : State :=
  (sortAsc ((s.track.table.records.filter fun r =>
      decide (r.station = i) && (r.state == .through || r.state == .cut)).map (·.serial))).foldl
    (fun acc n => acc.settleCheck n) s

/-- A tally with additions made (R67). -/
def Tally.add (t : Tally) (sealedBins verdictBins gapBins : Nat) : Tally :=
  { sealedBins := satAdd t.sealedBins sealedBins
    verdictBins := satAdd t.verdictBins verdictBins
    gapBins := satAdd t.gapBins gapBins }

/-- Add to a record's tally; a SETTLED record takes no addition (R67). -/
def Record.addTally (r : Record) (sealedBins verdictBins gapBins : Nat) : Record :=
  if r.state = .settled then r else { r with tally := r.tally.add sealedBins verdictBins gapBins }

/-- Add to the tally of the record with a serial; a lost serial takes no addition (R67). -/
def State.tally (s : State) (n sealedBins verdictBins gapBins : Nat) : State :=
  s.modify n fun r => r.addTally sealedBins verdictBins gapBins

/-! ## Allocation and reclaim (R61, R62) -/

/-- A table without the record of a serial and without the identity map entry that names it (R62). -/
def CoilTable.without (t : CoilTable) (n : Nat) : CoilTable :=
  { t with places := t.places.filter fun e => e.2.serial != n, idMap := t.idMap.filter fun e => e.2 != n }

/-- Replace the coil table. -/
def State.setTable (s : State) (t : CoilTable) : State := { s with track.table := t }

/-- Reclaim a record: its place becomes free, the identity map entry naming it is removed, G0 is marked (R62). -/
def State.reclaim (s : State) (n : Nat) : State := (s.setTable (s.track.table.without n)).mark 0

/-- Make a place free when none is: reclaim the SETTLED record of lowest serial, or force-settle, with FORCED_SETTLE, and
reclaim the record of lowest serial that is neither LOADING nor WINDING (R61 ways 2 and 3). -/
def State.makeRoom (s : State) : State :=
  if lowestFree 0 s.track.table.places < Config.places then s
  else
    match lowestSerial (fun r => r.state == .settled) s.track.table.records with
    | some r => s.reclaim r.serial
    | none =>
      match lowestSerial (fun r => r.state != .loading && r.state != .winding) s.track.table.records with
      | some r =>
        ((s.forceSettle r.serial).anomaly .forcedSettle (some r.line) (some r.start) (some r.serial)).reclaim r.serial
      | none => s

/-- Can an allocation be made: the counter has a serial to give (R56) and a place is free or can be made free. The second
holds in every state the part can reach, where at most 8 records are LOADING or WINDING (R61). -/
def State.canAllocate (s : State) : Bool :=
  s.track.table.nextSerial != 0 &&
    (decide (lowestFree 0 s.track.table.places < Config.places) ||
      s.track.table.records.any fun r => r.state != .loading && r.state != .winding)

/-- The next-serial counter after giving a serial: past 4,294,967,295 it reads 0 (R56). -/
def serialAfter (n : Nat) : Nat := if n = max32 then 0 else n + 1

/-- A table with a new record in its lowest free place; the record takes the next serial and the counter rises (R56). -/
def CoilTable.adding (t : CoilTable) (mk : Nat → Record) : CoilTable :=
  { t with places := tableSet (lowestFree 0 t.places) (mk t.nextSerial) t.places, nextSerial := serialAfter t.nextSerial }

/-- Allocate a record (R56, R61): the place is found, the record takes the next serial, the counter rises, G0 is marked.
Asked only while the counter has a serial to give. -/
def State.allocate (s : State) (mk : Nat → Record) : State :=
  (s.makeRoom.setTable (s.makeRoom.track.table.adding mk)).mark 0

/-! ## Bookkeeping queue (R142, R143) -/

/-- The bookkeeping queue's free places. -/
def State.bookkeepingFree (s : State) : Nat := Config.bookkeepingCap - s.path.bookkeeping.length

/-- A free place is there for an offer: the queue is not full and no producer waits (R143). -/
def State.canAppend (s : State) : Bool :=
  decide (s.path.bookkeeping.length < Config.bookkeepingCap) && s.path.waitList.isEmpty

/-- Append a burst at the tail of the bookkeeping queue (R142). -/
def State.append (s : State) (b : WriteBurst) : State :=
  { s with
    path.bookkeeping := s.path.bookkeeping ++ [{ id := s.path.nextId, burst := b }]
    path.nextId := s.path.nextId + 1 }

/-- Join the tail of the wait list (R143). -/
def State.wait (s : State) (w : Waiter) : State :=
  { s with path.waitList := s.path.waitList ++ [w] }

/-- The base of the reserved area as sampled (R136). -/
def State.base (s : State) : Nat := areaBase s.path.areaSel

/-! ## What a command answers -/

/-- The outcome of a step, with the part's own types. -/
abbrev Result := Host.Outcome State Fault Refusal

/-- An event reaches the part while its tracking well is powered; without supply the part holds no state and nothing
happens (R177). -/
def powered (f : State → State) (s : State) : Result := .next (if s.powered then f s else s)

end Sys2Proof.Machine
end

