-- ==== Sys2Proof/Machine/Verdicts.lean ====
section
/-! DEFINITION. Bin verdicts: reading, checking and evaluating a verdict chain (chapter 6). -/

namespace Sys2Proof.Machine

/-! ## Evaluation at seal (R108, R109) -/

/-- The value a bin holds for a channel, if present (R81). -/
def OpenBin.channel (b : OpenBin) (c : Nat) : Option Word := (b.values[c]?).getD none

/-- The presence set of a bin as a number with bit c for channel c (R185). -/
def OpenBin.presence (b : OpenBin) : Nat :=
  ([0, 1, 2, 3, 4, 5, 6, 7, 8, 9, 10, 11].filter fun c => (b.channel c).isSome).foldl (fun n c => n + 2 ^ c) 0

/-- A condition on a bin: a comparison on an absent channel is false (R108). -/
def evalTest (t : Test) (v : Option Word) (threshold : Word) : Bool :=
  match v with
  | none => false
  | some w =>
    match t with
    | .gt => decide (threshold.toInt < w.toInt)
    | .ge => decide (threshold.toInt ≤ w.toInt)
    | .lt => decide (w.toInt < threshold.toInt)
    | .le => decide (w.toInt ≤ threshold.toInt)
    | .present => true

/-- The effect of a condition term on the result stack, top first (R109). -/
def CondOp.apply (op : CondOp) (c : Bool) (stack : List Bool) : List Bool :=
  match op, stack with
  | .load, st => c :: st
  | .loadNot, st => (!c) :: st
  | .and, t :: st => (t && c) :: st
  | .andNot, t :: st => (t && !c) :: st
  | .or, t :: st => (t || c) :: st
  | .orNot, t :: st => (t || !c) :: st
  | _, [] => []

/-- The effect of a block term on the result stack, top first (R109). -/
def BlockOp.apply (op : BlockOp) (stack : List Bool) : List Bool :=
  match op, stack with
  | .andBlock, a :: b :: st => (b && a) :: st
  | .orBlock, a :: b :: st => (b || a) :: st
  | _, st => st

/-- One term on the result stack. -/
def Term.apply (t : Term) (b : OpenBin) (stack : List Bool) : List Bool :=
  match t with
  | .cond op test ch thr => op.apply (evalTest test (b.channel ch) thr) stack
  | .block op => op.apply stack

/-- The verdict of a bin: the one result left, false for an empty chain (R103, R109). -/
def evalChain (chain : List Term) (b : OpenBin) : Bool :=
  ((chain.foldl (fun st t => t.apply b st) []).head?).getD false

/-! ## Reading and checking a chain (R104 to R106) -/

/-- The threshold a condition holds: word 3, which a PRESENT test does not read (R104). That test uses no threshold (R103);
that it holds 0 is the model's choice (log 23). -/
def heldThreshold (t : Test) (thr : Word) : Word :=
  match t with
  | .present => 0
  | _ => thr

/-- The term of four parameter words, if its read words lie in their ranges (R104, R105 step 3). -/
def readTerm (channels : Nat) (op test ch thr : Word) : Option Term :=
  let cond (o : CondOp) : Option Term :=
    let t : Option Test :=
      match test.toNat with
      | 0 => some .gt
      | 1 => some .ge
      | 2 => some .lt
      | 3 => some .le
      | 4 => some .present
      | _ => none
    match t with
    | none => none
    | some t => if ch.toNat < channels then some (.cond o t ch.toNat (heldThreshold t thr)) else none
  match op.toNat with
  | 0 => cond .load
  | 1 => cond .loadNot
  | 2 => cond .and
  | 3 => cond .andNot
  | 4 => cond .or
  | 5 => cond .orNot
  | 6 => some (.block .andBlock)
  | 7 => some (.block .orBlock)
  | _ => none

/-- The terms from number `k` on, `n` of them, from the shadow (R104); none when one is out of range. -/
def readTerms (channels : Nat) (w : Nat → Word) : Nat → Nat → Option (List Term)
  | _, 0 => some []
  | k, n + 1 =>
    match readTerm channels (w (2 + 4 * k)) (w (3 + 4 * k)) (w (4 + 4 * k)) (w (5 + 4 * k)) with
    | none => none
    | some t => (readTerms channels w (k + 1) n).map (t :: ·)

/-- The structural check from term `k` on at a stack depth: the term at which it fails and the kind of failure, 2 for
overflow, 3 for underflow, 4 at the end (R105, R106). -/
def checkFrom (k depth : Nat) : List Term → Option (Nat × Nat)
  | [] => if depth = 1 then none else some (k, 4)
  | .cond op _ _ _ :: rest =>
    match op with
    | .load | .loadNot => if 4 < depth + 1 then some (k, 2) else checkFrom (k + 1) (depth + 1) rest
    | .and | .andNot | .or | .orNot => if depth = 0 then some (k, 3) else checkFrom (k + 1) depth rest
  | .block _ :: rest => if depth < 2 then some (k, 3) else checkFrom (k + 1) (depth - 1) rest

/-- The structural check of a chain: none when it passes (R106). -/
def chainCheck (chain : List Term) : Option (Nat × Nat) :=
  match chain with
  | [] => none
  | .cond .load _ _ _ :: _ => checkFrom 0 0 chain
  | .cond .loadNot _ _ _ :: _ => checkFrom 0 0 chain
  | _ => some (0, 1)

end Sys2Proof.Machine
end

