-- ==== Sys2Proof/Machine/Sealing.lean ====
section
/-! DEFINITION. Sealing of a station's bins: owners, present and missing steps, pauses (R96 to R100), entering LIVE (R87). -/

namespace Sys2Proof.Machine

/-- The owner of a strip position at a station: the record of greatest serial of its line and kind whose span contains
it (R97). -/
def State.owner (s : State) (i : Fin 8) (pos : Nat) : Option Record :=
  greatestSerial (fun r => decide (r.line = stationLine i) && r.kind == stationKind i && r.spans pos)
    s.track.table.records

/-- The number of bins from `lo` to the one below `past` whose first position lies in a record's span (R99). -/
def Record.binsIn (r : Record) (binLength lo past : Nat) : Nat :=
  let first := max lo ((r.start + binLength - 1) / binLength)
  let last := match r.stop with
    | none => past
    | some e => min past ((e + binLength - 1) / binLength)
  last - first

/-- Tally the run of missing bins from `lo` to the one below `past`: each owner's bins of the run are added to its sealed
and its gap count (R99). The additions reach different records, so their order leaves no trace. -/
def State.tallyRun (s : State) (i : Fin 8) (binLength lo past : Nat) : State :=
  ((s.track.table.records.filter fun r => decide (r.line = stationLine i) && r.kind == stationKind i).map
      fun r => (r.serial, r.binsIn binLength lo past)).foldl
    (fun acc e => if e.2 = 0 then acc else acc.tally e.1 e.2 0 e.2) s

/-- Replace what a LIVE station holds. -/
def State.setLive (s : State) (i : Fin 8) (d : LiveData) : State :=
  s.setStation i { s.station i with state := .live d }

/-- A missing step: the bins above S up to `upTo` are sealed with nothing written (R99), S moves, the tallies are
counted, then the settle check is made (R96). Nothing happens when `upTo` is not above S. -/
def State.missingStep (s : State) (i : Fin 8) (upTo : Int) : State :=
  match (s.station i).live? with
  | none => s
  | some d =>
    if upTo ≤ d.sealedBin then s
    else
      ((s.setLive i { d with sealedBin := upTo }).tallyRun i (s.station i).d.binLength
        (d.sealedBin + 1).toNat (upTo + 1).toNat).settleStation i

/-- A bin's owner, where it has one, is given one sealed bin, and one verdict bin when the verdict is true (R98). -/
def State.tallyOwner (s : State) (owner : Option Record) (verdict : Bool) : State :=
  match owner with
  | none => s
  | some r => s.tally r.serial 1 (if verdict then 1 else 0) 0

/-- The seal header of bin b of a station (R98). -/
def Station.sealHeader (st : Station) (owner : Option Record) (b : Nat) (bin : OpenBin) (verdict forced : Bool) :
    WriteBurst :=
  fullBurst (st.d.ringBase + 64 * (b % st.d.slotCount))
    (ringHeader st.d.tag ((owner.map (·.serial)).getD 0) b bin.presence bin.fill verdict forced)

/-- What a LIVE station holds once its lowest open bin b is sealed (R98). -/
def LiveData.sealed (d : LiveData) (b : Nat) : LiveData := { d with sealedBin := (b : Int), bins := d.bins.tail }

/-- A present step: the lowest open bin is judged, its header queued, it leaves the table, S becomes its number, the
owner's tally is counted, then the settle check is made (R98, R96). The caller has found a place for the header. -/
def State.presentStep (s : State) (i : Fin 8) (forced : Bool) : State :=
  match (s.station i).live? with
  | none => s
  | some d =>
    match d.bins with
    | [] => s
    | (b, bin) :: _ =>
      let verdict := evalChain (s.station i).chain bin
      let owner := s.owner i (b * (s.station i).d.binLength)
      ((((s.append ((s.station i).sealHeader owner b bin verdict forced)).setLive i (d.sealed b)).tallyOwner owner
        verdict).settleStation i)

/-- A station pauses its sealing and joins the wait list without a burst (R100). -/
def State.pauseSealing (s : State) (i : Fin 8) : State :=
  match (s.station i).live? with
  | none => s
  | some d => (s.setLive i { d with paused := true }).wait (.sealing i)

/-- Seal a station's bins from S + 1 to `limit`: its open bins in order, each after the run of missing bins below it,
then the run up to the limit (R96). A present step that finds no place pauses the sealing (R100). -/
def State.sealBins (i : Fin 8) (limit : Int) (forced : Bool) : List (Nat × OpenBin) → State → State
  | [], s => s.missingStep i limit
  | (b, _) :: rest, s =>
    if (b : Int) ≤ limit then
      let s1 := s.missingStep i ((b : Int) - 1)
      if s1.canAppend then State.sealBins i limit forced rest (s1.presentStep i forced)
      else s1.pauseSealing i
    else s.missingStep i limit

/-- The highest due bin of a station, or −1 (R96): bin b is due when (b + 1) × bin length + settle distance is at most R. -/
def highestDue (d : StationDef) (reference : Nat) : Int :=
  if reference < d.settle then -1 else ((reference - d.settle) / d.binLength : Nat) - 1

/-- A station's sealing starts: carried out whole while it is LIVE, the path OPEN and the sealing not paused (R96). -/
def State.seal (s : State) (i : Fin 8) : State :=
  match (s.station i).live? with
  | none => s
  | some d =>
    if s.path.state = .opened ∧ d.paused = false then
      State.sealBins i (highestDue (s.station i).d (s.reference i)) false d.bins s
    else s

/-- A paused station is given a place: its paused present step is taken, and its sealing goes on in OPEN (R100, R143). -/
def State.resumeSealing (s : State) (i : Fin 8) : State :=
  match (s.station i).live? with
  | none => s
  | some d => ((s.setLive i { d with paused := false }).presentStep i false).seal i

/-- The sealed bin a station takes on entering LIVE at reference position R (R87). -/
def enteringSealed (d : StationDef) (reference : Nat) : Int := highestDue d reference

/-- A station enters LIVE: R is read once, S and H are set, the open-bin table is empty (R87). -/
def State.enterLive (s : State) (i : Fin 8) : State :=
  let S := enteringSealed (s.station i).d (s.reference i)
  s.setLive i { sealedBin := S, highest := S, bins := [], paused := false }

end Sys2Proof.Machine
end

