-- ==== Sys2Proof/Machine/Seams.lean ====
section
/-! DEFINITION. Seam tracking: plausibility, entry seams, exit seams, cuts and tags (chapter 3). -/

namespace Sys2Proof.Machine

/-- The plausibility test: the last position is absent, or p is at least the last position plus the spacing (R40). -/
def plausible (last : Option Nat) (spacing p : Nat) : Bool :=
  match last with
  | none => true
  | some q => decide (q + spacing ≤ p)

/-! ## Opening a record (R37, R41 step 2, R46 step 2) -/

/-- A record as R41 and R46 open it (R57). -/
def newRecord (kind : Kind) (l : LineId) (start : Nat) (t : Time) (identity : Option Word) (n : Nat) : Record :=
  { serial := n, kind := kind, line := l, identity := identity
    state := match kind with | .entry => .loading | .exit => .winding
    flags := ⟨false, false, false, false, false⟩
    openedAt := t, closedAt := none, start := start, stop := none, exitStart := none, exitEnd := none
    elongation := none, source := none, segments := [], tags := [], tally := ⟨0, 0, 0⟩ }

/-- A record that has been allocated leaves the announcement queue `q` without its head, or enters NO_ANNOUNCEMENT for
an empty one (R37). -/
def State.announced (s : State) (kind : Kind) (l : LineId) (q : List Word) (start n : Nat) : State :=
  match q with
  | [] => s.anomaly .noAnnouncement (some l) (some start) (some n)
  | _ :: rest => s.setQueue l kind rest

/-- Open a record: it is allocated, takes its identity from the head of its kind's queue, or enters NO_ANNOUNCEMENT
(R37). Once the serials are used up nothing is opened and the serial is taken as 0 (R56). -/
def State.openRecord (s : State) (kind : Kind) (l : LineId) (start : Nat) (t : Time) : State × Nat :=
  if s.canAllocate then
    (((s.allocate (newRecord kind l start t ((s.line l).queue kind).head?)).mark (lineGroup l)).announced kind l
      ((s.line l).queue kind) start s.track.table.nextSerial, s.track.table.nextSerial)
  else (s, 0)

/-- Source lookup: an ENTRY record whose identity is present takes the serial its map entry names (R66). -/
def State.sourceLookup (s : State) (n : Nat) : State :=
  match s.find n with
  | none => s
  | some r =>
    match r.identity with
    | none => s
    | some number =>
      match s.lookupNumber number with
      | none => s
      | some held => s.modify n fun x => x.withSource held

/-! ## The entry seam (R41, R42) -/

/-- Flag a record SUSPECT if it is present and not SETTLED (R42, R50). -/
def State.suspectOpen (s : State) (n : Nat) : State :=
  s.modify n fun r => if r.state = .settled then r else r.suspect

/-- Flag the records of a dropped seam queue entry SUSPECT (R42). -/
def State.suspectEntry (s : State) (e : SeamEntry) : State :=
  match e.tailed with
  | none => s.suspectOpen e.headed
  | some n => (s.suspectOpen e.headed).suspectOpen n

/-- Append a seam queue entry; a full queue first loses its oldest entry, with SEAM_QUEUE_FULL (R42). -/
def State.pushSeam (s : State) (l : LineId) (e : SeamEntry) : State :=
  match (s.line l).seamQueue with
  | [] => s.setSeams l [e]
  | old :: rest =>
    if (old :: rest).length < Config.seamCap then s.setSeams l (old :: rest ++ [e])
    else
      ((s.setSeams l (rest ++ [e])).anomaly .seamQueueFull (some l) (some old.pos) (some old.headed)).suspectEntry old

/-- The LOADING record, where there is one, is CLOSED at p (R41). -/
def State.closeLoading (s : State) (closing : Option Record) (p : Nat) (t : Time) : State :=
  match closing with
  | none => s
  | some r => s.modify r.serial fun x => x.closeAt p t

/-- The serial of a record, 0 for none. -/
def serialOr0 (o : Option Record) : Nat := (o.map (·.serial)).getD 0

/-- An ENTRY record with serial n has been opened at p: its source is looked up, its seam joins the queue, the last
SEAM_IN stands at p (R41). -/
def State.enterSeam (s : State) (l : LineId) (p : Nat) (t : Time) (n : Nat) (closing : Option Record) : State :=
  (((s.sourceLookup n).pushSeam l
    { pos := p, time := t, headed := n, tailed := closing.map (·.serial) }).setLastSeamIn l p).markIf
      closing.isSome (lineGroup l)

/-- An accepted SEAM_IN that passes R40 (R41): the serials of the record opened and of the record closed, 0 for none. -/
def State.acceptSeamIn (s : State) (l : LineId) (p : Nat) (t : Time) : State × Nat × Nat :=
  let closing := s.findOpen l .loading
  let opened := (s.closeLoading closing p t).openRecord .entry l p t
  (opened.1.enterSeam l p t opened.2 closing, opened.2, serialOr0 closing)

/-! ## The exit seam (R43 to R45) -/

/-- The elongation of a record: exit length × 1000 over entry length, rounded down, saturated (R45). -/
def elongationOf (entryLen exitLen : Nat) : Nat := min (exitLen * 1000 / entryLen) max32

/-- The elongation e of a record that became THROUGH at p is checked against the line's window in force (R45). -/
def State.checkElongation (s : State) (l : LineId) (n e p : Nat) : State :=
  if e < (s.line l).elongMin ∨ (s.line l).elongMax < e then
    (s.modify n Record.suspect).anomaly .elongationImplausible (some l) (some p) (some n)
  else s

/-- A record's exit span ends at p: it becomes THROUGH, its elongation is stored and checked against the line's window
in force (R44 step 3, R45), then the settle check is made (R69). -/
def State.endExitSpan (s : State) (l : LineId) (r : Record) (p : Nat) : State :=
  let e := elongationOf (r.stop.getD r.start - r.start) (p - r.exitStart.getD p)
  ((s.modify r.serial fun x => x.endExit p e).checkElongation l r.serial e p).settleCheck r.serial

/-- Step 3 of R44 on the exit-open record, the tail of the through list when its exit end is absent (R43): it is ended at
p; a SETTLED or lost one is only removed from the list (R50). The serial given an exit end, 0 for none. -/
def State.closeExitOpen (s : State) (l : LineId) (p : Nat) : State × Nat :=
  match (s.line l).through.getLast? with
  | none => (s, 0)
  | some n =>
    match s.find n with
    | none => (s.setThrough l (s.line l).through.dropLast, 0)
    | some r =>
      if r.exitEnd.isSome then (s, 0)
      else if r.state = .settled then (s.setThrough l (s.line l).through.dropLast, 0)
      else (s.endExitSpan l r p, n)

/-- Join the through list at the tail; a full list first loses its oldest serial, with THROUGH_OVERFLOW (R43). -/
def State.pushThrough (s : State) (l : LineId) (n p : Nat) : State :=
  match (s.line l).through with
  | [] => s.setThrough l [n]
  | old :: rest =>
    if (old :: rest).length < Config.seamCap then s.setThrough l (old :: rest ++ [n])
    else (s.setThrough l (rest ++ [n])).anomaly .throughOverflow (some l) (some p) (some old)

/-- Step 4 of R44: the headed record gets its exit start and joins the through list, unless it is SETTLED or lost (R50).
The serial given an exit start, 0 for none. -/
def State.startExitSpan (s : State) (l : LineId) (n p : Nat) : State × Nat :=
  match s.find n with
  | none => (s, 0)
  | some r =>
    if r.state = .settled then (s, 0)
    else ((s.modify n fun x => x.startExit p).pushThrough l n p, n)

/-- An exit seam event that passes R40 (R44): the serials given an exit start and an exit end, 0 for none. -/
def State.acceptExitSeam (s : State) (l : LineId) (p : Nat) : State × Nat × Nat :=
  match (s.line l).seamQueue with
  | [] => ((s.anomaly .orphanSeam (some l) (some p) none).setLastExitSeam l p, 0, 0)
  | e :: rest =>
    let closed := (s.setSeams l rest).closeExitOpen l p
    let started := closed.1.startExitSpan l e.headed p
    (started.1.setLastExitSeam l p, started.2, closed.2)

/-! ## The cut (R46 to R48) -/

/-- What building the segments of a cut leaves: the segments, the through list, and the anomalies of the cut, each once,
in the order they first arose. -/
structure Cut where
  segments : List Segment
  keep : List Nat
  codes : List AnomalyCode
  deriving DecidableEq, Repr

/-- Note an anomaly of a cut once (R48). -/
def Cut.note (c : Cut) (code : AnomalyCode) : Cut :=
  if c.codes.contains code then c else { c with codes := c.codes ++ [code] }

/-- X overlaps the cut [s, e): its exit start is less than e and its exit end absent or greater than s (R47). -/
def Record.overlapsCut (x : Record) (lo e : Nat) : Bool :=
  match x.exitStart with
  | none => false
  | some xs => decide (xs < e) && (match x.exitEnd with | none => true | some xe => decide (lo < xe))

/-- X is consumed by a cut at e: its exit end is present and at most e (R47). -/
def Record.consumed (x : Record) (e : Nat) : Bool :=
  match x.exitEnd with
  | none => false
  | some xe => decide (xe ≤ e)

/-- The segment X gives a cut [s, e) (R47). -/
def Record.segmentIn (x : Record) (lo e : Nat) : Segment :=
  { exitStart := max lo (x.exitStart.getD lo)
    exitEnd := match x.exitEnd with | none => e | some xe => min e xe
    serial := x.serial }

/-- One through-list serial visited for the cut of W over [s, e) (R47, R48, R50). -/
def cutVisit (t : CoilTable) (w lo e : Nat) (c : Cut) (n : Nat) : Cut :=
  match t.find n with
  | none => c
  | some x =>
    let c1 :=
      if x.overlapsCut lo e then
        if w < x.serial then c.note .lateParent
        else if c.segments.length < Config.segmentCap then
          { c with segments := c.segments ++ [x.segmentIn lo e] }
        else c.note .segmentOverflow
      else c
    if x.consumed e then c1 else { c1 with keep := c1.keep ++ [n] }

/-- The segments of the cut of W over [s, e), from the through list in order (R47). -/
def buildCut (t : CoilTable) (w lo e : Nat) (through : List Nat) : Cut :=
  through.foldl (cutVisit t w lo e) { segments := [], keep := [], codes := [] }

/-- The anomalies of a cut are entered in their order (R48). -/
def State.cutAnomalies (s : State) (l : LineId) (p n : Nat) (codes : List AnomalyCode) : State :=
  codes.foldl (fun acc code => acc.anomaly code (some l) (some p) (some n)) s

/-- The identity map is written for a cut record's identity, where it has one (R65). -/
def State.mapRecord (s : State) (w : Record) : State :=
  match w.identity with
  | none => s
  | some number => s.mapWrite number w.serial

/-- Step 1 of R46: the WINDING record is cut at p. -/
def State.cutRecord (s : State) (l : LineId) (w : Record) (p : Nat) (t : Time) : State :=
  let c := buildCut s.track.table w.serial w.start p (s.line l).through
  (((((s.modify w.serial fun x => x.cutAt p t c.segments (!c.codes.isEmpty)).setThrough l c.keep).cutAnomalies l p
    w.serial c.codes).mapRecord w).settleCheck w.serial)

/-- The WINDING record, where there is one, is cut at p (R46). -/
def State.cutWinding (s : State) (l : LineId) (winding : Option Record) (p : Nat) (t : Time) : State :=
  match winding with
  | none => s
  | some w => s.cutRecord l w p t

/-- An accepted SHEAR that passes R40 (R46): the serials of the record opened and of the record cut, 0 for none. -/
def State.acceptShear (s : State) (l : LineId) (p : Nat) (t : Time) : State × Nat × Nat :=
  let winding := s.findOpen l .winding
  let opened := (s.cutWinding l winding p t).openRecord .exit l p t
  ((opened.1.setLastShear l p).markIf winding.isSome (lineGroup l), opened.2, serialOr0 winding)

/-! ## Tags (R49) -/

/-- Append a tag; a ninth is dropped and sets TAG_OVERFLOW (R49). -/
def Record.addTag (r : Record) (tag : Tag) : Record :=
  if r.tags.length < Config.tagCap then { r with tags := r.tags ++ [tag] } else { r with flags.tagOverflow := true }

/-- The record a tag at p is placed on: the WINDING record from its start on, else a CUT record whose span holds p (R49). -/
def State.tagTarget (s : State) (l : LineId) (p : Nat) : Option Record :=
  let cut := s.track.table.records.find? fun r => decide (r.line = l) && r.state == .cut && r.spans p
  match s.findOpen l .winding with
  | none => cut
  | some w => if w.start ≤ p then some w else cut

/-- A tag event (R49). -/
def State.tagEvent (s : State) (l : LineId) (p : Nat) (slot : Fin 3) : State :=
  match s.tagTarget l p with
  | none => s.anomaly .unplacedTag (some l) (some p) none
  | some r => s.modify r.serial fun x => x.addTag { slot := slot, pos := p - x.start }

/-! ## Events as they arrive (R40) -/

/-- An accepted SEAM_IN (R40, R41). -/
def State.seamInEvent (s : State) (l : LineId) (p : Nat) (t : Time) : State :=
  if plausible (s.line l).lastSeamIn (s.line l).seamInSpacing p then (s.acceptSeamIn l p t).1
  else s.anomaly .spuriousSeamIn (some l) (some p) none

/-- An exit seam event (R40, R44). -/
def State.exitSeamEvent (s : State) (l : LineId) (p : Nat) : State :=
  if plausible (s.line l).lastExitSeam (s.line l).seamOutSpacing p then (s.acceptExitSeam l p).1
  else s.anomaly .spuriousSeamOut (some l) (some p) none

/-- An accepted SHEAR (R40, R46). -/
def State.shearEvent (s : State) (l : LineId) (p : Nat) (t : Time) : State :=
  if plausible (s.line l).lastShear (s.line l).shearSpacing p then (s.acceptShear l p t).1
  else s.anomaly .spuriousShear (some l) (some p) none

end Sys2Proof.Machine
end

