-- ==== Sys2Proof/Machine/Markers.lean ====
section
/-! DEFINITION. Marker inputs and the hole-code matcher (chapter 2): what a raw transition and a completed debounce
do. -/

namespace Sys2Proof.Machine

/-! ## The hole-code matcher (R27 to R34) -/

/-- A pattern slot of a line. -/
def Line.pattern (ln : Line) (k : Fin 3) : PatternSlot := ln.patterns[k]

/-- The used pattern slots of a line (R24). -/
def Line.usedSlots (ln : Line) : List (Fin 3) := [0, 1, 2].filter fun k => (ln.pattern k).holes != 0

/-- A hole at p starts a sequence, if the line has a used slot (R28). -/
def Line.startSequence (ln : Line) (p : Nat) : Matcher :=
  if ln.usedSlots.isEmpty then .idle else .collecting [p] ln.usedSlots

/-- The exit counter minus the HOLE offset reads e or more (R30, R32). -/
def Line.holeReached (ln : Line) (e : Nat) : Bool := decide ((e : Int) ≤ (ln.exit.counter : Int) - ln.hole.offset)

/-- Where a mismatch at p leaves the matcher (R30). -/
def Line.afterMismatch (ln : Line) (p : Nat) : Matcher :=
  let e := min (p + ln.recoveryLen) maxPos
  if ln.recoveryLen = 0 ∨ ln.holeReached e then .idle else .recovery e

/-- A slot whose spacing `n` lies within the tolerance of d survives (R30). -/
def Line.survives (ln : Line) (n : Nat) (d : Int) (k : Fin 3) : Bool :=
  match (ln.pattern k).spacings[n - 1]? with
  | none => false
  | some sp => decide (d - ln.tolerance ≤ sp) && decide ((sp : Int) ≤ d + ln.tolerance)

/-- A match hands one event to seam tracking, by the slot's class (R34). -/
def State.matchEvent (s : State) (l : LineId) (k : Fin 3) (m : Nat) : State :=
  match ((s.line l).pattern k).cls with
  | .seam => s.exitSeamEvent l m
  | .tag => s.tagEvent l m k

/-- A hole at p, at spacing d within the gap limit, is judged against the alive slots (R30, R31). -/
def State.judgeHole (s : State) (l : LineId) (ps : List Nat) (alive : List (Fin 3)) (p : Nat) (d : Int) : State :=
  let ln := s.line l
  let survivors := alive.filter (ln.survives ps.length d)
  if survivors.isEmpty then
    (s.anomaly .holeMismatch (some l) (some p) none).setMatcher l (ln.afterMismatch p)
  else
    match survivors.find? fun k => (ln.pattern k).holes == ps.length + 1 with
    | none => s.setMatcher l (.collecting (ps ++ [p]) survivors)
    | some k => (s.setMatcher l .idle).matchEvent l k (ps.headD p)

/-- An accepted hole at p reaches the matcher (R28, R29, R32). -/
def State.holeEvent (s : State) (l : LineId) (p : Nat) : State :=
  let ln := s.line l
  match ln.matcher with
  | .idle => s.setMatcher l (ln.startSequence p)
  | .collecting ps alive =>
    let d : Int := (p : Int) - (ps.getLastD p : Nat)
    if (ln.gapLimit : Int) < d then s.setMatcher l (ln.startSequence p) else s.judgeHole l ps alive p d
  | .recovery e => if p < e then s else s.setMatcher l (ln.startSequence p)

/-- A position change of the exit counter reaches the matcher: a reverse one returns it to IDLE, a forward one ends a
RECOVERY whose end is reached (R32, R33). The line holds the new counter. -/
def State.matcherMoved (s : State) (l : LineId) (forward : Bool) : State :=
  let ln := s.line l
  if forward then
    match ln.matcher with
    | .recovery e => if ln.holeReached e then s.setMatcher l .idle else s
    | _ => s
  else s.setMatcher l .idle

/-! ## Marker inputs (R17 to R22) -/

/-- The edge select admits a change to a level (R20). -/
def EdgeSelect.admits (e : EdgeSelect) (level : Bool) : Bool :=
  match e with
  | .off => false
  | .rising => level
  | .falling => !level
  | .both => true

/-- A capture at strip position p is handed to its receiver (R22). -/
def State.capture (s : State) (l : LineId) (i : MarkerInput) (p : Nat) (t : Time) : State :=
  match i with
  | .seamIn => s.seamInEvent l p t
  | .hole => s.holeEvent l p
  | .shear => s.shearEvent l p t

/-- A pending change completes: the settled level moves, and the change is judged and, as an accepted edge, converted
into a capture or discarded outside 0 to 2^48 − 1 (R19 to R22). -/
def State.completeChange (s : State) (l : LineId) (i : MarkerInput) : State :=
  let ln := s.line l
  let m := ln.marker i
  match m.pending with
  | none => s
  | some c =>
    let s1 := s.setLine l (ln.setMarker i { m with settled := c.level, pending := none })
    let p : Int := (c.value : Int) - m.offset
    if c.void = false ∧ m.edge.admits c.level ∧ ln.state = .tracking ∧ 0 ≤ p ∧ p ≤ maxPos then
      s1.capture l i p.toNat c.time
    else s1

/-- A change whose remaining has reached 0 completes (R19). -/
def State.completeDue (s : State) (l : LineId) (i : MarkerInput) : State :=
  match ((s.line l).marker i).pending with
  | none => s
  | some c => if c.remaining = 0 then s.completeChange l i else s

/-- The change a raw transition starts: the level it moves to, the reference counter and the clock as they read, the
debounce time in force, and the void mark of a side that reads reverse (R18). -/
def Line.change (ln : Line) (i : MarkerInput) (clock : Time) : Pending :=
  { level := !(ln.marker i).settled, value := (ln.side (inputSide i)).counter, time := clock
    remaining := (ln.marker i).debounce, void := !(ln.side (inputSide i)).forward }

/-- Write the pending change of a marker input (R17). -/
def State.setPending (s : State) (l : LineId) (i : MarkerInput) (c : Option Pending) : State :=
  s.setLine l ((s.line l).setMarker i { (s.line l).marker i with pending := c })

/-- A raw transition drops the pending change, or starts one, which completes at once if its debounce time is 0 (R18,
R19). -/
def State.rawTransition (s : State) (l : LineId) (i : MarkerInput) : State :=
  match ((s.line l).marker i).pending with
  | some _ => s.setPending l i none
  | none => (s.setPending l i (some ((s.line l).change i s.track.clock))).completeDue l i

end Sys2Proof.Machine
end

