-- ==== Sys2Proof/Machine/LineControl.lean ====
section
/-! DEFINITION. Strip position and the time base (chapter 1): what a counted pulse, a tick and a completed
mirror period do. -/

namespace Sys2Proof.Machine

/-! ## Pulses and steps (R2 to R6) -/

/-- A pulse is counted by line state and gate mode (R3). -/
def Line.counts (ln : Line) : Bool := ln.state != .unconfigured && (!ln.gated || ln.run)

/-- A step is taken unless the counter stands at the limit it would move towards (R5). -/
def SideUnit.canStep (u : SideUnit) : Bool := if u.forward then decide (u.counter < maxPos) else decide (0 < u.counter)

/-- The counter after a step that is taken: S further in the direction the level reads, clamped to 0 to 2^48 − 1 (R4, R5). -/
def SideUnit.stepped (u : SideUnit) : Nat :=
  if u.forward then min (u.counter + u.stepLen) maxPos else u.counter - u.stepLen

/-- A divider that completes a step: it reloads; the counter moves and the limit mark clears, or the step is not taken and
the mark is set (R2, R5). -/
def SideUnit.step (u : SideUnit) : SideUnit :=
  if u.canStep then { u with remaining := u.reload, counter := u.stepped, limitMark := false }
  else { u with remaining := u.reload, limitMark := true }

/-- A position change is delivered: the matcher takes it on the exit counter, the side's station starts its sealing (R6). -/
def State.positionChange (s : State) (l : LineId) (sd : Side) (forward : Bool) : State :=
  let s1 := match sd with
    | .entry => s
    | .exit => s.matcherMoved l forward
  s1.seal (stationOf l sd)

/-- A counted pulse (R2, R5, R6). -/
def State.countPulse (s : State) (l : LineId) (sd : Side) : State :=
  let ln := s.line l
  let u := ln.side sd
  if 1 < u.remaining then s.setLine l (ln.setSide sd { u with remaining := u.remaining - 1 })
  else
    let s1 := s.setLine l (ln.setSide sd u.step)
    if u.canStep then s1.positionChange l sd u.forward
    else if u.limitMark then s1
    else s1.anomaly .counterLimit (some l) (some u.counter) none

/-! ## The time base (R14, R19, R176) -/

/-- The three inputs of a line in order. -/
def allInputs : List MarkerInput := [.seamIn, .hole, .shear]

/-- Every change whose debounce has run out completes, in the order of lines and inputs (R19; the order is log 6). -/
def State.completeAllDue (s : State) : State :=
  allLines.foldl (fun acc l => allInputs.foldl (fun acc2 i => acc2.completeDue l i) acc) s

/-- A tick lowers the remaining of a pending change (R19). -/
def Marker.tick (m : Marker) : Marker :=
  { m with pending := m.pending.map fun c => { c with remaining := c.remaining - 1 } }

/-- A tick lowers the remaining of a line's pending changes (R19). -/
def Line.tick (ln : Line) : Line :=
  { ln with seamIn := ln.seamIn.tick, hole := ln.hole.tick, shear := ln.shear.tick }

/-- The mirror period count has completed a period (R176). -/
def State.periodDue (s : State) : Bool := decide (0 < s.path.period) && decide (s.path.period ≤ s.path.periodCount)

/-- A completed period marks G2 to G5 dirty, and the count starts again (R176). -/
def State.completePeriod (s : State) : State :=
  if s.periodDue then
    allLines.foldl (fun acc l => acc.mark (lineGroup l)) { s with path.periodCount := 0 }
  else s

/-- The clock rises by one, from 2^48 − 1 to 0 (R14). -/
def State.tickClock (s : State) : State := { s with track.clock := s.track.clock + 1 }

/-- Every pending change of every line loses a millisecond (R19). -/
def State.tickMarkers (s : State) : State :=
  allLines.foldl (fun acc l => acc.setLine l (acc.line l).tick) s

/-- A running period count rises by one (R176). -/
def State.tickPeriod (s : State) : State :=
  if 0 < s.path.period ∧ s.path.state ≠ .down then { s with path.periodCount := s.path.periodCount + 1 } else s

/-- The tick itself: the clock rises, pending changes and a running period count advance (R14, R19, R176). The clock rises
first, so that what completes with the tick is stamped with the value after it, of the two R14 allows (log 6). -/
def State.advanceTime (s : State) : State := s.tickClock.tickMarkers.tickPeriod

end Sys2Proof.Machine
end

