-- ==== Sys2Proof/Machine/Directives.lean ====
section
/-! DEFINITION. The directive unit: taking a directive, its result and its completion (chapter 9); UNKNOWN_CODE. -/

namespace Sys2Proof.Machine

/-- A slot record. -/
def State.slot (s : State) (k : Fin 16) : Slot := s.path.slots[k]

/-- Replace a slot record. -/
def State.setSlot (s : State) (k : Fin 16) (sl : Slot) : State :=
  { s with path.slots := s.path.slots.set k.val sl k.isLt }

/-- Put the directive unit in a state. -/
def State.setUnit (s : State) (u : UnitState) : State := { s with path.directiveUnit := u }

/-! ## Result and completion (R158, R159) -/

/-- The blocks of a slot from word 48 upward, but for the last (R158). -/
def answerBlocks : List Nat := [6, 7, 8, 9, 10, 11, 12, 13, 14]

/-- The bursts of a result: one for each block from word 48 that holds answer words, then the block of words 120 to 127
with the status word and any answer words from 120 to 125 (R158). -/
def resultBursts (base : Nat) (k : Fin 16) (answer : List Word) (status : Word) : List WriteBurst :=
  (answerBlocks.filter fun j => decide (8 * j < 48 + answer.length)).map
      (fun j => blockBurst (slotAddr base k (8 * j)) fun i => answer[8 * j + i - 48]?) ++
  [blockBurst (slotAddr base k 120) fun i =>
    if i = 6 then some status else if i = 7 then none else answer[72 + i]?]

/-- The final burst has been appended: the slot becomes IDLE, DIRECTIVE_DONE is set, the unit becomes FREE (R158), which
makes the take of the next directive due: it comes before anything else that happens (R156, R161, `State.takeDue`). -/
def State.completeDirective (s : State) (k : Fin 16) : State :=
  (((s.setSlot k { s.slot k with state := .idle }).mark 0).raisePath .directiveDone).setUnit .free

/-- The unit offers its bursts one at a time; one that finds no place waits and the rest are kept (R143, R158). -/
def State.offerAnswer (k : Fin 16) : List WriteBurst → State → State
  | [], s => s.completeDirective k
  | b :: rest, s =>
    if s.canAppend then State.offerAnswer k rest (s.append b)
    else (s.setUnit (.answering k rest)).wait (.directive b)

/-- The outcome of a directive's judgement and execution: refused with a reason, or done, with its answer words (R157). -/
inductive DirOutcome where
  | refused (reason : Reason) (answer : List Word)
  | done (s : State) (answer : List Word)

/-- Place a result for the RUNNING slot (R158, R159). -/
def State.answerWith (s : State) (k : Fin 16) (reason : Option Reason) (answer : List Word) : State :=
  State.offerAnswer k (resultBursts s.base k answer (statusWord (s.slot k).tag reason answer.length)) s

/-- The result of an outcome; a refused directive changes no state of any block (R157). -/
def State.finish (s : State) (k : Fin 16) (o : DirOutcome) : State :=
  match o with
  | .refused reason answer => s.answerWith k (some reason) answer
  | .done s' answer => s'.answerWith k none answer

/-! ## Taking a directive (R156, R157) -/

/-- The slot whose take is due: the unit is FREE, the FIFO is not empty and the path OPEN or DRAINING (R156). -/
def State.headSlot (s : State) : Option (Fin 16) :=
  if s.path.directiveUnit = .free ∧ (s.path.state = .opened ∨ s.path.state = .draining) then s.path.fifo.head?
  else none

/-- The slot at the head of the FIFO is removed from it and becomes RUNNING (R156). -/
def State.beginDirective (s : State) (k : Fin 16) : State :=
  ({ s with path.fifo := s.path.fifo.tail }.setSlot k { s.slot k with state := .running }).mark 0

/-- Take and execute the directive at the head of the FIFO if it has this code (R156, R157); otherwise nothing happens. -/
def State.directive (s : State) (code : BitVec 8) (f : (Nat → Word) → State → DirOutcome) : State :=
  match s.headSlot with
  | none => s
  | some k =>
    if (s.slot k).code = code then
      (s.beginDirective k).finish k (f (s.slot k).word (s.beginDirective k))
    else s

/-- The codes of the code table (9.7 of 09). -/
def directiveCodes : List (BitVec 8) :=
  [0x01, 0x02, 0x03, 0x04, 0x05, 0x06, 0x10, 0x11, 0x12, 0x13, 0x20, 0x21, 0x22, 0x23, 0x30, 0x31, 0x32, 0x33,
   0x40, 0x41, 0x42, 0x50, 0x51, 0x52, 0x53]

/-- A directive whose code names none is refused UNKNOWN_CODE, with no answer words (R157). -/
def State.unknownCode (s : State) : State :=
  match s.headSlot with
  | none => s
  | some k =>
    if directiveCodes.contains (s.slot k).code then s
    else (s.beginDirective k).finish k (.refused .unknownCode [])

/-- UNKNOWN_CODE (R157). -/
def execUnknownCode (s : State) : Result := powered (fun s => s.unknownCode) s

end Sys2Proof.Machine
end

