-- ==== Sys2Proof/Machine/LineDirectives.lean ====
section
/-! DEFINITION. The directives of chapters 1 to 3: lines, hole patterns, clock, announcements, injection, clearing. -/

namespace Sys2Proof.Machine

/-! ## Define Line (R7, R9 to R11) -/

/-- A line is clear: seam queue and through list empty, no LOADING and no WINDING record (R7). -/
def State.lineClear (s : State) (l : LineId) : Bool :=
  (s.line l).seamQueue.isEmpty && (s.line l).through.isEmpty &&
    (s.findOpen l .loading).isNone && (s.findOpen l .winding).isNone

/-- Words 1 to 23 of Define Line lie in their ranges and agree (R9, R10 step 3). -/
def lineWordsOk (w : Nat → Word) : Bool :=
  within (w 1) 1 4096 && within (w 2) 1 1000 && within (w 3) 1 4096 && within (w 4) 1 1000 && within (w 5) 0 1 &&
  within (w 6) 0 3 && within (w 7) 0 15 && withinInt (w 8) (-100000) 100000 &&
  within (w 9) 0 3 && within (w 10) 0 15 && withinInt (w 11) (-100000) 100000 &&
  within (w 12) 0 3 && within (w 13) 0 15 && withinInt (w 14) (-100000) 100000 &&
  within (w 15) 1 1000000 && within (w 16) 1 1000000 && within (w 17) 1 1000000 &&
  within (w 18) 500 20000 && within (w 19) 500 20000 && within (w 20) 0 1 &&
  within (w 21) 0 500 && within (w 22) 10 10000 && within (w 23) 0 10000 &&
  decide ((w 18).toNat ≤ (w 19).toNat) && decide ((w 11).toInt ≤ (w 14).toInt)

/-- The edge select a word names (R9). -/
def edgeOf (w : Word) : EdgeSelect :=
  match w.toNat with
  | 1 => .rising
  | 2 => .falling
  | 3 => .both
  | _ => .off

/-- A marker input takes new settings; its settled level and pending change stay (R11, R23). -/
def Marker.define (m : Marker) (edge debounce offset : Word) : Marker :=
  { m with edge := edgeOf edge, debounce := debounce.toNat, offset := offset.toInt }

/-- A divider takes a new definition: loaded with the reload, limit mark and counter kept (R11). -/
def SideUnit.define (u : SideUnit) (reload stepLen : Word) : SideUnit :=
  { u with reload := reload.toNat, stepLen := stepLen.toNat, remaining := reload.toNat }

/-- The effects of a Define Line on its line unit (R11). -/
def Line.define (ln : Line) (w : Nat → Word) : Line :=
  { ln with
    state := .standby
    entry := ln.entry.define (w 1) (w 2), exit := ln.exit.define (w 3) (w 4), gated := (w 5).toNat == 1
    seamIn := ln.seamIn.define (w 6) (w 7) (w 8), hole := ln.hole.define (w 9) (w 10) (w 11)
    shear := ln.shear.define (w 12) (w 13) (w 14)
    seamInSpacing := (w 15).toNat, seamOutSpacing := (w 16).toNat, shearSpacing := (w 17).toNat
    elongMin := (w 18).toNat, elongMax := (w 19).toNat, reverseOnPass := (w 20).toNat == 1
    tolerance := (w 21).toNat, gapLimit := (w 22).toNat, recoveryLen := (w 23).toNat }

/-- Define Line (R10, R11). -/
def defineLine (w : Nat → Word) (s : State) : DirOutcome :=
  match lineOf (w 0) with
  | none => .refused .badParameter []
  | some l =>
    let ln := s.line l
    if ln.state = .tracking ∨ (ln.state = .standby ∧ s.lineClear l = false) then .refused .wrongState []
    else if lineWordsOk w then .done ((s.setLine l (ln.define w)).mark (lineGroup l)) []
    else .refused .badParameter []

/-- DEFINE_LINE (R11), code 0x01. -/
def execDefineLine (s : State) : Result := powered (fun s => s.directive 0x01 defineLine) s

/-! ## Define Hole Patterns (R25, R26) -/

/-- The pattern slot nine words describe, if they are admitted (R25 step 3). Spacings beyond hole count − 1 are not read. -/
def readPattern (w : Nat → Word) (k : Nat) : Option PatternSlot :=
  let cls := w (1 + 9 * k)
  let n := (w (2 + 9 * k)).toNat
  let spacings := (List.range (n - 1)).map fun j => (w (3 + 9 * k + j)).toNat
  if n = 0 then some .unused
  else if n = 1 ∨ 8 < n then none
  else if 1 < cls.toNat then none
  else if spacings.all fun sp => decide (1 ≤ sp) && decide (sp ≤ 10000) then
    some { cls := if cls.toNat = 0 then .seam else .tag, holes := n, spacings := spacings }
  else none

/-- Define Hole Patterns (R25, R26). -/
def defineHolePatterns (w : Nat → Word) (s : State) : DirOutcome :=
  match lineOf (w 0) with
  | none => .refused .badParameter []
  | some l =>
    if (s.line l).state ≠ .standby then .refused .wrongState []
    else
      match readPattern w 0, readPattern w 1, readPattern w 2 with
      | some a, some b, some c =>
        .done ((s.setLine l { s.line l with patterns := #v[a, b, c] }).mark (lineGroup l)) []
      | _, _, _ => .refused .badParameter []

/-- DEFINE_HOLE_PATTERNS (R26), code 0x02. -/
def execDefineHolePatterns (s : State) : Result := powered (fun s => s.directive 0x02 defineHolePatterns) s

/-! ## Start and Stop Tracking (R12, R13) -/

/-- The two counters as four answer words (R12). -/
def Line.counterWords (ln : Line) : List Word := words48 ln.entry.counter ++ words48 ln.exit.counter

/-- Start Tracking (R12); ANNOUNCE_EMPTY is judged at the change into TRACKING (R169). -/
def startTracking (w : Nat → Word) (s : State) : DirOutcome :=
  match lineOf (w 0) with
  | none => .refused .badParameter []
  | some l =>
    if (s.line l).state ≠ .standby then .refused .wrongState []
    else .done ((s.setLine l { s.line l with state := .tracking }).mark (lineGroup l)).judgeAnnounce
      (s.line l).counterWords

/-- START_TRACKING (R12), code 0x03. -/
def execStartTracking (s : State) : Result := powered (fun s => s.directive 0x03 startTracking) s

/-- Set the void mark of a marker input's pending change (R23). -/
def Marker.voided (m : Marker) : Marker := { m with pending := m.pending.map fun c => { c with void := true } }

/-- The effects of a Stop Tracking on its line unit (R13, R23, R33). -/
def Line.stopped (ln : Line) : Line :=
  { ln with
    state := .standby, matcher := .idle
    seamIn := ln.seamIn.voided, hole := ln.hole.voided, shear := ln.shear.voided }

/-- Stop Tracking (R13); ANNOUNCE_EMPTY is judged at the change out of TRACKING (R169). -/
def stopTracking (w : Nat → Word) (s : State) : DirOutcome :=
  match lineOf (w 0) with
  | none => .refused .badParameter []
  | some l =>
    if (s.line l).state ≠ .tracking then .refused .wrongState []
    else .done ((s.setLine l (s.line l).stopped).mark (lineGroup l)).judgeAnnounce (s.line l).counterWords

/-- STOP_TRACKING (R13), code 0x04. -/
def execStopTracking (s : State) : Result := powered (fun s => s.directive 0x04 stopTracking) s

/-! ## Clear Line (R54) -/

/-- The serials Clear Line settles by force, in increasing order: the line's LOADING, CLOSED and WINDING records (R54). -/
def State.clearable (s : State) (l : LineId) : List Nat :=
  sortAsc ((s.track.table.records.filter fun r =>
    decide (r.line = l) && (r.state == .loading || r.state == .closed || r.state == .winding)).map (·.serial))

/-- A line unit after Clear Line: queues and through list empty, matcher IDLE (R54). -/
def Line.cleared (ln : Line) : Line :=
  { ln with seamQueue := [], through := [], entryQueue := [], exitQueue := [], matcher := .idle }

/-- Clear Line (R54). -/
def clearLine (w : Nat → Word) (s : State) : DirOutcome :=
  match lineOf (w 0) with
  | none => .refused .badParameter []
  | some l =>
    let ln := s.line l
    if ln.state ≠ .standby then .refused .wrongState []
    else
      let serials := s.clearable l
      let s1 := serials.foldl (fun acc n => acc.forceSettle n) s
      .done (s1.setLine l (s1.line l).cleared).judgeAnnounce
        [wordOf serials.length, wordOf ln.entryQueue.length, wordOf ln.exitQueue.length]

/-- CLEAR_LINE (R54), code 0x05. -/
def execClearLine (s : State) : Result := powered (fun s => s.directive 0x05 clearLine) s

/-! ## Set Clock (R15) -/

/-- Load the plant clock. -/
def State.loadClock (s : State) (t : Time) : State := { s with track.clock := t }.mark 0

/-- Set Clock (R15). -/
def setClock (w : Nat → Word) (s : State) : DirOutcome :=
  if 0xFFFF < (w 1).toNat then .refused .badParameter []
  else .done (s.loadClock (BitVec.ofNat 48 (joined (w 0) (w 1)))) (words48 s.track.clock.toNat)

/-- SET_CLOCK (R15), code 0x06. -/
def execSetClock (s : State) : Result := powered (fun s => s.directive 0x06 setClock) s

/-! ## Announcements (R38, R39) -/

/-- Announce a plant number in the queue of a record kind (R38). -/
def announce (k : Kind) (w : Nat → Word) (s : State) : DirOutcome :=
  match lineOf (w 0) with
  | none => .refused .badParameter []
  | some l =>
    let q := (s.line l).queue k
    if q.contains (w 1) then .refused .duplicate []
    else if Config.announceCap ≤ q.length then .refused .queueFull []
    else .done (s.setQueue l k (q ++ [w 1])) [wordOf (q.length + 1)]

/-- ANNOUNCE_ENTRY (R38), code 0x10. -/
def execAnnounceEntry (s : State) : Result := powered (fun s => s.directive 0x10 (announce .entry)) s

/-- ANNOUNCE_EXIT (R38), code 0x11. -/
def execAnnounceExit (s : State) : Result := powered (fun s => s.directive 0x11 (announce .exit)) s

/-- Withdraw (R39): the number leaves its queue from any place, and its place is answered. -/
def withdraw (w : Nat → Word) (s : State) : DirOutcome :=
  match lineOf (w 0) with
  | none => .refused .badParameter []
  | some l =>
    if 1 < (w 1).toNat then .refused .badParameter []
    else
      let k : Kind := if (w 1).toNat = 0 then .entry else .exit
      let q := (s.line l).queue k
      if q.contains (w 2) then .done (s.setQueue l k (q.erase (w 2))) [wordOf (q.idxOf (w 2))]
      else .refused .notFound []

/-- WITHDRAW (R39), code 0x12. -/
def execWithdraw (s : State) : Result := powered (fun s => s.directive 0x12 withdraw) s

/-! ## Inject Marker (R52, R53) -/

/-- The answer of an Inject Marker: two serials, 0 for none (R53). -/
def injected (r : State × Nat × Nat) : DirOutcome := .done r.1 [wordOf r.2.1, wordOf r.2.2]

/-- Inject Marker (R52, R53): the event is carried out with the plant clock as its capture time. -/
def injectMarker (w : Nat → Word) (s : State) : DirOutcome :=
  match lineOf (w 0) with
  | none => .refused .badParameter []
  | some l =>
    let ln := s.line l
    let p := joined (w 2) (w 3)
    if ln.state ≠ .tracking then .refused .wrongState []
    else if 2 < (w 1).toNat ∨ 0xFFFF < (w 3).toNat then .refused .badParameter []
    else
      match (w 1).toNat with
      | 0 =>
        if plausible ln.lastSeamIn ln.seamInSpacing p then injected (s.acceptSeamIn l p s.track.clock)
        else .refused .badParameter []
      | 1 =>
        if plausible ln.lastExitSeam ln.seamOutSpacing p then injected (s.acceptExitSeam l p)
        else .refused .badParameter []
      | _ =>
        if plausible ln.lastShear ln.shearSpacing p then injected (s.acceptShear l p s.track.clock)
        else .refused .badParameter []

/-- INJECT_MARKER (R53), code 0x13. -/
def execInjectMarker (s : State) : Result := powered (fun s => s.directive 0x13 injectMarker) s

end Sys2Proof.Machine
end

