-- ==== Sys2Proof/Machine/CoilDirectives.lean ====
section
/-! DEFINITION. The directives of chapter 4: Name Record, Read Record, Trace, Descend and the Descend scan. -/

namespace Sys2Proof.Machine

/-! ## Name Record (R72) -/

/-- Name Record (R72): identity and RENAMED, then source lookup for an ENTRY record, or the map write for an EXIT record
in CUT or SETTLED. -/
def nameRecord (w : Nat → Word) (s : State) : DirOutcome :=
  match s.find (w 0).toNat with
  | none => .refused .notFound []
  | some r =>
    if r.identity.isSome then .refused .wrongState []
    else
      let s1 := s.modify r.serial fun x => { x with identity := some (w 1), flags.renamed := true }
      match r.kind with
      | .entry => .done (s1.sourceLookup r.serial) [wordOf ((s.lookupNumber (w 1)).getD 0), 0]
      | .exit =>
        if r.state = .cut ∨ r.state = .settled then
          .done (s1.mapWrite (w 1) r.serial) [0, if s.mapWrites (w 1) r.serial then 1 else 0]
        else .done s1 [0, 0]

/-- NAME_RECORD (R72), code 0x20. -/
def execNameRecord (s : State) : Result := powered (fun s => s.directive 0x20 nameRecord) s

/-! ## Read Record (R74) -/

/-- The record a selector and a value name: by serial, or by plant number through the identity map (R74). -/
def State.selected (s : State) (selector value : Word) : Option Record :=
  if selector.toNat = 0 then s.find value.toNat else (s.lookupNumber value).bind s.find

/-- The answer of Read Record: part 0 the image and the tags, part 1 the segments (R74, R186). -/
def recordAnswer (r : Record) (part : Word) : List Word :=
  if part.toNat = 0 then recordImage r ++ (r.tags.map tagWords).flatten
  else [wordOf r.serial, wordOf r.segments.length] ++ (r.segments.map (segmentWords r.start)).flatten

/-- Read Record (R74). -/
def readRecord (w : Nat → Word) (s : State) : DirOutcome :=
  if 1 < (w 0).toNat ∨ 1 < (w 2).toNat then .refused .badParameter []
  else
    match s.selected (w 0) (w 1) with
    | none => .refused .notFound []
    | some r => .done s (recordAnswer r (w 2))

/-- READ_RECORD (R74), code 0x21. -/
def execReadRecord (s : State) : Result := powered (fun s => s.directive 0x21 readRecord) s

/-! ## Trace (R75) -/

/-- A listed ancestor (R75): a line unknown is absent. -/
structure Ancestor where
  serial : Nat
  number : Option Word
  kind : Kind
  line : Option LineId
  lost : Bool
  reachedFrom : Nat
  deriving DecidableEq, Repr

/-- The references of a visited record, with the kind and line each implies (R75). -/
def Record.references (r : Record) : List (Nat × Kind × Option LineId) :=
  match r.kind with
  | .exit => r.segments.map fun g => (g.serial, .entry, some r.line)
  | .entry =>
    match r.source with
    | none => []
    | some n => [(n, .exit, none)]

/-- The state of a Trace listing: records still to visit, ancestors listed, and whether a thirteenth was met. -/
structure Tracing where
  queue : List Record
  listed : List Ancestor
  truncated : Bool
  deriving DecidableEq, Repr

/-- One reference of a visited record (R75). -/
def traceRef (t : CoilTable) (target visited : Nat) (st : Tracing) (ref : Nat × Kind × Option LineId) : Tracing :=
  if st.truncated || ref.1 == target || st.listed.any (fun a => a.serial == ref.1) then st
  else if Config.traceCap ≤ st.listed.length then { st with truncated := true }
  else
    match t.find ref.1 with
    | none =>
      { st with listed := st.listed ++ [{ serial := ref.1, number := none, kind := ref.2.1, line := ref.2.2
                                          lost := true, reachedFrom := visited }] }
    | some x =>
      { st with
        queue := st.queue ++ [x]
        listed := st.listed ++ [{ serial := ref.1, number := x.identity, kind := x.kind, line := some x.line
                                  lost := false, reachedFrom := visited }] }

/-- Visit the queue's records in order; each visit takes one unit of fuel, and at most 13 records are ever queued. -/
def traceLoop (t : CoilTable) (target : Nat) : Nat → Tracing → Tracing
  | 0, st => st
  | fuel + 1, st =>
    match st.queue with
    | [] => st
    | r :: rest =>
      if st.truncated then st
      else traceLoop t target fuel (r.references.foldl (traceRef t target r.serial) { st with queue := rest })

/-- The ancestors of a record (R75). -/
def traceOf (t : CoilTable) (r : Record) : Tracing :=
  traceLoop t r.serial (Config.traceCap + 2) { queue := [r], listed := [], truncated := false }

/-- An ancestor as four words (R75, R186). The line bits of an ancestor whose line is unknown are a free value (log 2). -/
def ancestorWords (draw : Nat) (a : Ancestor) : List Word :=
  let line := match a.line with
    | some l => l.val
    | none => (Config.freeWord draw a.serial).toNat
  [wordOf a.serial, a.number.getD 0, kinWord a.kind line a.line.isNone a.lost a.number.isNone, wordOf a.reachedFrom]

/-- Count a draw of free values (log 2). -/
def State.drawn (s : State) : State := { s with freeCount := s.freeCount + 1 }

/-- Trace (R75). -/
def trace (w : Nat → Word) (s : State) : DirOutcome :=
  if 1 < (w 0).toNat then .refused .badParameter []
  else
    match s.selected (w 0) (w 1) with
    | none => .refused .notFound []
    | some r =>
      let t := traceOf s.track.table r
      .done s.drawn
        ([wordOf r.serial, countWord t.listed.length t.truncated] ++ (t.listed.map (ancestorWords s.freeCount)).flatten)

/-- TRACE (R75), code 0x22. -/
def execTrace (s : State) : Result := powered (fun s => s.directive 0x22 trace) s

/-! ## Descend (R76 to R78) -/

/-- Take a Descend: refused NOT_FOUND, or its scan begins (R76). -/
def State.beginDescend (s : State) (k : Fin 16) : State :=
  match s.find ((s.slot k).word 0).toNat with
  | none => s.finish k (.refused .notFound [])
  | some r => s.setUnit (.scanning k r.serial r.kind 0 [])

/-- Take the Descend at the head of the FIFO (R76, R156); otherwise nothing happens. -/
def State.takeDescend (s : State) : State :=
  match s.headSlot with
  | none => s
  | some k => if (s.slot k).code = 0x23 then (s.beginDirective k).beginDescend k else s

/-- DESCEND (R76), code 0x23: it is taken here, and scanned by DESCEND_SCAN_VISIT. -/
def execDescend (s : State) : Result := powered (fun s => s.takeDescend) s

/-- Is a record a child of the target (R77)? -/
def Record.childOf (r : Record) (target : Nat) (kind : Kind) : Bool :=
  match kind with
  | .entry => r.kind == .exit && r.segments.any fun g => g.serial == target
  | .exit => r.kind == .entry && r.source == some target

/-- A child as three words (R78, R186). -/
def childWords (c : Child) : List Word :=
  [wordOf c.serial, c.number.getD 0, kinWord c.kind c.line.val false false c.number.isNone]

/-- The scan completes with its list (R78). -/
def State.completeDescend (s : State) (k : Fin 16) (target : Nat) (children : List Child) (truncated : Bool) : State :=
  s.answerWith k none ([wordOf target, countWord children.length truncated] ++ (children.map childWords).flatten)

/-- The record a place holds, if it is a child of the target (R77). -/
def State.childAt (s : State) (place target : Nat) (kind : Kind) : Option Child :=
  match tableGet place s.track.table.places with
  | none => none
  | some r =>
    if r.childOf target kind then some { serial := r.serial, number := r.identity, kind := r.kind, line := r.line }
    else none

/-- One visit of the scan (R77): a twenty-fifth child ends it with TRUNCATED, the visit of place 8191 completes it. -/
def State.scanVisit (s : State) : State :=
  match s.path.directiveUnit with
  | .scanning k target kind next children =>
    match s.childAt next target kind with
    | some c =>
      if Config.descendCap ≤ children.length then s.completeDescend k target children true
      else if Config.places ≤ next + 1 then s.completeDescend k target (children ++ [c]) false
      else s.setUnit (.scanning k target kind (next + 1) (children ++ [c]))
    | none =>
      if Config.places ≤ next + 1 then s.completeDescend k target children false
      else s.setUnit (.scanning k target kind (next + 1) children)
  | _ => s

end Sys2Proof.Machine
end

