-- ==== Sys2Proof/Machine/StationDirectives.lean ====
section
/-! DEFINITION. The directives of chapters 5 and 6: Define Station, Define Verdict, Activate and Deactivate Station. -/

namespace Sys2Proof.Machine

/-! ## Define Station (R82 to R84) -/

/-- The slot counts: the powers of two from 512 to 1,048,576 (R82). -/
def slotCounts : List Nat := [512, 1024, 2048, 4096, 8192, 16384, 32768, 65536, 131072, 262144, 524288, 1048576]

/-- The read words of Define Station lie in their ranges (R82, R83 step 3). -/
def stationWordsOk (w : Nat → Word) : Bool :=
  decide ((w 2).toNat % 64 = 0) && within (w 3) 0 3 && slotCounts.contains (w 4).toNat && within (w 5) 10 65535 &&
  within (w 7) 0 500000 && within (w 8) 1 12 &&
  (List.range (w 8).toNat).all (fun c => withinInt (w (9 + c)) (-100000) 100000) &&
  decide ((w 7).toNat / (w 5).toNat ≤ 200) &&
  decide (joined (w 2) (w 3) + (w 4).toNat * 64 ≤ 2 ^ 34)

/-- The offset of channel c a Define Station gives; offset words beyond the channel count are not read (R82). -/
def stationOffset (w : Nat → Word) (c : Nat) : Int := if c < (w 8).toNat then (w (9 + c)).toInt else 0

/-- The definition the words of Define Station give (R82). -/
def stationDef (w : Nat → Word) : StationDef :=
  { ringBase := joined (w 2) (w 3), slotCount := (w 4).toNat, binLength := (w 5).toNat, tag := w 6
    settle := (w 7).toNat, channels := (w 8).toNat
    offsets := #v[stationOffset w 0, stationOffset w 1, stationOffset w 2, stationOffset w 3, stationOffset w 4,
      stationOffset w 5, stationOffset w 6, stationOffset w 7, stationOffset w 8, stationOffset w 9,
      stationOffset w 10, stationOffset w 11] }

/-- The bytes of a station's ring. -/
def StationDef.ringBytes (d : StationDef) : Nat := d.slotCount * 64

/-- A range of memory shares a byte with the ring of a defined station other than `but` (R83, R166). -/
def State.meetsRing (s : State) (but : Option (Fin 8)) (base len : Nat) : Bool :=
  allStations.any fun i =>
    if some i = but then false
    else match (s.station i).defn with
      | none => false
      | some d => overlaps base len d.ringBase d.ringBytes

/-- A range of memory shares a byte with the journal ring of a set journal (R83, R164). -/
def State.meetsJournal (s : State) (base len : Nat) : Bool :=
  match s.path.journal with
  | none => false
  | some j => overlaps base len j.base (j.size * 512)

/-- Define Station (R83, R84). -/
def defineStation (w : Nat → Word) (s : State) : DirOutcome :=
  match lineOf (w 0) with
  | none => .refused .badParameter []
  | some l =>
    if 1 < (w 1).toNat then .refused .badParameter []
    else
      let i := stationOf l (if (w 1).toNat = 0 then .entry else .exit)
      if (s.station i).state ≠ .off then .refused .wrongState []
      else if stationWordsOk w = false then .refused .badParameter []
      else
        let d := stationDef w
        if overlaps d.ringBase d.ringBytes s.base areaSize || s.meetsRing (some i) d.ringBase d.ringBytes ||
            s.meetsJournal d.ringBase d.ringBytes then .refused .badParameter []
        else .done ((s.setStation i { s.station i with defn := some d, chain := [] }).mark (stationGroup i)) []

/-- DEFINE_STATION (R84), code 0x30. -/
def execDefineStation (s : State) : Result := powered (fun s => s.directive 0x30 defineStation) s

/-! ## Define Verdict (R104 to R107) -/

/-- Define Verdict (R105, R107); CHAIN_INVALID answers the failing term and the kind of failure. -/
def defineVerdict (w : Nat → Word) (s : State) : DirOutcome :=
  match eightOf (w 0) with
  | none => .refused .badParameter []
  | some i =>
    let st := s.station i
    if 8 < (w 1).toNat then .refused .badParameter []
    else if st.defn = none ∨ st.state ≠ .off then .refused .wrongState []
    else
      match readTerms st.d.channels w 0 (w 1).toNat with
      | none => .refused .badParameter []
      | some chain =>
        match chainCheck chain with
        | some (term, kind) => .refused .chainInvalid [wordOf term, wordOf kind]
        | none => .done (s.setStation i { st with chain := chain }) []

/-- DEFINE_VERDICT (R107), code 0x31. -/
def execDefineVerdict (s : State) : Result := powered (fun s => s.directive 0x31 defineVerdict) s

/-! ## Activate and Deactivate Station (R86, R90) -/

/-- A station joins the preparation queue with progress 0 (R86, R88). -/
def State.beginPreparation (s : State) (i : Fin 8) : State :=
  { s with path.prepQueue := s.path.prepQueue ++ [i] }.setStation i { s.station i with state := .preparing 0 }

/-- Activate Station (R86). -/
def activateStation (w : Nat → Word) (s : State) : DirOutcome :=
  match eightOf (w 0) with
  | none => .refused .badParameter []
  | some i =>
    let st := s.station i
    if 1 < (w 1).toNat then .refused .badParameter []
    else if st.defn = none ∨ st.state ≠ .off then .refused .wrongState []
    else
      let s1 := s.setStation i { st with incarnation := st.incarnation + 1 }
      .done (if (w 1).toNat = 0 then s1.beginPreparation i else s1.enterLive i) [st.incarnation + 1]

/-- ACTIVATE_STATION (R86), code 0x32. -/
def execActivateStation (s : State) : Result := powered (fun s => s.directive 0x32 activateStation) s

/-- A LIVE station is deactivated: its open bins are discarded, it leaves the wait list and becomes OFF, and its settle
check is made (R90, R69). -/
def State.stopLive (s : State) (i : Fin 8) : State :=
  (({ s with path.waitList := s.path.waitList.filter fun w => w != Waiter.sealing i }.setStation i
    { s.station i with state := .off }).mark (stationGroup i)).settleStation i

/-- A PREPARING station is deactivated: it leaves the preparation queue and becomes OFF (R90). -/
def State.stopPreparing (s : State) (i : Fin 8) : State :=
  ({ s with path.prepQueue := s.path.prepQueue.filter fun j => j != i }.setStation i
    { s.station i with state := .off }).mark (stationGroup i)

/-- Deactivate Station (R90): the answer is the number of open bins discarded. -/
def deactivateStation (w : Nat → Word) (s : State) : DirOutcome :=
  match eightOf (w 0) with
  | none => .refused .badParameter []
  | some i =>
    match (s.station i).state with
    | .off => .refused .wrongState []
    | .preparing _ => .done (s.stopPreparing i) [0]
    | .live d => .done (s.stopLive i) [wordOf d.bins.length]

/-- DEACTIVATE_STATION (R90), code 0x33. -/
def execDeactivateStation (s : State) : Result := powered (fun s => s.directive 0x33 deactivateStation) s

end Sys2Proof.Machine
end

