-- ==== Sys2Proof/Machine/Cursors.lean ====
section
/-! DEFINITION. Cursors, the resolver and the lineage walk (chapter 7): OPEN_CURSOR, REFRESH_CURSOR, CLOSE_CURSOR; a
resolver turn; and the judgement of an aperture point. -/

namespace Sys2Proof.Machine

/-! ## Cursors (R113) -/

/-- A cursor. -/
def State.cursor (s : State) (k : Fin 8) : Cursor := s.path.cursors[k]

/-- What marks a cursor's mirror group dirty when it changes: state, definition, number of resolved points (R113). -/
def Cursor.content : Cursor → Nat × Option CursorDef × Nat
  | .closed => (0, none, 0)
  | .resolving d t => (1, some d, t.length)
  | .ready d t => (2, some d, t.length)

/-- Replace a cursor; a change of its content marks its group dirty (R113). -/
def State.setCursor (s : State) (k : Fin 8) (c : Cursor) : State :=
  { s with path.cursors := s.path.cursors.set k.val c k.isLt }.markIf ((s.cursor k).content != c.content)
    (cursorGroup k)

/-- The target position of a point: x0 + i × step (R113). -/
def CursorDef.target? (d : CursorDef) (i : Nat) : Int := (d.x0 : Int) + (i : Int) * d.stepLen

/-- Words 3 to 7 of Open Cursor lie in their ranges (R114 step 3). -/
def cursorWordsOk (w : Nat → Word) : Bool :=
  within (w 3) 0 3 && within (w 4) 0 1 && within (w 5) 0 1000000000 &&
  withinInt (w 6) (-1000000) 1000000 && decide ((w 6).toInt ≠ 0) && within (w 7) 1 1024

/-- Open Cursor (R114, R115). -/
def openCursor (w : Nat → Word) (s : State) : DirOutcome :=
  match eightOf (w 0) with
  | none => .refused .badParameter []
  | some k =>
    if 1 < (w 1).toNat then .refused .badParameter []
    else if s.cursor k ≠ .closed then .refused .inUse []
    else if cursorWordsOk w = false then .refused .badParameter []
    else
      match lineOf (w 3), s.selected (w 1) (w 2) with
      | some l, some r =>
        let d : CursorDef :=
          { target := r.serial, line := l, side := if (w 4).toNat = 0 then .entry else .exit
            x0 := (w 5).toNat, stepLen := (w 6).toInt, count := (w 7).toNat }
        .done (s.setCursor k (.resolving d [])) [wordOf r.serial, w 7]
      | _, _ => .refused .notFound []

/-- OPEN_CURSOR (R115), code 0x40. -/
def execOpenCursor (s : State) : Result := powered (fun s => s.directive 0x40 openCursor) s

/-- Refresh Cursor (R116). -/
def refreshCursor (w : Nat → Word) (s : State) : DirOutcome :=
  match eightOf (w 0) with
  | none => .refused .badParameter []
  | some k =>
    match s.cursor k with
    | .closed => .refused .wrongState []
    | .resolving d _ => .done ((s.setCursor k (.resolving d [])).mark (cursorGroup k)) []
    | .ready d _ => .done ((s.setCursor k (.resolving d [])).mark (cursorGroup k)) []

/-- REFRESH_CURSOR (R116), code 0x41. -/
def execRefreshCursor (s : State) : Result := powered (fun s => s.directive 0x41 refreshCursor) s

/-- Close Cursor (R117): the answer is the state the cursor left. -/
def closeCursor (w : Nat → Word) (s : State) : DirOutcome :=
  match eightOf (w 0) with
  | none => .refused .badParameter []
  | some k => .done (s.setCursor k .closed) [wordOf (s.cursor k).content.1]

/-- CLOSE_CURSOR (R117), code 0x42. -/
def execCloseCursor (s : State) : Result := powered (fun s => s.directive 0x42 closeCursor) s

/-! ## The lineage walk (R121 to R126) -/

/-- How a walk ends: stopped at a record and position, or with a status and its ancestor fields. -/
inductive WalkEnd where
  | stopped (r : Record) (pos : Nat)
  | ended (status : PointStatus) (ancestor pos : Nat)
  deriving DecidableEq, Repr

/-- Where a hop leads: to a record and position, or to the end of the walk with a status. -/
inductive Hop where
  | to (r : Record) (pos : Nat)
  | ends (status : PointStatus)
  deriving DecidableEq, Repr

/-- The length of a target; an open one is measured in the frame of the captures that will close it (R122). -/
def State.targetLength (s : State) (r : Record) : Int :=
  let ln := s.line r.line
  match r.stop, r.state with
  | some e, _ => (e : Int) - r.start
  | none, .loading => max ((ln.entry.counter : Int) - ln.seamIn.offset - r.start) 0
  | none, .winding => max ((ln.exit.counter : Int) - ln.shear.offset - r.start) 0
  | none, _ => 0

/-- The stop test: the record is of the requested line and its kind matches the requested side (R123). -/
def Record.isAt (r : Record) (l : LineId) (sd : Side) : Bool :=
  decide (r.line = l) &&
  match r.kind, sd with
  | .entry, .entry => true
  | .exit, .exit => true
  | _, _ => false

/-- A hop from an EXIT record W at position q (R124). -/
def exitHop (t : CoilTable) (w : Record) (q : Nat) : Hop :=
  let p := w.start + q
  match w.segments.find? fun g => decide (g.exitStart ≤ p) && decide (p < g.exitEnd) with
  | none => .ends .untracked
  | some g =>
    match t.find g.serial with
    | none => .ends .lineageLost
    | some x =>
      match x.stop, x.exitStart, x.exitEnd with
      | some entryEnd, some exitStart, some exitEnd =>
        if exitEnd ≤ p then .ends .untracked
        else .to x ((p - exitStart) * (entryEnd - x.start) / (exitEnd - exitStart))
      | _, _, _ => .ends .pending

/-- The position carried from an ENTRY record into its source, turned on a line with reverse-on-pass (R125). -/
def carriedPosition (q lenX lenW : Nat) (reverse : Bool) : Nat :=
  let q' := q * lenW / lenX
  if reverse then min (lenW - 1 - q') (lenW - 1) else q'

/-- A hop from an ENTRY record X at position q (R125). -/
def State.entryHop (s : State) (x : Record) (q : Nat) : Hop :=
  match x.source with
  | none => .ends .notInLineage
  | some n =>
    match s.find n with
    | none => .ends .lineageLost
    | some w =>
      match x.stop, w.stop with
      | some xe, some we =>
        .to w (carriedPosition q (xe - x.start) (we - w.start) (s.line x.line).reverseOnPass)
      | _, _ => .ends .pending

/-- The walk from a record on, with the hops still allowed (R121). In DEPTH the ancestor is the record at which the walk
stopped (R113; log 11). -/
def State.walkFrom (s : State) (l : LineId) (sd : Side) : Nat → Record → Nat → WalkEnd
  | hops, r, q =>
    if r.isAt l sd then .stopped r q
    else
      match hops with
      | 0 => .ended .depth r.serial q
      | hops + 1 =>
        let h := match r.kind with
          | .exit => exitHop s.track.table r q
          | .entry => s.entryHop r q
        match h with
        | .to r' q' => s.walkFrom l sd hops r' q'
        | .ends st => .ended st r.serial q

/-- The walk of a point: the target must be present and the position within it (R121, R122). -/
def State.walk (s : State) (d : CursorDef) (x : Int) : WalkEnd :=
  match s.find d.target with
  | none => .ended .lineageLost d.target 0
  | some r =>
    if x < 0 ∨ s.targetLength r ≤ x then .ended .outOfRange d.target 0
    else s.walkFrom d.line d.side Config.maxHops r x.toNat

/-- The resolved entry of a walk's end (R126). -/
def State.resolve (s : State) (d : CursorDef) (x : Int) : Resolved :=
  match s.walk d x with
  | .ended st a q => { status := st, ancestor := a, pos := q, bin := none, incarnation := none }
  | .stopped r q =>
    let st := s.station (stationOf d.line d.side)
    match st.live? with
    | none => { status := .stationChanged, ancestor := r.serial, pos := q, bin := none, incarnation := none }
    | some _ =>
      { status := .ok, ancestor := r.serial, pos := q
        bin := some ((r.start + q) / st.d.binLength), incarnation := some st.incarnation }

/-! ## The resolver (R118, R119) -/

/-- The cursors in the order the resolver looks at them: from the one after the mark, the mark's own last (R118). -/
def resolverOrder (mark : Fin 8) : List (Fin 8) :=
  [mark + 1, mark + 2, mark + 3, mark + 4, mark + 5, mark + 6, mark + 7, mark]

/-- A cursor is RESOLVING. -/
def Cursor.isResolving : Cursor → Bool
  | .resolving _ _ => true
  | _ => false

/-- A turn on a cursor: its lowest unresolved point is resolved; the last one makes it READY and sets CURSOR_READY
(R118, R119). -/
def State.turn (s : State) (k : Fin 8) : State :=
  match s.cursor k with
  | .resolving d t =>
    let t' := t ++ [s.resolve d (d.target? t.length)]
    if d.count ≤ t'.length then (s.setCursor k (.ready d t')).raisePath .cursorReady
    else s.setCursor k (.resolving d t')
  | _ => s

/-- A resolver turn: the first RESOLVING cursor after the mark is served; none leaves the resolver idle (R118). -/
def State.resolverTurn (s : State) : State :=
  match (resolverOrder s.path.resolverMark).find? fun k => (s.cursor k).isResolving with
  | none => s
  | some k => { s with path.resolverMark := k }.turn k

/-! ## The aperture (R127 to R132) -/

/-- The judgement of an aperture point: a status answered at once with the fields of R129, or a memory read (R131). -/
inductive Judgement where
  | answer (status : PointStatus) (ancestor pos : Nat) (target : Int)
  | unsealed (bin : Option OpenBin) (ancestor pos : Nat) (target : Int)
  | memory (station : StationDef) (bin ancestor pos : Nat) (target : Int)
  deriving DecidableEq, Repr

/-- The judgement of a resolved point (R128 cases 4 to 8). -/
def State.judgeResolved (s : State) (d : CursorDef) (r : Resolved) (target : Int) : Judgement :=
  let st := s.station (stationOf d.line d.side)
  match r.status, r.bin, st.live? with
  | .ok, some b, some lv =>
    if r.incarnation ≠ some st.incarnation then .answer .stationChanged r.ancestor r.pos target
    else if (b : Int) ≤ lv.highest - st.d.slotCount then .answer .expired r.ancestor r.pos target
    else if lv.sealedBin < (b : Int) then .unsealed (tableGet b lv.bins) r.ancestor r.pos target
    else .memory st.d b r.ancestor r.pos target
  | .ok, _, _ => .answer .stationChanged r.ancestor r.pos target
  | status, _, _ => .answer status r.ancestor r.pos target

/-- The judgement of point i of a cursor (R128). -/
def State.judgePoint (s : State) (k : Fin 8) (i : Nat) : Judgement :=
  let judge (d : CursorDef) (t : List Resolved) : Judgement :=
    if d.count ≤ i then .answer .noPoint 0 0 0
    else
      match t[i]? with
      | none => .answer .notReady 0 0 (d.target? i)
      | some r => s.judgeResolved d r (d.target? i)
  match s.cursor k with
  | .closed => .answer .cursorClosed 0 0 0
  | .resolving d t => judge d t
  | .ready d t => judge d t

/-- The words `first` to `first + count - 1` of a point, from its header and its channel words (R129). -/
def pointWords (first count : Nat) (header : List Word) (channel : Nat → Word) : List Word :=
  (List.range count).map fun j =>
    if first + j < 4 then header.getD (first + j) 0 else channel (first + j - 4)

/-- The answer of an open bin, or of a bin not in the table: values from the table, verdict false (R130). -/
def unsealedWords (first count : Nat) (bin : Option OpenBin) (ancestor pos : Nat) (target : Int) : List Word :=
  match bin with
  | none => pointWords first count (playbackHeader .unsealed false 0 0 ancestor pos target) fun _ => fillValue
  | some b =>
    pointWords first count (playbackHeader .unsealed false b.presence b.fill ancestor pos target)
      fun c => (b.channel c).getD fillValue

/-- Word `w` of the ring slot an aperture read returned, from the data of its one or two M-side reads (R131). -/
def ApertureHold.slotWord (h : ApertureHold) (w : Nat) : Word :=
  match h.got with
  | [a] => a.getD w 0
  | [a, b] => if w < 4 then a.getD w 0 else b.getD (w - h.first) 0
  | _ => 0

/-- The answer of an aperture read whose data has returned: GAP or OK by the slot's header (R132, R185). -/
def ApertureHold.answer (h : ApertureHold) : List Word :=
  let w3 := h.slotWord 3
  if h.slotWord 0 ≠ h.tag ∨ storedBin (h.slotWord 2) w3 ≠ h.bin / 2 ^ 9 then
    pointWords h.first h.count (playbackHeader .gap false 0 0 h.ancestor h.pos h.target) fun _ => fillValue
  else
    let presence := headerPresence w3
    pointWords h.first h.count
      (playbackHeader .ok (headerVerdict w3) presence (headerFill w3) h.ancestor h.pos h.target)
      fun c => if presence.testBit c then h.slotWord (4 + c) else fillValue

/-- The M-side reads of a memory read of ring slot words, in order (R131). -/
def slotReads (slotBase first count : Nat) : List ReadBurst :=
  if first + count ≤ 8 then [{ addr := slotBase, count := max (first + count) 4 }]
  else [{ addr := slotBase, count := 4 }, { addr := slotBase + 4 * first, count := count }]

end Sys2Proof.Machine
end

