-- ==== Sys2Proof/Machine/JournalDirectives.lean ====
section
/-! DEFINITION. The directives of chapter 10: SET_JOURNAL, ACKNOWLEDGE_EVENTS, SET_ROUTING and SET_MIRROR_PERIOD. -/

namespace Sys2Proof.Machine

/-! ## Set Journal (R166) -/

/-- The journal writer waits on the wait list. -/
def State.journalWaits (s : State) : Bool :=
  s.path.waitList.any fun w => match w with | .journal _ => true | _ => false

/-- The sizes of a journal ring: the powers of two from 16 to 65,536 (R166). -/
def journalSizes : List Nat := [16, 32, 64, 128, 256, 512, 1024, 2048, 4096, 8192, 16384, 32768, 65536]

/-- The words of Set Journal pass step 1 of R166. -/
def journalWordsOk (w : Nat → Word) : Bool :=
  (w 2).toNat == 0 ||
    (journalSizes.contains (w 2).toNat && decide ((w 1).toNat ≤ 3) && joined (w 0) (w 1) % 512 == 0 &&
      decide (joined (w 0) (w 1) + (w 2).toNat * 512 ≤ 2 ^ 34))

/-- The ring a Set Journal asks for shares a byte with the reserved area or a defined station's ring (R166 step 2). -/
def State.journalMeets (s : State) (base size : Nat) : Bool :=
  size != 0 && (overlaps base (size * 512) s.base areaSize || s.meetsRing none base (size * 512))

/-- Replace the journal setting; a change marks G22 dirty (R164). -/
def State.setJournal (s : State) (j : Option JournalSetting) : State :=
  { s with path.journal := j }.markIf (s.path.journal != j) journalGroup

/-- Set Journal (R166). -/
def setJournal (w : Nat → Word) (s : State) : DirOutcome :=
  let base := joined (w 0) (w 1)
  let size := (w 2).toNat
  if journalWordsOk w = false ∨ s.journalMeets base size = true ∨ 0 < s.path.progress ∨ s.journalWaits = true then
    .refused .badParameter []
  else
    let head := match s.track.backlog with
      | e :: _ => wordOf e.seq
      | [] => sequenceWord s.track.nextSeq
    .done (s.setJournal (if size = 0 then none else some { base := base, size := size }))
      [head, wordOf s.track.backlog.length]

/-- SET_JOURNAL (R166), code 0x50. -/
def execSetJournal (s : State) : Result := powered (fun s => s.directive 0x50 setJournal) s

/-! ## Acknowledge Events and Set Routing (R171, R172) -/

/-- Clear the flags a set names (R171). -/
def State.clearFlags (s : State) (set : Word) : State :=
  { s with
    track.trackingFlags := s.track.trackingFlags &&& ~~~set
    path.pathFlags := s.path.pathFlags &&& ~~~set }

/-- A level flag the set names is set again at once while its condition is true (R171). -/
def State.rejudge (s : State) (set : Word) : State :=
  let s1 := if set &&& TrackFlag.announceEmpty.bit ≠ 0 then s.judgeAnnounce else s
  if set &&& TrackFlag.backlogHigh.bit ≠ 0 then s1.judgeBacklog else s1

/-- Acknowledge Events (R171). -/
def acknowledgeEvents (w : Nat → Word) (s : State) : DirOutcome :=
  if w 0 &&& ~~~flagBits ≠ 0 then .refused .badParameter []
  else .done (((s.clearFlags (w 0)).rejudge (w 0)).mark 1) [s.flagSet]

/-- ACKNOWLEDGE_EVENTS (R171), code 0x51. -/
def execAcknowledgeEvents (s : State) : Result := powered (fun s => s.directive 0x51 acknowledgeEvents) s

/-- Load both masks (R172). -/
def State.setMasks (s : State) (alert fault : Word) : State :=
  { s with path.alertMask := alert, track.trackFaultMask := fault }.mark 1

/-- Set Routing (R172). -/
def setRouting (w : Nat → Word) (s : State) : DirOutcome :=
  if w 0 &&& ~~~flagBits ≠ 0 ∨ w 1 &&& ~~~trackingBits ≠ 0 then .refused .badParameter []
  else .done (s.setMasks (w 0) (w 1)) []

/-- SET_ROUTING (R172), code 0x52. -/
def execSetRouting (s : State) : Result := powered (fun s => s.directive 0x52 setRouting) s

/-! ## Set Mirror Period (R176) -/

/-- Replace the mirror period; a running count is dropped and a new one starts from the moment of execution (R176). -/
def State.setPeriod (s : State) (p : Nat) : State :=
  { s with path.period := p, path.periodCount := 0 }.mark 0

/-- Set Mirror Period (R176): the answer is the period replaced. -/
def setMirrorPeriod (w : Nat → Word) (s : State) : DirOutcome :=
  if 1000 < (w 0).toNat then .refused .badParameter []
  else .done (s.setPeriod (w 0).toNat) [wordOf s.path.period]

/-- SET_MIRROR_PERIOD (R176), code 0x53. -/
def execSetMirrorPeriod (s : State) : Result := powered (fun s => s.directive 0x53 setMirrorPeriod) s

end Sys2Proof.Machine
end

