-- ==== Sys2Proof/Machine/Takes.lean ====
section
/-! DEFINITION. When a directive is taken (R156): the take that the unit owes is the part's next step, which is the row of
that directive, or comes before anything else that happens. -/

namespace Sys2Proof.Machine

/-- The directive of a code, as its row takes and executes it (R156, R157; 9.7 of 09). -/
def State.takeCode (s : State) (code : Nat) : State :=
  match code with
  | 0x01 => s.directive 0x01 defineLine
  | 0x02 => s.directive 0x02 defineHolePatterns
  | 0x03 => s.directive 0x03 startTracking
  | 0x04 => s.directive 0x04 stopTracking
  | 0x05 => s.directive 0x05 clearLine
  | 0x06 => s.directive 0x06 setClock
  | 0x10 => s.directive 0x10 (announce .entry)
  | 0x11 => s.directive 0x11 (announce .exit)
  | 0x12 => s.directive 0x12 withdraw
  | 0x13 => s.directive 0x13 injectMarker
  | 0x20 => s.directive 0x20 nameRecord
  | 0x21 => s.directive 0x21 readRecord
  | 0x22 => s.directive 0x22 trace
  | 0x23 => s.takeDescend
  | 0x30 => s.directive 0x30 defineStation
  | 0x31 => s.directive 0x31 defineVerdict
  | 0x32 => s.directive 0x32 activateStation
  | 0x33 => s.directive 0x33 deactivateStation
  | 0x40 => s.directive 0x40 openCursor
  | 0x41 => s.directive 0x41 refreshCursor
  | 0x42 => s.directive 0x42 closeCursor
  | 0x50 => s.directive 0x50 Sys2Proof.Machine.setJournal
  | 0x51 => s.directive 0x51 acknowledgeEvents
  | 0x52 => s.directive 0x52 setRouting
  | 0x53 => s.directive 0x53 setMirrorPeriod
  | _ => s.unknownCode

/-- The unit takes one directive after another while it may take one (R156): a directive that is answered at once leaves
the unit FREE, and it takes the next. Each take removes one slot from the FIFO. -/
def State.takeUpTo : Nat → State → State
  | 0, s => s
  | n + 1, s =>
    match s.headSlot with
    | none => s
    | some k => State.takeUpTo n (s.takeCode (s.slot k).code.toNat)

/-- The takes that are due are made (R156). A take becomes due when a go word is taken into an empty FIFO, when the unit
becomes FREE and when the path enters OPEN, and nothing that happens in the part comes between it and its moment: what the
unit does not take by the row of its directive it takes here, before the effect of any other command and before the
acceptance of any transaction (log 5). -/
def State.takeDue (s : State) : State := State.takeUpTo s.path.fifo.length s

/-- An event reaches the part while its tracking well is powered, after the takes that are due (R156, R177). -/
def afterTakes (f : State → State) (s : State) : Result := powered (fun s => f s.takeDue) s

end Sys2Proof.Machine
end

