-- ==== Sys2Proof/Machine/MemoryPath.lean ====
section
/-! DEFINITION. The P-side port (chapter 8, sections 5.4 and 9.2): acceptance of transactions, what each burst becomes,
intake, directive slots, apertures, and the return of read data: PASS_THROUGH_WRITE, PASS_THROUGH_READ,
DIRECTIVE_SLOT_WRITE, GO_WORD, INTAKE_WRITE, APERTURE_READ, APERTURE_READ_RETURN, READ_DATA_RETURN. -/

namespace Sys2Proof.Machine

/-! ## The memory request queue (R138, R139) -/

/-- Append requests at the tail of the memory request queue, in the order given (R139). -/
def State.request (s : State) (rs : List Request) : State :=
  { s with path.requests := s.path.requests ++ rs }

/-- Hold a read at the port (R135). -/
def State.holdPort (s : State) (h : HeldRead) : State := { s with path.port := some h }

/-- The identities of the bursts that stand in the bookkeeping queue: the mark of a read accepted now (R147). -/
def State.bookkeepingMark (s : State) : List Nat := s.path.bookkeeping.map (·.id)

/-- The data of one read is returned on the P-side, behind what was returned before (R140, log 8). -/
def State.returnData (s : State) (ws : List Word) : State := { s with returned := s.returned ++ [ws] }

/-- The words of a burst that have a byte enable set. -/
def enabledWords (lanes : List Lane) : Nat := (lanes.filter fun x => x.en != 0).length

/-- The free entries a write burst into a part needs (R138). -/
def writeEntries (words : List Lane) : AreaPart → Nat
  | .intake _ _ => enabledWords words
  | _ => 1

/-- The free entries a read burst in a part needs (R138). -/
def readEntries : AreaPart → Nat
  | .aperture _ _ _ => 2
  | _ => 1

/-- The free entries a transaction needs, by its part and direction (R138). -/
def entriesNeeded (base : Nat) : Transaction → Nat
  | .write b => writeEntries b.words (decodeArea base b.addr)
  | .read b => readEntries (decodeArea base b.addr)

/-- A presented transaction is accepted: the path is OPEN, no read holds the port, and its entries fit (R135). -/
def State.accepts (s : State) (t : Transaction) : Bool :=
  s.path.state == .opened && s.path.port.isNone &&
    decide (s.path.requests.length + entriesNeeded s.base t ≤ Config.requestCap)

/-! ## Directive slots (R153, R154) -/

/-- A slot is IDLE. -/
def Slot.isIdle (sl : Slot) : Bool := sl.state == .idle

/-- A parameter word is captured: each byte with its enable set replaces that byte of the shadow word (R153). -/
def State.capturedWord (s : State) (k : Fin 16) (w : Nat) (x : Lane) : State :=
  let sl := s.slot k
  s.setSlot k { sl with shadow := sl.shadow.setIfInBounds w (mergeBytes (sl.word w) x.data x.en) }

/-- A go word is taken: code and tag are stored, the slot becomes QUEUED and joins the FIFO (R154, R162). Into an empty
FIFO of a FREE unit this makes a take due, which comes before anything else (R156, `State.takeDue`). -/
def State.queueSlot (s : State) (k : Fin 16) (w : Word) : State :=
  ({ s with path.fifo := s.path.fifo ++ [k] }.setSlot k
    { s.slot k with state := .queued, code := goCode w, tag := goTag w }).mark 0

/-- A go word with a byte enable set is judged (R154). -/
def State.goWord (s : State) (k : Fin 16) (x : Lane) : State :=
  if (s.slot k).isIdle = false ∨ x.en ≠ 0xF then s.raisePath .accessFault
  else if goCode x.data = 0 then s
  else s.queueSlot k x.data

/-- One word of a write burst into a slot (R153). -/
def State.slotWord (s : State) (k : Fin 16) (w : Nat) (x : Lane) : State :=
  if x.en = 0 then s
  else if w = 127 then s.goWord k x
  else if (s.slot k).isIdle = false then s.raisePath .accessFault
  else if w < 48 then s.capturedWord k w x
  else s

/-- The words of a write burst into a slot, from word `w` upward (R153). -/
def State.slotWords (k : Fin 16) : Nat → List Lane → State → State
  | _, [], s => s
  | w, x :: rest, s => State.slotWords k (w + 1) rest (s.slotWord k w x)

/-! ## Intake (R91 to R95) -/

/-- An open bin with nothing recorded (R93). -/
def OpenBin.empty : OpenBin := { values := .replicate 12 none, fill := 0 }

/-- A value recorded for a channel (R94). -/
def OpenBin.record (b : OpenBin) (c : Nat) (v : Word) : OpenBin :=
  { values := b.values.setIfInBounds c (some v), fill := min (b.fill + 1) 255 }

/-- An intake word is discarded: the count rises and the path flag of its cause is set (R95). -/
def State.discard (s : State) (i : Fin 8) (f : PathFlag) : State :=
  (s.setStation i { s.station i with discarded := satAdd (s.station i).discarded 1 }).raisePath f

/-- The open bin that must be force-sealed before bin b can be opened: the one that shares b's ring slot, else, in a full
table, the oldest (R93). -/
def LiveData.victim (d : LiveData) (slotCount b : Nat) : Option Nat :=
  match d.bins.find? fun e => e.1 % slotCount == b % slotCount with
  | some e => some e.1
  | none => if Config.openBinCap ≤ d.bins.length then d.bins.head?.map (·.1) else none

/-- The present bins up to and including a victim (R93). -/
def LiveData.binsUpTo (d : LiveData) (x : Nat) : Nat := (d.bins.filter fun e => decide (e.1 ≤ x)).length

/-- Bin b of a LIVE station is open or can be opened: it needs no victim, or a forced seal frees its place, which reaches
only bins below b (log 12) and needs as many free places as there are present bins up to the victim (R93). -/
def State.canOpen (s : State) (i : Fin 8) (d : LiveData) (b : Nat) : Bool :=
  (tableGet b d.bins).isSome ||
    match d.victim (s.station i).d.slotCount b with
    | none => true
    | some x => decide (x < b) && decide (d.binsUpTo x ≤ s.bookkeepingFree)

/-- Make the place of bin b, which can be opened, by the forced seal it needs, if any (R93). -/
def State.makePlace (s : State) (i : Fin 8) (d : LiveData) (b : Nat) : State :=
  if (tableGet b d.bins).isSome then s
  else
    match d.victim (s.station i).d.slotCount b with
    | none => s
    | some x => State.sealBins i (x : Int) true d.bins s

/-- A channel word is recorded in its bin; H becomes the greater of H and b (R94). -/
def State.record (s : State) (i : Fin 8) (b c : Nat) (v : Word) : State :=
  match (s.station i).live? with
  | none => s
  | some d =>
    s.setLive i { d with
      bins := tableSet b (((tableGet b d.bins).getD .empty).record c v) d.bins
      highest := max d.highest (b : Int) }

/-- A recorded word: its bin, its window word and its value. -/
structure Recorded where
  bin : Nat
  word : Nat
  value : Word
  deriving DecidableEq, Repr

/-- What intake has done so far: the state and the words recorded, in word order. -/
structure IntakeRun where
  state : State
  recorded : List Recorded

/-- A channel word at a LIVE station, its bin found: recorded once the bin is open or can be opened (R93, R94). -/
def IntakeRun.place (run : IntakeRun) (i : Fin 8) (d : LiveData) (b w : Nat) (v : Word) : IntakeRun :=
  if run.state.canOpen i d b then
    { state := (run.state.makePlace i d b).record i b (w - 4) v, recorded := run.recorded ++ [⟨b, w, v⟩] }
  else { run with state := run.state.discard i .intakeLoss }

/-- A channel word at a LIVE station with reference position R (R92). -/
def IntakeRun.channel (run : IntakeRun) (i : Fin 8) (d : LiveData) (reference w : Nat) (v : Word) : IntakeRun :=
  let sd := (run.state.station i).d
  let p : Int := (reference : Int) - ((sd.offsets[w - 4]?).getD 0)
  if p < 0 ∨ (maxPos : Int) < p then { run with state := run.state.discard i .intakeLoss }
  else
    let b := p.toNat / sd.binLength
    if (b : Int) ≤ d.sealedBin ∨ (b : Int) ≤ d.highest - sd.slotCount then
      { run with state := run.state.discard i .intakeLoss }
    else run.place i d b w v

/-- One word of an intake burst, judged in the order of R91. -/
def IntakeRun.word (i : Fin 8) (reference : Nat) (run : IntakeRun) (w : Nat) (x : Lane) : IntakeRun :=
  let s := run.state
  let st := s.station i
  if x.en = 0 then run
  else if x.en ≠ 0xF ∨ w < 4 ∨ st.state = .off ∨ st.d.channels ≤ w - 4 then
    { run with state := s.discard i .accessFault }
  else
    match st.live? with
    | none => { run with state := s.discard i .intakeLoss }
    | some d => run.channel i d reference w x.data

/-- The words of an intake burst, from window word `w` upward (R91). -/
def intakeWords (i : Fin 8) (reference : Nat) : Nat → List Lane → IntakeRun → IntakeRun
  | _, [], run => run
  | w, x :: rest, run => intakeWords i reference (w + 1) rest (run.word i reference w x)

/-- The write that forwards the words recorded in one bin to the block of its ring slot that window word `w` lies in
(R94). -/
def forwardedWrite (d : StationDef) (recorded : List Recorded) (w b : Nat) : Request :=
  .write (blockBurst (d.ringBase + 64 * (b % d.slotCount) + 32 * (w / 8)) fun j =>
    (recorded.find? fun r => r.bin == b && r.word == w / 8 * 8 + j).map (·.value))

/-- The bins of the recorded words, in the order of the lowest word each carries (R94). -/
def recordedBins : List Recorded → List Nat → List Nat
  | [], seen => seen
  | r :: rest, seen => recordedBins rest (if seen.contains r.bin then seen else seen ++ [r.bin])

/-- A write burst into an intake window, whole (R91 to R95): R is read once. -/
def State.intakeBurst (s : State) (i : Fin 8) (w : Nat) (lanes : List Lane) : State :=
  let run := intakeWords i (s.reference i) w lanes { state := s, recorded := [] }
  run.state.request ((recordedBins run.recorded []).map (forwardedWrite (s.station i).d run.recorded w))

/-! ## What an accepted transaction becomes (R137) -/

/-- A write burst into a part is accepted (R137). -/
def State.acceptWriteAt (s : State) (b : WriteBurst) : AreaPart → State
  | .slot k w => (State.slotWords k w b.words s).request [.write b]
  | .intake i w => s.intakeBurst i w b.words
  | _ => s.request [.write b]

/-- A write burst is accepted (R137). -/
def State.acceptWrite (s : State) (b : WriteBurst) : State := s.acceptWriteAt b (decodeArea s.base b.addr)

/-- An aperture read is accepted: its point is judged, and it is answered at once or goes to memory (R128 to R131). -/
def State.acceptAperture (s : State) (k : Fin 8) (point first count : Nat) : State :=
  match s.judgePoint k point with
  | .answer st a p t =>
    s.returnData (pointWords first count (playbackHeader st false 0 0 a p t) fun _ => fillValue)
  | .unsealed bin a p t => s.returnData (unsealedWords first count bin a p t)
  | .memory d b a p t =>
    let reads := slotReads (d.ringBase + 64 * (b % d.slotCount)) first count
    (s.request (reads.map fun r => .read r s.bookkeepingMark)).holdPort
      (.aperture
        { first := first, count := count, bin := b, tag := d.tag, ancestor := a, pos := p, target := t
          reads := reads.length, got := [] })

/-- A read burst in a part is accepted (R137). -/
def State.acceptReadAt (s : State) (b : ReadBurst) : AreaPart → State
  | .aperture k point w => s.acceptAperture k point w b.count
  | _ => (s.request [.read b s.bookkeepingMark]).holdPort (.passThrough b none)

/-- A read burst is accepted (R137). -/
def State.acceptRead (s : State) (b : ReadBurst) : State := s.acceptReadAt b (decodeArea s.base b.addr)

/-- A transaction is accepted. -/
def State.accept (s : State) : Transaction → State
  | .write b => s.acceptWrite b
  | .read b => s.acceptRead b

/-- Keep the transactions that stay presented. -/
def State.setPresented (s : State) (ts : List Transaction) : State := { s with presented := ts }

/-- Offer transactions to the port in order: those that can be accepted are, up to the first that must wait, which stays
presented with those behind it (R135, log 7). A take that is due comes before the next acceptance (R156). -/
def State.letInList : List Transaction → State → State
  | [], s => s
  | t :: rest, s => if s.accepts t then State.letInList rest (s.takeDue.accept t) else s.setPresented (t :: rest)

/-- Every presented transaction whose conditions hold is accepted (R135). -/
def State.letIn (s : State) : State := State.letInList s.presented (s.setPresented [])

/-- A transaction is presented at the port, behind those already presented (R135). -/
def State.present (s : State) (t : Transaction) : State :=
  State.letInList (s.presented ++ [t]) (s.setPresented [])

/-! ## The P-side commands -/

/-- A write burst is presented; a term that is no burst stops the step (8.1 of 08). -/
def presentWrite (b : WriteBurst) (s : State) : Result :=
  if b.wf then afterTakes (fun s => s.present (.write b)) s else .fault .malformedBurst

/-- A read burst is presented; a term that is no burst stops the step (8.1 of 08). -/
def presentRead (b : ReadBurst) (s : State) : Result :=
  if b.wf then afterTakes (fun s => s.present (.read b)) s else .fault .malformedBurst

/-- PASS_THROUGH_WRITE (R137): what becomes of the burst is decided by its address (log 7). -/
def execPassThroughWrite (b : WriteBurst) (s : State) : Result := presentWrite b s

/-- PASS_THROUGH_READ (R137). -/
def execPassThroughRead (b : ReadBurst) (s : State) : Result := presentRead b s

/-- DIRECTIVE_SLOT_WRITE (R153). -/
def execDirectiveSlotWrite (b : WriteBurst) (s : State) : Result := presentWrite b s

/-- GO_WORD (R154). -/
def execGoWord (b : WriteBurst) (s : State) : Result := presentWrite b s

/-- INTAKE_WRITE (R91 to R95). -/
def execIntakeWrite (b : WriteBurst) (s : State) : Result := presentWrite b s

/-- APERTURE_READ (R128 to R131). -/
def execApertureRead (b : ReadBurst) (s : State) : Result := presentRead b s

/-! ## The return of read data (R132, R140) -/

/-- The port is released (R140). -/
def State.releasePort (s : State) : State := { s with path.port := none }

/-- A pass-through read whose data memory has returned returns it on the P-side and releases the port (R140). -/
def State.returnPassThrough (s : State) : State :=
  match s.path.port with
  | some (.passThrough _ (some ws)) => ((s.returnData ws).releasePort).letIn
  | _ => s

/-- An aperture read whose M-side reads have all completed is answered and releases the port (R132, R140). -/
def State.returnAperture (s : State) : State :=
  match s.path.port with
  | some (.aperture h) =>
    if h.got.length = h.reads then ((s.returnData h.answer).releasePort).letIn else s
  | _ => s

/-- READ_DATA_RETURN (R140): nothing happens while no pass-through read has its data. -/
def execReadDataReturn (s : State) : Result := afterTakes (fun s => s.returnPassThrough) s

/-- APERTURE_READ_RETURN (R132, R140): nothing happens while no aperture read has its data. -/
def execApertureReadReturn (s : State) : Result := afterTakes (fun s => s.returnAperture) s

end Sys2Proof.Machine
end

