-- ==== Sys2Proof/Machine/Journal.lean ====
section
/-! DEFINITION. The journal writer and the status mirror (chapter 10, R187): JOURNAL_ENTRY_BEGIN and MIRROR_GROUP_WRITE. -/

namespace Sys2Proof.Machine

/-! ## The journal writer (R163 to R165) -/

/-- The block written when `progress` bursts have been placed: 1 to 15, then 0 (R165). -/
def journalBlock (progress : Nat) : Nat := if progress < 15 then progress + 1 else 0

/-- The words of one block of a journal entry (R186). -/
def journalBlockWords (e : JournalEntry) (n : Nat) : List Word := ((journalWords e).drop (8 * n)).take 8

/-- The burst the writer has to write next: all 8 words of a block of the slot seq mod size (R164, R165). -/
def State.nextJournalBurst (s : State) : Option WriteBurst :=
  match s.path.journal, s.track.backlog with
  | some j, e :: _ =>
    let n := journalBlock s.path.progress
    some (fullBurst (j.base + 512 * (e.seq % j.size) + 32 * n) (journalBlockWords e n))
  | _, _ => none

/-- Burst 0 has been appended: the entry leaves the backlog, the journal head becomes its number, the progress returns
to 0, BACKLOG_HIGH is judged (R165, R169). -/
def State.entryWritten (s : State) : State :=
  let head := match s.track.backlog with
    | e :: _ => e.seq
    | [] => s.path.journalHead
  { s with track.backlog := s.track.backlog.tail, path.journalHead := head, path.progress := 0 }.judgeBacklog

/-- One burst of the entry in progress has been appended: the progress rises by one, and the sixteenth ends the entry
(R165). -/
def State.journalAppended (s : State) : State :=
  let s1 := s.mark journalGroup
  if s.path.progress < 15 then { s1 with path.progress := s.path.progress + 1 } else s1.entryWritten

/-- The writer offers the bursts of the entry in progress one at a time, in OPEN, until the entry is written or a burst
waits (R143, R165); an entry has 16 bursts. -/
def State.journalOffer : Nat → State → State
  | 0, s => s
  | fuel + 1, s =>
    if s.path.state = .opened then
      match s.nextJournalBurst with
      | none => s
      | some b =>
        if s.canAppend then
          if s.path.progress < 15 then State.journalOffer fuel (s.append b).journalAppended
          else (s.append b).journalAppended
        else s.wait (.journal b)
    else s

/-- The writer begins the entry at the backlog head when it holds none in progress (R165). -/
def State.journalBegin (s : State) : State :=
  if s.path.progress = 0 ∧ s.journalWaits = false then State.journalOffer 16 s else s

/-- The writer goes on with an entry in progress, at the return to OPEN (R165). -/
def State.journalResume (s : State) : State :=
  if 0 < s.path.progress ∧ s.journalWaits = false then State.journalOffer 16 s else s

/-- JOURNAL_ENTRY_BEGIN (R165): nothing happens unless the setting is set, the path OPEN, the backlog not empty and no
entry in progress. -/
def execJournalEntryBegin (s : State) : Result := afterTakes (fun s => s.journalBegin) s

/-! ## The words of the mirror groups (R187) -/

/-- The RUNNING slot. -/
def State.runningSlot (s : State) : Option (Fin 16) :=
  ([0, 1, 2, 3, 4, 5, 6, 7, 8, 9, 10, 11, 12, 13, 14, 15] : List (Fin 16)).find? fun k => (s.slot k).state == .running

/-- The value of a field the spec leaves open when the thing it names is absent: a free value (log 2). -/
def orFree (draw place : Nat) (o : Option Nat) : Nat := o.getD (Config.freeWord draw place).toNat

/-- G0. The RUNNING slot's number is open while none is RUNNING (log 2). -/
def State.partWords (s : State) (draw : Nat) : List Word :=
  [field 1 0 2 ||| field s.path.areaSel.toNat 4 4 ||| field s.path.fifo.length 8 5 |||
     field (orFree draw 0 (s.runningSlot.map (·.val))) 16 4 ||| flagBit s.runningSlot.isNone 20,
   wordOf s.track.table.places.length,
   wordOf (s.track.table.records.filter fun r => r.state != .settled).length,
   wordOf s.track.table.nextSerial,
   low32 s.track.clock.toNat, high16 s.track.clock.toNat, wordOf s.path.period, 0]

/-- G1. -/
def State.flagWords (s : State) : List Word :=
  [s.flagSet, s.path.alertMask, s.track.trackFaultMask, s.track.anomalyCount, 0, 0, 0, 0]

/-- A distance in whole metres, or an age in whole seconds, limited; a difference below 0 is 0 (R187). -/
def thousands (now past limit : Nat) : Nat := min ((now - past) / 1000) limit

/-- The code of a line state. -/
def LineState.code : LineState → Nat
  | .unconfigured => 0
  | .standby => 1
  | .tracking => 2

/-- G2 to G5. The distance of an absent position is open (log 2). The absent marks stand from bit 25 up in the order the rule
lists them (R187, log 24). -/
def State.lineWords (s : State) (draw : Nat) (l : LineId) : List Word :=
  let ln := s.line l
  let serialOf (st : RecordState) : Word := wordOf (((s.findOpen l st).map (·.serial)).getD 0)
  let away (u : SideUnit) (p : Option Nat) (place : Nat) : Nat :=
    orFree draw place (p.map fun q => thousands u.counter q 1023)
  [field ln.state.code 0 2 ||| field ln.matcher.code 2 2 ||| field ln.matcher.holes 4 3 |||
     field ln.seamQueue.length 7 5 ||| field ln.entryQueue.length 12 4 ||| field ln.exitQueue.length 16 4 |||
     field ln.through.length 20 5 ||| flagBit ln.lastSeamIn.isNone 25 ||| flagBit ln.lastExitSeam.isNone 26 |||
     flagBit ln.lastShear.isNone 27,
   low32 ln.entry.counter, low32 ln.exit.counter,
   field (ln.entryQueue.headD 0).toNat 0 16 ||| field (ln.exitQueue.headD 0).toNat 16 16,
   serialOf .loading, serialOf .winding,
   match ln.seamQueue.head? with
   | none => 0
   | some e => field (thousands ln.entry.counter e.pos 65535) 0 16 |||
       field (thousands s.track.clock.toNat e.time.toNat 65535) 16 16,
   field (away ln.entry ln.lastSeamIn 0) 0 10 ||| field (away ln.exit ln.lastExitSeam 1) 10 10 |||
     field (away ln.exit ln.lastShear 2) 20 10]

/-- An integer as a 48-bit two's-complement value. -/
def twos48 (n : Int) : Nat := (n % 2 ^ 48).toNat

/-- The preparation progress of a station, while PREPARING. -/
def Station.progress? (st : Station) : Option Nat :=
  match st.state with
  | .preparing p => some p
  | _ => none

/-- G6 to G13. The place in the preparation queue and the progress are open for a station that has none (log 2). -/
def State.stationWords (s : State) (draw : Nat) (i : Fin 8) : List Word :=
  let st := s.station i
  let c := st.content
  [field c.state 0 2 ||| flagBit st.defn.isSome 2 ||| flagBit c.paused 3 ||| field c.openBins 4 9 |||
     field (orFree draw 0 (s.path.prepQueue.idxOf? i)) 16 3,
   st.incarnation, low32 (twos48 c.sealedBin), low32 (twos48 c.highest),
   field (twos48 c.sealedBin / 2 ^ 32) 0 16 ||| field (twos48 c.highest / 2 ^ 32) 16 16,
   wordOf (orFree draw 1 st.progress?), wordOf st.discarded, 0]

/-- G14 to G21; the fields of a CLOSED cursor are 0. -/
def State.cursorWords (s : State) (k : Fin 8) : List Word :=
  match (s.cursor k).content with
  | (_, none, _) => [0, 0, 0, 0, 0, 0, 0, 0]
  | (state, some d, resolved) =>
    let side := match d.side with | .entry => 0 | .exit => 1
    [field state 0 2 ||| field d.line.val 2 2 ||| field side 4 1, wordOf d.target,
     field d.count 0 11 ||| field resolved 16 11, 0, 0, 0, 0, 0]

/-- G22. Base and size are open while the journal is unset (log 2). -/
def State.journalGroupWords (s : State) (draw : Nat) : List Word :=
  let base := s.path.journal.map (·.base)
  [wordOf (orFree draw 0 base), field (orFree draw 1 (base.map (· / 2 ^ 32))) 0 2,
   wordOf (orFree draw 2 (s.path.journal.map (·.size))), wordOf s.path.journalHead,
   field s.path.progress 0 5 ||| field s.track.backlog.length 8 8 ||| flagBit s.path.journal.isSome 31,
   sequenceWord s.track.nextSeq, 0, 0]

/-- An anomaly log place as four words; absent fields are open (log 2), an empty place is 0. The absent marks stand from bit
23 up in the order the rule lists them (R187, log 24). -/
def anomalyWords (draw place : Nat) (o : Option Anomaly) : List Word :=
  match o with
  | none => [0, 0, 0, 0]
  | some a =>
    let pos := orFree draw place a.pos
    let posHigh := orFree draw (place + 1) (a.pos.map (· / 2 ^ 32))
    [low32 a.time.toNat, wordOf (orFree draw (place + 2) a.serial), wordOf pos,
     field posHigh 0 16 ||| field a.code.code 16 5 ||| field (orFree draw (place + 3) (a.line.map (·.val))) 21 2 |||
       flagBit a.line.isNone 23 ||| flagBit a.pos.isNone 24 ||| flagBit a.serial.isNone 25 |||
       field (a.time.toNat / 2 ^ 32) 26 6]

/-- The entry an anomaly log place holds. -/
def State.anomalyAt (s : State) (place : Nat) : Option Anomaly := (s.track.anomalies[place]?).getD none

/-- The 8 words of a mirror group (R187). -/
def State.groupWords (s : State) (draw : Nat) (g : Fin 39) : List Word :=
  if g.val = 0 then s.partWords draw
  else if g.val = 1 then s.flagWords
  else if h : 2 ≤ g.val ∧ g.val < 6 then s.lineWords draw ⟨g.val - 2, by omega⟩
  else if h : 6 ≤ g.val ∧ g.val < 14 then s.stationWords draw ⟨g.val - 6, by omega⟩
  else if h : 14 ≤ g.val ∧ g.val < 22 then s.cursorWords ⟨g.val - 14, by omega⟩
  else if g.val = 22 then s.journalGroupWords draw
  else
    anomalyWords draw 0 (s.anomalyAt (2 * (g.val - 23))) ++ anomalyWords draw 4 (s.anomalyAt (2 * (g.val - 23) + 1))

/-! ## The mirror's turns (R174, R175) -/

/-- The mirror waits on the wait list. -/
def State.mirrorWaits (s : State) : Bool :=
  s.path.waitList.any fun w => match w with | .mirror _ => true | _ => false

/-- The group after another in the rotation (R175). -/
def nextGroup (g : Fin 39) : Fin 39 := ⟨(g.val + 1) % 39, Nat.mod_lt _ (by decide)⟩

/-- The first dirty group at or after a group, among the next `n` of the rotation (R175). -/
def firstDirty (dirty : Vector Bool 39) : Nat → Fin 39 → Option (Fin 39)
  | 0, _ => none
  | n + 1, g => if dirty[g] then some g else firstDirty dirty n (nextGroup g)

/-- A group is taken: its mark is cleared, the rotation mark moves on, one draw of free values is used (R175). -/
def State.takeGroup (s : State) (g : Fin 39) : State :=
  { s with
    path.dirty := s.path.dirty.set g.val false g.isLt
    path.rotation := nextGroup g
    freeCount := s.freeCount + 1 }

/-- The burst of a mirror group (R174). -/
def State.groupBurst (s : State) (g : Fin 39) : WriteBurst := fullBurst (mirrorAddr s.base g) (s.groupWords s.freeCount g)

/-- A producer's burst is appended, or joins the wait list (R143). -/
def State.offer (s : State) (b : WriteBurst) (w : Waiter) : State := if s.canAppend then s.append b else s.wait w

/-- The mirror takes the first dirty group at or after the rotation mark and offers its burst (R175). -/
def State.mirrorTurn (s : State) : State :=
  if s.path.state = .opened ∧ s.mirrorWaits = false then
    match firstDirty s.path.dirty 39 s.path.rotation with
    | none => s
    | some g => (s.takeGroup g).offer (s.groupBurst g) (.mirror (s.groupBurst g))
  else s

/-- MIRROR_GROUP_WRITE (R175): nothing happens outside OPEN, while a burst of the mirror waits, or with no group dirty. -/
def execMirrorGroupWrite (s : State) : Result := afterTakes (fun s => s.mirrorTurn) s

end Sys2Proof.Machine
end

