-- ==== Sys2Proof/Machine/Arbiter.lean ====
section
/-! DEFINITION. The M-side and its arbiter, the wait list's handoff and the drain (8.5 to 8.7 of 08, 5.3.1 of 05):
M_SIDE_GRANT and M_SIDE_BURST_COMPLETE. -/

namespace Sys2Proof.Machine

/-! ## What the classes offer (R145, R147, R88) -/

/-- A burst writes a byte of a read's address range (R147; a byte whose enable is clear is not written, log 9). The words
of both are aligned, so that they share a byte exactly when they share a word. -/
def sharesByte (r : ReadBurst) (b : WriteBurst) : Bool :=
  (List.range b.words.length).any fun j =>
    ((b.words[j]?).map (·.en)).getD 0 != 0 &&
      decide (r.addr ≤ b.addr + 4 * j) && decide (b.addr + 4 * j < r.addr + 4 * r.count)

/-- A read depends on some burst: one of its mark that is still in the bookkeeping queue and shares a byte (R147). -/
def State.depends (s : State) (r : ReadBurst) (mark : List Nat) : Bool :=
  s.path.bookkeeping.any fun e => mark.contains e.id && sharesByte r e.burst

/-- P is held back, and B promoted: the head of the memory request queue is a read that depends on a burst (R147). -/
def State.heldBack (s : State) : Bool :=
  match s.path.requests with
  | .read r mark :: _ => s.depends r mark
  | _ => false

/-- The fill write ring preparation offers: the empty header to the next slot of the head station, in OPEN (R88). -/
def State.fillWrite (s : State) : Option (Fin 8 × WriteBurst) :=
  if s.path.state = .opened then
    match s.path.prepQueue with
    | [] => none
    | i :: _ =>
      match (s.station i).state with
      | .preparing p =>
        some (i, fullBurst ((s.station i).d.ringBase + 64 * p) (emptyHeader (s.station i).d.tag))
      | _ => none
  else none

/-- The classes of M-side bursts (R145). -/
inductive GrantClass where
  | p
  | b
  | f
  deriving DecidableEq, Repr

/-- P offers a burst it may be granted (R145, R147). -/
def State.pReady (s : State) : Bool := !s.path.requests.isEmpty && !s.heldBack

/-- B offers a burst (R145). -/
def State.bOffers (s : State) : Bool := !s.path.bookkeeping.isEmpty

/-- F offers a burst (R145). -/
def State.fOffers (s : State) : Bool := s.fillWrite.isSome

/-- The class the next grant goes to, if one is made (R144 to R147). -/
def State.grantClass (s : State) : Option GrantClass :=
  if s.path.inProgress.isSome then none
  else
    match s.path.state with
    | .opened =>
      if s.fOffers ∧ 32 ≤ s.path.fCount then some .f
      else if s.bOffers ∧ 8 ≤ s.path.bCount then some .b
      else if s.pReady then some .p
      else if s.bOffers then some .b
      else if s.fOffers then some .f
      else none
    | .draining => if s.pReady then some .p else if s.heldBack then some .b else none
    | .hold => none
    | .down => none

/-! ## The counts (R146) -/

/-- The B count after a grant made in OPEN (R146). -/
def bCountAfter (c : GrantClass) (offers : Bool) (n : Nat) : Nat :=
  match c with
  | .p => if offers then n + 1 else 0
  | .b => 0
  | .f => n

/-- The F count after a grant made in OPEN (R146). -/
def fCountAfter (c : GrantClass) (offers : Bool) (n : Nat) : Nat :=
  match c with
  | .f => 0
  | _ => if offers then n + 1 else 0

/-- Both counts follow a grant made in OPEN; one made in DRAINING leaves them (R146). -/
def State.countGrant (s : State) (c : GrantClass) : State :=
  if s.path.state = .opened then
    { s with
      path.bCount := bCountAfter c s.bOffers s.path.bCount
      path.fCount := fCountAfter c s.fOffers s.path.fCount }
  else s

/-! ## The handoff of a freed place (R143) -/

/-- A producer leaves the head of the wait list. -/
def State.unwait (s : State) : State := { s with path.waitList := s.path.waitList.tail }

/-- The directive unit goes on with the bursts it has not yet offered (R143, R158). -/
def State.resumeAnswer (s : State) : State :=
  match s.path.directiveUnit with
  | .answering k rest => State.offerAnswer k rest s
  | _ => s

/-- The freed place goes to the head of the wait list: its burst, or the header its paused present step forms, is
appended, it leaves the list, and offers what it has further (R143). -/
def State.handoff (s : State) : State :=
  match s.path.waitList with
  | [] => s
  | .sealing i :: _ => s.unwait.resumeSealing i
  | .journal b :: _ => State.journalOffer 16 ((s.unwait.append b).journalAppended)
  | .directive b :: _ => (s.unwait.append b).resumeAnswer
  | .mirror b :: _ => (s.unwait.append b).mirrorTurn

/-! ## Grants (R145, R88, R89) -/

/-- Put a burst in progress on the M-side. -/
def State.start (s : State) (m : MBurst) : State := { s with path.inProgress := some m }

/-- A P grant: the head of the memory request queue is in progress (R145). -/
def State.grantP (s : State) : State :=
  match s.path.requests with
  | [] => s
  | .write b :: rest => { s with path.requests := rest }.start (.pWrite b)
  | .read b _ :: rest => { s with path.requests := rest }.start (.pRead b)

/-- A B grant: the head of the bookkeeping queue is in progress, and its place is handed on (R145, R143). -/
def State.grantB (s : State) : State :=
  match s.path.bookkeeping with
  | [] => s
  | e :: rest => ({ s with path.bookkeeping := rest }.start (.bWrite e.burst)).handoff

/-- The last fill write of a ring has been granted: the station leaves the preparation queue and enters LIVE, and
STATION_READY is set (R89). -/
def State.finishPreparation (s : State) (i : Fin 8) : State :=
  ({ s with path.prepQueue := s.path.prepQueue.tail }.enterLive i).raisePath .stationReady

/-- The preparation progress of the head station rises by one (R88). -/
def State.fillStep (s : State) (i : Fin 8) : State :=
  match (s.station i).state with
  | .preparing p =>
    let s1 := s.setStation i { s.station i with state := .preparing (p + 1) }
    if (s.station i).d.slotCount ≤ p + 1 then s1.finishPreparation i else s1
  | _ => s

/-- An F grant: the fill write is in progress (R88, R89). -/
def State.grantF (s : State) : State :=
  match s.fillWrite with
  | none => s
  | some (i, b) => (s.start (.fWrite b)).fillStep i

/-- A grant to a class, with its counts. -/
def State.grantTo (s : State) (c : GrantClass) : State :=
  match c with
  | .p => (s.countGrant .p).grantP
  | .b => (s.countGrant .b).grantB
  | .f => (s.countGrant .f).grantF

/-- One turn of the arbiter; entries that a grant has freed may admit a transaction (R145, R135). -/
def State.grant (s : State) : State :=
  match s.grantClass with
  | none => s
  | some c => (s.grantTo c).letIn

/-- M_SIDE_GRANT (R145): nothing happens while a burst is in progress or no class has a burst it may be granted. -/
def execMSideGrant (s : State) : Result := afterTakes (fun s => s.grant) s

/-! ## Completion and the drain (R144, R148) -/

/-- The path enters a state; each change marks G0 dirty (R148). -/
def State.setPath (s : State) (p : PathState) : State := { s with path.state := p }.mark 0

/-- The drain condition: a DRAINING path with an empty memory request queue and nothing in progress goes to HOLD (R148). -/
def State.drainCheck (s : State) : State :=
  if s.path.state = .draining ∧ s.path.requests = [] ∧ s.path.inProgress = none then s.setPath .hold else s

/-- The data of a completed M-side read joins the read held at the port (R139, R140). -/
def HeldRead.receive (h : HeldRead) (ws : List Word) : HeldRead :=
  match h with
  | .passThrough b _ => .passThrough b (some ws)
  | .aperture a => .aperture { a with got := a.got ++ [ws] }

/-- The burst in progress is done. -/
def State.idleMSide (s : State) : State := { s with path.inProgress := none }

/-- The burst in progress completes: memory has taken its words, or returned all its data (R144). -/
def State.completeBurst (s : State) (data : List Word) : State :=
  match s.path.inProgress with
  | none => s
  | some (.pRead b) =>
    if data.length < b.count then s
    else ({ s with path.port := s.path.port.map fun (h : HeldRead) => h.receive (data.take b.count) }.idleMSide).drainCheck
  | some _ => s.idleMSide.drainCheck

/-- M_SIDE_BURST_COMPLETE (R144): `data` is what memory returns for a read; data short of the read completes nothing. -/
def execMSideBurstComplete (data : List Word) (s : State) : Result := afterTakes (fun s => s.completeBurst data) s

end Sys2Proof.Machine
end

