-- ==== Sys2Proof/Machine/Events.lean ====
section
/-! DEFINITION. What reaches the line units and the time base, and the turns of the resolver and of the Descend scan, each
after the takes that are due (R156): ENCODER_PULSE, RUN_LEVEL_CHANGE, DIRECTION_LEVEL_CHANGE, MARKER_RAW_TRANSITION,
DEBOUNCE_COMPLETE, TIME_BASE_TICK, MIRROR_PERIOD_COMPLETE, DESCEND_SCAN_VISIT and RESOLVER_TURN. -/

namespace Sys2Proof.Machine

/-- ENCODER_PULSE (R2): a pulse that is not counted is ignored (R3). -/
def execEncoderPulse (l : LineId) (sd : Side) (s : State) : Result :=
  afterTakes (fun s => if (s.line l).counts then s.countPulse l sd else s) s

/-- RUN_LEVEL_CHANGE (R3): RUN is read at the arrival of each pulse; its change has no effect of its own. -/
def execRunLevelChange (l : LineId) (level : Bool) (s : State) : Result :=
  afterTakes (fun s => s.setLine l { s.line l with run := level }) s

/-- DIRECTION_LEVEL_CHANGE (R4): it moves neither counter nor divider. -/
def execDirectionLevelChange (l : LineId) (sd : Side) (forward : Bool) (s : State) : Result :=
  afterTakes (fun s => s.setLine l ((s.line l).setSide sd { (s.line l).side sd with forward := forward })) s

/-- MARKER_RAW_TRANSITION (R18). -/
def execMarkerRawTransition (l : LineId) (i : MarkerInput) (s : State) : Result :=
  afterTakes (fun s => s.rawTransition l i) s

/-- DEBOUNCE_COMPLETE (R19 to R22): the input's pending change completes once its debounce has run out. The completing
tick and a raw transition with debounce time 0 carry the same completion out themselves (R19, log 5). -/
def execDebounceComplete (l : LineId) (i : MarkerInput) (s : State) : Result :=
  afterTakes (fun s => s.completeDue l i) s

/-- TIME_BASE_TICK (R14, R19): every change whose remaining the tick brings to 0 completes with it. A mirror period that an
earlier tick completed is counted before the tick is taken (R176, log 5). -/
def execTimeBaseTick (s : State) : Result :=
  afterTakes (fun s => s.completePeriod.advanceTime.completeAllDue) s

/-- MIRROR_PERIOD_COMPLETE (R176): nothing happens before the count has completed a period. -/
def execMirrorPeriodComplete (s : State) : Result :=
  afterTakes (fun s => s.completePeriod) s

/-- DESCEND_SCAN_VISIT (R77): nothing happens while no scan is in progress. -/
def execDescendScanVisit (s : State) : Result := afterTakes (fun s => s.scanVisit) s

/-- RESOLVER_TURN (R118). -/
def execResolverTurn (s : State) : Result := afterTakes (fun s => s.resolverTurn) s

end Sys2Proof.Machine
end

