-- ==== Sys2Proof/Machine/Power.lean ====
section
/-! DEFINITION. Power wells, path reset and server states (chapter 11, R148 to R150): COLD_START, STANDBY_POWER_LOSS,
PATH_RESET_BEGIN, PATH_RESET_END, SERVER_STATE_CHANGE. -/

namespace Sys2Proof.Machine

/-! ## The server state monitor (R180, R181) -/

/-- The decoded server state (R180). -/
def decodeServer (ssa ssb : Bool) : ServerState :=
  if ssa && ssb then .run else if !ssa && !ssb then .off else .holdRequest

/-- Write the illegal-state mark. -/
def State.setIllegal (s : State) (m : Bool) : State := { s with track.illegalMark := m }

/-- The illegal combination enters its anomaly once and sets the mark; leaving it clears the mark (R181). -/
def State.monitor (s : State) : State :=
  if s.ssa && !s.ssb then
    if s.track.illegalMark then s
    else (s.anomaly .serverStateIllegal none none none).setIllegal true
  else s.setIllegal false

/-! ## Path states (R148, R149) -/

/-- What the return to OPEN sets going: the sealing of each station (R96), the journal entry in progress (R165), the
presented transactions (R135), before which comes the take that is due on entering OPEN (R156). The order is log 6. -/
def State.goOn (s : State) : State := ((allStations.foldl (fun acc i => acc.seal i) s).journalResume).letIn

/-- The path state follows the decoded server state (R148). -/
def State.follow (s : State) (sv : ServerState) : State :=
  match s.path.state, sv with
  | .opened, .run => s
  | .opened, _ => (s.setPath .draining).drainCheck
  | .draining, .run => (s.setPath .opened).goOn
  | .hold, .run => ((s.setPath .opened).markAll).goOn
  | _, _ => s

/-- The server state is decoded while the path well is powered, and acts on the path unless it is DOWN (R180). -/
def State.decodeLines (s : State) : State :=
  if s.pathPower then
    { s with path.server := some (decodeServer s.ssa s.ssb) }.follow (decodeServer s.ssa s.ssb)
  else s

/-- SERVER_STATE_CHANGE (R180, R181, R148). -/
def execServerStateChange (ssa ssb : Bool) (s : State) : Result :=
  afterTakes (fun s => (State.monitor { s with ssa := ssa, ssb := ssb }).decodeLines) s

/-! ## Path reset (R179, R150) -/

/-- A path reset begins: path-well state is lost, presented transactions are not accepted (R150), and the records of each
station whose LIVE period ends are checked (R69). AREA_SEL stays as sampled until the reset ends (R136). -/
def State.beginPathReset (s : State) : State :=
  (allStations.filter fun i => (s.station i).live?.isSome).foldl (fun acc i => acc.settleStation i)
    { s with path := .reset s.path.areaSel, presented := [] }

/-- PRST is asserted, or the path well loses its supply and with it the decoded state (R179). -/
def State.beginCause (s : State) (c : ResetCause) : State :=
  match c with
  | .prstAsserted => { s with prst := true }
  | .supplyLost => { s with pathPower := false, path.server := none }

/-- PATH_RESET_BEGIN (R179): while the path is DOWN the cause extends the path reset and begins no second one. -/
def execPathResetBegin (c : ResetCause) (s : State) : Result :=
  afterTakes
    (fun s => if s.path.state = .down then s.beginCause c else (s.beginCause c).beginPathReset) s

/-- The path state a path reset ends in, before the drain is judged (R179 step 3). -/
def pathAfterReset (sv : ServerState) : PathState :=
  match sv with
  | .run => .opened
  | _ => .draining

/-- A path reset ends: reset values, AREA_SEL sampled, server state decoded, path OPEN or DRAINING (R179). -/
def State.endPathReset (s : State) (straps : BitVec 4) : State :=
  let sv := decodeServer s.ssa s.ssb
  State.letIn
    (State.drainCheck { s with path := { PathWell.reset straps with state := pathAfterReset sv, server := some sv } })

/-- PRST is negated, or the path well's supply returns (R179). -/
def State.endCause (s : State) (c : ResetEnd) : State :=
  match c with
  | .prstNegated => { s with prst := false }
  | .supplyReturned => { s with pathPower := true }

/-- Both conditions for the end of a path reset hold: the path is DOWN, its well is powered and PRST is negated (R179). -/
def State.resetOver (s : State) : Bool := s.path.state == .down && s.pathPower && !s.prst

/-- The path reset ends at the first moment both of its conditions hold (R179), and else goes on. -/
def State.endIfOver (s : State) (straps : BitVec 4) : State := if s.resetOver then s.endPathReset straps else s

/-- PATH_RESET_END (R179): the pin moves, and with it the path reset ends once both of its conditions hold. -/
def execPathResetEnd (c : ResetEnd) (straps : BitVec 4) (s : State) : Result :=
  afterTakes (fun s => (s.endCause c).endIfOver straps) s

/-! ## Supplies (R177, R178) -/

/-- The part with every block at its cold-start values and the path DOWN, as the path reset that forms part of a cold
start begins (R178). The pending commands, the
record of returned data and the count of free values drawn are the model's own and stay (log 1, log 8, log 2). -/
def State.coldWith (s : State) (lv : Levels) : State :=
  { powered := true, pathPower := lv.serverSupply, prst := lv.prst, ssa := lv.ssa, ssb := lv.ssb
    track := .cold lv, path := .reset 0, presented := [], returned := s.returned
    freeCount := s.freeCount, pending := s.pending }

/-- COLD_START (R178, R181): the path reset that forms part of it ends within it where the server supply is present and
PRST negated, since both conditions of R179 then hold as it begins; else the path stays DOWN until a PATH_RESET_END. -/
def execColdStart (lv : Levels) (s : State) : Result := .next ((s.coldWith lv).monitor.endIfOver lv.areaSel)

/-- The part without supply: it holds no state; its fields stand at cold-start values that nothing reads (R177, log 4). -/
def State.unpowered (s : State) : State :=
  { powered := false, pathPower := false, prst := s.prst, ssa := s.ssa, ssb := s.ssb
    track := .cold Levels.quiet, path := .reset 0, presented := [], returned := s.returned
    freeCount := s.freeCount, pending := s.pending }

/-- STANDBY_POWER_LOSS (R177): both wells lose their supply at once. -/
def execStandbyPowerLoss (s : State) : Result := .next s.unpowered

end Sys2Proof.Machine
end

