-- ==== Sys2Proof/Machine/Dispatch.lean ====
section
/-! DEFINITION. The meaning of each command, one arm per constructor. -/

namespace Sys2Proof.Machine

def exec (i : Instr) (s : State) : Host.Outcome State Fault Refusal :=
  match i with
  | .coldStart levels => Sys2Proof.Machine.execColdStart levels s
  | .standbyPowerLoss => Sys2Proof.Machine.execStandbyPowerLoss s
  | .pathResetBegin cause => Sys2Proof.Machine.execPathResetBegin cause s
  | .pathResetEnd cause straps => Sys2Proof.Machine.execPathResetEnd cause straps s
  | .serverStateChange ssa ssb => Sys2Proof.Machine.execServerStateChange ssa ssb s
  | .encoderPulse line side => Sys2Proof.Machine.execEncoderPulse line side s
  | .runLevelChange line level => Sys2Proof.Machine.execRunLevelChange line level s
  | .directionLevelChange line side forward => Sys2Proof.Machine.execDirectionLevelChange line side forward s
  | .timeBaseTick => Sys2Proof.Machine.execTimeBaseTick s
  | .markerRawTransition line input => Sys2Proof.Machine.execMarkerRawTransition line input s
  | .debounceComplete line input => Sys2Proof.Machine.execDebounceComplete line input s
  | .passThroughWrite burst => Sys2Proof.Machine.execPassThroughWrite burst s
  | .passThroughRead burst => Sys2Proof.Machine.execPassThroughRead burst s
  | .directiveSlotWrite burst => Sys2Proof.Machine.execDirectiveSlotWrite burst s
  | .goWord burst => Sys2Proof.Machine.execGoWord burst s
  | .intakeWrite burst => Sys2Proof.Machine.execIntakeWrite burst s
  | .apertureRead burst => Sys2Proof.Machine.execApertureRead burst s
  | .apertureReadReturn => Sys2Proof.Machine.execApertureReadReturn s
  | .readDataReturn => Sys2Proof.Machine.execReadDataReturn s
  | .mSideGrant => Sys2Proof.Machine.execMSideGrant s
  | .mSideBurstComplete data => Sys2Proof.Machine.execMSideBurstComplete data s
  | .journalEntryBegin => Sys2Proof.Machine.execJournalEntryBegin s
  | .mirrorGroupWrite => Sys2Proof.Machine.execMirrorGroupWrite s
  | .mirrorPeriodComplete => Sys2Proof.Machine.execMirrorPeriodComplete s
  | .resolverTurn => Sys2Proof.Machine.execResolverTurn s
  | .descendScanVisit => Sys2Proof.Machine.execDescendScanVisit s
  | .unknownCode => Sys2Proof.Machine.execUnknownCode s
  | .defineLine => Sys2Proof.Machine.execDefineLine s
  | .defineHolePatterns => Sys2Proof.Machine.execDefineHolePatterns s
  | .startTracking => Sys2Proof.Machine.execStartTracking s
  | .stopTracking => Sys2Proof.Machine.execStopTracking s
  | .clearLine => Sys2Proof.Machine.execClearLine s
  | .setClock => Sys2Proof.Machine.execSetClock s
  | .announceEntry => Sys2Proof.Machine.execAnnounceEntry s
  | .announceExit => Sys2Proof.Machine.execAnnounceExit s
  | .withdraw => Sys2Proof.Machine.execWithdraw s
  | .injectMarker => Sys2Proof.Machine.execInjectMarker s
  | .nameRecord => Sys2Proof.Machine.execNameRecord s
  | .readRecord => Sys2Proof.Machine.execReadRecord s
  | .trace => Sys2Proof.Machine.execTrace s
  | .descend => Sys2Proof.Machine.execDescend s
  | .defineStation => Sys2Proof.Machine.execDefineStation s
  | .defineVerdict => Sys2Proof.Machine.execDefineVerdict s
  | .activateStation => Sys2Proof.Machine.execActivateStation s
  | .deactivateStation => Sys2Proof.Machine.execDeactivateStation s
  | .openCursor => Sys2Proof.Machine.execOpenCursor s
  | .refreshCursor => Sys2Proof.Machine.execRefreshCursor s
  | .closeCursor => Sys2Proof.Machine.execCloseCursor s
  | .setJournal => Sys2Proof.Machine.execSetJournal s
  | .acknowledgeEvents => Sys2Proof.Machine.execAcknowledgeEvents s
  | .setRouting => Sys2Proof.Machine.execSetRouting s
  | .setMirrorPeriod => Sys2Proof.Machine.execSetMirrorPeriod s

end Sys2Proof.Machine
end

