-- ==== Sys2Proof/Safety.lean ====
section
/-! DEFINITION. What counts as a safe run, and the terms the statements are written in: the invariants of the part, when a
directive is taken, and how it completes. -/

namespace Sys2Proof.Machine

/-! ## A run stops nowhere but on a term that is no command -/

/-- A state whose waiting commands are all well formed: none of them can stop the part. -/
def State.safe (s : State) : Bool := s.pending.all Instr.wf

/-! ## Invariants -/

/-- The path flag positions of a flag set (R184). -/
def pathBits : Word := 0x1F00

/-- The journal backlog, the bookkeeping queue and the memory request queue hold no more than they can (R163, R142,
R139). -/
abbrev State.QueuesOk (s : State) : Prop :=
  s.track.backlog.length ≤ 128 ∧ s.path.bookkeeping.length ≤ 64 ∧ s.path.requests.length ≤ 32

/-- The positions of a flag set that hold no flag read 0, in the flags and in both masks (R184, R172). -/
abbrev State.FlagsOk (s : State) : Prop :=
  s.track.trackingFlags &&& ~~~trackingBits = 0 ∧ s.path.pathFlags &&& ~~~pathBits = 0 ∧
    s.path.alertMask &&& ~~~flagBits = 0 ∧ s.track.trackFaultMask &&& ~~~trackingBits = 0

/-- Every LIVE station's open-bin table is in its one canonical form, bin numbers rising, and each open bin lies above the
sealed bin (R81). -/
abbrev State.BinsOk (s : State) : Prop :=
  ∀ (i : Fin 8) (d : LiveData), (s.station i).state = .live d →
    tableWf d.bins = true ∧ ∀ e ∈ d.bins, d.sealedBin < (e.1 : Int)

/-- A station definition lies in the ranges Define Station admits (R82, R83). -/
abbrev StationDef.InRange (d : StationDef) : Prop :=
  d.ringBase % 64 = 0 ∧ (∃ n : Fin 21, 9 ≤ n.val ∧ d.slotCount = 2 ^ n.val) ∧
    d.ringBase + d.slotCount * 64 ≤ 17179869184 ∧ 10 ≤ d.binLength ∧ d.binLength ≤ 65535 ∧ d.settle ≤ 500000 ∧
    d.settle / d.binLength ≤ 200 ∧ 1 ≤ d.channels ∧ d.channels ≤ 12 ∧
    ∀ c : Fin 12, -100000 ≤ d.offsets[c] ∧ d.offsets[c] ≤ 100000

/-- Every defined station's definition lies in its ranges (R82, R84). -/
abbrev State.DefinitionsOk (s : State) : Prop :=
  ∀ (i : Fin 8) (d : StationDef), (s.station i).defn = some d → d.InRange

/-- Every position counter lies from 0 to 2^48 − 1 (R1). -/
abbrev State.CountersOk (s : State) : Prop :=
  ∀ l : LineId, (s.line l).entry.counter ≤ 281474976710655 ∧ (s.line l).exit.counter ≤ 281474976710655

/-- The coil table holds at most one record in each of its 8192 places, and the identity map one entry for a number:
both in their one canonical form, keys rising (R56, R65). -/
abbrev State.TableOk (s : State) : Prop :=
  tableWf s.track.table.places = true ∧ (∀ e ∈ s.track.table.places, e.1 < 8192) ∧
    tableWf s.track.table.idMap = true

/-- A path in HOLD has drained: its memory request queue is empty and no burst is in progress (R148). -/
abbrev State.HoldOk (s : State) : Prop :=
  s.path.state = .hold → s.path.requests = [] ∧ s.path.inProgress = none

/-- No two records have one serial, and every serial is from 1 to 4,294,967,295 and below the next-serial counter, unless
the counter has given its last (R56). -/
abbrev State.SerialsOk (s : State) : Prop :=
  (s.track.table.records.map (·.serial)).Nodup ∧ s.track.table.nextSerial ≤ 4294967295 ∧
    ∀ r ∈ s.track.table.records, 1 ≤ r.serial ∧ r.serial ≤ 4294967295 ∧
      (s.track.table.nextSerial = 0 ∨ r.serial < s.track.table.nextSerial)

/-- The slot the directive unit has in hand (R156). -/
def UnitState.slot? : UnitState → Option (Fin 16)
  | .free => none
  | .scanning k _ _ _ _ => some k
  | .answering k _ => some k

/-- The FIFO holds each QUEUED slot once and no other, and the RUNNING slot is the one the unit has in hand (R155, R156). -/
abbrev State.SlotsOk (s : State) : Prop :=
  s.path.fifo.Nodup ∧ (∀ k : Fin 16, k ∈ s.path.fifo ↔ (s.slot k).state = .queued) ∧
    ∀ k : Fin 16, (s.slot k).state = .running ↔ s.path.directiveUnit.slot? = some k

/-- The path of a powered part is DOWN exactly while a path reset lasts: its well is unpowered, or PRST is asserted (R177,
R179). -/
abbrev State.ResetOk (s : State) : Prop :=
  s.powered = true → (s.path.state = .down ↔ s.pathPower = false ∨ s.prst = true)

/-- A cold start at these levels finds both conditions for the end of its path reset: the server supply is present and
PRST is negated (R178, R179). -/
abbrev bringsPathUp (lv : Levels) : Prop := lv.serverSupply = true ∧ lv.prst = false

/-- No transaction that could be accepted stays presented: the first one presented finds the path not OPEN, the port
held by a read, or too few free entries (R135). -/
abbrev State.AcceptOk (s : State) : Prop :=
  ∀ t rest, s.presented = t :: rest →
    s.path.state ≠ .opened ∨ s.path.port ≠ none ∨ 32 < s.path.requests.length + entriesNeeded s.base t

/-! ## When a take is due (R156) -/

/-- No take is due: the unit has a directive in hand, the FIFO is empty, or the path is in HOLD or DOWN (R156). -/
abbrev State.NothingToTake (s : State) : Prop :=
  s.path.directiveUnit = .free → s.path.fifo ≠ [] → s.path.state ≠ .opened ∧ s.path.state ≠ .draining

/-- The tracking well is powered and no take is due, so that the next command has its own effect first (R177, R156). -/
abbrev State.Ready (s : State) : Prop := s.powered = true ∧ s.NothingToTake

/-! ## The P-side -/

/-- The four rows that present a write burst; its address decides what becomes of it (R137, log 7). -/
def asWrite (b : WriteBurst) : List Instr := [.passThroughWrite b, .directiveSlotWrite b, .goWord b, .intakeWrite b]

/-- The two rows that present a read burst (R137, log 7). -/
def asRead (b : ReadBurst) : List Instr := [.passThroughRead b, .apertureRead b]

/-- The port takes a transaction now, if its entries fit: the path is OPEN, no read holds the port and nothing else is
presented (R135). -/
abbrev State.PortReady (s : State) : Prop :=
  s.Ready ∧ s.path.state = .opened ∧ s.path.port = none ∧ s.presented = []

/-- The state with one more request at the tail of the memory request queue (R139). -/
abbrev State.withRequest (s : State) (r : Request) : State := { s with path.requests := s.path.requests ++ [r] }

/-- The state with a path flag set, and G1 dirty if it was not (R170). -/
abbrev State.withPathFlag (s : State) (bit : Word) : State :=
  { s with
    path.pathFlags := s.path.pathFlags ||| bit
    path.dirty := if s.path.pathFlags &&& bit = 0 then s.path.dirty.set 1 true else s.path.dirty }

/-- The offset of the channel of an intake window's word w (R92). -/
def State.channelOffset (s : State) (i : Fin 8) (w : Nat) : Int := ((s.station i).d.offsets[w - 4]?).getD 0

/-- Word w of the window of a LIVE station falls in bin b at the reference position read for its burst (R92). -/
abbrev State.Files (s : State) (i : Fin 8) (reference w : Nat) (d : LiveData) (b : Nat) : Prop :=
  (s.station i).state = .live d ∧ 4 ≤ w ∧ w - 4 < (s.station i).d.channels ∧
    ∃ p : Nat, (p : Int) = reference - s.channelOffset i w ∧ p ≤ 281474976710655 ∧ b = p / (s.station i).d.binLength

/-- A word is discarded at a station: its count rises by one and stays at 4,294,967,295, and the path flag of the cause
is set (R95). -/
abbrev State.Discards (s : State) (i : Fin 8) (bit : Word) (t : State) : Prop :=
  t = { s with
    path.stations := s.path.stations.set i.val
      { s.station i with discarded := min ((s.station i).discarded + 1) 4294967295 } i.isLt
    path.pathFlags := s.path.pathFlags ||| bit, path.dirty := t.path.dirty }

/-- A value is recorded for channel c in bin b of a LIVE station: the value replaces the channel's, the fill count rises
by one and stays at 255, H becomes the greater of H and b (R94). -/
abbrev State.Records (s : State) (i : Fin 8) (d : LiveData) (b c : Nat) (v : Word) (t : State) : Prop :=
  t = { s with
    path.stations := s.path.stations.set i.val
      { s.station i with
        state := .live { d with
          bins := tableSet b
            { values := ((tableGet b d.bins).getD .empty).values.setIfInBounds c (some v)
              fill := min (((tableGet b d.bins).getD .empty).fill + 1) 255 } d.bins
          highest := max d.highest (b : Int) } } i.isLt
    path.dirty := t.path.dirty }

/-- The words `first` to `first + count - 1` of a point are returned with a status and the fields of its header, and the
fill value for every channel (R129). -/
abbrev State.withAnswer (s : State) (first count : Nat) (st : PointStatus) (ancestor pos : Nat) (target : Int) : State :=
  { s with
    returned := s.returned ++
      [pointWords first count (playbackHeader st false 0 0 ancestor pos target) fun _ => 0x80000000] }

/-! ## One part of a state replaced, and nothing else -/

/-- The state with another line unit. -/
abbrev State.withLine (s : State) (l : LineId) (ln : Line) : State :=
  { s with track.lines := s.track.lines.set l.val ln l.isLt }

/-- The state with another station. -/
abbrev State.withStation (s : State) (i : Fin 8) (st : Station) : State :=
  { s with path.stations := s.path.stations.set i.val st i.isLt }

/-- The state with another cursor. -/
abbrev State.withCursor (s : State) (k : Fin 8) (c : Cursor) : State :=
  { s with path.cursors := s.path.cursors.set k.val c k.isLt }

/-- The state with other tracking flags. -/
abbrev State.withFlags (s : State) (w : Word) : State := { s with track.trackingFlags := w }

/-- The tracking flags once ANNOUNCE_EMPTY has been judged in a state: the flag is set when its condition holds (R169). -/
def State.flagsJudged (s : State) : Word :=
  if s.announceEmpty then s.track.trackingFlags ||| 0x4 else s.track.trackingFlags

/-! ## Taking and completing a directive (R156 to R158) -/

/-- The unit takes the directive of slot k now, and its stored code is `code` (R156). -/
abbrev State.Takes (s : State) (k : Fin 16) (code : BitVec 8) : Prop :=
  s.powered = true ∧ s.path.directiveUnit = .free ∧ (s.path.state = .opened ∨ s.path.state = .draining) ∧
    s.path.fifo.head? = some k ∧ (s.slot k).code = code

/-- A parameter word of slot k (R152). -/
def State.param (s : State) (k : Fin 16) (i : Nat) : Word := (s.slot k).word i

/-- Every burst of a result has been appended, for which there was room: the slot is IDLE, DIRECTIVE_DONE set, the unit
FREE (R158). -/
structure State.Placed (e t : State) (k : Fin 16) (bursts : List WriteBurst) : Prop where
  room : e.path.waitList = [] ∧ e.path.bookkeeping.length + bursts.length ≤ 64
  queue : t.path.bookkeeping.map (·.burst) = e.path.bookkeeping.map (·.burst) ++ bursts
  waits : t.path.waitList = e.path.waitList
  slot : t.slot k = { e.slot k with state := .idle }
  done : t.path.pathFlags = e.path.pathFlags ||| 0x100
  unit : t.path.directiveUnit = .free

/-- The bookkeeping queue had no place, or was filled by the bursts `placed`: the next burst waits on the wait list, and
the unit holds the rest (R143, R158). -/
structure State.Waits (e t : State) (k : Fin 16) (bursts : List WriteBurst) : Prop where
  split : ∃ placed b rest, bursts = placed ++ b :: rest ∧
    t.path.bookkeeping.map (·.burst) = e.path.bookkeeping.map (·.burst) ++ placed ∧
    t.path.waitList = e.path.waitList ++ [.directive b] ∧ t.path.directiveUnit = .answering k rest ∧
    (e.path.waitList ≠ [] ∧ placed = [] ∨ 64 ≤ e.path.bookkeeping.length + placed.length)
  slot : t.slot k = e.slot k
  flags : t.path.pathFlags = e.path.pathFlags

/-- A directive of slot k has been executed: `e` is the state in which the slot has been taken (`State.beginDirective`)
with the directive's effect, and in `t` the result, with its status word and answer words, has been placed or waits.
Everything the directive unit and the bookkeeping queue do not hold is as in `e`, but for dirty marks, of which none is
cleared (R156 to R159). -/
structure State.Completes (e t : State) (k : Fin 16) (reason : Option Reason) (answer : List Word) : Prop where
  part : t = { e with path := t.path }
  path : t.path =
    { e.path with
      slots := t.path.slots, bookkeeping := t.path.bookkeeping, nextId := t.path.nextId, waitList := t.path.waitList
      directiveUnit := t.path.directiveUnit, dirty := t.path.dirty, pathFlags := t.path.pathFlags }
  marks : ∀ g : Fin 39, e.path.dirty[g] = true → t.path.dirty[g] = true
  others : ∀ j, j ≠ k → t.slot j = e.slot j
  result :
    e.Placed t k (resultBursts e.base k answer (statusWord (e.slot k).tag reason answer.length)) ∨
      e.Waits t k (resultBursts e.base k answer (statusWord (e.slot k).tag reason answer.length))

/-- The pattern the nine words of slot j give (R25): unused, or from 2 to 8 holes with a class and spacings from 1 to
10,000 mm. The class of an unused slot is the model's (log 15). -/
abbrev PatternGiven (w : Nat → Word) (j : Nat) (p : PatternSlot) : Prop :=
  ((w (2 + 9 * j)).toNat = 0 ∧ p = { cls := .seam, holes := 0, spacings := [] }) ∨
  (2 ≤ (w (2 + 9 * j)).toNat ∧ (w (2 + 9 * j)).toNat ≤ 8 ∧ (w (1 + 9 * j)).toNat ≤ 1 ∧
    p.cls = (if (w (1 + 9 * j)).toNat = 0 then .seam else .tag) ∧ p.holes = (w (2 + 9 * j)).toNat ∧
    p.spacings.length = (w (2 + 9 * j)).toNat - 1 ∧
    ∀ i, i < (w (2 + 9 * j)).toNat - 1 → p.spacings[i]? = some (w (3 + 9 * j + i)).toNat ∧
      1 ≤ (w (3 + 9 * j + i)).toNat ∧ (w (3 + 9 * j + i)).toNat ≤ 10000)

/-- A line is clear: seam queue and through list empty, no LOADING and no WINDING record (R7). -/
abbrev State.Clear (s : State) (l : LineId) : Prop :=
  (s.line l).seamQueue = [] ∧ (s.line l).through = [] ∧
    ∀ r ∈ s.track.table.records, r.line = l → r.state ≠ .loading ∧ r.state ≠ .winding

/-- The state with its LOADING, CLOSED and WINDING records of a line force-settled, in their places (R54, R71). -/
def settledByClear (l : LineId) (places : List (Nat × Record)) : List (Nat × Record) :=
  places.map fun e =>
    if e.2.line = l ∧ (e.2.state = .loading ∨ e.2.state = .closed ∨ e.2.state = .winding) then
      (e.1, { e.2 with state := .settled, flags.forced := true })
    else e

/-- An event at p passes the plausibility test: no last position, or p at least the last position plus the spacing
(R40). -/
abbrev Passes (last : Option Nat) (spacing p : Nat) : Prop := ∀ q, last = some q → q + spacing ≤ p

/-- Two ranges of memory share a byte. -/
abbrev SharesMemory (a alen b blen : Nat) : Prop := a < b + blen ∧ b < a + alen

/-- The command runs, and what it leaves is a directive of slot k executed with the effect `e`: DONE with `answer`, or
REFUSED with a reason (R157). -/
abbrev Runs (i : Instr) (s e : State) (k : Fin 16) (reason : Option Reason) (answer : List Word) : Prop :=
  ∃ t, exec i s = .next t ∧ e.Completes t k reason answer

/-! ## Rings, chains, cursors and lists (R82, R104, R35, R41) -/

/-- The words of Define Station lie in their ranges, and the ring below 2^34 (R82, R83 step 3). -/
abbrev StationGiven (w : Nat → Word) : Prop :=
  (w 2).toNat % 64 = 0 ∧ (w 3).toNat ≤ 3 ∧ (∃ n, 9 ≤ n ∧ n ≤ 20 ∧ (w 4).toNat = 2 ^ n) ∧
  10 ≤ (w 5).toNat ∧ (w 5).toNat ≤ 65535 ∧ (w 7).toNat ≤ 500000 ∧ 1 ≤ (w 8).toNat ∧ (w 8).toNat ≤ 12 ∧
  (∀ c, c < (w 8).toNat → -100000 ≤ (w (9 + c)).toInt ∧ (w (9 + c)).toInt ≤ 100000) ∧
  (w 7).toNat / (w 5).toNat ≤ 200 ∧
  (w 2).toNat + (w 3).toNat * 4294967296 + (w 4).toNat * 64 ≤ 17179869184

/-- A range of memory shares a byte with the reserved area or with the ring of a defined station other than `but` (R83,
R166). -/
abbrev State.MeetsPart (s : State) (but : Option (Fin 8)) (base len : Nat) : Prop :=
  SharesMemory base len s.base 0x100000 ∨
    ∃ j d, some j ≠ but ∧ (s.station j).defn = some d ∧ SharesMemory base len d.ringBase (d.slotCount * 64)

/-- The four words of a term give it: an operation, and for a condition a test, a channel below the count and a
threshold, which a block term and PRESENT do not read (R104); the 0 a PRESENT term holds for it is the model's (log 23). -/
def TermGiven (channels : Nat) (op test ch thr : Word) : Term → Prop
  | .cond o t c v =>
    op.toNat = (match o with | .load => 0 | .loadNot => 1 | .and => 2 | .andNot => 3 | .or => 4 | .orNot => 5) ∧
      test.toNat = (match t with | .gt => 0 | .ge => 1 | .lt => 2 | .le => 3 | .present => 4) ∧
      ch.toNat = c ∧ c < channels ∧ v = if t = .present then 0 else thr
  | .block o => op.toNat = match o with | .andBlock => 6 | .orBlock => 7

/-- A term pushes a result (R106). -/
def Term.pushes : Term → Bool
  | .cond .load _ _ _ => true
  | .cond .loadNot _ _ _ => true
  | _ => false

/-- The results a term takes from the stack (R106). -/
def Term.takes : Term → Nat
  | .cond .load _ _ _ => 0
  | .cond .loadNot _ _ _ => 0
  | .cond _ _ _ _ => 1
  | .block _ => 2

/-- The depth of the result stack after the terms of a chain (R106, R109). -/
def depthAfter (chain : List Term) (b : OpenBin) : Nat := (chain.foldl (fun st t => t.apply b st) []).length

/-- The records of a table once those of a station that are THROUGH or CUT have settled (R90, R69, R70). -/
def settledAtStation (i : Fin 8) (places : List (Nat × Record)) : List (Nat × Record) :=
  places.map fun e =>
    if e.2.station = i ∧ (e.2.state = .through ∨ e.2.state = .cut) then (e.1, { e.2 with state := .settled }) else e

/-- A record settles when a path reset ends the LIVE period of its tally station: it is THROUGH or CUT (R68, R69). -/
abbrev State.SettlesAtReset (s : State) (r : Record) : Prop :=
  (s.station r.station).live?.isSome = true ∧ (r.state = .through ∨ r.state = .cut)

/-- The collections and queues of every line hold no more than they can, and no number stands twice in one queue (R35,
R36, R42, R43). -/
abbrev State.LinesOk (s : State) : Prop :=
  ∀ l : LineId, (s.line l).seamQueue.length ≤ 16 ∧ (s.line l).through.length ≤ 16 ∧
    (s.line l).entryQueue.length ≤ 8 ∧ (s.line l).entryQueue.Nodup ∧
    (s.line l).exitQueue.length ≤ 8 ∧ (s.line l).exitQueue.Nodup

/-- A line has at most one LOADING and at most one WINDING record (R41, R46). -/
abbrev State.OpenOk (s : State) : Prop :=
  ∀ r ∈ s.track.table.records, ∀ r' ∈ s.track.table.records, r.line = r'.line → r.state = r'.state →
    r.state = .loading ∨ r.state = .winding → r = r'

/-- A record as a seam or a cut opens it: the next serial, the head of the queue, every tally 0 (R37, R41, R46, R57). -/
abbrev opened (n : Nat) (kind : Kind) (l : LineId) (state : RecordState) (identity : Option Word) (t : Time) (p : Nat)
    (source : Option Nat) : Record :=
  { serial := n, kind := kind, line := l, identity := identity, state := state
    flags := ⟨false, false, false, false, false⟩, openedAt := t, closedAt := none, start := p, stop := none
    exitStart := none, exitEnd := none, elongation := none, source := source, segments := [], tags := []
    tally := ⟨0, 0, 0⟩ }

/-- An anomaly stands in the log: its code, line, position and serial, with the clock (R168). -/
abbrev State.Logged (s : State) (code : AnomalyCode) (line : Option LineId) (pos serial : Option Nat) (time : Time) :
    Prop :=
  ∃ (i : Fin 32) (n : Word),
    s.track.anomalies[i] = some { number := n, time := time, code := code, line := line, pos := pos, serial := serial }

/-- The exit-open record of a line: at the tail of the through list, present and not SETTLED, its exit end absent (R43,
R50). -/
abbrev State.ExitOpen (s : State) (l : LineId) (r : Record) : Prop :=
  ∃ n, (s.line l).through.getLast? = some n ∧ s.find n = some r ∧ r.exitEnd = none ∧ r.state ≠ .settled

/-- The tail of a line's through list leaves it at an exit seam: it is lost, or SETTLED with its exit end absent (R50). -/
abbrev State.TailLeaves (s : State) (l : LineId) : Prop :=
  ∃ n, (s.line l).through.getLast? = some n ∧ ∀ r, s.find n = some r → r.exitEnd = none ∧ r.state = .settled

/-- A record's settle condition: its station is not LIVE, or has sealed up to the record's end (R68). -/
abbrev State.SettlesAt (s : State) (r : Record) (stop : Nat) : Prop :=
  ∀ d, (s.station r.station).state = .live d →
    stop ≤ (d.sealedBin + 1).toNat * (s.station r.station).d.binLength

/-- The segments a cut [lo, e) of record w finds: those of the overlapping through-list records (R47), before R48. -/
def State.overlapping (s : State) (l : LineId) (lo e : Nat) : List Record :=
  ((s.line l).through.filterMap s.find).filter fun x => x.overlapsCut lo e

/-! ## The directives -/

/-- The directive a constructor stands for: its code and what it does; DESCEND is taken by a scan instead, and no other
command is a directive (9.7 of 09). -/
def directiveOf : Instr → Option (BitVec 8 × ((Nat → Word) → State → DirOutcome))
  | .defineLine => some (0x01, defineLine)
  | .defineHolePatterns => some (0x02, defineHolePatterns)
  | .startTracking => some (0x03, startTracking)
  | .stopTracking => some (0x04, stopTracking)
  | .clearLine => some (0x05, clearLine)
  | .setClock => some (0x06, setClock)
  | .announceEntry => some (0x10, announce .entry)
  | .announceExit => some (0x11, announce .exit)
  | .withdraw => some (0x12, withdraw)
  | .injectMarker => some (0x13, injectMarker)
  | .nameRecord => some (0x20, nameRecord)
  | .readRecord => some (0x21, readRecord)
  | .trace => some (0x22, trace)
  | .defineStation => some (0x30, defineStation)
  | .defineVerdict => some (0x31, defineVerdict)
  | .activateStation => some (0x32, activateStation)
  | .deactivateStation => some (0x33, deactivateStation)
  | .openCursor => some (0x40, openCursor)
  | .refreshCursor => some (0x41, refreshCursor)
  | .closeCursor => some (0x42, closeCursor)
  | .setJournal => some (0x50, setJournal)
  | .acknowledgeEvents => some (0x51, acknowledgeEvents)
  | .setRouting => some (0x52, setRouting)
  | .setMirrorPeriod => some (0x53, setMirrorPeriod)
  | _ => none

/-- The row that takes a directive of a code: the code's own row, or UNKNOWN_CODE where the code names none (9.7 of 09,
R157). -/
abbrev takesCode (i : Instr) (code : BitVec 8) : Prop :=
  (directiveOf i).map (·.1) = some code ∨ (i = .descend ∧ code = 0x23) ∨ (i = .unknownCode ∧ code ∉ directiveCodes)

/-- The commands that the takes that are due come before: all but the rows that take a directive, and but a cold start and
a loss of standby supply, which end whatever was due (R156, R178, R177). -/
abbrev waitsForTakes (i : Instr) : Prop :=
  (directiveOf i).isNone = true ∧ i ≠ .descend ∧ i ≠ .unknownCode ∧ i ≠ .standbyPowerLoss ∧ ∀ lv, i ≠ .coldStart lv

end Sys2Proof.Machine
end

