-- ==== Sys2Proof/Certificates/Slice0/Obligations.lean ====
section
/-! DEFINITION. The statements about the part that are to be proved. A statement about a command that takes no directive is
made for states that owe no take (`State.Ready`); what the command does where a take is due is what it does after that
take, which DirectivesAreTakenJudgedAndAnswered says of every such command (R156). -/

open Sys2Proof Sys2Proof.Machine

/-! ## The step and the queue of commands -/

/-- A step runs the command at the front of the queue on the state with the queue's rest; with an empty queue the part
idles (the queue and its idling are the model's choice, log 1). -/
def Obligations.StepRunsTheFrontCommand : Prop :=
  (∀ (c : Instr) (rest : List Instr) (s : State), s.pending = c :: rest → step s = exec c { s with pending := rest }) ∧
  ∀ s : State, s.pending = [] → step s = .next s

/-- Every well-formed command completes in every state, and leaves the commands that wait behind it (log 1). A term
that is no burst as 8.1 of 08 defines one stops each of the six P-side commands with malformedBurst, and changes nothing:
that it stops is the model's choice (log 18), since no rule has the T440 refuse a transaction. -/
def Obligations.CommandsCompleteAndLeaveTheQueueAlone : Prop :=
  (∀ (c : Instr) (s : State), c.wf = true → ∃ t, exec c s = .next t ∧ t.pending = s.pending) ∧
  (∀ (b : WriteBurst) (s : State), b.wf = false →
    exec (.passThroughWrite b) s = .fault .malformedBurst ∧ exec (.directiveSlotWrite b) s = .fault .malformedBurst ∧
    exec (.goWord b) s = .fault .malformedBurst ∧ exec (.intakeWrite b) s = .fault .malformedBurst) ∧
  ∀ (b : ReadBurst) (s : State), b.wf = false →
    exec (.passThroughRead b) s = .fault .malformedBurst ∧ exec (.apertureRead b) s = .fault .malformedBurst

/-! ## Power wells -/

/-- A cold start completes in every state and leaves the cold-start values of R178 and of the chapters it names: every line
unit whole (R8, R17, R24, R27, R35), the tracking well, and the path well at its reset values. With the server supply
present and PRST negated the path reset that forms part of it ends within it: AREA_SEL is sampled, the server state decoded,
and the path OPEN on RUN, else drained at once into HOLD (R178, R179, R136, R148). Otherwise the path is DOWN, with AREA_SEL
held 0 (log 3) and no decoded server state (log 25). The one anomaly it can enter is SERVER_STATE_ILLEGAL (R181). The fields
the model adds stand at the values of log 1, 2, 8 and 9. At the pin levels the model chose (log 3) a cold start leaves
State.reset, but for the model's own fields that it keeps. -/
def Obligations.ColdStartGivesColdStartValues : Prop :=
  (∀ (lv : Levels) (s : State), ∃ t, exec (.coldStart lv) s = .next t ∧
    t.powered = true ∧ t.pathPower = lv.serverSupply ∧ t.prst = lv.prst ∧ t.ssa = lv.ssa ∧ t.ssb = lv.ssb ∧
    (∀ l : LineId, t.line l =
      { state := .unconfigured, gated := false, run := lv.lines[l].run
        entry := { reload := 1, stepLen := 1, remaining := 1, counter := 0, limitMark := false
                   forward := lv.lines[l].entryForward }
        exit := { reload := 1, stepLen := 1, remaining := 1, counter := 0, limitMark := false
                  forward := lv.lines[l].exitForward }
        seamIn := { settled := lv.lines[l].seamIn, pending := none, edge := .off, debounce := 0, offset := 0 }
        hole := { settled := lv.lines[l].hole, pending := none, edge := .off, debounce := 0, offset := 0 }
        shear := { settled := lv.lines[l].shear, pending := none, edge := .off, debounce := 0, offset := 0 }
        seamInSpacing := 1, seamOutSpacing := 1, shearSpacing := 1, elongMin := 500, elongMax := 20000
        reverseOnPass := false, tolerance := 0, gapLimit := 10, recoveryLen := 0
        patterns := .replicate 3 { cls := .seam, holes := 0, spacings := [] }, matcher := .idle
        seamQueue := [], entryQueue := [], exitQueue := [], through := []
        lastSeamIn := none, lastExitSeam := none, lastShear := none }) ∧
    t.track.clock = 0 ∧ t.track.table = { places := [], nextSerial := 1, idMap := [] } ∧
    t.track.backlog = [] ∧ t.track.nextSeq = 1 ∧ t.track.trackFaultMask = 0 ∧ t.trackFault = false ∧
    t.path =
      { state :=
          if bringsPathUp lv then (if lv.ssa = true ∧ lv.ssb = true then .opened else .hold) else .down
        areaSel := if bringsPathUp lv then lv.areaSel else 0
        server := if bringsPathUp lv then some (decodeServer lv.ssa lv.ssb) else none
        stations := .replicate 8 { defn := none, chain := [], state := .off, incarnation := 0, discarded := 0 }
        prepQueue := [], cursors := .replicate 8 .closed, resolverMark := 7
        requests := [], port := none, bookkeeping := [], nextId := 0, waitList := []
        inProgress := none, bCount := 0, fCount := 0
        slots := .replicate 16 { state := .idle, shadow := .replicate 48 0, code := 0, tag := 0 }
        fifo := [], directiveUnit := .free, journal := none, journalHead := 0, progress := 0
        dirty := .replicate 39 true, rotation := 0, period := 0, periodCount := 0, pathFlags := 0, alertMask := 0 } ∧
    t.alert = false ∧ t.presented = [] ∧ t.returned = s.returned ∧ t.freeCount = s.freeCount ∧ t.pending = s.pending ∧
    (if lv.ssa = true ∧ lv.ssb = false then
      t.track.illegalMark = true ∧ t.track.anomalyCount = 1 ∧ t.track.trackingFlags = 0x1 ∧
        t.track.anomalies = (Vector.replicate 32 none).set 0 (some
          { number := 0, time := 0, code := .serverStateIllegal, line := none, pos := none, serial := none })
     else
      t.track.illegalMark = false ∧ t.track.anomalyCount = 0 ∧ t.track.trackingFlags = 0 ∧
        t.track.anomalies = .replicate 32 none)) ∧
  ∀ s : State, exec (.coldStart Levels.quiet) s =
    .next { State.reset with returned := s.returned, freeCount := s.freeCount, pending := s.pending }

/-- Without supply the part takes no command but a cold start: every other well-formed command leaves its state, and a
loss of standby supply, which completes in every state, leaves it without supply (R177; log 4). -/
def Obligations.WithoutSupplyThePartDoesNothing : Prop :=
  (∀ (c : Instr) (s : State), s.powered = false → c.wf = true → (∀ lv, c ≠ .coldStart lv) → c ≠ .standbyPowerLoss →
    exec c s = .next s) ∧
  ∀ s : State, ∃ t, exec .standbyPowerLoss s = .next t ∧ t.powered = false ∧ t.pathPower = false ∧ t.drives = false ∧
    t.track.table.places = [] ∧ t.track.backlog = [] ∧ t.path.state = .down ∧ t.presented = []

/-- A path reset begins on PRST or on the loss of the path well's supply: the path well takes its reset values in DOWN, what
was presented is not accepted, and the settle checks of the stations that were LIVE settle their THROUGH and CUT records: of
the tracking well, those records' states, the next sequence number, the backlog, the flags of a settling and, with a full
backlog, JOURNAL_BACKLOG_FULL, and nothing else (R179, R150, R69, R70, R163). The stations are checked in rising number (the
model's order, log 6), the records of one in increasing serial order. In DOWN a second cause only extends it. The decoded
server state held in DOWN, none, is the model's choice (log 25). -/
def Obligations.PathResetBegins : Prop :=
  (∀ (c : ResetCause) (s : State), s.Ready → s.path.state ≠ .down →
    ∃ t, exec (.pathResetBegin c) s = .next t ∧
      t = { s with
        track := t.track, path := .reset s.path.areaSel, presented := []
        prst := s.prst || c == .prstAsserted, pathPower := s.pathPower && c == .prstAsserted } ∧
      ((∀ i, (s.station i).live? = none) → t.track = s.track) ∧
      (s.SerialsOk → ∃ (rs : Fin 8 → List Record) (all : List Record),
        (∀ i, (rs i).Pairwise (fun a b => a.serial < b.serial) ∧
          (rs i).Perm (s.track.table.records.filter fun r =>
            decide (r.station = i ∧ s.SettlesAtReset r))) ∧
        all = rs 0 ++ rs 1 ++ rs 2 ++ rs 3 ++ rs 4 ++ rs 5 ++ rs 6 ++ rs 7 ∧
        ∀ full : State, full = (all.drop (128 - s.track.backlog.length)).foldl
            (fun a r => a.anomaly .journalBacklogFull (some r.line) none (some r.serial)) s →
          t.track = { s.track with
            table := { s.track.table with
              places := s.track.table.places.map fun e =>
                if s.SettlesAtReset e.2 then (e.1, { e.2 with state := .settled }) else e }
            nextSeq := s.track.nextSeq + all.length
            backlog := s.track.backlog ++ (all.take (128 - s.track.backlog.length)).mapIdx fun j r =>
              { seq := s.track.nextSeq + j, settledAt := s.track.clock, record := { r with state := .settled } }
            anomalies := full.track.anomalies, anomalyCount := full.track.anomalyCount
            trackingFlags := full.track.trackingFlags ||| (if all = [] then 0 else 0x2) |||
              (if all ≠ [] ∧ s.track.backlog.length < 128 ∧ 96 ≤ s.track.backlog.length + all.length then 0x8
               else 0) })) ∧
  ∀ s : State, s.powered = true → s.path.state = .down →
    exec (.pathResetBegin .prstAsserted) s = .next { s with prst := true } ∧
    exec (.pathResetBegin .supplyLost) s = .next { s with pathPower := false, path.server := none }

/-- A path reset ends when the path well is powered and PRST negated: reset values, AREA_SEL sampled, the server state
decoded, and the path OPEN on RUN, else drained at once into HOLD (R179, R148). The pin of the cause moves with it, and what
is presented at the P-side is then offered to the port (R135); with nothing presented, nothing else changes. While the other
condition fails, the path reset goes on and only the pin moves (R179); that the row is sent for that pin, and outside a path
reset moves it and nothing else, is the model's choice (log 14). -/
def Obligations.PathResetEnds : Prop :=
  (∀ (c : ResetEnd) (straps : BitVec 4) (s : State), s.powered = true → s.path.state = .down →
    (c = .supplyReturned ∨ s.pathPower = true) → (c = .prstNegated ∨ s.prst = false) →
    (∃ t, exec (.pathResetEnd c straps) s = .next t ∧ t.path.areaSel = straps ∧
      t.path.state = (if s.ssa = true ∧ s.ssb = true then .opened else .hold) ∧
      t.path.server = some (decodeServer s.ssa s.ssb)) ∧
    ∀ u : State, u = { s with
        prst := false, pathPower := true
        path := { PathWell.reset straps with
          state := (if s.ssa = true ∧ s.ssb = true then .opened else .hold)
          server := some (decodeServer s.ssa s.ssb) } } →
      exec (.pathResetEnd c straps) s = .next (State.letIn u) ∧
      (s.presented = [] → exec (.pathResetEnd c straps) s = .next u)) ∧
  (∀ (straps : BitVec 4) (s : State), s.Ready →
    (s.path.state ≠ .down ∨ s.pathPower = false → exec (.pathResetEnd .prstNegated straps) s = .next { s with prst := false }) ∧
    (s.path.state ≠ .down ∨ s.prst = true → exec (.pathResetEnd .supplyReturned straps) s = .next { s with pathPower := true }))

/-- The server state monitor decodes SSA and SSB as the table of R180, at each change while the path well is powered. The
illegal combination enters SERVER_STATE_ILLEGAL once and sets the mark; while the mark is set it enters nothing; leaving the
combination clears the mark (R181). -/
def Obligations.ServerLinesAreDecoded : Prop :=
  (∀ (ssa ssb : Bool) (s : State), s.Ready →
    ∃ t, exec (.serverStateChange ssa ssb) s = .next t ∧ t.ssa = ssa ∧ t.ssb = ssb ∧
      t.path.server =
        (if s.pathPower = false then s.path.server
         else if ssa = true ∧ ssb = true then some .run
         else if ssa = false ∧ ssb = false then some .off
         else some .holdRequest)) ∧
  ∀ (ssa ssb : Bool) (s : State), s.Ready →
    ∃ t, exec (.serverStateChange ssa ssb) s = .next t ∧
      t.track.illegalMark = (ssa && !ssb) ∧
      (ssa = true → ssb = false → s.track.illegalMark = true → t.track = s.track) ∧
      (ssa = true → ssb = false → s.track.illegalMark = false →
        t.track = { s.track with
          illegalMark := true
          anomalies := s.track.anomalies.set (s.track.anomalyCount.toNat % 32)
            (some { number := s.track.anomalyCount, time := s.track.clock, code := .serverStateIllegal
                    line := none, pos := none, serial := none }) (Nat.mod_lt _ (by decide))
          anomalyCount := s.track.anomalyCount + 1
          trackingFlags := s.track.trackingFlags ||| 0x1 })

/-- The path state follows the decoded server state (R148): the rows of its table for a change of the server lines, the
drain that finds nothing to wait for (R148, R149), and every mirror group dirty on the return from HOLD. At a return to OPEN
the sealing of every station starts (R96), the journal writer goes on with the entry in progress (R165), and what is
presented is accepted (R135); their order, and that of the stations, is the model's choice (log 6). The journal writer's
going on offers the bursts that are left: with a place for each the entry ends, else one waits; with no entry in progress it
does nothing. What is presented is accepted head first while the conditions of R135 hold, each as when presented; that
several may be presented, and wait in a list, is the model's choice (log 7). -/
def Obligations.PathStateFollowsTheServer : Prop :=
  (∀ (ssa ssb : Bool) (s : State), s.Ready → s.pathPower = true →
    ∃ t, exec (.serverStateChange ssa ssb) s = .next t ∧
      (s.path.state = .down → t.path.state = .down) ∧
      (s.path.state ≠ .down → ssa = true ∧ ssb = true → t.path.state = .opened) ∧
      (s.path.state = .hold → ssa = true ∧ ssb = true → ∀ g : Fin 39, t.path.dirty[g] = true) ∧
      (s.path.state = .opened → ¬(ssa = true ∧ ssb = true) →
        t.path.state = (if s.path.requests = [] ∧ s.path.inProgress = none then .hold else .draining) ∧
        t.path.requests = s.path.requests ∧ t.path.bookkeeping = s.path.bookkeeping ∧
        t.path.dirty[(0 : Fin 39)] = true) ∧
      (s.path.state = .draining ∨ s.path.state = .hold → ¬(ssa = true ∧ ssb = true) →
        t.path = { s.path with
          server := t.path.server, dirty := t.path.dirty } ∧ t.presented = s.presented)) ∧
  (∀ s v : State, s.Ready → s.pathPower = true → s.path.state = .draining ∨ s.path.state = .hold →
    v = { s with
      ssa := true, ssb := true, track.illegalMark := false, path.state := .opened, path.server := some .run
      path.dirty := if s.path.state = .hold then .replicate 39 true else s.path.dirty.set 0 true } →
    exec (.serverStateChange true true) s =
      .next (State.letIn (State.journalResume
        (([0, 1, 2, 3, 4, 5, 6, 7] : List (Fin 8)).foldl (fun a i => a.seal i) v)))) ∧
  (∀ s : State, s.path.progress = 0 ∨ (∃ b, .journal b ∈ s.path.waitList) ∨ s.path.journal = none ∨
    s.track.backlog = [] → s.journalResume = s) ∧
  (∀ s : State, s.path.state = .opened → 0 < s.path.progress → s.path.progress < 16 → (∀ b, .journal b ∉ s.path.waitList) →
    ∀ j e rest, s.path.journal = some j → s.track.backlog = e :: rest →
      ∀ bursts : List WriteBurst,
        bursts = (([1, 2, 3, 4, 5, 6, 7, 8, 9, 10, 11, 12, 13, 14, 15, 0] : List Nat).drop s.path.progress).map (fun n =>
          { addr := j.base + 512 * (e.seq % j.size) + 32 * n
            words := (((journalWords e).drop (8 * n)).take 8).map fun w => { data := w, en := 0xF } }) →
        (s.path.waitList = [] → s.path.bookkeeping.length + bursts.length ≤ 64 →
          ∃ t, s.journalResume = t ∧
            t.path.bookkeeping.map (·.burst) = s.path.bookkeeping.map (·.burst) ++ bursts ∧
            t = { s with
              track.backlog := rest
              track.trackingFlags :=
                if 96 ≤ rest.length then s.track.trackingFlags ||| 0x8 else s.track.trackingFlags
              path.bookkeeping := t.path.bookkeeping, path.nextId := t.path.nextId, path.journalHead := e.seq
              path.progress := 0, path.dirty := t.path.dirty }) ∧
        (∀ n b, s.path.waitList = [] → s.path.bookkeeping.length + n = 64 → bursts[n]? = some b →
          ∃ t, s.journalResume = t ∧
            t.path.bookkeeping.map (·.burst) = s.path.bookkeeping.map (·.burst) ++ bursts.take n ∧
            t = { s with
              path.bookkeeping := t.path.bookkeeping, path.nextId := t.path.nextId
              path.progress := s.path.progress + n, path.waitList := [.journal b], path.dirty := t.path.dirty }) ∧
        (∀ b, s.path.waitList ≠ [] → bursts[0]? = some b →
          s.journalResume = { s with path.waitList := s.path.waitList ++ [.journal b] })) ∧
  (∀ s : State, s.presented = [] → s.letIn = s) ∧
  ∀ (s x : State) (t : Transaction) (rest : List Transaction), s.powered = true → s.presented = t :: rest →
    (s.path.state ≠ .opened ∨ s.path.port ≠ none ∨ 32 < s.path.requests.length + entriesNeeded s.base t →
      s.letIn = s) ∧
    (s.path.state = .opened → s.path.port = none → s.path.requests.length + entriesNeeded s.base t ≤ 32 →
      (match t with
        | .write b => exec (.passThroughWrite b) { s with presented := [] } = .next x
        | .read b => exec (.passThroughRead b) { s with presented := [] } = .next x) →
      s.letIn = State.letIn { x with presented := rest })

/-! ## Strip position and the time base -/

/-- A pulse that R3 does not count is ignored; one that is counted and leaves at least 1 of the remaining count lowers it
and has no further effect (R2, R3). A change of a RUN or direction level is a change of that level and of nothing else (R3,
R4). -/
def Obligations.PulsesAreCountedOrIgnored : Prop :=
  (∀ (l : LineId) (sd : Side) (s : State), s.Ready →
    ((s.line l).state = .unconfigured ∨ ((s.line l).gated = true ∧ (s.line l).run = false) →
      exec (.encoderPulse l sd) s = .next s) ∧
    ((s.line l).state ≠ .unconfigured → (s.line l).gated = false ∨ (s.line l).run = true →
      1 < ((s.line l).side sd).remaining →
      exec (.encoderPulse l sd) s = .next (s.withLine l ((s.line l).setSide sd
        { (s.line l).side sd with remaining := ((s.line l).side sd).remaining - 1 })))) ∧
  ∀ (l : LineId) (sd : Side) (level : Bool) (s : State), s.Ready →
    exec (.runLevelChange l level) s = .next (s.withLine l { s.line l with run := level }) ∧
    exec (.directionLevelChange l sd level) s =
      .next (s.withLine l ((s.line l).setSide sd { (s.line l).side sd with forward := level }))

/-- A counted pulse that completes a step away from a limit: the divider reloads, the counter moves by S in the direction
the level reads, clamped to 0 to 2^48 − 1, and the limit mark clears (R2, R4, R5). On the exit side the position change
reaches the line's matcher: a reverse one returns it to IDLE, a forward one that carries the exit reference to the end
position or past it ends a RECOVERY (R32, R33); a matcher that changes marks the line's mirror group (R27). Then the side's
station seals what the new position makes due (R6, R96; what a sealing does is stated on its own below). That is the whole
effect. -/
def Obligations.AStepMovesTheCounter : Prop :=
  ∀ (l : LineId) (sd : Side) (s : State), s.Ready → (s.line l).state ≠ .unconfigured →
    (s.line l).gated = false ∨ (s.line l).run = true →
    ((s.line l).side sd).remaining ≤ 1 →
    (((s.line l).side sd).forward = true ∧ ((s.line l).side sd).counter < 281474976710655 ∨
      ((s.line l).side sd).forward = false ∧ 0 < ((s.line l).side sd).counter) →
    ∀ (v : SideUnit) (m : Matcher) (u : State),
      v = { (s.line l).side sd with
        remaining := ((s.line l).side sd).reload
        counter :=
          (if ((s.line l).side sd).forward = true then
            min (((s.line l).side sd).counter + ((s.line l).side sd).stepLen) 281474976710655
           else ((s.line l).side sd).counter - ((s.line l).side sd).stepLen)
        limitMark := false } →
      (sd = .entry → m = (s.line l).matcher) →
      (sd = .exit → v.forward = false → m = .idle) →
      (sd = .exit → v.forward = true →
        (∀ e, (s.line l).matcher = .recovery e → (e : Int) ≤ (v.counter : Int) - (s.line l).hole.offset → m = .idle) ∧
        ((∀ e, (s.line l).matcher = .recovery e → (v.counter : Int) - (s.line l).hole.offset < e) →
          m = (s.line l).matcher)) →
      u = { s.withLine l ({ s.line l with matcher := m }.setSide sd v) with
        path.dirty := if m = (s.line l).matcher then s.path.dirty
          else s.path.dirty.set (lineGroup l).val true (lineGroup l).isLt } →
      exec (.encoderPulse l sd) s = .next (u.seal (stationOf l sd))

/-- A step that the counter's limit refuses: the divider reloads, the counter stays, the limit mark is set; COUNTER_LIMIT
is entered when the mark was clear, with the line and the counter's value, and nothing else happens (R5, R6). -/
def Obligations.AStepAtALimitIsRefused : Prop :=
  ∀ (l : LineId) (sd : Side) (s : State), s.Ready → (s.line l).state ≠ .unconfigured →
    (s.line l).gated = false ∨ (s.line l).run = true →
    ((s.line l).side sd).remaining ≤ 1 →
    (((s.line l).side sd).forward = true ∧ 281474976710655 ≤ ((s.line l).side sd).counter ∨
      ((s.line l).side sd).forward = false ∧ ((s.line l).side sd).counter = 0) →
    (((s.line l).side sd).limitMark = true →
      exec (.encoderPulse l sd) s = .next (s.withLine l ((s.line l).setSide sd
        { (s.line l).side sd with remaining := ((s.line l).side sd).reload }))) ∧
    (((s.line l).side sd).limitMark = false →
      exec (.encoderPulse l sd) s = .next ((s.withLine l ((s.line l).setSide sd
        { (s.line l).side sd with
          remaining := ((s.line l).side sd).reload, limitMark := true })).anomaly .counterLimit (some l)
            (some ((s.line l).side sd).counter) none))

/-- A tick raises the plant clock by one, from 2^48 − 1 to 0, in every state (R14), lowers the remaining of every pending
marker change, advances a running mirror period count (R176), and every change it brings to 0 completes with it, as
DEBOUNCE_COMPLETE completes it (R19); nothing else happens. The order of changes that complete at one tick is the model's
(log 6), and a period that an earlier tick completed and no row has counted is counted first (log 5). What such a change
stamps with the clock carries the value after the tick, of the two R14 allows: the model's choice (log 6). -/
def Obligations.ATickAdvancesTime : Prop :=
  (∀ (s u : State), s.Ready →
    u = { s with
      track.clock := s.track.clock + 1
      track.lines := s.track.lines.map fun ln => { ln with
        seamIn := { ln.seamIn with
          pending := ln.seamIn.pending.map fun c => { c with remaining := c.remaining - 1 } }
        hole := { ln.hole with pending := ln.hole.pending.map fun c => { c with remaining := c.remaining - 1 } }
        shear := { ln.shear with pending := ln.shear.pending.map fun c => { c with remaining := c.remaining - 1 } } }
      path.periodCount :=
        (if 0 < s.path.period ∧ s.path.period ≤ s.path.periodCount then 0 else s.path.periodCount) +
          (if 0 < s.path.period ∧ s.path.state ≠ .down then 1 else 0)
      path.dirty :=
        if 0 < s.path.period ∧ s.path.period ≤ s.path.periodCount then
          (((s.path.dirty.set 2 true).set 3 true).set 4 true).set 5 true
        else s.path.dirty } →
    exec .timeBaseTick s = .next (([0, 1, 2, 3] : List LineId).foldl
      (fun a l => ([.seamIn, .hole, .shear] : List MarkerInput).foldl (fun b i => b.completeDue l i) a) u) ∧
    ((∀ l i c, ((s.line l).marker i).pending = some c → 2 ≤ c.remaining) → exec .timeBaseTick s = .next u)) ∧
  ∀ (l : LineId) (i : MarkerInput) (s : State), s.Ready →
    exec (.debounceComplete l i) s = .next (s.completeDue l i)

/-- A raw transition of a marker input creates a pending change, with the reference counter, the clock, the debounce time
and the void mark of a reverse side, or drops the change that is pending; it does nothing else, but that a change with
debounce time 0 completes at once (R18, R19). A pending change whose debounce has run out completes: the settled level moves
and the change is gone (R19); with none there is nothing to complete. A change that is void, not selected, of a line not in
TRACKING, or out of range when converted does nothing else (R20, R21); any other is captured at value − offset with its time
(R21, R22). -/
def Obligations.MarkerInputsDebounceTheirTransitions : Prop :=
  (∀ (l : LineId) (i : MarkerInput) (s w : State), s.Ready →
    w = s.withLine l ((s.line l).setMarker i
      { (s.line l).marker i with
        pending := some
          { level := !((s.line l).marker i).settled
            value := (match i with | .seamIn => (s.line l).entry.counter | _ => (s.line l).exit.counter)
            time := s.track.clock, remaining := ((s.line l).marker i).debounce
            void := !(match i with | .seamIn => (s.line l).entry.forward | _ => (s.line l).exit.forward) } }) →
    (((s.line l).marker i).pending = none → ((s.line l).marker i).debounce ≠ 0 →
      exec (.markerRawTransition l i) s = .next w) ∧
    (((s.line l).marker i).pending = none → ((s.line l).marker i).debounce = 0 →
      exec (.markerRawTransition l i) s = exec (.debounceComplete l i) w) ∧
    (∀ c, ((s.line l).marker i).pending = some c →
      exec (.markerRawTransition l i) s =
        .next (s.withLine l ((s.line l).setMarker i { (s.line l).marker i with pending := none }))) ∧
    ((∀ c, ((s.line l).marker i).pending = some c → c.remaining ≠ 0) → exec (.debounceComplete l i) s = .next s)) ∧
  ∀ (l : LineId) (i : MarkerInput) (c : Pending) (s : State), s.Ready →
    ((s.line l).marker i).pending = some c → c.remaining = 0 →
    ∃ t, exec (.debounceComplete l i) s = .next t ∧
      (t.line l).marker i = { (s.line l).marker i with settled := c.level, pending := none } ∧
      (∀ j, j ≠ l → t.line j = s.line j) ∧
      (c.void = true ∨ ((s.line l).marker i).edge.admits c.level = false ∨ (s.line l).state ≠ .tracking ∨
          (c.value : Int) - ((s.line l).marker i).offset < 0 ∨
          281474976710655 < (c.value : Int) - ((s.line l).marker i).offset →
        t = s.withLine l ((s.line l).setMarker i
          { (s.line l).marker i with settled := c.level, pending := none })) ∧
      (∀ p : Nat, (p : Int) = (c.value : Int) - ((s.line l).marker i).offset → p ≤ 281474976710655 → c.void = false →
        ((s.line l).marker i).edge.admits c.level = true → (s.line l).state = .tracking →
        t = (s.withLine l ((s.line l).setMarker i
          { (s.line l).marker i with settled := c.level, pending := none })).capture l i p c.time)

/-! ## The P-side -/

/-- The reserved area is the last MiB of GiB number AREA_SEL (R136): the base, the parts its offsets divide into, and that
only the end of a path reset samples the straps, that of a cold start among them (a cold start that leaves the path DOWN and
the part without supply hold 0, log 3 and log 4). -/
def Obligations.TheReservedAreaStandsWhereAreaSelPutsIt : Prop :=
  (∀ s : State, s.base = (s.path.areaSel.toNat + 1) * 2 ^ 30 - 2 ^ 20) ∧
  (∀ base o : Nat, o < 0x100000 → decodeArea base (base + o) = partOf o) ∧
  (∀ base a : Nat, a < base ∨ base + 0x100000 ≤ a → decodeArea base a = .outside) ∧
  (∀ (k : Fin 16) (w b : Nat), w < 128 → b < 4 → partOf (512 * k.val + 4 * w + b) = .slot k w) ∧
  (∀ o : Nat, 0x2000 ≤ o → o < 0x4000 → partOf o = .status) ∧
  (∀ (i : Fin 8) (w b : Nat), w < 16 → b < 4 → partOf (0x4000 + 64 * i.val + 4 * w + b) = .intake i w) ∧
  (∀ o : Nat, (0x4200 ≤ o ∧ o < 0x10000) ∨ (0x90000 ≤ o ∧ o < 0x100000) → partOf o = .plain) ∧
  (∀ (k : Fin 8) (i w b : Nat), i < 1024 → w < 16 → b < 4 →
    partOf (0x10000 + 65536 * k.val + 64 * i + 4 * w + b) = .aperture k i w) ∧
  ∀ (c : Instr) (s t : State), exec c s = .next t → (∀ lv, c ≠ .coldStart lv) → c ≠ .standbyPowerLoss →
    (∀ e straps, c ≠ .pathResetEnd e straps) → t.path.areaSel = s.path.areaSel

/-- A transaction whose conditions do not hold stays presented, and nothing else changes (R135); the entries each needs
are those of R138. -/
def Obligations.TransactionsAreWithheldWithoutRoom : Prop :=
  (∀ (base : Nat) (w : WriteBurst) (r : ReadBurst),
    entriesNeeded base (.write w) =
      (if base + 0x4000 ≤ w.addr ∧ w.addr < base + 0x4200 then (w.words.filter fun x => x.en != 0).length else 1) ∧
    entriesNeeded base (.read r) = (if base + 0x10000 ≤ r.addr ∧ r.addr < base + 0x90000 then 2 else 1)) ∧
  ∀ s : State, s.Ready → s.presented = [] →
    (∀ b : WriteBurst, b.wf = true →
      s.path.state ≠ .opened ∨ s.path.port ≠ none ∨ 32 < s.path.requests.length + entriesNeeded s.base (.write b) →
      ∀ c ∈ asWrite b, exec c s = .next { s with presented := [.write b] }) ∧
    ∀ b : ReadBurst, b.wf = true →
      s.path.state ≠ .opened ∨ s.path.port ≠ none ∨ 32 < s.path.requests.length + entriesNeeded s.base (.read b) →
      ∀ c ∈ asRead b, exec c s = .next { s with presented := [.read b] }

/-- A burst that no block of the part takes is forwarded unchanged: a write, outside the directive slots and the intake
windows, as one P write; a read, outside the apertures, as one P read that holds the port, marked with the bursts that
stand in the bookkeeping queue (R137, R135, R147). -/
def Obligations.OtherBurstsAreForwardedUnchanged : Prop :=
  ∀ s : State, s.PortReady → s.path.requests.length < 32 →
    (∀ b : WriteBurst, b.wf = true → ¬(s.base ≤ b.addr ∧ b.addr < s.base + 0x2000) →
      ¬(s.base + 0x4000 ≤ b.addr ∧ b.addr < s.base + 0x4200) →
      ∀ c ∈ asWrite b, exec c s = .next (s.withRequest (.write b))) ∧
    ∀ b : ReadBurst, b.wf = true → ¬(s.base + 0x10000 ≤ b.addr ∧ b.addr < s.base + 0x90000) →
      ∀ c ∈ asRead b, exec c s = .next { s with
        path.requests := s.path.requests ++ [.read b (s.path.bookkeeping.map (·.id))]
        path.port := some (.passThrough b none) }

/-- A write burst into a directive slot that does not reach the go word is forwarded unchanged; in an IDLE slot each
parameter byte with its enable set replaces that byte of the shadow; in a busy slot a word with a byte enable set, the go
word too, sets ACCESS_FAULT and nothing else (R153, R154). -/
def Obligations.ParameterWritesAreCapturedInAnIdleSlot : Prop :=
  (∀ (old new : Word) (en : BitVec 4) (j : Nat), j < 32 →
    (mergeBytes old new en).getLsbD j = (if en.getLsbD (j / 8) then new.getLsbD j else old.getLsbD j)) ∧
  ∀ (b : WriteBurst) (k : Fin 16) (w : Nat) (s : State), b.wf = true → s.PortReady → s.path.requests.length < 32 →
    w < 128 → b.addr = s.base + 512 * k.val + 4 * w →
    ((s.slot k).state = .idle → w < 48 → ∀ c ∈ asWrite b, ∃ t, exec c s = .next t ∧
      t = { s with path.requests := s.path.requests ++ [.write b], path.slots := t.path.slots } ∧
      (∀ j, j ≠ k → t.slot j = s.slot j) ∧ t.slot k = { s.slot k with shadow := (t.slot k).shadow } ∧
      ∀ i, i < 48 → (t.slot k).word i =
        (if w ≤ i then
          match b.words[i - w]? with
          | some x => mergeBytes ((s.slot k).word i) x.data x.en
          | none => (s.slot k).word i
         else (s.slot k).word i)) ∧
    ((s.slot k).state = .idle → 48 ≤ w → w + b.words.length < 128 →
      ∀ c ∈ asWrite b, exec c s = .next (s.withRequest (.write b))) ∧
    ((s.slot k).state ≠ .idle → (∃ x ∈ b.words, x.en ≠ 0) →
      ∀ c ∈ asWrite b, exec c s = .next ((s.withPathFlag 0x800).withRequest (.write b))) ∧
    ((s.slot k).state ≠ .idle → (∀ x ∈ b.words, x.en = 0) →
      ∀ c ∈ asWrite b, exec c s = .next (s.withRequest (.write b)))

/-- A burst that ends with the go word x of an IDLE slot is forwarded; with all four byte enables and a code from 1 to
255 the code and the tag are stored and the slot joins the FIFO as QUEUED; with code 0 nothing is submitted; with some but
not all enables ACCESS_FAULT is set (R154). A busy slot is the statement above. -/
def Obligations.TheGoWordQueuesAnIdleSlot : Prop :=
  ∀ (b : WriteBurst) (x : Lane) (k : Fin 16) (w : Nat) (s : State), b.wf = true → s.PortReady →
    s.path.requests.length < 32 → w + b.words.length = 128 → b.addr = s.base + 512 * k.val + 4 * w →
    b.words.getLast? = some x → (s.slot k).state = .idle →
    (x.en = 0xF → x.data.toNat % 256 ≠ 0 → ∀ c ∈ asWrite b, exec c s = .next { s with
      path.requests := s.path.requests ++ [.write b]
      path.fifo := s.path.fifo ++ [k]
      path.slots := s.path.slots.set k.val
        { s.slot k with
          state := .queued, code := BitVec.ofNat 8 x.data.toNat, tag := BitVec.ofNat 16 (x.data.toNat / 65536) } k.isLt
      path.dirty := s.path.dirty.set 0 true }) ∧
    (x.en = 0xF → x.data.toNat % 256 = 0 → ∀ c ∈ asWrite b, exec c s = .next (s.withRequest (.write b))) ∧
    (x.en ≠ 0xF → x.en ≠ 0 → ∀ c ∈ asWrite b, exec c s = .next ((s.withPathFlag 0x800).withRequest (.write b))) ∧
    (x.en = 0 → ∀ c ∈ asWrite b, exec c s = .next (s.withRequest (.write b)))

/-- An intake burst is taken apart word by word, in rising word order, with the one value of R read at its acceptance, each
word handled on the state the words before it leave; its recorded words are forwarded, one write for each bin, the bins in
the order of the lowest word each carries (R91, R92, R94). -/
def Obligations.IntakeBurstsAreTakenApart : Prop :=
  (∀ (i : Fin 8) (reference w : Nat) (words : List Lane) (run : IntakeRun),
    intakeWords i reference w words run = (words.zipIdx w).foldl (fun r x => r.word i reference x.2 x.1) run) ∧
  (∀ recorded : List Recorded, recordedBins recorded [] =
    recorded.foldl (fun seen r => if r.bin ∈ seen then seen else seen ++ [r.bin]) []) ∧
  ∀ (b : WriteBurst) (i : Fin 8) (w : Nat) (s : State), b.wf = true → s.PortReady →
    s.path.requests.length + (b.words.filter fun x => x.en != 0).length ≤ 32 → w < 16 →
    b.addr = s.base + 0x4000 + 64 * i.val + 4 * w →
    ∀ c ∈ asWrite b, ∃ run, run = intakeWords i (s.reference i) w b.words { state := s, recorded := [] } ∧
      run.state.path.requests = s.path.requests ∧
      exec c s = .next { run.state with
        path.requests := s.path.requests ++ (recordedBins run.recorded []).map fun bin =>
          .write
            { addr := (s.station i).d.ringBase + 64 * (bin % (s.station i).d.slotCount) + 32 * (w / 8)
              words := ([0, 1, 2, 3, 4, 5, 6, 7] : List Nat).map fun j =>
                match run.recorded.find? fun r => r.bin == bin && r.word == w / 8 * 8 + j with
                | some r => { data := r.value, en := 0xF }
                | none => { data := 0, en := 0 } } }

/-- The words of an intake burst that are not recorded (R91, R92, R95): one with no byte enable is passed over; a partial
one, one of words 0 to 3, one for an OFF station or beyond its channels is discarded with ACCESS_FAULT; at a PREPARING
station, out of the range of positions, late or expired it is discarded with INTAKE_LOSS. A word that R92 passes is recorded
in its bin, which is open or is opened in a table with room for it (R93, R94). Else the victim X is the open bin that shares
the bin's ring slot, or, with none, the oldest bin of a full table: a forced seal up to X is carried out and the word
recorded after it, S being X and the bins up to X gone from the table, when no producer waits (what the seal does is
SealingTakesTheDueBinsInOrder); or the word is discarded with INTAKE_LOSS, and nothing sealed, when the bookkeeping queue
has too few free places for the headers (R93). Where the victim lies above the word's bin, which a forced seal does not
reach, the word is discarded in the same way: that is the model's choice (log 12). -/
def Obligations.IntakeWordsAreRecordedOrDiscarded : Prop :=
  (∀ (i : Fin 8) (reference : Nat) (run : IntakeRun) (w : Nat) (x : Lane),
    (x.en = 0 → run.word i reference w x = run) ∧
    (x.en ≠ 0 → x.en ≠ 0xF ∨ w < 4 ∨ (run.state.station i).state = .off ∨ (run.state.station i).d.channels ≤ w - 4 →
      ∃ t, run.word i reference w x = { run with state := t } ∧ run.state.Discards i 0x800 t) ∧
    (∀ p, x.en = 0xF → 4 ≤ w → w - 4 < (run.state.station i).d.channels →
      (run.state.station i).state = .preparing p →
      ∃ t, run.word i reference w x = { run with state := t } ∧ run.state.Discards i 0x1000 t) ∧
    (∀ d, x.en = 0xF → 4 ≤ w → w - 4 < (run.state.station i).d.channels → (run.state.station i).state = .live d →
      (reference : Int) - run.state.channelOffset i w < 0 ∨
        281474976710655 < (reference : Int) - run.state.channelOffset i w →
      ∃ t, run.word i reference w x = { run with state := t } ∧ run.state.Discards i 0x1000 t) ∧
    (∀ d b, x.en = 0xF → run.state.Files i reference w d b →
      (b : Int) ≤ d.sealedBin ∨ (b : Int) ≤ d.highest - (run.state.station i).d.slotCount →
      ∃ t, run.word i reference w x = { run with state := t } ∧ run.state.Discards i 0x1000 t)) ∧
  ∀ (i : Fin 8) (reference : Nat) (run : IntakeRun) (w : Nat) (x : Lane) (d : LiveData) (b : Nat), x.en = 0xF →
    run.state.Files i reference w d b → d.sealedBin < (b : Int) →
    d.highest - (run.state.station i).d.slotCount < (b : Int) →
    ((tableGet b d.bins).isSome ∨
        (∀ e ∈ d.bins, e.1 % (run.state.station i).d.slotCount ≠ b % (run.state.station i).d.slotCount) ∧
          d.bins.length < 256 →
      ∃ t, run.word i reference w x =
          { state := t, recorded := run.recorded ++ [{ bin := b, word := w, value := x.data }] } ∧
        run.state.Records i d b (w - 4) x.data t) ∧
    ∀ X slots, slots = (run.state.station i).d.slotCount → tableWf d.bins = true → (tableGet b d.bins).isSome = false →
      (∃ bin, (X, bin) ∈ d.bins) →
      (X % slots = b % slots ∧ (∀ e ∈ d.bins, e.1 % slots = b % slots → X ≤ e.1) ∨
        (∀ e ∈ d.bins, e.1 % slots ≠ b % slots) ∧ 256 ≤ d.bins.length ∧ ∀ e ∈ d.bins, X ≤ e.1) →
      (b ≤ X ∨ 64 - run.state.path.bookkeeping.length < (d.bins.filter fun e => decide (e.1 ≤ X)).length →
        ∃ t, run.word i reference w x = { run with state := t } ∧ run.state.Discards i 0x1000 t) ∧
      (X < b → (d.bins.filter fun e => decide (e.1 ≤ X)).length ≤ 64 - run.state.path.bookkeeping.length →
        ∃ u d' t, u = State.sealBins i (X : Int) true d.bins run.state ∧ (u.station i).state = .live d' ∧
          run.word i reference w x =
            { state := t, recorded := run.recorded ++ [{ bin := b, word := w, value := x.data }] } ∧
          u.Records i d' b (w - 4) x.data t ∧
          (run.state.path.waitList = [] → (∀ e ∈ d.bins, d.sealedBin < (e.1 : Int)) →
            d' = { d with sealedBin := X, bins := d.bins.filter fun e => decide (X < e.1) }))

/-- An aperture read whose point is judged without memory returns its words at acceptance and releases the port at once
(R128 to R130, R140): the cases before memory, with the status each answers. A point whose bin is sealed and not expired goes
to memory: one read of the ring slot from its start when the words asked for end at word 8 or before, else a header read and
a read of the words; it holds the port with the values of R131 (R128 case 8, R131, R147). -/
def Obligations.AperturePointsAreJudgedInOrder : Prop :=
  (∀ (b : ReadBurst) (k : Fin 8) (i w : Nat) (s : State), b.wf = true → s.PortReady → s.path.requests.length ≤ 30 →
    i < 1024 → w < 16 → b.addr = s.base + 0x10000 + 65536 * k.val + 64 * i + 4 * w →
    (s.cursor k = .closed → ∀ c ∈ asRead b, exec c s = .next (s.withAnswer w b.count .cursorClosed 0 0 0)) ∧
    ∀ d table, s.cursor k = .resolving d table ∨ s.cursor k = .ready d table →
      (d.count ≤ i → ∀ c ∈ asRead b, exec c s = .next (s.withAnswer w b.count .noPoint 0 0 0)) ∧
      (i < d.count → table.length ≤ i →
        ∀ c ∈ asRead b, exec c s = .next (s.withAnswer w b.count .notReady 0 0 ((d.x0 : Int) + i * d.stepLen))) ∧
      ∀ r, i < d.count → table[i]? = some r →
        (r.status ≠ .ok → ∀ c ∈ asRead b,
          exec c s = .next (s.withAnswer w b.count r.status r.ancestor r.pos ((d.x0 : Int) + i * d.stepLen))) ∧
        (r.status = .ok → (s.station (stationOf d.line d.side)).live? = none ∨
            r.incarnation ≠ some (s.station (stationOf d.line d.side)).incarnation → ∀ c ∈ asRead b,
          exec c s = .next (s.withAnswer w b.count .stationChanged r.ancestor r.pos ((d.x0 : Int) + i * d.stepLen))) ∧
        ∀ bin lv, r.status = .ok → r.bin = some bin →
          (s.station (stationOf d.line d.side)).state = .live lv →
          r.incarnation = some (s.station (stationOf d.line d.side)).incarnation →
          ((bin : Int) ≤ lv.highest - (s.station (stationOf d.line d.side)).d.slotCount → ∀ c ∈ asRead b,
            exec c s = .next (s.withAnswer w b.count .expired r.ancestor r.pos ((d.x0 : Int) + i * d.stepLen))) ∧
          (lv.highest - (s.station (stationOf d.line d.side)).d.slotCount < (bin : Int) →
            lv.sealedBin < (bin : Int) → ∀ c ∈ asRead b, exec c s = .next { s with
              returned := s.returned ++ [pointWords w b.count
                (playbackHeader .unsealed false (((tableGet bin lv.bins).map (·.presence)).getD 0)
                  (((tableGet bin lv.bins).map (·.fill)).getD 0) r.ancestor r.pos ((d.x0 : Int) + i * d.stepLen))
                fun ch => (((tableGet bin lv.bins).bind fun o => o.channel ch)).getD 0x80000000] })) ∧
  ∀ (b : ReadBurst) (k : Fin 8) (i w bin : Nat) (s : State) (d : CursorDef) (table : List Resolved) (r : Resolved)
    (lv : LiveData) (sd : StationDef), b.wf = true → s.PortReady → s.path.requests.length ≤ 30 →
    i < 1024 → w < 16 → b.addr = s.base + 0x10000 + 65536 * k.val + 64 * i + 4 * w →
    s.cursor k = .resolving d table ∨ s.cursor k = .ready d table → i < d.count → table[i]? = some r →
    r.status = .ok → r.bin = some bin → (s.station (stationOf d.line d.side)).state = .live lv →
    (s.station (stationOf d.line d.side)).defn = some sd →
    r.incarnation = some (s.station (stationOf d.line d.side)).incarnation →
    lv.highest - sd.slotCount < (bin : Int) → (bin : Int) ≤ lv.sealedBin →
    ∀ c ∈ asRead b, ∃ reads : List ReadBurst,
      reads =
        (if w + b.count ≤ 8 then
          [{ addr := sd.ringBase + 64 * (bin % sd.slotCount), count := if w + b.count < 4 then 4 else w + b.count }]
         else
          [{ addr := sd.ringBase + 64 * (bin % sd.slotCount), count := 4 },
           { addr := sd.ringBase + 64 * (bin % sd.slotCount) + 4 * w, count := b.count }]) ∧
      exec c s = .next { s with
        path.requests := s.path.requests ++ reads.map fun m => .read m (s.path.bookkeeping.map (·.id))
        path.port := some (.aperture
          { first := w, count := b.count, bin := bin, tag := sd.tag, ancestor := r.ancestor, pos := r.pos
            target := (d.x0 : Int) + i * d.stepLen, reads := reads.length, got := [] }) }

/-- A read whose data memory has returned returns it on the P-side and releases the port, and what is presented is then
accepted if it can be (R140), its own return behind this one in the model's record of returned data (log 8): a pass-through
read the data unchanged; an aperture read the words of R132, with GAP when
the slot's tag or stored bin is not the one asked for. A return row with nothing to return does nothing (log 13). -/
def Obligations.ReadsReturnAndReleaseThePort : Prop :=
  ∀ s : State, s.Ready →
    (∀ b ws, s.path.port = some (.passThrough b (some ws)) →
      exec .readDataReturn s = .next (State.letIn { s with path.port := none, returned := s.returned ++ [ws] })) ∧
    ((∀ b ws, s.path.port ≠ some (.passThrough b (some ws))) → exec .readDataReturn s = .next s) ∧
    (∀ h, s.path.port = some (.aperture h) → h.got.length = h.reads →
      (h.slotWord 0 ≠ h.tag ∨ (h.slotWord 2).toNat + (h.slotWord 3).toNat % 128 * 4294967296 ≠ h.bin / 512 →
        exec .apertureReadReturn s = .next (State.letIn { s with
          path.port := none
          returned := s.returned ++
            [pointWords h.first h.count (playbackHeader .gap false 0 0 h.ancestor h.pos h.target) fun _ => 0x80000000] })) ∧
      (h.slotWord 0 = h.tag → (h.slotWord 2).toNat + (h.slotWord 3).toNat % 128 * 4294967296 = h.bin / 512 →
        exec .apertureReadReturn s = .next (State.letIn { s with
          path.port := none
          returned := s.returned ++ [pointWords h.first h.count
            (playbackHeader .ok ((h.slotWord 3).getLsbD 27) ((h.slotWord 3).toNat / 128 % 4096)
              ((h.slotWord 3).toNat / 524288 % 256) h.ancestor h.pos h.target)
            fun ch => if ((h.slotWord 3).toNat / 128 % 4096).testBit ch then h.slotWord (4 + ch)
              else 0x80000000] }))) ∧
    ((∀ h, s.path.port = some (.aperture h) → h.got.length ≠ h.reads) → exec .apertureReadReturn s = .next s)

/-! ## The M-side -/

/-- The class the next grant goes to (R144 to R147): none while a burst is in progress, in HOLD or in DOWN; in OPEN F when
its guarantee is due, then B when its is, then P, B, F; in DRAINING P, and B only while the read at the head depends on a
bookkeeping burst, which holds P back. With no class to grant to, a grant does nothing. -/
def Obligations.TheArbiterChoosesTheClass : Prop :=
  ∀ s : State,
    (s.heldBack = true ↔ ∃ r mark rest, s.path.requests = .read r mark :: rest ∧ ∃ e ∈ s.path.bookkeeping, e.id ∈ mark ∧
      ∃ j x, e.burst.words[j]? = some x ∧ x.en ≠ 0 ∧ r.addr ≤ e.burst.addr + 4 * j ∧
        e.burst.addr + 4 * j < r.addr + 4 * r.count) ∧
    (s.fOffers = true ↔ s.path.state = .opened ∧ ∃ i q p, s.path.prepQueue = i :: q ∧ (s.station i).state = .preparing p) ∧
    (s.path.inProgress ≠ none ∨ s.path.state = .hold ∨ s.path.state = .down → s.grantClass = none) ∧
    (s.path.inProgress = none → s.path.state = .opened →
      (s.fOffers = true → 32 ≤ s.path.fCount → s.grantClass = some .f) ∧
      (s.fOffers = false ∨ s.path.fCount < 32 →
        (s.path.bookkeeping ≠ [] → 8 ≤ s.path.bCount → s.grantClass = some .b) ∧
        (s.path.bookkeeping = [] ∨ s.path.bCount < 8 →
          (s.path.requests ≠ [] → s.heldBack = false → s.grantClass = some .p) ∧
          (s.path.requests = [] ∨ s.heldBack = true →
            (s.path.bookkeeping ≠ [] → s.grantClass = some .b) ∧
            (s.path.bookkeeping = [] → s.grantClass = if s.fOffers then some .f else none))))) ∧
    (s.path.inProgress = none → s.path.state = .draining →
      (s.heldBack = true → s.grantClass = some .b) ∧
      (s.heldBack = false → s.grantClass = if s.path.requests = [] then none else some .p)) ∧
    (s.Ready → s.grantClass = none → exec .mSideGrant s = .next s)

/-- A P grant puts the head of the memory request queue in progress, a B grant the head of the bookkeeping queue, an F grant
the fill write of the next slot of the head station of the preparation queue; the counts follow in OPEN and stay in DRAINING
(R145, R146, R88). The entries a grant frees are offered to what is presented (R135). That a fill write which only raises
the progress leaves the station's mirror group as it is marked is the model's reading (log 19). The grant of a ring's last
fill write completes its preparation: the station leaves the queue and enters LIVE at the reference position read then, with
an empty table, and STATION_READY is set (R89, R87). The place a B grant frees goes to the head of the wait list: its burst,
or the header its station's paused present step forms, is the next appended, it leaves the head, and what it offers further
comes after (R143, R98); a station that is given its place in DRAINING seals that one bin and goes on unpaused. The last
burst of a directive makes its slot IDLE, sets DIRECTIVE_DONE and frees the unit, and before it the next burst waits (R158).
A burst of the journal writer raises its progress and, in OPEN, the next one waits; the sixteenth ends the entry: it leaves
the backlog, the journal head becomes its number and the progress 0 (R165). That the writer begins its next entry, and the
mirror takes its next dirty group, within the same step is the model's choice (log 17, log 16). -/
def Obligations.GrantsPutABurstInProgress : Prop :=
  (∀ s : State, s.Ready →
    (∀ q rest, s.grantClass = some .p → s.path.requests = q :: rest →
      exec .mSideGrant s = .next (State.letIn { s with
        path.requests := rest
        path.inProgress := some (match q with
          | .write b => .pWrite b
          | .read b _ => .pRead b)
        path.bCount :=
          if s.path.state = .opened then (if s.path.bookkeeping = [] then 0 else s.path.bCount + 1) else s.path.bCount
        path.fCount :=
          if s.path.state = .opened then (if s.fOffers then s.path.fCount + 1 else 0) else s.path.fCount })) ∧
    (∀ e rest, s.grantClass = some .b → s.path.bookkeeping = e :: rest → s.path.waitList = [] →
      exec .mSideGrant s = .next (State.letIn { s with
        path.bookkeeping := rest, path.inProgress := some (.bWrite e.burst)
        path.bCount := if s.path.state = .opened then 0 else s.path.bCount
        path.fCount :=
          if s.path.state = .opened then (if s.fOffers then s.path.fCount + 1 else 0) else s.path.fCount })) ∧
    (∀ i q p d, s.grantClass = some .f → s.path.prepQueue = i :: q → (s.station i).state = .preparing p →
      (s.station i).defn = some d → p + 1 < d.slotCount →
      exec .mSideGrant s = .next (State.letIn { s with
        path.stations := s.path.stations.set i.val { s.station i with state := .preparing (p + 1) } i.isLt
        path.inProgress := some (.fWrite
          { addr := d.ringBase + 64 * p
            words := [{ data := d.tag, en := 0xF }, { data := 0, en := 0xF }, { data := 0xFFFFFFFF, en := 0xF },
              { data := 0x7F, en := 0xF }] })
        path.fCount := 0 }))) ∧
  (∀ (s : State) (i : Fin 8) (q : List (Fin 8)) (p : Nat) (d : StationDef), s.Ready → s.grantClass = some .f →
    s.path.prepQueue = i :: q → (s.station i).state = .preparing p → (s.station i).defn = some d → d.slotCount ≤ p + 1 →
    ∃ u, exec .mSideGrant s = .next (State.letIn u) ∧ u = { s with path := u.path } ∧
      u.path = { s.path with
        prepQueue := q, fCount := 0, pathFlags := s.path.pathFlags ||| 0x400
        inProgress := some (.fWrite
          { addr := d.ringBase + 64 * p
            words := [{ data := d.tag, en := 0xF }, { data := 0, en := 0xF }, { data := 0xFFFFFFFF, en := 0xF },
              { data := 0x7F, en := 0xF }] })
        dirty := u.path.dirty, stations := u.path.stations } ∧
      (∀ j, j ≠ i → u.station j = s.station j) ∧
      u.station i = { s.station i with
        state := .live
          { sealedBin := (if s.reference i < d.settle then -1 else ((s.reference i - d.settle) / d.binLength : Nat) - 1)
            highest := (if s.reference i < d.settle then -1 else ((s.reference i - d.settle) / d.binLength : Nat) - 1)
            bins := [], paused := false } } ∧
      u.path.dirty[stationGroup i] = true) ∧
  ∀ (s : State) (e : Bookkeeping) (rest : List Bookkeeping) (w : Waiter) (ws : List Waiter), s.Ready →
    s.grantClass = some .b → s.path.bookkeeping = e :: rest → s.path.waitList = w :: ws →
    ∃ u, exec .mSideGrant s = .next (State.letIn u) ∧ u.path.inProgress = some (.bWrite e.burst) ∧
      (∃ later, u.path.waitList = ws ++ later) ∧
      (∀ b, w = .journal b ∨ w = .directive b ∨ w = .mirror b →
        ∃ more, u.path.bookkeeping.map (·.burst) = rest.map (·.burst) ++ b :: more) ∧
      (∀ i d b bin bins, w = .sealing i → (s.station i).state = .live d → d.bins = (b, bin) :: bins →
        (∃ more, u.path.bookkeeping.map (·.burst) = rest.map (·.burst) ++
          (s.station i).sealHeader (s.owner i (b * (s.station i).d.binLength)) b bin
            (evalChain (s.station i).chain bin) false :: more) ∧
        (s.path.state = .draining →
          u.station i = { s.station i with
            state := .live { d with sealedBin := (b : Int), bins := bins, paused := false } })) ∧
      ∀ (b : WriteBurst) (v : State), v = { s with
          path.bookkeeping := rest ++ [{ id := s.path.nextId, burst := b }], path.nextId := s.path.nextId + 1
          path.waitList := ws, path.inProgress := some (.bWrite e.burst)
          path.bCount := if s.path.state = .opened then 0 else s.path.bCount
          path.fCount :=
            if s.path.state = .opened then (if s.fOffers then s.path.fCount + 1 else 0) else s.path.fCount } →
        (∀ k, w = .directive b → s.path.directiveUnit = .answering k [] →
          ∃ u, exec .mSideGrant s = .next (State.letIn u) ∧ u = { v with
            path.slots := s.path.slots.set k.val { s.slot k with state := .idle } k.isLt
            path.pathFlags := s.path.pathFlags ||| 0x100, path.directiveUnit := .free, path.dirty := u.path.dirty }) ∧
        (∀ k b' more, w = .directive b → s.path.directiveUnit = .answering k (b' :: more) →
          ws ≠ [] ∨ 64 ≤ rest.length + 1 →
          exec .mSideGrant s = .next (State.letIn { v with
            path.waitList := ws ++ [.directive b'], path.directiveUnit := .answering k more })) ∧
        (∀ j entry entries, w = .journal b → s.path.journal = some j → s.track.backlog = entry :: entries →
          (s.path.progress < 15 →
            (s.path.state ≠ .opened → ∃ u, exec .mSideGrant s = .next (State.letIn u) ∧ u = { v with
              path.progress := s.path.progress + 1, path.dirty := u.path.dirty }) ∧
            (s.path.state = .opened → ws ≠ [] ∨ 64 ≤ rest.length + 1 → ∀ n,
              n = (if s.path.progress = 14 then 0 else s.path.progress + 2) →
              ∃ u, exec .mSideGrant s = .next (State.letIn u) ∧ u = { v with
                path.progress := s.path.progress + 1
                path.waitList := ws ++ [.journal
                  { addr := j.base + 512 * (entry.seq % j.size) + 32 * n
                    words := (((journalWords entry).drop (8 * n)).take 8).map fun x => { data := x, en := 0xF } }]
                path.dirty := u.path.dirty })) ∧
          (15 ≤ s.path.progress → (∀ b', .journal b' ∉ ws) →
            ∃ u x, u = { v with
                track.backlog := entries
                track.trackingFlags :=
                  if 96 ≤ entries.length then s.track.trackingFlags ||| 0x8 else s.track.trackingFlags
                path.journalHead := entry.seq, path.progress := 0, path.dirty := u.path.dirty } ∧
              exec .journalEntryBegin u = .next x ∧ exec .mSideGrant s = .next (State.letIn x))) ∧
        (w = .mirror b → ∃ x, exec .mirrorGroupWrite v = .next x ∧ exec .mSideGrant s = .next (State.letIn x))

/-- A burst in progress completes: the data of a read joins the read held at the port, and a DRAINING path with nothing
left goes to HOLD (R144, R139, R148). Without a burst in progress, or with less data than the read asks for, nothing
happens (log 13). -/
def Obligations.BurstsComplete : Prop :=
  ∀ (data : List Word) (s : State), s.Ready →
    (s.path.inProgress = none → exec (.mSideBurstComplete data) s = .next s) ∧
    (∀ b, s.path.inProgress = some (.pRead b) → data.length < b.count →
      exec (.mSideBurstComplete data) s = .next s) ∧
    (∀ b, s.path.inProgress = some (.pRead b) → b.count ≤ data.length →
      ∃ t, exec (.mSideBurstComplete data) s = .next t ∧
        t = { s with
          path.inProgress := none, path.port := t.path.port
          path.state := if s.path.state = .draining ∧ s.path.requests = [] then .hold else s.path.state
          path.dirty := if s.path.state = .draining ∧ s.path.requests = [] then s.path.dirty.set 0 true
            else s.path.dirty } ∧
        (s.path.port = none → t.path.port = none) ∧
        (∀ r o, s.path.port = some (.passThrough r o) → t.path.port = some (.passThrough r (some (data.take b.count)))) ∧
        (∀ h, s.path.port = some (.aperture h) →
          t.path.port = some (.aperture { h with got := h.got ++ [data.take b.count] }))) ∧
    (∀ b, s.path.inProgress = some (.pWrite b) ∨ s.path.inProgress = some (.bWrite b) ∨
        s.path.inProgress = some (.fWrite b) →
      exec (.mSideBurstComplete data) s = .next { s with
        path.inProgress := none
        path.state := if s.path.state = .draining ∧ s.path.requests = [] then .hold else s.path.state
        path.dirty := if s.path.state = .draining ∧ s.path.requests = [] then s.path.dirty.set 0 true
          else s.path.dirty })

/-! ## The journal writer, the mirror and the resolver -/

/-- The writer writes the backlog head as 16 bursts of 8 words, blocks 1 to 15 and then 0, to slot seq mod size; with
places for all, the entry leaves the backlog, the head becomes its number and the progress 0; with fewer, the progress
counts those appended and the next burst waits (R165, R164, R143). Without a setting, a backlog, the path OPEN, or with an
entry in progress or a burst waiting, it begins nothing. Which end of their field the record image's flags begin at is the
model's reading (log 24). -/
def Obligations.JournalEntriesAreWrittenBlock0Last : Prop :=
  ∀ s : State, s.Ready →
    (s.path.journal = none ∨ s.track.backlog = [] ∨ s.path.state ≠ .opened ∨ 0 < s.path.progress ∨
      (∃ b, .journal b ∈ s.path.waitList) → exec .journalEntryBegin s = .next s) ∧
    ∀ j e rest, s.path.journal = some j → s.track.backlog = e :: rest → s.path.state = .opened → s.path.progress = 0 →
      (∀ b, .journal b ∉ s.path.waitList) →
      ∀ bursts : List WriteBurst,
        bursts = ([1, 2, 3, 4, 5, 6, 7, 8, 9, 10, 11, 12, 13, 14, 15, 0] : List Nat).map (fun n =>
          { addr := j.base + 512 * (e.seq % j.size) + 32 * n
            words := (((journalWords e).drop (8 * n)).take 8).map fun w => { data := w, en := 0xF } }) →
        (s.path.waitList = [] → s.path.bookkeeping.length + 16 ≤ 64 →
          ∃ t, exec .journalEntryBegin s = .next t ∧
            t.path.bookkeeping.map (·.burst) = s.path.bookkeeping.map (·.burst) ++ bursts ∧
            t.track = { s.track with
              backlog := rest
              trackingFlags := if 96 ≤ rest.length then s.track.trackingFlags ||| 0x8 else s.track.trackingFlags } ∧
            t.path = { s.path with
              bookkeeping := t.path.bookkeeping, nextId := t.path.nextId, journalHead := e.seq
              dirty := t.path.dirty } ∧
            t.path.dirty[journalGroup] = true) ∧
        (∀ n b, s.path.waitList = [] → s.path.bookkeeping.length + n = 64 → bursts[n]? = some b →
          ∃ t, exec .journalEntryBegin s = .next t ∧ t.track = s.track ∧
            t.path.bookkeeping.map (·.burst) = s.path.bookkeeping.map (·.burst) ++ bursts.take n ∧
            t.path = { s.path with
              bookkeeping := t.path.bookkeeping, nextId := t.path.nextId, progress := n, waitList := [.journal b]
              dirty := t.path.dirty }) ∧
        (∀ b, s.path.waitList ≠ [] → bursts[0]? = some b →
          exec .journalEntryBegin s = .next { s with path.waitList := s.path.waitList ++ [.journal b] })

/-- The mirror takes the first dirty group at or after the rotation mark: the group's words are formed from the state as
it stands, its mark is cleared, the rotation mark names the next group, and the burst of 8 words is appended or waits
(R175, R174). Outside OPEN, with a burst of the mirror waiting, or with no group dirty, nothing happens. Which end of their
field the absent marks of a group begin at is the model's reading (log 24). -/
def Obligations.TheMirrorWritesTheNextDirtyGroup : Prop :=
  ∀ s : State, s.Ready →
    (s.path.state ≠ .opened ∨ (∃ b, .mirror b ∈ s.path.waitList) ∨ (∀ g : Fin 39, s.path.dirty[g] = false) →
      exec .mirrorGroupWrite s = .next s) ∧
    ∀ (g : Fin 39) (n : Nat), s.path.state = .opened → (∀ b, .mirror b ∉ s.path.waitList) → n < 39 →
      g.val = (s.path.rotation.val + n) % 39 → s.path.dirty[g] = true →
      (∀ (g' : Fin 39) (m : Nat), m < n → g'.val = (s.path.rotation.val + m) % 39 → s.path.dirty[g'] = false) →
      ∀ (b : WriteBurst) (u : State), b =
          { addr := s.base + 0x2000 + 32 * g.val
            words := (s.groupWords s.freeCount g).map fun w => { data := w, en := 0xF } } →
        u = { s with
          path.dirty := s.path.dirty.set g.val false g.isLt
          path.rotation := ⟨(g.val + 1) % 39, Nat.mod_lt _ (by decide)⟩, freeCount := s.freeCount + 1 } →
        (s.path.waitList = [] → s.path.bookkeeping.length < 64 →
          exec .mirrorGroupWrite s = .next { u with
            path.bookkeeping := s.path.bookkeeping ++ [{ id := s.path.nextId, burst := b }]
            path.nextId := s.path.nextId + 1 }) ∧
        (s.path.waitList ≠ [] ∨ 64 ≤ s.path.bookkeeping.length →
          exec .mirrorGroupWrite s = .next { u with path.waitList := s.path.waitList ++ [.mirror b] })

/-- The resolver serves the first RESOLVING cursor after its mark: the lowest unresolved point takes its resolved entry,
and the last one makes the cursor READY and sets CURSOR_READY (R118, R119). With no cursor RESOLVING it is idle. -/
def Obligations.TheResolverServesTheCursorsInTurn : Prop :=
  ∀ s : State, s.Ready →
    ((∀ k d table, s.cursor k ≠ .resolving d table) → exec .resolverTurn s = .next s) ∧
    ∀ (k : Fin 8) (n : Nat) (d : CursorDef) (table : List Resolved), n < 8 →
      k.val = (s.path.resolverMark.val + 1 + n) % 8 → s.cursor k = .resolving d table →
      (∀ (j : Fin 8) (m : Nat), m < n → j.val = (s.path.resolverMark.val + 1 + m) % 8 →
        ∀ d' table', s.cursor j ≠ .resolving d' table') →
      ∀ r, r = s.resolve d ((d.x0 : Int) + table.length * d.stepLen) →
        (table.length + 1 < d.count → exec .resolverTurn s = .next { s with
          path.resolverMark := k
          path.cursors := s.path.cursors.set k.val (.resolving d (table ++ [r])) k.isLt
          path.dirty := s.path.dirty.set (cursorGroup k).val true (cursorGroup k).isLt }) ∧
        (d.count ≤ table.length + 1 → ∃ t, exec .resolverTurn s = .next t ∧ t = { s with
          path.resolverMark := k
          path.cursors := s.path.cursors.set k.val (.ready d (table ++ [r])) k.isLt
          path.pathFlags := s.path.pathFlags ||| 0x200, path.dirty := t.path.dirty } ∧
          t.path.dirty[cursorGroup k] = true)

/-! ## Directives -/

/-- Taking, judging and completing a directive (R156 to R159), for the 24 directives that are executed whole: the slot at
the head of the FIFO leaves it and is RUNNING; a refusal changes no state of any block and answers its reason; an executed
directive answers DONE. A code that names none is refused UNKNOWN_CODE without answer words. A take that is due (the unit
FREE, the FIFO not empty, the path OPEN or DRAINING) comes before anything else that happens: the row of the directive at
the head of the FIFO makes it, and every command that takes no directive finds the part as that row leaves it, so that a
unit freed in DRAINING takes the next directive before the path can enter HOLD (R156, R161). That a take which no command
precedes stands as the part's next step, and that the row of another directive leaves the state, is the model's (log 5). -/
def Obligations.DirectivesAreTakenJudgedAndAnswered : Prop :=
  (∀ (s : State) (k : Fin 16), s.beginDirective k = { s with
    path.fifo := s.path.fifo.tail
    path.slots := s.path.slots.set k.val { s.slot k with state := .running } k.isLt
    path.dirty := s.path.dirty.set 0 true }) ∧
  (∀ (i : Instr) (code : BitVec 8) (f : (Nat → Word) → State → DirOutcome) (s : State), directiveOf i = some (code, f) →
    ((∀ k, ¬s.Takes k code) → exec i s = .next s) ∧
    ∀ k, s.Takes k code →
      (∀ r a, f (s.param k) (s.beginDirective k) = .refused r a → Runs i s (s.beginDirective k) k (some r) a) ∧
      ∀ e a, f (s.param k) (s.beginDirective k) = .done e a → Runs i s e k none a) ∧
  ∀ s : State,
    (∀ k code, s.Takes k code →
      code ∉ ([0x01, 0x02, 0x03, 0x04, 0x05, 0x06, 0x10, 0x11, 0x12, 0x13, 0x20, 0x21, 0x22, 0x23, 0x30, 0x31, 0x32,
        0x33, 0x40, 0x41, 0x42, 0x50, 0x51, 0x52, 0x53] : List (BitVec 8)) →
      Runs .unknownCode s (s.beginDirective k) k (some .unknownCode) []) ∧
    ((∀ k code, s.Takes k code → code ∈ directiveCodes) → exec .unknownCode s = .next s) ∧
    ∀ k code, s.Takes k code → (∃ i, takesCode i code) ∧ ∀ i, takesCode i code →
      ∃ t, exec i s = .next t ∧ t.path.fifo = s.path.fifo.tail ∧
        ∀ c, waitsForTakes c → exec c s = exec c t

/-- Define Line (R9 to R11, R7): the judgement in its order, the ranges of R9 and what agrees between them, and the whole
effect; counters, limit marks, patterns, queues, last positions, settled levels and pending changes stay. -/
def Obligations.DefineLineSetsTheWholeDefinition : Prop :=
  (∀ w : Nat → Word, lineWordsOk w = true ↔
    (1 ≤ (w 1).toNat ∧ (w 1).toNat ≤ 4096) ∧ (1 ≤ (w 2).toNat ∧ (w 2).toNat ≤ 1000) ∧
    (1 ≤ (w 3).toNat ∧ (w 3).toNat ≤ 4096) ∧ (1 ≤ (w 4).toNat ∧ (w 4).toNat ≤ 1000) ∧ (w 5).toNat ≤ 1 ∧
    ((w 6).toNat ≤ 3 ∧ (w 7).toNat ≤ 15 ∧ -100000 ≤ (w 8).toInt ∧ (w 8).toInt ≤ 100000) ∧
    ((w 9).toNat ≤ 3 ∧ (w 10).toNat ≤ 15 ∧ -100000 ≤ (w 11).toInt ∧ (w 11).toInt ≤ 100000) ∧
    ((w 12).toNat ≤ 3 ∧ (w 13).toNat ≤ 15 ∧ -100000 ≤ (w 14).toInt ∧ (w 14).toInt ≤ 100000) ∧
    (1 ≤ (w 15).toNat ∧ (w 15).toNat ≤ 1000000) ∧ (1 ≤ (w 16).toNat ∧ (w 16).toNat ≤ 1000000) ∧
    (1 ≤ (w 17).toNat ∧ (w 17).toNat ≤ 1000000) ∧ (500 ≤ (w 18).toNat ∧ (w 18).toNat ≤ 20000) ∧
    (500 ≤ (w 19).toNat ∧ (w 19).toNat ≤ 20000) ∧ (w 20).toNat ≤ 1 ∧ (w 21).toNat ≤ 500 ∧
    (10 ≤ (w 22).toNat ∧ (w 22).toNat ≤ 10000) ∧ (w 23).toNat ≤ 10000 ∧
    (w 18).toNat ≤ (w 19).toNat ∧ (w 11).toInt ≤ (w 14).toInt) ∧
  ∀ (s : State) (k : Fin 16), s.Takes k 0x01 →
    (4 ≤ (s.param k 0).toNat → Runs .defineLine s (s.beginDirective k) k (some .badParameter) []) ∧
    ∀ l : LineId, (s.param k 0).toNat = l.val →
      ((s.line l).state = .tracking ∨ ((s.line l).state = .standby ∧ ¬s.Clear l) →
        Runs .defineLine s (s.beginDirective k) k (some .wrongState) []) ∧
      ((s.line l).state = .unconfigured ∨ ((s.line l).state = .standby ∧ s.Clear l) →
        (lineWordsOk (s.param k) = false → Runs .defineLine s (s.beginDirective k) k (some .badParameter) []) ∧
        (lineWordsOk (s.param k) = true →
          Runs .defineLine s (((s.beginDirective k).withLine l { s.line l with
            state := .standby
            entry := { (s.line l).entry with
              reload := (s.param k 1).toNat, stepLen := (s.param k 2).toNat, remaining := (s.param k 1).toNat }
            exit := { (s.line l).exit with
              reload := (s.param k 3).toNat, stepLen := (s.param k 4).toNat, remaining := (s.param k 3).toNat }
            gated := (s.param k 5).toNat == 1
            seamIn := { (s.line l).seamIn with
              edge := edgeOf (s.param k 6), debounce := (s.param k 7).toNat, offset := (s.param k 8).toInt }
            hole := { (s.line l).hole with
              edge := edgeOf (s.param k 9), debounce := (s.param k 10).toNat, offset := (s.param k 11).toInt }
            shear := { (s.line l).shear with
              edge := edgeOf (s.param k 12), debounce := (s.param k 13).toNat, offset := (s.param k 14).toInt }
            seamInSpacing := (s.param k 15).toNat, seamOutSpacing := (s.param k 16).toNat
            shearSpacing := (s.param k 17).toNat, elongMin := (s.param k 18).toNat, elongMax := (s.param k 19).toNat
            reverseOnPass := (s.param k 20).toNat == 1, tolerance := (s.param k 21).toNat
            gapLimit := (s.param k 22).toNat, recoveryLen := (s.param k 23).toNat }).mark (lineGroup l)) k none []))

/-- Define Hole Patterns (R25, R26): the judgement in its order, and all three pattern slots replaced.
That an unused slot's class is held as SEAM is the model's choice (log 15). -/
def Obligations.DefineHolePatternsReplacesAllThree : Prop :=
  ∀ (s : State) (k : Fin 16), s.Takes k 0x02 →
    (4 ≤ (s.param k 0).toNat → Runs .defineHolePatterns s (s.beginDirective k) k (some .badParameter) []) ∧
    ∀ l : LineId, (s.param k 0).toNat = l.val →
      ((s.line l).state ≠ .standby → Runs .defineHolePatterns s (s.beginDirective k) k (some .wrongState) []) ∧
      (∀ j, (s.line l).state = .standby → j < 3 → (∀ p, ¬PatternGiven (s.param k) j p) →
        Runs .defineHolePatterns s (s.beginDirective k) k (some .badParameter) []) ∧
      ∀ a b c, (s.line l).state = .standby → PatternGiven (s.param k) 0 a → PatternGiven (s.param k) 1 b →
        PatternGiven (s.param k) 2 c →
        Runs .defineHolePatterns s
          (((s.beginDirective k).withLine l { s.line l with patterns := #v[a, b, c] }).mark (lineGroup l)) k none []

/-- Start and Stop Tracking (R12, R13, R7): the line state changes, Stop returns the matcher to IDLE and voids the pending
changes (R23), ANNOUNCE_EMPTY is judged at the change (R169), and the answer is the two counters. -/
def Obligations.StartAndStopTrackingMoveTheLineState : Prop :=
  ∀ (s : State) (k : Fin 16),
    (s.Takes k 0x03 →
      (4 ≤ (s.param k 0).toNat → Runs .startTracking s (s.beginDirective k) k (some .badParameter) []) ∧
      ∀ l : LineId, (s.param k 0).toNat = l.val →
        ((s.line l).state ≠ .standby → Runs .startTracking s (s.beginDirective k) k (some .wrongState) []) ∧
        ∀ e, (s.line l).state = .standby →
          e = ((s.beginDirective k).withLine l { s.line l with state := .tracking }).mark (lineGroup l) →
          Runs .startTracking s (e.withFlags e.flagsJudged) k none
            (words48 (s.line l).entry.counter ++ words48 (s.line l).exit.counter)) ∧
    (s.Takes k 0x04 →
      (4 ≤ (s.param k 0).toNat → Runs .stopTracking s (s.beginDirective k) k (some .badParameter) []) ∧
      ∀ l : LineId, (s.param k 0).toNat = l.val →
        ((s.line l).state ≠ .tracking → Runs .stopTracking s (s.beginDirective k) k (some .wrongState) []) ∧
        ∀ e, (s.line l).state = .tracking →
          e = ((s.beginDirective k).withLine l { s.line l with
            state := .standby, matcher := .idle
            seamIn := { (s.line l).seamIn with
              pending := (s.line l).seamIn.pending.map fun c => { c with void := true } }
            hole := { (s.line l).hole with pending := (s.line l).hole.pending.map fun c => { c with void := true } }
            shear := { (s.line l).shear with
              pending := (s.line l).shear.pending.map fun c => { c with void := true } } }).mark (lineGroup l) →
          Runs .stopTracking s (e.withFlags e.flagsJudged) k none
            (words48 (s.line l).entry.counter ++ words48 (s.line l).exit.counter))

/-- Clear Line (R54, R71): the line's LOADING, CLOSED and WINDING records are settled by force, in increasing serial order,
and consume a sequence number each; each makes a journal entry, with FORCED set and the clock at settling, that joins the
backlog or, with the backlog full, is lost with JOURNAL_BACKLOG_FULL (R70, R163), and sets RECORD_SETTLED. The line's
collections and announcement queues are emptied, its matcher returns to IDLE; every other record, the identity map, the
other lines and the path well's blocks stay. -/
def Obligations.ClearLineSettlesByForceAndEmpties : Prop :=
  ∀ (s : State) (k : Fin 16), s.Takes k 0x05 →
    (4 ≤ (s.param k 0).toNat → Runs .clearLine s (s.beginDirective k) k (some .badParameter) []) ∧
    ∀ l : LineId, (s.param k 0).toNat = l.val →
      ((s.line l).state ≠ .standby → Runs .clearLine s (s.beginDirective k) k (some .wrongState) []) ∧
      ∀ n, (s.line l).state = .standby → s.SerialsOk →
        n = (s.track.table.records.filter fun r =>
          decide (r.line = l ∧ (r.state = .loading ∨ r.state = .closed ∨ r.state = .winding))).length →
        ∃ e, Runs .clearLine s e k none
            [wordOf n, wordOf (s.line l).entryQueue.length, wordOf (s.line l).exitQueue.length] ∧
          e.line l = { s.line l with
            seamQueue := [], through := [], entryQueue := [], exitQueue := [], matcher := .idle } ∧
          (∀ j, j ≠ l → e.line j = s.line j) ∧
          e.track.table = { s.track.table with places := settledByClear l s.track.table.places } ∧
          e.track.nextSeq = s.track.nextSeq + n ∧ e.track.clock = s.track.clock ∧
          e.path = { (s.beginDirective k).path with dirty := e.path.dirty } ∧
          ∃ rs : List Record, rs.Pairwise (fun a b => a.serial < b.serial) ∧
            rs.Perm (s.track.table.records.filter fun r =>
              decide (r.line = l ∧ (r.state = .loading ∨ r.state = .closed ∨ r.state = .winding))) ∧
            e.track.backlog = s.track.backlog ++ (rs.take (128 - s.track.backlog.length)).mapIdx (fun j r =>
              { seq := s.track.nextSeq + j, settledAt := s.track.clock
                record := { r with state := .settled, flags.forced := true } }) ∧
            ∀ full : State, full = (rs.drop (128 - s.track.backlog.length)).foldl
                (fun a r => a.anomaly .journalBacklogFull (some r.line) none (some r.serial)) s →
              e.track.anomalies = full.track.anomalies ∧ e.track.anomalyCount = full.track.anomalyCount ∧
              e.track.trackingFlags = full.track.trackingFlags ||| (if rs = [] then 0 else 0x2) |||
                (if rs ≠ [] ∧ s.track.backlog.length < 128 ∧ 96 ≤ s.track.backlog.length + rs.length then 0x8 else 0) |||
                (if ∃ j, (s.line j).state = .tracking ∧ (s.line j).entryQueue = [] then 0x4 else 0)

/-- Set Clock (R15): taken in every line state; a high word above 0xFFFF is refused and the clock kept; else the clock
takes the 48-bit value, the answer is the value replaced, G0 is dirty, and the next tick raises the clock by one from
there. -/
def Obligations.SetClockLoadsTheClock : Prop :=
  (∀ (s : State) (k : Fin 16), s.Takes k 0x06 →
    (0xFFFF < (s.param k 1).toNat → Runs .setClock s (s.beginDirective k) k (some .badParameter) []) ∧
    ((s.param k 1).toNat ≤ 0xFFFF →
      Runs .setClock s (State.mark { s.beginDirective k with
        track.clock := BitVec.ofNat 48 ((s.param k 0).toNat + (s.param k 1).toNat * 4294967296) } 0) k none
        [BitVec.ofNat 32 s.track.clock.toNat, BitVec.ofNat 32 (s.track.clock.toNat / 4294967296)])) ∧
  ∀ s : State, s.Ready → ∃ t, exec .timeBaseTick s = .next t ∧ t.track.clock = s.track.clock + 1

/-- Announce Entry and Announce Exit (R38): taken in every line state; judged in three steps; the number joins the tail of
the named queue, and the answer is the queue's length after it. ANNOUNCE_EMPTY is judged at a change of an entry queue
(R169). -/
def Obligations.AnnouncementsJoinTheTail : Prop :=
  ∀ (s : State) (k : Fin 16),
    (s.Takes k 0x10 →
      (4 ≤ (s.param k 0).toNat → Runs .announceEntry s (s.beginDirective k) k (some .badParameter) []) ∧
      ∀ l : LineId, (s.param k 0).toNat = l.val →
        (s.param k 1 ∈ (s.line l).entryQueue →
          Runs .announceEntry s (s.beginDirective k) k (some .duplicate) []) ∧
        (s.param k 1 ∉ (s.line l).entryQueue → 8 ≤ (s.line l).entryQueue.length →
          Runs .announceEntry s (s.beginDirective k) k (some .queueFull) []) ∧
        ∀ e, s.param k 1 ∉ (s.line l).entryQueue → (s.line l).entryQueue.length < 8 →
          e = (s.beginDirective k).withLine l
            { s.line l with entryQueue := (s.line l).entryQueue ++ [s.param k 1] } →
          Runs .announceEntry s (e.withFlags e.flagsJudged) k none [wordOf ((s.line l).entryQueue.length + 1)]) ∧
    (s.Takes k 0x11 →
      (4 ≤ (s.param k 0).toNat → Runs .announceExit s (s.beginDirective k) k (some .badParameter) []) ∧
      ∀ l : LineId, (s.param k 0).toNat = l.val →
        (s.param k 1 ∈ (s.line l).exitQueue →
          Runs .announceExit s (s.beginDirective k) k (some .duplicate) []) ∧
        (s.param k 1 ∉ (s.line l).exitQueue → 8 ≤ (s.line l).exitQueue.length →
          Runs .announceExit s (s.beginDirective k) k (some .queueFull) []) ∧
        (s.param k 1 ∉ (s.line l).exitQueue → (s.line l).exitQueue.length < 8 →
          Runs .announceExit s ((s.beginDirective k).withLine l
            { s.line l with exitQueue := (s.line l).exitQueue ++ [s.param k 1] }) k none
            [wordOf ((s.line l).exitQueue.length + 1)]))

/-- Withdraw (R39, R36): the number leaves the named queue from its place, the others keep their order, and the answer is
the place it held. -/
def Obligations.WithdrawRemovesFromItsPlace : Prop :=
  ∀ (s : State) (k : Fin 16), s.Takes k 0x12 →
    (4 ≤ (s.param k 0).toNat ∨ 1 < (s.param k 1).toNat →
      Runs .withdraw s (s.beginDirective k) k (some .badParameter) []) ∧
    ∀ l : LineId, (s.param k 0).toNat = l.val →
      ((s.param k 1).toNat = 0 → s.param k 2 ∉ (s.line l).entryQueue →
        Runs .withdraw s (s.beginDirective k) k (some .notFound) []) ∧
      ((s.param k 1).toNat = 1 → s.param k 2 ∉ (s.line l).exitQueue →
        Runs .withdraw s (s.beginDirective k) k (some .notFound) []) ∧
      (∀ pre post e, (s.param k 1).toNat = 0 → (s.line l).entryQueue = pre ++ s.param k 2 :: post → s.param k 2 ∉ pre →
        e = (s.beginDirective k).withLine l { s.line l with entryQueue := pre ++ post } →
        Runs .withdraw s (e.withFlags e.flagsJudged) k none [wordOf pre.length]) ∧
      ∀ pre post, (s.param k 1).toNat = 1 → (s.line l).exitQueue = pre ++ s.param k 2 :: post → s.param k 2 ∉ pre →
        Runs .withdraw s ((s.beginDirective k).withLine l { s.line l with exitQueue := pre ++ post }) k none
          [wordOf pre.length]

/-- Inject Marker (R52, R53): judged in its order; carried out as the event R41, R44 or R46 with the given position and the
plant clock as capture time, and answered with two serials. What the three events do is stated on their own below. -/
def Obligations.InjectMarkerCarriesOutTheEvent : Prop :=
  ∀ (s : State) (k : Fin 16), s.Takes k 0x13 →
    (4 ≤ (s.param k 0).toNat → Runs .injectMarker s (s.beginDirective k) k (some .badParameter) []) ∧
    ∀ (l : LineId) (p : Nat), (s.param k 0).toNat = l.val →
      p = (s.param k 2).toNat + (s.param k 3).toNat * 4294967296 →
      ((s.line l).state ≠ .tracking → Runs .injectMarker s (s.beginDirective k) k (some .wrongState) []) ∧
      ((s.line l).state = .tracking → 2 < (s.param k 1).toNat ∨ 0xFFFF < (s.param k 3).toNat →
        Runs .injectMarker s (s.beginDirective k) k (some .badParameter) []) ∧
      ((s.line l).state = .tracking → (s.param k 3).toNat ≤ 0xFFFF →
        ((s.param k 1).toNat = 0 →
          (¬Passes (s.line l).lastSeamIn (s.line l).seamInSpacing p →
            Runs .injectMarker s (s.beginDirective k) k (some .badParameter) []) ∧
          (Passes (s.line l).lastSeamIn (s.line l).seamInSpacing p →
            ∀ r, (s.beginDirective k).acceptSeamIn l p s.track.clock = r →
              Runs .injectMarker s r.1 k none [wordOf r.2.1, wordOf r.2.2])) ∧
        ((s.param k 1).toNat = 1 →
          (¬Passes (s.line l).lastExitSeam (s.line l).seamOutSpacing p →
            Runs .injectMarker s (s.beginDirective k) k (some .badParameter) []) ∧
          (Passes (s.line l).lastExitSeam (s.line l).seamOutSpacing p →
            ∀ r, (s.beginDirective k).acceptExitSeam l p = r →
              Runs .injectMarker s r.1 k none [wordOf r.2.1, wordOf r.2.2])) ∧
        ((s.param k 1).toNat = 2 →
          (¬Passes (s.line l).lastShear (s.line l).shearSpacing p →
            Runs .injectMarker s (s.beginDirective k) k (some .badParameter) []) ∧
          (Passes (s.line l).lastShear (s.line l).shearSpacing p →
            ∀ r, (s.beginDirective k).acceptShear l p s.track.clock = r →
              Runs .injectMarker s r.1 k none [wordOf r.2.1, wordOf r.2.2])))

/-- Name Record (R72, R65, R66): the record's identity and its RENAMED flag are set in its place; an ENTRY record takes the
source its number names in the identity map; an EXIT record in CUT or SETTLED is written into the map unless a greater or
equal serial stands there; in another state the map is written later, at the cut. -/
def Obligations.NameRecordGivesAnIdentity : Prop :=
  ∀ (s : State) (k : Fin 16), s.Takes k 0x20 →
    (s.find (s.param k 0).toNat = none → Runs .nameRecord s (s.beginDirective k) k (some .notFound) []) ∧
    ∀ r, s.find (s.param k 0).toNat = some r →
      (r.identity ≠ none → Runs .nameRecord s (s.beginDirective k) k (some .wrongState) []) ∧
      (r.identity = none → r.kind = .entry →
        ∀ held, s.lookupNumber (s.param k 1) = held →
          Runs .nameRecord s { s.beginDirective k with
            track.table.places := s.track.table.places.map fun e =>
              if e.2.serial = r.serial then
                (e.1, { e.2 with
                  identity := some (s.param k 1), flags.renamed := true
                  source := held.elim e.2.source some })
              else e } k none [wordOf (held.getD 0), 0]) ∧
      (r.identity = none → r.kind = .exit →
        ∀ u, u = { s.beginDirective k with
            track.table.places := s.track.table.places.map fun e =>
              if e.2.serial = r.serial then (e.1, { e.2 with identity := some (s.param k 1), flags.renamed := true })
              else e } →
        (r.state ≠ .cut → r.state ≠ .settled → Runs .nameRecord s u k none [0, 0]) ∧
        (r.state = .cut ∨ r.state = .settled →
          (∀ held, s.lookupNumber (s.param k 1) = some held → r.serial ≤ held → Runs .nameRecord s u k none [0, 0]) ∧
          ((∀ held, s.lookupNumber (s.param k 1) = some held → held < r.serial) →
            Runs .nameRecord s { u with
              track.table.idMap := tableSet (s.param k 1).toNat r.serial s.track.table.idMap } k none [0, 1])))

/-- Read Record (R74) and Trace (R75): selector 0 names a record by serial, 1 by plant number through the identity map;
Read Record answers the image and the tags, or the segments, and changes nothing; Trace answers the target's serial, the
number of ancestors, at most 12, with TRUNCATED, and four words for each. The ancestors are met breadth first: the references
of the target, then those of each listed record in list order, the target and serials already listed passed over; a lost
reference is listed LOST with the kind and line it implies; a thirteenth ancestor ends the listing with TRUNCATED. Which
end of their field the image's flags begin at is the model's reading (log 24). -/
def Obligations.ReadRecordAndTraceAnswerFromTheTable : Prop :=
  (∀ (s : State) (a v : Word), s.selected a v =
    if a.toNat = 0 then s.find v.toNat else (s.lookupNumber v).bind s.find) ∧
  (∀ (t : CoilTable) (r : Record) (listed : List Ancestor) (truncated : Bool)
      (refs met : List (Nat × Kind × Option LineId × Nat)),
    traceOf t r = { traceOf t r with listed := listed, truncated := truncated } →
    refs = (r :: listed.filterMap fun a => t.find a.serial).flatMap (fun v =>
      match v.kind with
      | .exit => v.segments.map fun g => (g.serial, .entry, some v.line, v.serial)
      | .entry => v.source.toList.map fun n => (n, .exit, none, v.serial)) →
    met = refs.foldl (fun acc x => if x.1 = r.serial ∨ ∃ y ∈ acc, y.1 = x.1 then acc else acc ++ [x]) [] →
    truncated = decide (12 < met.length) ∧
    listed = (met.take 12).map fun x =>
      match t.find x.1 with
      | none => { serial := x.1, number := none, kind := x.2.1, line := x.2.2.1, lost := true, reachedFrom := x.2.2.2 }
      | some a => { serial := x.1, number := a.identity, kind := a.kind, line := some a.line, lost := false
                    reachedFrom := x.2.2.2 }) ∧
  ∀ (s : State) (k : Fin 16),
    (s.Takes k 0x21 →
      (1 < (s.param k 0).toNat ∨ 1 < (s.param k 2).toNat →
        Runs .readRecord s (s.beginDirective k) k (some .badParameter) []) ∧
      ((s.param k 0).toNat ≤ 1 → (s.param k 2).toNat ≤ 1 →
        (s.selected (s.param k 0) (s.param k 1) = none →
          Runs .readRecord s (s.beginDirective k) k (some .notFound) []) ∧
        ∀ r, s.selected (s.param k 0) (s.param k 1) = some r →
          ((s.param k 2).toNat = 0 → Runs .readRecord s (s.beginDirective k) k none
            (recordImage r ++ (r.tags.map fun t => [wordOf t.slot.val, offsetWord t.pos]).flatten)) ∧
          ((s.param k 2).toNat = 1 → Runs .readRecord s (s.beginDirective k) k none
            ([wordOf r.serial, wordOf r.segments.length] ++
              (r.segments.map fun g =>
                [offsetWord (g.exitStart - r.start), offsetWord (g.exitEnd - r.start), wordOf g.serial]).flatten)))) ∧
    (s.Takes k 0x22 →
      (1 < (s.param k 0).toNat → Runs .trace s (s.beginDirective k) k (some .badParameter) []) ∧
      ((s.param k 0).toNat ≤ 1 →
        (s.selected (s.param k 0) (s.param k 1) = none → Runs .trace s (s.beginDirective k) k (some .notFound) []) ∧
        ∀ r, s.selected (s.param k 0) (s.param k 1) = some r →
          (traceOf s.track.table r).listed.length ≤ 12 ∧
          (r.references = [] → (traceOf s.track.table r).listed = [] ∧ (traceOf s.track.table r).truncated = false) ∧
          Runs .trace s { s.beginDirective k with freeCount := s.freeCount + 1 } k none
            ([wordOf r.serial, countWord (traceOf s.track.table r).listed.length (traceOf s.track.table r).truncated] ++
              ((traceOf s.track.table r).listed.map (ancestorWords s.freeCount)).flatten)))

/-- Descend (R76 to R78): a target that is present starts a scan at place 0; each visit appends the record of its place if
it is a child; a twenty-fifth child ends the scan with TRUNCATED, and the visit of place 8191 completes it; the answer is
the target, the count and three words for each child. Without a scan a visit does nothing. -/
def Obligations.DescendScansEveryPlace : Prop :=
  ∀ s : State, s.powered = true →
    (∀ k, s.Takes k 0x23 →
      (s.find (s.param k 0).toNat = none → Runs .descend s (s.beginDirective k) k (some .notFound) []) ∧
      ∀ r, s.find (s.param k 0).toNat = some r →
        exec .descend s = .next { s.beginDirective k with path.directiveUnit := .scanning k r.serial r.kind 0 [] }) ∧
    ((∀ k, ¬s.Takes k 0x23) → exec .descend s = .next s) ∧
    ((∀ k target kind place children, s.path.directiveUnit ≠ .scanning k target kind place children) →
      s.NothingToTake → exec .descendScanVisit s = .next s) ∧
    ∀ k target kind place children found, s.path.directiveUnit = .scanning k target kind place children →
      found = ((tableGet place s.track.table.places).filter fun r =>
        match kind with
        | .entry => r.kind == .exit && r.segments.any fun g => g.serial == target
        | .exit => r.kind == .entry && r.source == some target) →
      (∀ r, found = some r → 24 ≤ children.length → Runs .descendScanVisit s s k none
        ([wordOf target, countWord children.length true] ++ (children.map childWords).flatten)) ∧
      ∀ list, (found ≠ none → children.length < 24) →
        list = children ++ found.toList.map (fun r =>
          { serial := r.serial, number := r.identity, kind := r.kind, line := r.line }) →
        (place + 1 < 8192 →
          exec .descendScanVisit s = .next { s with
            path.directiveUnit := .scanning k target kind (place + 1) list }) ∧
        (8192 ≤ place + 1 → Runs .descendScanVisit s s k none
          ([wordOf target, countWord list.length false] ++ (list.map childWords).flatten))

/-- Define Station (R82 to R84): the judgement in its order, and the definition replaced as a whole with an empty chain; the
station stays OFF with its incarnation and its count. The offsets beyond the channel count, which are not read, are held as
0 (the model's form of a definition, log 22). -/
def Obligations.DefineStationReplacesTheDefinition : Prop :=
  ∀ (s : State) (k : Fin 16), s.Takes k 0x30 →
    (4 ≤ (s.param k 0).toNat ∨ 1 < (s.param k 1).toNat →
      Runs .defineStation s (s.beginDirective k) k (some .badParameter) []) ∧
    ∀ (l : LineId) (i : Fin 8) (w : Nat → Word), w = s.param k → (w 0).toNat = l.val → (w 1).toNat ≤ 1 →
      i.val = 2 * l.val + (w 1).toNat →
      ((s.station i).state ≠ .off → Runs .defineStation s (s.beginDirective k) k (some .wrongState) []) ∧
      ((s.station i).state = .off → ¬StationGiven w →
        Runs .defineStation s (s.beginDirective k) k (some .badParameter) []) ∧
      ∀ d : StationDef, (s.station i).state = .off → StationGiven w →
        d.ringBase = (w 2).toNat + (w 3).toNat * 4294967296 → d.slotCount = (w 4).toNat →
        d.binLength = (w 5).toNat → d.tag = w 6 → d.settle = (w 7).toNat → d.channels = (w 8).toNat →
        (∀ c : Fin 12, d.offsets[c] = if c.val < (w 8).toNat then (w (9 + c.val)).toInt else 0) →
        (s.MeetsPart (some i) d.ringBase (d.slotCount * 64) ∨
            (∃ j, s.path.journal = some j ∧ SharesMemory d.ringBase (d.slotCount * 64) j.base (j.size * 512)) →
          Runs .defineStation s (s.beginDirective k) k (some .badParameter) []) ∧
        (¬s.MeetsPart (some i) d.ringBase (d.slotCount * 64) →
          (∀ j, s.path.journal = some j → ¬SharesMemory d.ringBase (d.slotCount * 64) j.base (j.size * 512)) →
          Runs .defineStation s
            (((s.beginDirective k).withStation i { s.station i with defn := some d, chain := [] }).mark
              (stationGroup i)) k none [])

/-- Define Verdict (R104 to R107): the judgement in its order; a chain that fails the check is refused CHAIN_INVALID with
the term and the kind of failure; a chain that passes replaces the station's. What the check of R106 finds is the depth of
the result stack, and a chain that passes never overflows it and leaves one result, which is the verdict; an empty chain
gives false. A condition compares the channel's value with its threshold, as signed numbers, and is false for a channel
without a value; each operation and block term acts on the stack as R108 and R109 have it. That a PRESENT term, whose word 3
is not read, holds threshold 0 is the model's choice (log 23). -/
def Obligations.DefineVerdictLoadsACheckedChain : Prop :=
  (∀ (test : Test) (ch : Nat) (thr : Word) (b : OpenBin) (held : Option Word) (x : Bool) (st : List Bool),
    held = (b.values[ch]?).getD none →
    (x = true ↔ ∃ v, held = some v ∧ (match test with
      | .gt => thr.toInt < v.toInt
      | .ge => thr.toInt ≤ v.toInt
      | .lt => v.toInt < thr.toInt
      | .le => v.toInt ≤ thr.toInt
      | .present => True)) →
    (Term.cond .load test ch thr).apply b st = x :: st ∧ (Term.cond .loadNot test ch thr).apply b st = (!x) :: st ∧
    ∀ y : Bool,
      (Term.cond .and test ch thr).apply b (y :: st) = (y && x) :: st ∧
      (Term.cond .andNot test ch thr).apply b (y :: st) = (y && !x) :: st ∧
      (Term.cond .or test ch thr).apply b (y :: st) = (y || x) :: st ∧
      (Term.cond .orNot test ch thr).apply b (y :: st) = (y || !x) :: st) ∧
  (∀ (b : OpenBin) (y z : Bool) (st : List Bool),
    (Term.block .andBlock).apply b (y :: z :: st) = (z && y) :: st ∧
    (Term.block .orBlock).apply b (y :: z :: st) = (z || y) :: st) ∧
  (∀ b : OpenBin, evalChain [] b = false) ∧
  (∀ (chain : List Term) (b : OpenBin), chainCheck chain = none → chain ≠ [] →
    chain.foldl (fun st t => t.apply b st) [] = [evalChain chain b]) ∧
  (∀ (chain : List Term) (b : OpenBin), chainCheck chain = none → chain ≠ [] →
    (∀ n, depthAfter (chain.take n) b ≤ 4) ∧ depthAfter chain b = 1) ∧
  (∀ (chain : List Term) (b : OpenBin) (t kind : Nat), chainCheck chain = some (t, kind) →
    (kind = 1 ∧ t = 0 ∧ ∃ first rest, chain = first :: rest ∧ first.pushes = false) ∨
    (kind = 2 ∧ depthAfter (chain.take t) b = 4 ∧ ∃ x, chain[t]? = some x ∧ x.pushes = true) ∨
    (kind = 3 ∧ ∃ x, chain[t]? = some x ∧ x.pushes = false ∧ depthAfter (chain.take t) b < x.takes) ∨
    (kind = 4 ∧ t = chain.length ∧ depthAfter chain b ≠ 1)) ∧
  ∀ (s : State) (k : Fin 16), s.Takes k 0x31 →
    (8 ≤ (s.param k 0).toNat ∨ 8 < (s.param k 1).toNat →
      Runs .defineVerdict s (s.beginDirective k) k (some .badParameter) []) ∧
    ∀ (i : Fin 8) (w : Nat → Word), w = s.param k → (w 0).toNat = i.val → (w 1).toNat ≤ 8 →
      ((s.station i).defn = none ∨ (s.station i).state ≠ .off →
        Runs .defineVerdict s (s.beginDirective k) k (some .wrongState) []) ∧
      ∀ d, (s.station i).defn = some d → (s.station i).state = .off →
        (∀ j, j < (w 1).toNat →
          (∀ t, ¬TermGiven d.channels (w (2 + 4 * j)) (w (3 + 4 * j)) (w (4 + 4 * j)) (w (5 + 4 * j)) t) →
          Runs .defineVerdict s (s.beginDirective k) k (some .badParameter) []) ∧
        ∀ chain : List Term, chain.length = (w 1).toNat →
          (∀ j t, chain[j]? = some t →
            TermGiven d.channels (w (2 + 4 * j)) (w (3 + 4 * j)) (w (4 + 4 * j)) (w (5 + 4 * j)) t) →
          (chainCheck chain = none →
            Runs .defineVerdict s ((s.beginDirective k).withStation i { s.station i with chain := chain }) k none []) ∧
          ∀ t kind, chainCheck chain = some (t, kind) →
            Runs .defineVerdict s (s.beginDirective k) k (some .chainInvalid) [wordOf t, wordOf kind]

/-- Activate Station (R86, R87): the incarnation rises by one; in PREPARE mode the station joins the preparation queue with
progress 0, in ADOPT mode it enters LIVE. Deactivate Station (R90): a PREPARING station leaves the preparation queue; a LIVE
one loses its open bins and its place on the wait list, and the records whose tally station it is and that are THROUGH or
CUT settle, in increasing serial order: each consumes a sequence number and makes a journal entry, with the clock at settling,
that joins the backlog or, with the backlog full, is lost with JOURNAL_BACKLOG_FULL, and sets RECORD_SETTLED (R69, R70, R163).
Nothing else changes but dirty marks. -/
def Obligations.ActivateAndDeactivateMoveTheStation : Prop :=
  ∀ (s : State) (k : Fin 16),
    (s.Takes k 0x32 →
      (8 ≤ (s.param k 0).toNat ∨ 1 < (s.param k 1).toNat →
        Runs .activateStation s (s.beginDirective k) k (some .badParameter) []) ∧
      ∀ i : Fin 8, (s.param k 0).toNat = i.val → (s.param k 1).toNat ≤ 1 →
        ((s.station i).defn = none ∨ (s.station i).state ≠ .off →
          Runs .activateStation s (s.beginDirective k) k (some .wrongState) []) ∧
        ∀ d, (s.station i).defn = some d → (s.station i).state = .off →
          ((s.param k 1).toNat = 0 →
            Runs .activateStation s
              (({ (s.beginDirective k) with path.prepQueue := s.path.prepQueue ++ [i] }.withStation i
                { s.station i with
                  incarnation := (s.station i).incarnation + 1, state := .preparing 0 }).mark (stationGroup i))
              k none [(s.station i).incarnation + 1]) ∧
          ∀ S : Int, (s.param k 1).toNat = 1 →
            (s.reference i < d.settle + d.binLength → S = -1) →
            (d.settle + d.binLength ≤ s.reference i → S = ((s.reference i - d.settle) / d.binLength : Nat) - 1) →
            Runs .activateStation s
              (((s.beginDirective k).withStation i
                { s.station i with
                  incarnation := (s.station i).incarnation + 1
                  state := .live { sealedBin := S, highest := S, bins := [], paused := false } }).mark (stationGroup i))
              k none [(s.station i).incarnation + 1]) ∧
    (s.Takes k 0x33 →
      (8 ≤ (s.param k 0).toNat → Runs .deactivateStation s (s.beginDirective k) k (some .badParameter) []) ∧
      ∀ i : Fin 8, (s.param k 0).toNat = i.val →
        ((s.station i).state = .off → Runs .deactivateStation s (s.beginDirective k) k (some .wrongState) []) ∧
        (∀ p, (s.station i).state = .preparing p →
          Runs .deactivateStation s
            (({ (s.beginDirective k) with path.prepQueue := s.path.prepQueue.filter fun j => j != i }.withStation i
              { s.station i with state := .off }).mark (stationGroup i)) k none [0]) ∧
        ∀ d, (s.station i).state = .live d → s.SerialsOk →
          ∃ (e : State) (rs : List Record), Runs .deactivateStation s e k none [wordOf d.bins.length] ∧
            e.path.dirty[stationGroup i] = true ∧ rs.Pairwise (fun a b => a.serial < b.serial) ∧
            rs.Perm (s.track.table.records.filter fun r =>
              decide (r.station = i ∧ (r.state = .through ∨ r.state = .cut))) ∧
            ∀ full : State, full = (rs.drop (128 - s.track.backlog.length)).foldl
                (fun a r => a.anomaly .journalBacklogFull (some r.line) none (some r.serial)) s →
              e = { s.beginDirective k with
                track := { s.track with
                  table := { s.track.table with places := settledAtStation i s.track.table.places }
                  nextSeq := s.track.nextSeq + rs.length
                  backlog := s.track.backlog ++ (rs.take (128 - s.track.backlog.length)).mapIdx fun j r =>
                    { seq := s.track.nextSeq + j, settledAt := s.track.clock, record := { r with state := .settled } }
                  anomalies := full.track.anomalies, anomalyCount := full.track.anomalyCount
                  trackingFlags := full.track.trackingFlags ||| (if rs = [] then 0 else 0x2) |||
                    (if rs ≠ [] ∧ s.track.backlog.length < 128 ∧ 96 ≤ s.track.backlog.length + rs.length then 0x8 else 0) }
                path := { (s.beginDirective k).path with
                  stations := s.path.stations.set i.val { s.station i with state := .off } i.isLt
                  waitList := s.path.waitList.filter fun w => w != Waiter.sealing i, dirty := e.path.dirty } })

/-- Open Cursor (R114, R115): the judgement in its order, and the cursor RESOLVING with every point unresolved. Refresh
Cursor (R116): a cursor that is not CLOSED becomes RESOLVING with its definition and no point resolved. -/
def Obligations.OpenAndRefreshMakeACursorResolve : Prop :=
  ∀ (s : State) (k : Fin 16),
    (s.Takes k 0x40 →
      (8 ≤ (s.param k 0).toNat ∨ 1 < (s.param k 1).toNat →
        Runs .openCursor s (s.beginDirective k) k (some .badParameter) []) ∧
      ∀ (c : Fin 8) (w : Nat → Word), w = s.param k → (w 0).toNat = c.val → (w 1).toNat ≤ 1 →
        (s.cursor c ≠ .closed → Runs .openCursor s (s.beginDirective k) k (some .inUse) []) ∧
        (s.cursor c = .closed →
          (3 < (w 3).toNat ∨ 1 < (w 4).toNat ∨ 1000000000 < (w 5).toNat ∨ (w 6).toInt < -1000000 ∨
              1000000 < (w 6).toInt ∨ (w 6).toInt = 0 ∨ (w 7).toNat = 0 ∨ 1024 < (w 7).toNat →
            Runs .openCursor s (s.beginDirective k) k (some .badParameter) []) ∧
          ∀ l : LineId, (w 3).toNat = l.val → (w 4).toNat ≤ 1 → (w 5).toNat ≤ 1000000000 → -1000000 ≤ (w 6).toInt →
            (w 6).toInt ≤ 1000000 → (w 6).toInt ≠ 0 → 1 ≤ (w 7).toNat → (w 7).toNat ≤ 1024 →
            (s.selected (w 1) (w 2) = none → Runs .openCursor s (s.beginDirective k) k (some .notFound) []) ∧
            ∀ r, s.selected (w 1) (w 2) = some r →
              Runs .openCursor s
                (((s.beginDirective k).withCursor c (.resolving
                  { target := r.serial, line := l, side := if (w 4).toNat = 0 then .entry else .exit
                    x0 := (w 5).toNat, stepLen := (w 6).toInt, count := (w 7).toNat } [])).mark (cursorGroup c))
                k none [wordOf r.serial, w 7])) ∧
    (s.Takes k 0x41 →
      (8 ≤ (s.param k 0).toNat → Runs .refreshCursor s (s.beginDirective k) k (some .badParameter) []) ∧
      ∀ c : Fin 8, (s.param k 0).toNat = c.val →
        (s.cursor c = .closed → Runs .refreshCursor s (s.beginDirective k) k (some .wrongState) []) ∧
        ∀ d table, s.cursor c = .resolving d table ∨ s.cursor c = .ready d table →
          Runs .refreshCursor s (((s.beginDirective k).withCursor c (.resolving d [])).mark (cursorGroup c)) k none [])

/-- Close Cursor (R117): any cursor becomes CLOSED and its definition and table are dropped; CURSOR_READY is not set; the
answer is the state it left, and its mirror group is marked dirty when the state changes. -/
def Obligations.CloseCursorDropsTheCursor : Prop :=
  ∀ (s : State) (k : Fin 16), s.Takes k 0x42 →
    (8 ≤ (s.param k 0).toNat → Runs .closeCursor s (s.beginDirective k) k (some .badParameter) []) ∧
    ∀ c : Fin 8, (s.param k 0).toNat = c.val →
      (s.cursor c = .closed → Runs .closeCursor s (s.beginDirective k) k none [0]) ∧
      (∀ d table, s.cursor c = .resolving d table →
        Runs .closeCursor s (((s.beginDirective k).withCursor c .closed).mark (cursorGroup c)) k none [1]) ∧
      ∀ d table, s.cursor c = .ready d table →
        Runs .closeCursor s (((s.beginDirective k).withCursor c .closed).mark (cursorGroup c)) k none [2]

/-- Set Journal (R166): the judgement in its order, and the setting replaced, or unset for size 0; the head and the backlog
stay, and the answer is the sequence number of the backlog head, or the next one, and the backlog count. The word of a
next-sequence counter that has given its last number is a free value (log 2). -/
def Obligations.SetJournalReplacesTheSetting : Prop :=
  ∀ (s : State) (k : Fin 16) (w : Nat → Word) (base : Nat), w = s.param k →
    base = (w 0).toNat + (w 1).toNat * 4294967296 → s.Takes k 0x50 →
    ((w 2).toNat ≠ 0 → (∀ n, 4 ≤ n → n ≤ 16 → (w 2).toNat ≠ 2 ^ n) ∨ 3 < (w 1).toNat ∨ base % 512 ≠ 0 ∨
        17179869184 < base + (w 2).toNat * 512 →
      Runs .setJournal s (s.beginDirective k) k (some .badParameter) []) ∧
    ((w 2).toNat ≠ 0 → s.MeetsPart none base ((w 2).toNat * 512) →
      Runs .setJournal s (s.beginDirective k) k (some .badParameter) []) ∧
    (0 < s.path.progress ∨ (∃ b, .journal b ∈ s.path.waitList) →
      Runs .setJournal s (s.beginDirective k) k (some .badParameter) []) ∧
    ∀ (j : Option JournalSetting) (e : State), s.path.progress = 0 → (∀ b, .journal b ∉ s.path.waitList) →
      ((w 2).toNat = 0 ∧ j = none ∨
        (w 2).toNat ≠ 0 ∧ (∃ n, 4 ≤ n ∧ n ≤ 16 ∧ (w 2).toNat = 2 ^ n) ∧ (w 1).toNat ≤ 3 ∧ base % 512 = 0 ∧
          base + (w 2).toNat * 512 ≤ 17179869184 ∧ ¬s.MeetsPart none base ((w 2).toNat * 512) ∧
          j = some { base := base, size := (w 2).toNat }) →
      e = { (s.beginDirective k) with
        path.journal := j
        path.dirty := if s.path.journal = j then (s.beginDirective k).path.dirty
          else (s.beginDirective k).path.dirty.set journalGroup.val true journalGroup.isLt } →
      (∀ x rest, s.track.backlog = x :: rest →
        Runs .setJournal s e k none [wordOf x.seq, wordOf s.track.backlog.length]) ∧
      (s.track.backlog = [] → Runs .setJournal s e k none [sequenceWord s.track.nextSeq, 0])

/-- Acknowledge Events (R171): a set that names a position holding no flag is refused; else the answer is the nine flags as
they stand, each named flag is cleared, and a named level flag whose condition holds is set again at once (R169). -/
def Obligations.AcknowledgeClearsTheNamedFlags : Prop :=
  ∀ (s : State) (k : Fin 16) (set : Word), set = s.param k 0 → s.Takes k 0x51 →
    (set &&& ~~~0x1F0F ≠ 0 → Runs .acknowledgeEvents s (s.beginDirective k) k (some .badParameter) []) ∧
    (set &&& ~~~0x1F0F = 0 → ∃ e,
      Runs .acknowledgeEvents s e k none [s.track.trackingFlags ||| s.path.pathFlags] ∧
      e = { s.beginDirective k with
        track.trackingFlags := e.track.trackingFlags
        path.pathFlags := s.path.pathFlags &&& ~~~set
        path.dirty := (s.beginDirective k).path.dirty.set 1 true } ∧
      ∀ j, j < 32 → e.track.trackingFlags.getLsbD j =
        (s.track.trackingFlags.getLsbD j && !set.getLsbD j ||
          (j == 2 && set.getLsbD 2 &&
            decide (∃ l : LineId, (s.line l).state = .tracking ∧ (s.line l).entryQueue = [])) ||
          (j == 3 && set.getLsbD 3 && decide (96 ≤ s.track.backlog.length))))

/-- Set Routing (R172): the words are judged, and both masks are loaded as a whole; the masks are 0 at cold start, and at a
path reset the ALERT mask is 0 and the TRACK_FAULT mask stays. The outputs follow flags, masks and path state (R173). -/
def Obligations.SetRoutingLoadsBothMasks : Prop :=
  (∀ (s : State) (k : Fin 16), s.Takes k 0x52 →
    (s.param k 0 &&& ~~~0x1F0F ≠ 0 ∨ s.param k 1 &&& ~~~0xF ≠ 0 →
      Runs .setRouting s (s.beginDirective k) k (some .badParameter) []) ∧
    (s.param k 0 &&& ~~~0x1F0F = 0 → s.param k 1 &&& ~~~0xF = 0 →
      Runs .setRouting s (State.mark { s.beginDirective k with
        path.alertMask := s.param k 0, track.trackFaultMask := s.param k 1 } 1) k none [])) ∧
  (∀ (lv : Levels) (s : State), ∃ t, exec (.coldStart lv) s = .next t ∧
    t.path.alertMask = 0 ∧ t.track.trackFaultMask = 0) ∧
  (∀ (c : ResetCause) (s : State), s.Ready → s.path.state ≠ .down →
    ∃ t, exec (.pathResetBegin c) s = .next t ∧
      t.path.alertMask = 0 ∧ t.track.trackFaultMask = s.track.trackFaultMask) ∧
  ∀ s : State,
    (s.alert = true ↔ s.path.state ≠ .down ∧
      (s.track.trackingFlags ||| s.path.pathFlags) &&& s.path.alertMask ≠ 0) ∧
    (s.trackFault = true ↔ s.track.trackingFlags &&& s.track.trackFaultMask ≠ 0)

/-- Set Mirror Period (R176): a value above 1,000 is refused; else the period is replaced, the count starts again from the
execution, G0 is dirty, and the answer is the period replaced. A completed period marks G2 to G5 dirty and the count starts
again; before, nothing happens. -/
def Obligations.SetMirrorPeriodStartsTheCountAgain : Prop :=
  (∀ (s : State) (k : Fin 16), s.Takes k 0x53 →
    (1000 < (s.param k 0).toNat → Runs .setMirrorPeriod s (s.beginDirective k) k (some .badParameter) []) ∧
    ((s.param k 0).toNat ≤ 1000 →
      Runs .setMirrorPeriod s (State.mark { s.beginDirective k with
        path.period := (s.param k 0).toNat, path.periodCount := 0 } 0) k none [wordOf s.path.period])) ∧
  ∀ s : State, s.Ready →
    (0 < s.path.period → s.path.period ≤ s.path.periodCount →
      exec .mirrorPeriodComplete s = .next { s with
        path.periodCount := 0
        path.dirty := (((s.path.dirty.set 2 true).set 3 true).set 4 true).set 5 true }) ∧
    (s.path.period = 0 ∨ s.path.periodCount < s.path.period → exec .mirrorPeriodComplete s = .next s)

/-! ## Seam tracking and the coil table -/

/-- An allocation in a table of 8192 records (R61, R62): the SETTLED record of lowest serial is reclaimed; with none, the
record of lowest serial that is neither LOADING nor WINDING is settled by force, with FORCED_SETTLE, and reclaimed. The new
record takes its place and the next serial; the identity map entry that names the reclaimed record goes with it. With a
place free, the new record takes the lowest free place and no record changes. The event that opens a record takes the head
of the line's announcement queue, or enters NO_ANNOUNCEMENT (R37); with the next-serial counter spent it opens none and
changes nothing, and its later steps take the serial as 0 (R56). -/
def Obligations.AllocationReclaimsByTheThreeWays : Prop :=
  (∀ (s : State) (kind : Kind) (l : LineId) (p : Nat) (t : Time),
    (s.track.table.nextSerial = 0 → s.openRecord kind l p t = (s, 0)) ∧
    (s.canAllocate = true → ∀ a st, st = (if kind = .entry then RecordState.loading else .winding) →
      a = s.allocate (fun n => opened n kind l st ((s.line l).queue kind).head? t p none) →
      ∃ u, s.openRecord kind l p t = (u, s.track.table.nextSerial) ∧
        ((s.line l).queue kind = [] →
          u = { a.anomaly .noAnnouncement (some l) (some p) (some s.track.table.nextSerial) with
            path.dirty := u.path.dirty }) ∧
        ∀ number rest, (s.line l).queue kind = number :: rest →
          u = { (a.withLine l ((s.line l).setQueue kind rest)) with
            track.trackingFlags := u.track.trackingFlags, path.dirty := u.path.dirty } ∧
          u.track.trackingFlags = a.track.trackingFlags |||
            (if kind = .entry ∧ ∃ j, (u.line j).state = .tracking ∧ (u.line j).entryQueue = [] then 0x4 else 0))) ∧
  ∀ (s : State) (mk : Nat → Record), s.TableOk → s.SerialsOk → s.canAllocate = true →
    (∀ place, place < 8192 → tableGet place s.track.table.places = none →
      (∀ j, j < place → tableGet j s.track.table.places ≠ none) →
      s.allocate mk = (State.mark { s with
        track.table.places := tableSet place (mk s.track.table.nextSerial) s.track.table.places
        track.table.nextSerial :=
          if s.track.table.nextSerial = 4294967295 then 0 else s.track.table.nextSerial + 1 } 0)) ∧
    ∀ place old, s.track.table.places.length = 8192 → (place, old) ∈ s.track.table.places →
      (old.state = .settled ∧ (∀ r ∈ s.track.table.records, r.state = .settled → old.serial ≤ r.serial) ∨
        (∀ r ∈ s.track.table.records, r.state ≠ .settled) ∧ old.state ≠ .loading ∧ old.state ≠ .winding ∧
          ∀ r ∈ s.track.table.records, r.state ≠ .loading → r.state ≠ .winding → old.serial ≤ r.serial) →
      (s.allocate mk).track.table =
        { places := s.track.table.places.map fun e => if e.1 = place then (place, mk s.track.table.nextSerial) else e
          nextSerial := if s.track.table.nextSerial = 4294967295 then 0 else s.track.table.nextSerial + 1
          idMap := s.track.table.idMap.filter fun e => e.2 != old.serial } ∧
      (s.allocate mk).track.lines = s.track.lines ∧
      (old.state = .settled → (s.allocate mk).track = { s.track with table := (s.allocate mk).track.table }) ∧
      (old.state ≠ .settled →
        (s.allocate mk).Logged .forcedSettle (some old.line) (some old.start) (some old.serial) s.track.clock ∧
        (s.allocate mk).track.nextSeq = s.track.nextSeq + 1 ∧
        (s.track.backlog.length < 128 → (s.allocate mk).track.backlog = s.track.backlog ++
          [{ seq := s.track.nextSeq, settledAt := s.track.clock
             record := { old with state := .settled, flags.forced := true } }]))

/-- A SEAM_IN capture (R40 to R42), in a table with a place free or with the next-serial counter spent: a spurious one is
logged and changes nothing else; an accepted one closes the line's LOADING record, opens an ENTRY record with the head of
the entry queue as identity and the source its number names (R37, R66), and appends a seam queue entry; a full queue first
loses its oldest entry, whose records are SUSPECT unless SETTLED. With the counter spent no record opens, no number is taken
from the queue, no NO_ANNOUNCEMENT is entered and the seam queue entry heads serial 0 (R56). -/
def Obligations.ASeamInOpensAnEntryRecord : Prop :=
  ∀ (s : State) (l : LineId) (p : Nat) (t : Time),
    (¬Passes (s.line l).lastSeamIn (s.line l).seamInSpacing p →
      s.capture l .seamIn p t = s.anomaly .spuriousSeamIn (some l) (some p) none) ∧
    (Passes (s.line l).lastSeamIn (s.line l).seamInSpacing p →
      s.capture l .seamIn p t = (s.acceptSeamIn l p t).1) ∧
    ∀ (n place : Nat) (closing : Option Record) (new : Record), s.TableOk → s.SerialsOk →
      n = s.track.table.nextSerial →
      (n = 0 ∨ place < 8192 ∧ tableGet place s.track.table.places = none ∧
        ∀ j, j < place → tableGet j s.track.table.places ≠ none) →
      closing = s.track.table.records.find? (fun r => decide (r.line = l ∧ r.state = .loading)) →
      new = opened n .entry l .loading (s.line l).entryQueue.head? t p ((s.line l).entryQueue.head?.bind s.lookupNumber) →
      ∃ u, s.acceptSeamIn l p t = (u, n, (closing.map (·.serial)).getD 0) ∧
        (∀ j, j ≠ l → u.line j = s.line j) ∧
        u.line l = { s.line l with
          seamQueue :=
            (if (s.line l).seamQueue.length < 16 then (s.line l).seamQueue else (s.line l).seamQueue.tail) ++
              [{ pos := p, time := t, headed := n, tailed := closing.map (·.serial) }]
          entryQueue := if n = 0 then (s.line l).entryQueue else (s.line l).entryQueue.tail, lastSeamIn := some p } ∧
        u.path = { s.path with dirty := u.path.dirty } ∧ u.track.clock = s.track.clock ∧
        u.track.backlog = s.track.backlog ∧ u.track.nextSeq = s.track.nextSeq ∧
        u.track.table.nextSerial = (if n = 0 ∨ n = 4294967295 then 0 else n + 1) ∧
        u.track.table.idMap = s.track.table.idMap ∧
        (∀ kept places, kept = s.track.table.places.map (fun e =>
            if closing = some e.2 then (e.1, { e.2 with stop := some p, closedAt := some t, state := .closed }) else e) →
          places = (if n = 0 then kept else tableSet place new kept) →
          ((s.line l).seamQueue.length < 16 → u.track.table.places = places) ∧
          ∀ old rest, (s.line l).seamQueue = old :: rest → 15 ≤ rest.length →
            u.Logged .seamQueueFull (some l) (some old.pos) (some old.headed) s.track.clock ∧
            u.track.table.places = places.map fun e =>
              if (e.2.serial = old.headed ∨ old.tailed = some e.2.serial) ∧ e.2.state ≠ .settled then
                (e.1, { e.2 with flags.suspect := true })
              else e) ∧
        (n ≠ 0 → (s.line l).entryQueue = [] → u.Logged .noAnnouncement (some l) (some p) (some n) s.track.clock) ∧
        (n = 0 → (s.line l).seamQueue.length < 16 → u.track.anomalies = s.track.anomalies ∧
          u.track.anomalyCount = s.track.anomalyCount ∧ u.track.trackingFlags = s.track.trackingFlags) ∧
        (n = 0 → ∀ (i : Fin 32) (a : Anomaly), u.track.anomalies[i] = some a → a.code = .noAnnouncement →
          s.track.anomalies[i] = some a)

/-- An exit seam event (R40, R43 to R45, R50): a spurious one and one into an empty queue are logged; else the oldest seam
queue entry is removed, the exit-open record's exit span ends at p with its elongation judged, and the record the entry heads
gets its exit start and joins the through list, which loses its oldest serial when it is full. -/
def Obligations.AnExitSeamMovesTheThroughList : Prop :=
  ∀ (s : State) (l : LineId) (p : Nat),
    (¬Passes (s.line l).lastExitSeam (s.line l).seamOutSpacing p →
      s.exitSeamEvent l p = s.anomaly .spuriousSeamOut (some l) (some p) none) ∧
    (Passes (s.line l).lastExitSeam (s.line l).seamOutSpacing p → s.exitSeamEvent l p = (s.acceptExitSeam l p).1) ∧
    ((s.line l).seamQueue = [] → ∃ u, s.acceptExitSeam l p = (u, 0, 0) ∧
      u = { (s.anomaly .orphanSeam (some l) (some p) none).withLine l { s.line l with lastExitSeam := some p } with
        path.dirty := u.path.dirty }) ∧
    ∀ e rest, (s.line l).seamQueue = e :: rest → s.SerialsOk →
      ∃ u started ended, s.acceptExitSeam l p = (u, started, ended) ∧
        (∀ j, j ≠ l → u.line j = s.line j) ∧
        u.line l = { s.line l with
          seamQueue := rest, lastExitSeam := some p, through := (u.line l).through } ∧
        u.path = { s.path with dirty := u.path.dirty } ∧ u.track.clock = s.track.clock ∧
        u.track.table.idMap = s.track.table.idMap ∧ u.track.table.nextSerial = s.track.table.nextSerial ∧
        ((∀ r, ¬s.ExitOpen l r) → ended = 0) ∧
        (∀ r, s.ExitOpen l r → ended = r.serial ∧
          (∀ xs xe, r.exitStart = some xs → r.stop = some xe → r.serial ≠ e.headed →
            ∃ r' v, u.find r.serial = some r' ∧ v = min ((p - xs) * 1000 / (xe - r.start)) 4294967295 ∧
              r' = { r with
                exitEnd := some p, elongation := some v, state := r'.state
                flags.suspect := r.flags.suspect || decide (v < (s.line l).elongMin ∨ (s.line l).elongMax < v) } ∧
              (s.SettlesAt r xe → r'.state = .settled) ∧ (¬s.SettlesAt r xe → r'.state = .through) ∧
              (v < (s.line l).elongMin ∨ (s.line l).elongMax < v →
                u.Logged .elongationImplausible (some l) (some p) (some r.serial) s.track.clock))) ∧
        (∀ x, s.find e.headed = some x → x.state ≠ .settled → ¬s.ExitOpen l x →
          started = e.headed ∧ u.find e.headed = some { x with exitStart := some p }) ∧
        ((s.find e.headed = none ∨ ∃ x, s.find e.headed = some x ∧ x.state = .settled) →
          started = 0 ∧ u.find e.headed = s.find e.headed) ∧
        (∀ m, m ≠ started → m ≠ ended → u.find m = s.find m) ∧
        ∀ kept, kept = (if s.TailLeaves l then (s.line l).through.dropLast else (s.line l).through) →
          (started = 0 → (u.line l).through = kept) ∧
          (started ≠ 0 → kept.length < 16 → (u.line l).through = kept ++ [e.headed]) ∧
          ∀ first more, kept = first :: more → started ≠ 0 → 15 ≤ more.length →
            (u.line l).through = more ++ [e.headed] ∧
            u.Logged .throughOverflow (some l) (some p) (some first) s.track.clock

/-- A SHEAR capture (R40, R46 to R48), in a table with a place free or with the next-serial counter spent: a spurious one is
logged; an accepted one cuts the line's WINDING record with the segments of the overlapping through-list records, consumes
those that end by the cut, writes the identity map (R65), and opens an EXIT record with the head of the exit queue (R37).
With the counter spent no record opens, no number is taken from the queue and no NO_ANNOUNCEMENT is entered (R56). -/
def Obligations.AShearCutsTheWindingRecord : Prop :=
  ∀ (s : State) (l : LineId) (p : Nat) (t : Time),
    (¬Passes (s.line l).lastShear (s.line l).shearSpacing p →
      s.capture l .shear p t = s.anomaly .spuriousShear (some l) (some p) none) ∧
    (Passes (s.line l).lastShear (s.line l).shearSpacing p → s.capture l .shear p t = (s.acceptShear l p t).1) ∧
    ∀ (n place : Nat) (winding : Option Record), s.TableOk → s.SerialsOk →
      n = s.track.table.nextSerial →
      (n = 0 ∨ place < 8192 ∧ tableGet place s.track.table.places = none ∧
        ∀ j, j < place → tableGet j s.track.table.places ≠ none) →
      winding = s.track.table.records.find? (fun r => decide (r.line = l ∧ r.state = .winding)) →
      ∃ u, s.acceptShear l p t = (u, n, (winding.map (·.serial)).getD 0) ∧
        (∀ j, j ≠ l → u.line j = s.line j) ∧
        u.line l = { s.line l with
          through := (u.line l).through, lastShear := some p
          exitQueue := if n = 0 then (s.line l).exitQueue else (s.line l).exitQueue.tail } ∧
        u.path = { s.path with dirty := u.path.dirty } ∧ u.track.clock = s.track.clock ∧
        u.track.table.nextSerial = (if n = 0 ∨ n = 4294967295 then 0 else n + 1) ∧
        (n ≠ 0 → u.find n = some (opened n .exit l .winding (s.line l).exitQueue.head? t p none)) ∧
        (n ≠ 0 → (s.line l).exitQueue = [] → u.Logged .noAnnouncement (some l) (some p) (some n) s.track.clock) ∧
        (n = 0 → u.track.table.records.map (·.serial) = s.track.table.records.map (·.serial) ∧
          ∀ (i : Fin 32) (a : Anomaly), u.track.anomalies[i] = some a → a.code = .noAnnouncement →
            s.track.anomalies[i] = some a) ∧
        (∀ m, m ≠ n → (∀ w, winding = some w → m ≠ w.serial) → u.find m = s.find m) ∧
        (winding = none → (u.line l).through = (s.line l).through ∧ u.track.table.idMap = s.track.table.idMap) ∧
        ∀ w, winding = some w →
          (u.line l).through = (s.line l).through.filter (fun m =>
            match s.find m with
            | none => false
            | some x => !x.consumed p) ∧
          (∃ w', u.find w.serial = some w' ∧ w' = { w with
            stop := some p, closedAt := some t, state := w'.state
            segments := (((s.overlapping l w.start p).filter fun x => decide (x.serial ≤ w.serial)).take 16).map
              fun x => x.segmentIn w.start p
            flags.truncated := w.flags.truncated ||
              (s.overlapping l w.start p).any (fun x => decide (w.serial < x.serial)) ||
              decide (16 < ((s.overlapping l w.start p).filter fun x => decide (x.serial ≤ w.serial)).length) } ∧
            (s.SettlesAt w p → w'.state = .settled) ∧ (¬s.SettlesAt w p → w'.state = .cut)) ∧
          ((∃ x ∈ s.overlapping l w.start p, w.serial < x.serial) →
            u.Logged .lateParent (some l) (some p) (some w.serial) s.track.clock) ∧
          (16 < ((s.overlapping l w.start p).filter fun x => decide (x.serial ≤ w.serial)).length →
            u.Logged .segmentOverflow (some l) (some p) (some w.serial) s.track.clock) ∧
          (w.identity = none → u.track.table.idMap = s.track.table.idMap) ∧
          ∀ number, w.identity = some number →
            (∀ held, s.lookupNumber number = some held → w.serial ≤ held →
              u.track.table.idMap = s.track.table.idMap) ∧
            ((∀ held, s.lookupNumber number = some held → held < w.serial) →
              u.track.table.idMap = tableSet number.toNat w.serial s.track.table.idMap)

/-- An accepted hole at the matcher (R28 to R32, R34): it starts a sequence, is dropped in RECOVERY, mismatches, or survives
in some slots and may complete the lowest of them, whose class decides the event handed on. A tag event (R49) is placed on
the WINDING record from its start on, else on the CUT record whose span holds it, at its position within the coil, as long
as the record has fewer than 8 tags; a tag that falls on neither is logged and dropped. -/
def Obligations.TheMatcherFollowsTheHoles : Prop :=
  (∀ (s : State) (l : LineId) (p : Nat) (t : Time) (used : List (Fin 3)) (set : Matcher → State → State → Prop),
    used = ([0, 1, 2] : List (Fin 3)).filter (fun k => decide (((s.line l).patterns[k]).holes ≠ 0)) →
    set = (fun m a u => u = { a.withLine l { a.line l with matcher := m } with path.dirty := u.path.dirty }) →
    s.capture l .hole p t = s.holeEvent l p ∧
    (∀ e, (s.line l).matcher = .recovery e → p < e → s.holeEvent l p = s) ∧
    ((s.line l).matcher = .idle ∨ (∃ e, (s.line l).matcher = .recovery e ∧ e ≤ p) ∨
        (∃ ps q alive, (s.line l).matcher = .collecting (ps ++ [q]) alive ∧ q + (s.line l).gapLimit < p) →
      set (if used = [] then .idle else .collecting [p] used) s (s.holeEvent l p)) ∧
    ∀ ps q alive surv, (s.line l).matcher = .collecting (ps ++ [q]) alive → p ≤ q + (s.line l).gapLimit →
      (∀ k, k ∈ surv ↔ k ∈ alive ∧ ∃ sp : Nat, ((s.line l).patterns[k]).spacings[ps.length]? = some sp ∧
        (p : Int) - q - (s.line l).tolerance ≤ sp ∧ (sp : Int) ≤ (p : Int) - q + (s.line l).tolerance) →
      surv.Sublist alive → alive.Pairwise (· < ·) →
      (surv = [] → set
        (if (s.line l).recoveryLen = 0 ∨
            (min (p + (s.line l).recoveryLen) 281474976710655 : Int) ≤
              ((s.line l).exit.counter : Int) - (s.line l).hole.offset
         then .idle else .recovery (min (p + (s.line l).recoveryLen) 281474976710655))
        (s.anomaly .holeMismatch (some l) (some p) none) (s.holeEvent l p)) ∧
      (surv ≠ [] → (∀ k ∈ surv, ((s.line l).patterns[k]).holes ≠ ps.length + 2) →
        set (.collecting (ps ++ [q, p]) surv) s (s.holeEvent l p)) ∧
      ∀ k, k ∈ surv → ((s.line l).patterns[k]).holes = ps.length + 2 →
        (∀ j ∈ surv, j < k → ((s.line l).patterns[j]).holes ≠ ps.length + 2) →
        ∃ v, set .idle s v ∧ s.holeEvent l p =
          match ((s.line l).patterns[k]).cls with
          | .seam => v.exitSeamEvent l (ps.headD q)
          | .tag => v.tagEvent l (ps.headD q) k) ∧
  ∀ (s : State) (l : LineId) (p : Nat) (k : Fin 3) (holds : Record → Prop),
    holds = (fun r => r.line = l ∧ r.state = .cut ∧ r.start ≤ p ∧ ∀ e, r.stop = some e → p < e) →
    ((∀ r ∈ s.track.table.records, ¬holds r ∧ (r.line = l → r.state = .winding → p < r.start)) →
      s.tagEvent l p k = s.anomaly .unplacedTag (some l) (some p) none) ∧
    ∀ r ∈ s.track.table.records, s.OpenOk →
      (r.line = l ∧ r.state = .winding ∧ r.start ≤ p ∨
        holds r ∧ ∀ r' ∈ s.track.table.records, (holds r' → r' = r) ∧ (r'.line = l → r'.state = .winding → p < r'.start)) →
      s.tagEvent l p k = { s with
        track.table.places := s.track.table.places.map fun e =>
          if e.2.serial = r.serial then
            (e.1, if e.2.tags.length < 8 then { e.2 with tags := e.2.tags ++ [{ slot := k, pos := p - e.2.start }] }
              else { e.2 with flags.tagOverflow := true })
          else e }

/-! ## Sealing and the lineage walk -/

/-- A station's sealing (R96 to R100): nothing unless it is LIVE, the path OPEN and the sealing not paused. The due bins
with a place for their header leave the table in order, each header queued with its owner and verdict; S moves over them and
over the missing runs between them, to the highest due bin; a present bin that finds no place pauses the station on the wait
list, with S just below it. A forced seal up to a bin X takes the bins up to X in the same way, each header with FORCED set,
and S becomes X (R93, R98). A record's tally counts one sealed bin for each bin sealed that it owns, one verdict bin for
each true verdict, and one sealed and one gap bin for each missing bin whose first position its span holds, unless it is
SETTLED (R67, R98, R99); the THROUGH and CUT records of the station whose end the sealed position reaches settle, each with
the tally of its last bin, and a settling with room in the backlog enters no anomaly (R68 to R70, R163); nothing else
changes, but for the dirty marks this sets and, with a full backlog, the log and its flag. The bin length is above 0, as
every definition has it (R82, EveryStepKeepsTheBounds). -/
def Obligations.SealingTakesTheDueBinsInOrder : Prop :=
  ∀ (s : State) (i : Fin 8),
    ((∀ d, (s.station i).state = .live d → s.path.state ≠ .opened ∨ d.paused = true) → s.seal i = s) ∧
    ∀ (d : LiveData) (sd : StationDef) (forced : Bool) (limit : Int) (due : List (Nat × OpenBin)) (u : State),
      (s.station i).state = .live d → (s.station i).defn = some sd →
      0 < sd.binLength → tableWf d.bins = true → (∀ e ∈ d.bins, d.sealedBin < (e.1 : Int)) → s.SerialsOk →
      (forced = false ∧ s.path.state = .opened ∧ d.paused = false ∧ u = s.seal i ∧
          limit = (if s.reference i < sd.settle then (-1 : Int)
            else (((s.reference i - sd.settle) / sd.binLength : Nat) : Int) - 1) ∨
        forced = true ∧ u = State.sealBins i limit true d.bins s) →
      due = d.bins.filter (fun e => decide ((e.1 : Int) ≤ limit)) →
      ∀ (front : List (Nat × OpenBin)) (top : Int) (pause : Bool),
        ((front = due ∧ top = max d.sealedBin limit ∧ pause = false ∧
            (due = [] ∨ s.path.waitList = [] ∧ s.path.bookkeeping.length + due.length ≤ 64)) ∨
          ∃ (b : Nat) (bin : OpenBin) (rest : List (Nat × OpenBin)), due = front ++ (b, bin) :: rest ∧
            top = (b : Int) - 1 ∧ pause = true ∧
            (front = [] ∧ (s.path.waitList ≠ [] ∨ 64 ≤ s.path.bookkeeping.length) ∨
              s.path.waitList = [] ∧ s.path.bookkeeping.length + front.length = 64)) →
        u.track = { s.track with
          table := { s.track.table with places := u.track.table.places }, nextSeq := u.track.nextSeq
          backlog := u.track.backlog, anomalies := u.track.anomalies, anomalyCount := u.track.anomalyCount
          trackingFlags := u.track.trackingFlags } ∧
        u = { s with
          track := u.track
          path.stations := s.path.stations.set i.val { s.station i with
            state := .live { d with
              sealedBin := top, bins := d.bins.filter fun e => decide (top < (e.1 : Int))
              paused := d.paused || pause } } i.isLt
          path.waitList := s.path.waitList ++ if pause then [.sealing i] else []
          path.bookkeeping := u.path.bookkeeping, path.nextId := s.path.nextId + front.length
          path.dirty := u.path.dirty } ∧
        (∀ g : Fin 39, s.path.dirty[g] = true → u.path.dirty[g] = true) ∧
        (top ≠ d.sealedBin ∨ pause = true ∧ d.paused = false → u.path.dirty[stationGroup i] = true) ∧
        u.path.bookkeeping.map (·.burst) = s.path.bookkeeping.map (·.burst) ++ front.map (fun e =>
          { addr := sd.ringBase + 64 * (e.1 % sd.slotCount)
            words := (ringHeader sd.tag (((s.owner i (e.1 * sd.binLength)).map (·.serial)).getD 0) e.1 e.2.presence
              e.2.fill (evalChain (s.station i).chain e.2) forced).map fun w => { data := w, en := 0xF } }) ∧
        ∀ (counts : Record → Tally) (settles : Record → Bool),
          (∀ r, r.state = .settled ∨ r.station ≠ i → counts r = r.tally) →
          (∀ r owned missed, r.state ≠ .settled → r.station = i →
            owned = front.filter (fun e => decide (s.owner i (e.1 * sd.binLength) = some r)) →
            missed = (List.range (top + 1).toNat).filter (fun b => decide (d.sealedBin < (b : Int) ∧
              (∀ e ∈ front, e.1 ≠ b) ∧ r.start ≤ b * sd.binLength ∧ ∀ e, r.stop = some e → b * sd.binLength < e)) →
            counts r =
              if owned = [] ∧ missed = [] then r.tally
              else
                { sealedBins := min (r.tally.sealedBins + owned.length + missed.length) 4294967295
                  verdictBins := min (r.tally.verdictBins +
                    (owned.filter fun e => evalChain (s.station i).chain e.2).length) 4294967295
                  gapBins := min (r.tally.gapBins + missed.length) 4294967295 }) →
          (∀ r, settles r = true ↔ d.sealedBin < top ∧ r.station = i ∧ (r.state = .through ∨ r.state = .cut) ∧
            ∃ e, r.stop = some e ∧ e ≤ (top + 1).toNat * sd.binLength) →
          u.track.table.places = s.track.table.places.map (fun e => (e.1, { e.2 with
            tally := counts e.2, state := if settles e.2 then .settled else e.2.state })) ∧
          ∀ n, n = (s.track.table.records.filter settles).length →
            u.track.nextSeq = s.track.nextSeq + n ∧
            (s.track.backlog.length + n ≤ 128 →
              u.track.anomalies = s.track.anomalies ∧ u.track.anomalyCount = s.track.anomalyCount ∧
              u.track.trackingFlags = s.track.trackingFlags ||| (if n = 0 then 0 else 0x2) |||
                (if n ≠ 0 ∧ 96 ≤ s.track.backlog.length + n then 0x8 else 0) ∧
              ∃ new : List Record, new.Perm ((s.track.table.records.filter settles).map fun r =>
                  { r with tally := counts r, state := .settled }) ∧
                u.track.backlog = s.track.backlog ++ new.mapIdx fun j r =>
                  { seq := s.track.nextSeq + j, settledAt := s.track.clock, record := r })

/-- The owner of a strip position at a station (R97): the record of greatest serial of its line and kind whose span holds
the position, and none only when no such record holds it. The lineage walk (R121 to R126): what each point of a cursor
resolves to, hop by hop; in DEPTH the ancestor is the record at which the walk stopped (log 11). -/
def Obligations.TheWalkGoesUpstreamHopByHop : Prop :=
  (∀ (s : State) (i : Fin 8) (pos : Nat) (r : Record), s.owner i pos = some r →
    r ∈ s.track.table.records ∧ r.station = i ∧ r.start ≤ pos ∧ (∀ e, r.stop = some e → pos < e) ∧
    ∀ r' ∈ s.track.table.records, r'.station = i → r'.start ≤ pos → (∀ e, r'.stop = some e → pos < e) →
      r'.serial ≤ r.serial) ∧
  (∀ (s : State) (i : Fin 8) (pos : Nat), s.owner i pos = none ↔
    ∀ r ∈ s.track.table.records, r.station = i → r.start ≤ pos → ∃ e, r.stop = some e ∧ e ≤ pos) ∧
  (∀ (s : State) (d : CursorDef) (x : Int),
    (s.find d.target = none →
      s.resolve d x = { status := .lineageLost, ancestor := d.target, pos := 0, bin := none, incarnation := none }) ∧
    ∀ r len, s.find d.target = some r →
      len = (match r.stop, r.state with
        | some e, _ => (e : Int) - r.start
        | none, .loading => max (((s.line r.line).entry.counter : Int) - (s.line r.line).seamIn.offset - r.start) 0
        | none, .winding => max (((s.line r.line).exit.counter : Int) - (s.line r.line).shear.offset - r.start) 0
        | none, _ => 0) →
      (x < 0 ∨ len ≤ x → s.resolve d x =
        { status := .outOfRange, ancestor := d.target, pos := 0, bin := none, incarnation := none }) ∧
      (0 ≤ x → x < len → ∀ i, i = stationOf d.line d.side →
        (∀ st a q, s.walkFrom d.line d.side 8 r x.toNat = .ended st a q →
          s.resolve d x = { status := st, ancestor := a, pos := q, bin := none, incarnation := none }) ∧
        ∀ w q, s.walkFrom d.line d.side 8 r x.toNat = .stopped w q →
          ((s.station i).live? = none → s.resolve d x =
            { status := .stationChanged, ancestor := w.serial, pos := q, bin := none, incarnation := none }) ∧
          ∀ lv sd, (s.station i).state = .live lv → (s.station i).defn = some sd → s.resolve d x =
            { status := .ok, ancestor := w.serial, pos := q, bin := some ((w.start + q) / sd.binLength)
              incarnation := some (s.station i).incarnation })) ∧
  ∀ (s : State) (l : LineId) (sd : Side) (n : Nat) (r : Record) (q : Nat),
    (r.station = stationOf l sd → s.walkFrom l sd n r q = .stopped r q) ∧
    (r.station ≠ stationOf l sd →
      s.walkFrom l sd 0 r q = .ended .depth r.serial q ∧
      (r.kind = .exit → ∀ p, p = r.start + q →
        ((∀ g ∈ r.segments, ¬(g.exitStart ≤ p ∧ p < g.exitEnd)) →
          s.walkFrom l sd (n + 1) r q = .ended .untracked r.serial q) ∧
        ∀ pre g post, r.segments = pre ++ g :: post → (∀ g' ∈ pre, ¬(g'.exitStart ≤ p ∧ p < g'.exitEnd)) →
          g.exitStart ≤ p → p < g.exitEnd →
          (s.find g.serial = none → s.walkFrom l sd (n + 1) r q = .ended .lineageLost r.serial q) ∧
          ∀ x, s.find g.serial = some x →
            (x.stop = none ∨ x.exitStart = none ∨ x.exitEnd = none →
              s.walkFrom l sd (n + 1) r q = .ended .pending r.serial q) ∧
            ∀ e xs xe, x.stop = some e → x.exitStart = some xs → x.exitEnd = some xe →
              (xe ≤ p → s.walkFrom l sd (n + 1) r q = .ended .untracked r.serial q) ∧
              (p < xe → s.walkFrom l sd (n + 1) r q =
                s.walkFrom l sd n x ((p - xs) * (e - x.start) / (xe - xs)))) ∧
      (r.kind = .entry →
        (r.source = none → s.walkFrom l sd (n + 1) r q = .ended .notInLineage r.serial q) ∧
        ∀ m, r.source = some m →
          (s.find m = none → s.walkFrom l sd (n + 1) r q = .ended .lineageLost r.serial q) ∧
          ∀ w, s.find m = some w →
            (r.stop = none ∨ w.stop = none → s.walkFrom l sd (n + 1) r q = .ended .pending r.serial q) ∧
            ∀ xe we v, r.stop = some xe → w.stop = some we →
              v = q * (we - w.start) / (xe - r.start) →
              ((s.line r.line).reverseOnPass = false → s.walkFrom l sd (n + 1) r q = s.walkFrom l sd n w v) ∧
              ((s.line r.line).reverseOnPass = true → v < we - w.start →
                s.walkFrom l sd (n + 1) r q = s.walkFrom l sd n w (we - w.start - 1 - v))))

/-! ## What every step keeps -/

/-- Every step keeps the bounds of the part's collections and counters (R1, R35, R36, R139, R142, R163), the flags and masks
within their positions (R172, R184), each LIVE station's open bins above its sealed bin, in rising order (R81), and each
defined station's definition in the ranges of Define Station, its bin length from 10 to 65,535 among them (R82, R83). -/
def Obligations.EveryStepKeepsTheBounds : Prop :=
  ∀ s t : State, step s = .next t →
    (s.QueuesOk → t.QueuesOk) ∧ (s.LinesOk → t.LinesOk) ∧ (s.CountersOk → t.CountersOk) ∧ (s.FlagsOk → t.FlagsOk) ∧
    (s.BinsOk → t.BinsOk) ∧ (s.DefinitionsOk → t.DefinitionsOk)

/-- Every step keeps the coil table in its form: at most one record in each of its 8192 places, serials rising from the
counter and never repeated (R56, R65), and at most one LOADING and one WINDING record on a line (R41, R46). -/
def Obligations.EveryStepKeepsTheTable : Prop :=
  ∀ s t : State, step s = .next t → s.TableOk ∧ s.SerialsOk ∧ s.OpenOk → t.TableOk ∧ t.SerialsOk ∧ t.OpenOk

/-- Every step keeps the memory path in order: the path of a powered part is DOWN exactly while its well is unpowered or
PRST asserted, so that a path reset ends at the first moment neither holds (R177, R179), a path in HOLD has drained (R148),
the FIFO holds the QUEUED slots once each and the unit the RUNNING one (R155, R156), and nothing that could be accepted
stays presented (R135). A path enters HOLD with no directive in the FIFO that a FREE unit could have taken before (R156,
R161). -/
def Obligations.EveryStepKeepsThePathInOrder : Prop :=
  ∀ s t : State, step s = .next t →
    (s.ResetOk → t.ResetOk) ∧ (s.HoldOk → t.HoldOk) ∧ (s.SlotsOk → t.SlotsOk) ∧ (s.AcceptOk → t.AcceptOk) ∧
    (s.path.state ≠ .hold → t.path.state = .hold → t.path.directiveUnit = .free → t.path.fifo = [])

/-- The invariants hold in the state after reset. -/
def Obligations.TheInvariantsHoldAtReset : Prop :=
  State.reset.QueuesOk ∧ State.reset.LinesOk ∧ State.reset.CountersOk ∧ State.reset.FlagsOk ∧
  State.reset.BinsOk ∧ State.reset.DefinitionsOk ∧ State.reset.TableOk ∧ State.reset.SerialsOk ∧ State.reset.OpenOk ∧
  State.reset.ResetOk ∧ State.reset.HoldOk ∧ State.reset.SlotsOk ∧ State.reset.AcceptOk
end

