-- ==== Sys2Proof/Laws/State.lean ====
section
/-! SUPPORT. What each update of State does to each field of State, said once, so that no later proof unfolds an update. -/

namespace Sys2Proof.Machine

/-! ### Flags as bits -/

/-- A word that has a one-bit flag set is not changed by setting it. -/
theorem or_twoPow_of_and_ne (w : Word) (k : Nat) (h : w &&& BitVec.twoPow 32 k ≠ 0) :
    w ||| BitVec.twoPow 32 k = w := by
  have hb : w.getLsbD k = true := by
    by_contra hn
    apply h
    apply BitVec.eq_of_getLsbD_eq
    intro i hi
    simp only [BitVec.getLsbD_and, BitVec.getLsbD_twoPow]
    by_cases hik : k = i
    · subst hik; simp [hn]
    · simp [hik]
  apply BitVec.eq_of_getLsbD_eq
  intro i hi
  simp only [BitVec.getLsbD_or, BitVec.getLsbD_twoPow]
  by_cases hik : k = i
  · subst hik; simp [hb]
  · simp [hik]

/-- Setting a tracking flag that is set changes nothing. -/
theorem TrackFlag.or_of_set (w : Word) (f : TrackFlag) (h : ¬w &&& f.bit = 0) : w ||| f.bit = w := by
  cases f
  · exact or_twoPow_of_and_ne w 0 h
  · exact or_twoPow_of_and_ne w 1 h
  · exact or_twoPow_of_and_ne w 2 h
  · exact or_twoPow_of_and_ne w 3 h

/-- Setting a path flag that is set changes nothing. -/
theorem PathFlag.or_of_set (w : Word) (f : PathFlag) (h : ¬w &&& f.bit = 0) : w ||| f.bit = w := by
  cases f
  · exact or_twoPow_of_and_ne w 8 h
  · exact or_twoPow_of_and_ne w 9 h
  · exact or_twoPow_of_and_ne w 10 h
  · exact or_twoPow_of_and_ne w 11 h
  · exact or_twoPow_of_and_ne w 12 h

/-! ### mark -/

@[simp] theorem State.mark_powered (s : State) (g : Fin 39) : (s.mark g).powered = s.powered := rfl
@[simp] theorem State.mark_pathPower (s : State) (g : Fin 39) : (s.mark g).pathPower = s.pathPower := rfl
@[simp] theorem State.mark_prst (s : State) (g : Fin 39) : (s.mark g).prst = s.prst := rfl
@[simp] theorem State.mark_ssa (s : State) (g : Fin 39) : (s.mark g).ssa = s.ssa := rfl
@[simp] theorem State.mark_ssb (s : State) (g : Fin 39) : (s.mark g).ssb = s.ssb := rfl
@[simp] theorem State.mark_track (s : State) (g : Fin 39) : (s.mark g).track = s.track := rfl
@[simp] theorem State.mark_path (s : State) (g : Fin 39) : (s.mark g).path =
      { s.path with dirty := s.path.dirty.set g.val true g.isLt } := rfl
@[simp] theorem State.mark_presented (s : State) (g : Fin 39) : (s.mark g).presented = s.presented := rfl
@[simp] theorem State.mark_returned (s : State) (g : Fin 39) : (s.mark g).returned = s.returned := rfl
@[simp] theorem State.mark_freeCount (s : State) (g : Fin 39) : (s.mark g).freeCount = s.freeCount := rfl
@[simp] theorem State.mark_pending (s : State) (g : Fin 39) : (s.mark g).pending = s.pending := rfl

/-! ### markAll -/

@[simp] theorem State.markAll_powered (s : State) : (s.markAll).powered = s.powered := rfl
@[simp] theorem State.markAll_pathPower (s : State) : (s.markAll).pathPower = s.pathPower := rfl
@[simp] theorem State.markAll_prst (s : State) : (s.markAll).prst = s.prst := rfl
@[simp] theorem State.markAll_ssa (s : State) : (s.markAll).ssa = s.ssa := rfl
@[simp] theorem State.markAll_ssb (s : State) : (s.markAll).ssb = s.ssb := rfl
@[simp] theorem State.markAll_track (s : State) : (s.markAll).track = s.track := rfl
@[simp] theorem State.markAll_path (s : State) : (s.markAll).path =
      { s.path with dirty := .replicate 39 true } := rfl
@[simp] theorem State.markAll_presented (s : State) : (s.markAll).presented = s.presented := rfl
@[simp] theorem State.markAll_returned (s : State) : (s.markAll).returned = s.returned := rfl
@[simp] theorem State.markAll_freeCount (s : State) : (s.markAll).freeCount = s.freeCount := rfl
@[simp] theorem State.markAll_pending (s : State) : (s.markAll).pending = s.pending := rfl

/-! ### markIf -/

@[simp] theorem State.markIf_powered (s : State) (c : Bool) (g : Fin 39) : (s.markIf c g).powered = s.powered := by
  cases c <;> rfl
@[simp] theorem State.markIf_pathPower (s : State) (c : Bool) (g : Fin 39) : (s.markIf c g).pathPower =
      s.pathPower := by
  cases c <;> rfl
@[simp] theorem State.markIf_prst (s : State) (c : Bool) (g : Fin 39) : (s.markIf c g).prst = s.prst := by
  cases c <;> rfl
@[simp] theorem State.markIf_ssa (s : State) (c : Bool) (g : Fin 39) : (s.markIf c g).ssa = s.ssa := by
  cases c <;> rfl
@[simp] theorem State.markIf_ssb (s : State) (c : Bool) (g : Fin 39) : (s.markIf c g).ssb = s.ssb := by
  cases c <;> rfl
@[simp] theorem State.markIf_track (s : State) (c : Bool) (g : Fin 39) : (s.markIf c g).track = s.track := by
  cases c <;> rfl
@[simp] theorem State.markIf_path (s : State) (c : Bool) (g : Fin 39) : (s.markIf c g).path =
      { s.path with dirty := if c then s.path.dirty.set g.val true g.isLt else s.path.dirty } := by
  cases c <;> rfl
@[simp] theorem State.markIf_presented (s : State) (c : Bool) (g : Fin 39) : (s.markIf c g).presented =
      s.presented := by
  cases c <;> rfl
@[simp] theorem State.markIf_returned (s : State) (c : Bool) (g : Fin 39) : (s.markIf c g).returned =
      s.returned := by
  cases c <;> rfl
@[simp] theorem State.markIf_freeCount (s : State) (c : Bool) (g : Fin 39) : (s.markIf c g).freeCount =
      s.freeCount := by
  cases c <;> rfl
@[simp] theorem State.markIf_pending (s : State) (c : Bool) (g : Fin 39) : (s.markIf c g).pending = s.pending := by
  cases c <;> rfl

/-! ### setLine -/

@[simp] theorem State.setLine_powered (s : State) (l : LineId) (ln : Line) : (s.setLine l ln).powered =
      s.powered := by
  unfold State.setLine State.markIf; split <;> rfl
@[simp] theorem State.setLine_pathPower (s : State) (l : LineId) (ln : Line) : (s.setLine l ln).pathPower =
      s.pathPower := by
  unfold State.setLine State.markIf; split <;> rfl
@[simp] theorem State.setLine_prst (s : State) (l : LineId) (ln : Line) : (s.setLine l ln).prst = s.prst := by
  unfold State.setLine State.markIf; split <;> rfl
@[simp] theorem State.setLine_ssa (s : State) (l : LineId) (ln : Line) : (s.setLine l ln).ssa = s.ssa := by
  unfold State.setLine State.markIf; split <;> rfl
@[simp] theorem State.setLine_ssb (s : State) (l : LineId) (ln : Line) : (s.setLine l ln).ssb = s.ssb := by
  unfold State.setLine State.markIf; split <;> rfl
@[simp] theorem State.setLine_track (s : State) (l : LineId) (ln : Line) : (s.setLine l ln).track =
      { s.track with lines := s.track.lines.set l.val ln l.isLt } := by
  unfold State.setLine State.markIf; split <;> rfl
@[simp] theorem State.setLine_path (s : State) (l : LineId) (ln : Line) : (s.setLine l ln).path =
      { s.path with
        dirty := if (s.line l).content != ln.content then s.path.dirty.set (lineGroup l).val true (lineGroup l).isLt
          else s.path.dirty } := by
  unfold State.setLine State.markIf; split <;> rfl
@[simp] theorem State.setLine_presented (s : State) (l : LineId) (ln : Line) : (s.setLine l ln).presented =
      s.presented := by
  unfold State.setLine State.markIf; split <;> rfl
@[simp] theorem State.setLine_returned (s : State) (l : LineId) (ln : Line) : (s.setLine l ln).returned =
      s.returned := by
  unfold State.setLine State.markIf; split <;> rfl
@[simp] theorem State.setLine_freeCount (s : State) (l : LineId) (ln : Line) : (s.setLine l ln).freeCount =
      s.freeCount := by
  unfold State.setLine State.markIf; split <;> rfl
@[simp] theorem State.setLine_pending (s : State) (l : LineId) (ln : Line) : (s.setLine l ln).pending =
      s.pending := by
  unfold State.setLine State.markIf; split <;> rfl

/-! ### setStation -/

@[simp] theorem State.setStation_powered (s : State) (i : Fin 8) (st : Station) : (s.setStation i st).powered =
      s.powered := by
  unfold State.setStation State.markIf; split <;> rfl
@[simp] theorem State.setStation_pathPower (s : State) (i : Fin 8) (st : Station) :
    (s.setStation i st).pathPower =
      s.pathPower := by
  unfold State.setStation State.markIf; split <;> rfl
@[simp] theorem State.setStation_prst (s : State) (i : Fin 8) (st : Station) : (s.setStation i st).prst =
      s.prst := by
  unfold State.setStation State.markIf; split <;> rfl
@[simp] theorem State.setStation_ssa (s : State) (i : Fin 8) (st : Station) : (s.setStation i st).ssa = s.ssa := by
  unfold State.setStation State.markIf; split <;> rfl
@[simp] theorem State.setStation_ssb (s : State) (i : Fin 8) (st : Station) : (s.setStation i st).ssb = s.ssb := by
  unfold State.setStation State.markIf; split <;> rfl
@[simp] theorem State.setStation_track (s : State) (i : Fin 8) (st : Station) : (s.setStation i st).track =
      s.track := by
  unfold State.setStation State.markIf; split <;> rfl
@[simp] theorem State.setStation_path (s : State) (i : Fin 8) (st : Station) : (s.setStation i st).path =
      { s.path with
        stations := s.path.stations.set i.val st i.isLt
        dirty := if (s.station i).content != st.content then s.path.dirty.set (stationGroup i).val true (stationGroup i).isLt
          else s.path.dirty } := by
  unfold State.setStation State.markIf; split <;> rfl
@[simp] theorem State.setStation_presented (s : State) (i : Fin 8) (st : Station) :
    (s.setStation i st).presented =
      s.presented := by
  unfold State.setStation State.markIf; split <;> rfl
@[simp] theorem State.setStation_returned (s : State) (i : Fin 8) (st : Station) : (s.setStation i st).returned =
      s.returned := by
  unfold State.setStation State.markIf; split <;> rfl
@[simp] theorem State.setStation_freeCount (s : State) (i : Fin 8) (st : Station) :
    (s.setStation i st).freeCount =
      s.freeCount := by
  unfold State.setStation State.markIf; split <;> rfl
@[simp] theorem State.setStation_pending (s : State) (i : Fin 8) (st : Station) : (s.setStation i st).pending =
      s.pending := by
  unfold State.setStation State.markIf; split <;> rfl

/-! ### setCursor -/

@[simp] theorem State.setCursor_powered (s : State) (k : Fin 8) (c : Cursor) : (s.setCursor k c).powered =
      s.powered := by
  unfold State.setCursor State.markIf; split <;> rfl
@[simp] theorem State.setCursor_pathPower (s : State) (k : Fin 8) (c : Cursor) : (s.setCursor k c).pathPower =
      s.pathPower := by
  unfold State.setCursor State.markIf; split <;> rfl
@[simp] theorem State.setCursor_prst (s : State) (k : Fin 8) (c : Cursor) : (s.setCursor k c).prst = s.prst := by
  unfold State.setCursor State.markIf; split <;> rfl
@[simp] theorem State.setCursor_ssa (s : State) (k : Fin 8) (c : Cursor) : (s.setCursor k c).ssa = s.ssa := by
  unfold State.setCursor State.markIf; split <;> rfl
@[simp] theorem State.setCursor_ssb (s : State) (k : Fin 8) (c : Cursor) : (s.setCursor k c).ssb = s.ssb := by
  unfold State.setCursor State.markIf; split <;> rfl
@[simp] theorem State.setCursor_track (s : State) (k : Fin 8) (c : Cursor) : (s.setCursor k c).track =
      s.track := by
  unfold State.setCursor State.markIf; split <;> rfl
@[simp] theorem State.setCursor_path (s : State) (k : Fin 8) (c : Cursor) : (s.setCursor k c).path =
      { s.path with
        cursors := s.path.cursors.set k.val c k.isLt
        dirty := if (s.cursor k).content != c.content then s.path.dirty.set (cursorGroup k).val true (cursorGroup k).isLt
          else s.path.dirty } := by
  unfold State.setCursor State.markIf; split <;> rfl
@[simp] theorem State.setCursor_presented (s : State) (k : Fin 8) (c : Cursor) : (s.setCursor k c).presented =
      s.presented := by
  unfold State.setCursor State.markIf; split <;> rfl
@[simp] theorem State.setCursor_returned (s : State) (k : Fin 8) (c : Cursor) : (s.setCursor k c).returned =
      s.returned := by
  unfold State.setCursor State.markIf; split <;> rfl
@[simp] theorem State.setCursor_freeCount (s : State) (k : Fin 8) (c : Cursor) : (s.setCursor k c).freeCount =
      s.freeCount := by
  unfold State.setCursor State.markIf; split <;> rfl
@[simp] theorem State.setCursor_pending (s : State) (k : Fin 8) (c : Cursor) : (s.setCursor k c).pending =
      s.pending := by
  unfold State.setCursor State.markIf; split <;> rfl

/-! ### setJournal -/

@[simp] theorem State.setJournal_powered (s : State) (j : Option JournalSetting) : (s.setJournal j).powered =
      s.powered := by
  unfold State.setJournal State.markIf; split <;> rfl
@[simp] theorem State.setJournal_pathPower (s : State) (j : Option JournalSetting) : (s.setJournal j).pathPower =
      s.pathPower := by
  unfold State.setJournal State.markIf; split <;> rfl
@[simp] theorem State.setJournal_prst (s : State) (j : Option JournalSetting) : (s.setJournal j).prst =
      s.prst := by
  unfold State.setJournal State.markIf; split <;> rfl
@[simp] theorem State.setJournal_ssa (s : State) (j : Option JournalSetting) : (s.setJournal j).ssa = s.ssa := by
  unfold State.setJournal State.markIf; split <;> rfl
@[simp] theorem State.setJournal_ssb (s : State) (j : Option JournalSetting) : (s.setJournal j).ssb = s.ssb := by
  unfold State.setJournal State.markIf; split <;> rfl
@[simp] theorem State.setJournal_track (s : State) (j : Option JournalSetting) : (s.setJournal j).track =
      s.track := by
  unfold State.setJournal State.markIf; split <;> rfl
@[simp] theorem State.setJournal_path (s : State) (j : Option JournalSetting) : (s.setJournal j).path =
      { s.path with
        journal := j
        dirty := if s.path.journal != j then s.path.dirty.set journalGroup.val true journalGroup.isLt
          else s.path.dirty } := by
  unfold State.setJournal State.markIf; split <;> rfl
@[simp] theorem State.setJournal_presented (s : State) (j : Option JournalSetting) : (s.setJournal j).presented =
      s.presented := by
  unfold State.setJournal State.markIf; split <;> rfl
@[simp] theorem State.setJournal_returned (s : State) (j : Option JournalSetting) : (s.setJournal j).returned =
      s.returned := by
  unfold State.setJournal State.markIf; split <;> rfl
@[simp] theorem State.setJournal_freeCount (s : State) (j : Option JournalSetting) : (s.setJournal j).freeCount =
      s.freeCount := by
  unfold State.setJournal State.markIf; split <;> rfl
@[simp] theorem State.setJournal_pending (s : State) (j : Option JournalSetting) : (s.setJournal j).pending =
      s.pending := by
  unfold State.setJournal State.markIf; split <;> rfl

/-! ### setSlot -/

@[simp] theorem State.setSlot_powered (s : State) (k : Fin 16) (sl : Slot) : (s.setSlot k sl).powered =
      s.powered := rfl
@[simp] theorem State.setSlot_pathPower (s : State) (k : Fin 16) (sl : Slot) : (s.setSlot k sl).pathPower =
      s.pathPower := rfl
@[simp] theorem State.setSlot_prst (s : State) (k : Fin 16) (sl : Slot) : (s.setSlot k sl).prst = s.prst := rfl
@[simp] theorem State.setSlot_ssa (s : State) (k : Fin 16) (sl : Slot) : (s.setSlot k sl).ssa = s.ssa := rfl
@[simp] theorem State.setSlot_ssb (s : State) (k : Fin 16) (sl : Slot) : (s.setSlot k sl).ssb = s.ssb := rfl
@[simp] theorem State.setSlot_track (s : State) (k : Fin 16) (sl : Slot) : (s.setSlot k sl).track = s.track := rfl
@[simp] theorem State.setSlot_path (s : State) (k : Fin 16) (sl : Slot) : (s.setSlot k sl).path =
      { s.path with slots := s.path.slots.set k.val sl k.isLt } := rfl
@[simp] theorem State.setSlot_presented (s : State) (k : Fin 16) (sl : Slot) : (s.setSlot k sl).presented =
      s.presented := rfl
@[simp] theorem State.setSlot_returned (s : State) (k : Fin 16) (sl : Slot) : (s.setSlot k sl).returned =
      s.returned := rfl
@[simp] theorem State.setSlot_freeCount (s : State) (k : Fin 16) (sl : Slot) : (s.setSlot k sl).freeCount =
      s.freeCount := rfl
@[simp] theorem State.setSlot_pending (s : State) (k : Fin 16) (sl : Slot) : (s.setSlot k sl).pending =
      s.pending := rfl

/-! ### setUnit -/

@[simp] theorem State.setUnit_powered (s : State) (u : UnitState) : (s.setUnit u).powered = s.powered := rfl
@[simp] theorem State.setUnit_pathPower (s : State) (u : UnitState) : (s.setUnit u).pathPower = s.pathPower := rfl
@[simp] theorem State.setUnit_prst (s : State) (u : UnitState) : (s.setUnit u).prst = s.prst := rfl
@[simp] theorem State.setUnit_ssa (s : State) (u : UnitState) : (s.setUnit u).ssa = s.ssa := rfl
@[simp] theorem State.setUnit_ssb (s : State) (u : UnitState) : (s.setUnit u).ssb = s.ssb := rfl
@[simp] theorem State.setUnit_track (s : State) (u : UnitState) : (s.setUnit u).track = s.track := rfl
@[simp] theorem State.setUnit_path (s : State) (u : UnitState) : (s.setUnit u).path =
      { s.path with directiveUnit := u } := rfl
@[simp] theorem State.setUnit_presented (s : State) (u : UnitState) : (s.setUnit u).presented = s.presented := rfl
@[simp] theorem State.setUnit_returned (s : State) (u : UnitState) : (s.setUnit u).returned = s.returned := rfl
@[simp] theorem State.setUnit_freeCount (s : State) (u : UnitState) : (s.setUnit u).freeCount = s.freeCount := rfl
@[simp] theorem State.setUnit_pending (s : State) (u : UnitState) : (s.setUnit u).pending = s.pending := rfl

/-! ### append -/

@[simp] theorem State.append_powered (s : State) (b : WriteBurst) : (s.append b).powered = s.powered := rfl
@[simp] theorem State.append_pathPower (s : State) (b : WriteBurst) : (s.append b).pathPower = s.pathPower := rfl
@[simp] theorem State.append_prst (s : State) (b : WriteBurst) : (s.append b).prst = s.prst := rfl
@[simp] theorem State.append_ssa (s : State) (b : WriteBurst) : (s.append b).ssa = s.ssa := rfl
@[simp] theorem State.append_ssb (s : State) (b : WriteBurst) : (s.append b).ssb = s.ssb := rfl
@[simp] theorem State.append_track (s : State) (b : WriteBurst) : (s.append b).track = s.track := rfl
@[simp] theorem State.append_path (s : State) (b : WriteBurst) : (s.append b).path =
      { s.path with
        bookkeeping := s.path.bookkeeping ++ [{ id := s.path.nextId, burst := b }]
        nextId := s.path.nextId + 1 } := rfl
@[simp] theorem State.append_presented (s : State) (b : WriteBurst) : (s.append b).presented = s.presented := rfl
@[simp] theorem State.append_returned (s : State) (b : WriteBurst) : (s.append b).returned = s.returned := rfl
@[simp] theorem State.append_freeCount (s : State) (b : WriteBurst) : (s.append b).freeCount = s.freeCount := rfl
@[simp] theorem State.append_pending (s : State) (b : WriteBurst) : (s.append b).pending = s.pending := rfl

/-! ### wait -/

@[simp] theorem State.wait_powered (s : State) (w : Waiter) : (s.wait w).powered = s.powered := rfl
@[simp] theorem State.wait_pathPower (s : State) (w : Waiter) : (s.wait w).pathPower = s.pathPower := rfl
@[simp] theorem State.wait_prst (s : State) (w : Waiter) : (s.wait w).prst = s.prst := rfl
@[simp] theorem State.wait_ssa (s : State) (w : Waiter) : (s.wait w).ssa = s.ssa := rfl
@[simp] theorem State.wait_ssb (s : State) (w : Waiter) : (s.wait w).ssb = s.ssb := rfl
@[simp] theorem State.wait_track (s : State) (w : Waiter) : (s.wait w).track = s.track := rfl
@[simp] theorem State.wait_path (s : State) (w : Waiter) : (s.wait w).path =
      { s.path with waitList := s.path.waitList ++ [w] } := rfl
@[simp] theorem State.wait_presented (s : State) (w : Waiter) : (s.wait w).presented = s.presented := rfl
@[simp] theorem State.wait_returned (s : State) (w : Waiter) : (s.wait w).returned = s.returned := rfl
@[simp] theorem State.wait_freeCount (s : State) (w : Waiter) : (s.wait w).freeCount = s.freeCount := rfl
@[simp] theorem State.wait_pending (s : State) (w : Waiter) : (s.wait w).pending = s.pending := rfl

/-! ### unwait -/

@[simp] theorem State.unwait_powered (s : State) : (s.unwait).powered = s.powered := rfl
@[simp] theorem State.unwait_pathPower (s : State) : (s.unwait).pathPower = s.pathPower := rfl
@[simp] theorem State.unwait_prst (s : State) : (s.unwait).prst = s.prst := rfl
@[simp] theorem State.unwait_ssa (s : State) : (s.unwait).ssa = s.ssa := rfl
@[simp] theorem State.unwait_ssb (s : State) : (s.unwait).ssb = s.ssb := rfl
@[simp] theorem State.unwait_track (s : State) : (s.unwait).track = s.track := rfl
@[simp] theorem State.unwait_path (s : State) : (s.unwait).path =
      { s.path with waitList := s.path.waitList.tail } := rfl
@[simp] theorem State.unwait_presented (s : State) : (s.unwait).presented = s.presented := rfl
@[simp] theorem State.unwait_returned (s : State) : (s.unwait).returned = s.returned := rfl
@[simp] theorem State.unwait_freeCount (s : State) : (s.unwait).freeCount = s.freeCount := rfl
@[simp] theorem State.unwait_pending (s : State) : (s.unwait).pending = s.pending := rfl

/-! ### request -/

@[simp] theorem State.request_powered (s : State) (rs : List Request) : (s.request rs).powered = s.powered := rfl
@[simp] theorem State.request_pathPower (s : State) (rs : List Request) : (s.request rs).pathPower =
      s.pathPower := rfl
@[simp] theorem State.request_prst (s : State) (rs : List Request) : (s.request rs).prst = s.prst := rfl
@[simp] theorem State.request_ssa (s : State) (rs : List Request) : (s.request rs).ssa = s.ssa := rfl
@[simp] theorem State.request_ssb (s : State) (rs : List Request) : (s.request rs).ssb = s.ssb := rfl
@[simp] theorem State.request_track (s : State) (rs : List Request) : (s.request rs).track = s.track := rfl
@[simp] theorem State.request_path (s : State) (rs : List Request) : (s.request rs).path =
      { s.path with requests := s.path.requests ++ rs } := rfl
@[simp] theorem State.request_presented (s : State) (rs : List Request) : (s.request rs).presented =
      s.presented := rfl
@[simp] theorem State.request_returned (s : State) (rs : List Request) : (s.request rs).returned = s.returned := rfl
@[simp] theorem State.request_freeCount (s : State) (rs : List Request) : (s.request rs).freeCount =
      s.freeCount := rfl
@[simp] theorem State.request_pending (s : State) (rs : List Request) : (s.request rs).pending = s.pending := rfl

/-! ### holdPort -/

@[simp] theorem State.holdPort_powered (s : State) (h : HeldRead) : (s.holdPort h).powered = s.powered := rfl
@[simp] theorem State.holdPort_pathPower (s : State) (h : HeldRead) : (s.holdPort h).pathPower = s.pathPower := rfl
@[simp] theorem State.holdPort_prst (s : State) (h : HeldRead) : (s.holdPort h).prst = s.prst := rfl
@[simp] theorem State.holdPort_ssa (s : State) (h : HeldRead) : (s.holdPort h).ssa = s.ssa := rfl
@[simp] theorem State.holdPort_ssb (s : State) (h : HeldRead) : (s.holdPort h).ssb = s.ssb := rfl
@[simp] theorem State.holdPort_track (s : State) (h : HeldRead) : (s.holdPort h).track = s.track := rfl
@[simp] theorem State.holdPort_path (s : State) (h : HeldRead) : (s.holdPort h).path =
      { s.path with port := some h } := rfl
@[simp] theorem State.holdPort_presented (s : State) (h : HeldRead) : (s.holdPort h).presented = s.presented := rfl
@[simp] theorem State.holdPort_returned (s : State) (h : HeldRead) : (s.holdPort h).returned = s.returned := rfl
@[simp] theorem State.holdPort_freeCount (s : State) (h : HeldRead) : (s.holdPort h).freeCount = s.freeCount := rfl
@[simp] theorem State.holdPort_pending (s : State) (h : HeldRead) : (s.holdPort h).pending = s.pending := rfl

/-! ### releasePort -/

@[simp] theorem State.releasePort_powered (s : State) : (s.releasePort).powered = s.powered := rfl
@[simp] theorem State.releasePort_pathPower (s : State) : (s.releasePort).pathPower = s.pathPower := rfl
@[simp] theorem State.releasePort_prst (s : State) : (s.releasePort).prst = s.prst := rfl
@[simp] theorem State.releasePort_ssa (s : State) : (s.releasePort).ssa = s.ssa := rfl
@[simp] theorem State.releasePort_ssb (s : State) : (s.releasePort).ssb = s.ssb := rfl
@[simp] theorem State.releasePort_track (s : State) : (s.releasePort).track = s.track := rfl
@[simp] theorem State.releasePort_path (s : State) : (s.releasePort).path = { s.path with port := none } := rfl
@[simp] theorem State.releasePort_presented (s : State) : (s.releasePort).presented = s.presented := rfl
@[simp] theorem State.releasePort_returned (s : State) : (s.releasePort).returned = s.returned := rfl
@[simp] theorem State.releasePort_freeCount (s : State) : (s.releasePort).freeCount = s.freeCount := rfl
@[simp] theorem State.releasePort_pending (s : State) : (s.releasePort).pending = s.pending := rfl

/-! ### returnData -/

@[simp] theorem State.returnData_powered (s : State) (ws : List Word) : (s.returnData ws).powered = s.powered := rfl
@[simp] theorem State.returnData_pathPower (s : State) (ws : List Word) : (s.returnData ws).pathPower =
      s.pathPower := rfl
@[simp] theorem State.returnData_prst (s : State) (ws : List Word) : (s.returnData ws).prst = s.prst := rfl
@[simp] theorem State.returnData_ssa (s : State) (ws : List Word) : (s.returnData ws).ssa = s.ssa := rfl
@[simp] theorem State.returnData_ssb (s : State) (ws : List Word) : (s.returnData ws).ssb = s.ssb := rfl
@[simp] theorem State.returnData_track (s : State) (ws : List Word) : (s.returnData ws).track = s.track := rfl
@[simp] theorem State.returnData_path (s : State) (ws : List Word) : (s.returnData ws).path = s.path := rfl
@[simp] theorem State.returnData_presented (s : State) (ws : List Word) : (s.returnData ws).presented =
      s.presented := rfl
@[simp] theorem State.returnData_returned (s : State) (ws : List Word) : (s.returnData ws).returned =
      s.returned ++ [ws] := rfl
@[simp] theorem State.returnData_freeCount (s : State) (ws : List Word) : (s.returnData ws).freeCount =
      s.freeCount := rfl
@[simp] theorem State.returnData_pending (s : State) (ws : List Word) : (s.returnData ws).pending = s.pending := rfl

/-! ### setPresented -/

@[simp] theorem State.setPresented_powered (s : State) (ts : List Transaction) : (s.setPresented ts).powered =
      s.powered := rfl
@[simp] theorem State.setPresented_pathPower (s : State) (ts : List Transaction) : (s.setPresented ts).pathPower =
      s.pathPower := rfl
@[simp] theorem State.setPresented_prst (s : State) (ts : List Transaction) : (s.setPresented ts).prst =
      s.prst := rfl
@[simp] theorem State.setPresented_ssa (s : State) (ts : List Transaction) : (s.setPresented ts).ssa = s.ssa := rfl
@[simp] theorem State.setPresented_ssb (s : State) (ts : List Transaction) : (s.setPresented ts).ssb = s.ssb := rfl
@[simp] theorem State.setPresented_track (s : State) (ts : List Transaction) : (s.setPresented ts).track =
      s.track := rfl
@[simp] theorem State.setPresented_path (s : State) (ts : List Transaction) : (s.setPresented ts).path =
      s.path := rfl
@[simp] theorem State.setPresented_presented (s : State) (ts : List Transaction) : (s.setPresented ts).presented =
      ts := rfl
@[simp] theorem State.setPresented_returned (s : State) (ts : List Transaction) : (s.setPresented ts).returned =
      s.returned := rfl
@[simp] theorem State.setPresented_freeCount (s : State) (ts : List Transaction) : (s.setPresented ts).freeCount =
      s.freeCount := rfl
@[simp] theorem State.setPresented_pending (s : State) (ts : List Transaction) : (s.setPresented ts).pending =
      s.pending := rfl

/-! ### withPending -/

@[simp] theorem State.withPending_powered (s : State) (q : List Instr) : (s.withPending q).powered =
      s.powered := rfl
@[simp] theorem State.withPending_pathPower (s : State) (q : List Instr) : (s.withPending q).pathPower =
      s.pathPower := rfl
@[simp] theorem State.withPending_prst (s : State) (q : List Instr) : (s.withPending q).prst = s.prst := rfl
@[simp] theorem State.withPending_ssa (s : State) (q : List Instr) : (s.withPending q).ssa = s.ssa := rfl
@[simp] theorem State.withPending_ssb (s : State) (q : List Instr) : (s.withPending q).ssb = s.ssb := rfl
@[simp] theorem State.withPending_track (s : State) (q : List Instr) : (s.withPending q).track = s.track := rfl
@[simp] theorem State.withPending_path (s : State) (q : List Instr) : (s.withPending q).path = s.path := rfl
@[simp] theorem State.withPending_presented (s : State) (q : List Instr) : (s.withPending q).presented =
      s.presented := rfl
@[simp] theorem State.withPending_returned (s : State) (q : List Instr) : (s.withPending q).returned =
      s.returned := rfl
@[simp] theorem State.withPending_freeCount (s : State) (q : List Instr) : (s.withPending q).freeCount =
      s.freeCount := rfl
@[simp] theorem State.withPending_pending (s : State) (q : List Instr) : (s.withPending q).pending = q := rfl

/-! ### start -/

@[simp] theorem State.start_powered (s : State) (m : MBurst) : (s.start m).powered = s.powered := rfl
@[simp] theorem State.start_pathPower (s : State) (m : MBurst) : (s.start m).pathPower = s.pathPower := rfl
@[simp] theorem State.start_prst (s : State) (m : MBurst) : (s.start m).prst = s.prst := rfl
@[simp] theorem State.start_ssa (s : State) (m : MBurst) : (s.start m).ssa = s.ssa := rfl
@[simp] theorem State.start_ssb (s : State) (m : MBurst) : (s.start m).ssb = s.ssb := rfl
@[simp] theorem State.start_track (s : State) (m : MBurst) : (s.start m).track = s.track := rfl
@[simp] theorem State.start_path (s : State) (m : MBurst) : (s.start m).path =
      { s.path with inProgress := some m } := rfl
@[simp] theorem State.start_presented (s : State) (m : MBurst) : (s.start m).presented = s.presented := rfl
@[simp] theorem State.start_returned (s : State) (m : MBurst) : (s.start m).returned = s.returned := rfl
@[simp] theorem State.start_freeCount (s : State) (m : MBurst) : (s.start m).freeCount = s.freeCount := rfl
@[simp] theorem State.start_pending (s : State) (m : MBurst) : (s.start m).pending = s.pending := rfl

/-! ### idleMSide -/

@[simp] theorem State.idleMSide_powered (s : State) : (s.idleMSide).powered = s.powered := rfl
@[simp] theorem State.idleMSide_pathPower (s : State) : (s.idleMSide).pathPower = s.pathPower := rfl
@[simp] theorem State.idleMSide_prst (s : State) : (s.idleMSide).prst = s.prst := rfl
@[simp] theorem State.idleMSide_ssa (s : State) : (s.idleMSide).ssa = s.ssa := rfl
@[simp] theorem State.idleMSide_ssb (s : State) : (s.idleMSide).ssb = s.ssb := rfl
@[simp] theorem State.idleMSide_track (s : State) : (s.idleMSide).track = s.track := rfl
@[simp] theorem State.idleMSide_path (s : State) : (s.idleMSide).path = { s.path with inProgress := none } := rfl
@[simp] theorem State.idleMSide_presented (s : State) : (s.idleMSide).presented = s.presented := rfl
@[simp] theorem State.idleMSide_returned (s : State) : (s.idleMSide).returned = s.returned := rfl
@[simp] theorem State.idleMSide_freeCount (s : State) : (s.idleMSide).freeCount = s.freeCount := rfl
@[simp] theorem State.idleMSide_pending (s : State) : (s.idleMSide).pending = s.pending := rfl

/-! ### setPath -/

@[simp] theorem State.setPath_powered (s : State) (p : PathState) : (s.setPath p).powered = s.powered := rfl
@[simp] theorem State.setPath_pathPower (s : State) (p : PathState) : (s.setPath p).pathPower = s.pathPower := rfl
@[simp] theorem State.setPath_prst (s : State) (p : PathState) : (s.setPath p).prst = s.prst := rfl
@[simp] theorem State.setPath_ssa (s : State) (p : PathState) : (s.setPath p).ssa = s.ssa := rfl
@[simp] theorem State.setPath_ssb (s : State) (p : PathState) : (s.setPath p).ssb = s.ssb := rfl
@[simp] theorem State.setPath_track (s : State) (p : PathState) : (s.setPath p).track = s.track := rfl
@[simp] theorem State.setPath_path (s : State) (p : PathState) : (s.setPath p).path =
      { s.path with state := p, dirty := s.path.dirty.set 0 true } := rfl
@[simp] theorem State.setPath_presented (s : State) (p : PathState) : (s.setPath p).presented = s.presented := rfl
@[simp] theorem State.setPath_returned (s : State) (p : PathState) : (s.setPath p).returned = s.returned := rfl
@[simp] theorem State.setPath_freeCount (s : State) (p : PathState) : (s.setPath p).freeCount = s.freeCount := rfl
@[simp] theorem State.setPath_pending (s : State) (p : PathState) : (s.setPath p).pending = s.pending := rfl

/-! ### modify -/

@[simp] theorem State.modify_powered (s : State) (n : Nat) (f : Record → Record) : (s.modify n f).powered =
      s.powered := rfl
@[simp] theorem State.modify_pathPower (s : State) (n : Nat) (f : Record → Record) : (s.modify n f).pathPower =
      s.pathPower := rfl
@[simp] theorem State.modify_prst (s : State) (n : Nat) (f : Record → Record) : (s.modify n f).prst = s.prst := rfl
@[simp] theorem State.modify_ssa (s : State) (n : Nat) (f : Record → Record) : (s.modify n f).ssa = s.ssa := rfl
@[simp] theorem State.modify_ssb (s : State) (n : Nat) (f : Record → Record) : (s.modify n f).ssb = s.ssb := rfl
@[simp] theorem State.modify_track (s : State) (n : Nat) (f : Record → Record) : (s.modify n f).track =
      { s.track with
        table := { s.track.table with places := s.track.table.places.map fun e => if e.2.serial == n then (e.1, f e.2)
          else e } } := rfl
@[simp] theorem State.modify_path (s : State) (n : Nat) (f : Record → Record) : (s.modify n f).path = s.path := rfl
@[simp] theorem State.modify_presented (s : State) (n : Nat) (f : Record → Record) : (s.modify n f).presented =
      s.presented := rfl
@[simp] theorem State.modify_returned (s : State) (n : Nat) (f : Record → Record) : (s.modify n f).returned =
      s.returned := rfl
@[simp] theorem State.modify_freeCount (s : State) (n : Nat) (f : Record → Record) : (s.modify n f).freeCount =
      s.freeCount := rfl
@[simp] theorem State.modify_pending (s : State) (n : Nat) (f : Record → Record) : (s.modify n f).pending =
      s.pending := rfl

/-! ### drawn -/

@[simp] theorem State.drawn_powered (s : State) : (s.drawn).powered = s.powered := rfl
@[simp] theorem State.drawn_pathPower (s : State) : (s.drawn).pathPower = s.pathPower := rfl
@[simp] theorem State.drawn_prst (s : State) : (s.drawn).prst = s.prst := rfl
@[simp] theorem State.drawn_ssa (s : State) : (s.drawn).ssa = s.ssa := rfl
@[simp] theorem State.drawn_ssb (s : State) : (s.drawn).ssb = s.ssb := rfl
@[simp] theorem State.drawn_track (s : State) : (s.drawn).track = s.track := rfl
@[simp] theorem State.drawn_path (s : State) : (s.drawn).path = s.path := rfl
@[simp] theorem State.drawn_presented (s : State) : (s.drawn).presented = s.presented := rfl
@[simp] theorem State.drawn_returned (s : State) : (s.drawn).returned = s.returned := rfl
@[simp] theorem State.drawn_freeCount (s : State) : (s.drawn).freeCount = s.freeCount + 1 := rfl
@[simp] theorem State.drawn_pending (s : State) : (s.drawn).pending = s.pending := rfl

/-! ### raiseTrack -/

@[simp] theorem State.raiseTrack_powered (s : State) (f : TrackFlag) : (s.raiseTrack f).powered = s.powered := by
  unfold State.raiseTrack; split <;> rfl
@[simp] theorem State.raiseTrack_pathPower (s : State) (f : TrackFlag) : (s.raiseTrack f).pathPower =
      s.pathPower := by
  unfold State.raiseTrack; split <;> rfl
@[simp] theorem State.raiseTrack_prst (s : State) (f : TrackFlag) : (s.raiseTrack f).prst = s.prst := by
  unfold State.raiseTrack; split <;> rfl
@[simp] theorem State.raiseTrack_ssa (s : State) (f : TrackFlag) : (s.raiseTrack f).ssa = s.ssa := by
  unfold State.raiseTrack; split <;> rfl
@[simp] theorem State.raiseTrack_ssb (s : State) (f : TrackFlag) : (s.raiseTrack f).ssb = s.ssb := by
  unfold State.raiseTrack; split <;> rfl
@[simp] theorem State.raiseTrack_track (s : State) (f : TrackFlag) : (s.raiseTrack f).track =
      { s.track with trackingFlags := s.track.trackingFlags ||| f.bit } := by
  unfold State.raiseTrack; split
  · rfl
  · simp [TrackFlag.or_of_set s.track.trackingFlags f ‹_›]
@[simp] theorem State.raiseTrack_path (s : State) (f : TrackFlag) : (s.raiseTrack f).path =
      { s.path with
        dirty := if s.track.trackingFlags &&& f.bit = 0 then s.path.dirty.set 1 true else s.path.dirty } := by
  unfold State.raiseTrack; split <;> rfl
@[simp] theorem State.raiseTrack_presented (s : State) (f : TrackFlag) : (s.raiseTrack f).presented =
      s.presented := by
  unfold State.raiseTrack; split <;> rfl
@[simp] theorem State.raiseTrack_returned (s : State) (f : TrackFlag) : (s.raiseTrack f).returned =
      s.returned := by
  unfold State.raiseTrack; split <;> rfl
@[simp] theorem State.raiseTrack_freeCount (s : State) (f : TrackFlag) : (s.raiseTrack f).freeCount =
      s.freeCount := by
  unfold State.raiseTrack; split <;> rfl
@[simp] theorem State.raiseTrack_pending (s : State) (f : TrackFlag) : (s.raiseTrack f).pending = s.pending := by
  unfold State.raiseTrack; split <;> rfl

/-! ### raisePath -/

@[simp] theorem State.raisePath_powered (s : State) (f : PathFlag) : (s.raisePath f).powered = s.powered := by
  unfold State.raisePath; split <;> rfl
@[simp] theorem State.raisePath_pathPower (s : State) (f : PathFlag) : (s.raisePath f).pathPower =
      s.pathPower := by
  unfold State.raisePath; split <;> rfl
@[simp] theorem State.raisePath_prst (s : State) (f : PathFlag) : (s.raisePath f).prst = s.prst := by
  unfold State.raisePath; split <;> rfl
@[simp] theorem State.raisePath_ssa (s : State) (f : PathFlag) : (s.raisePath f).ssa = s.ssa := by
  unfold State.raisePath; split <;> rfl
@[simp] theorem State.raisePath_ssb (s : State) (f : PathFlag) : (s.raisePath f).ssb = s.ssb := by
  unfold State.raisePath; split <;> rfl
@[simp] theorem State.raisePath_track (s : State) (f : PathFlag) : (s.raisePath f).track = s.track := by
  unfold State.raisePath; split <;> rfl
@[simp] theorem State.raisePath_path (s : State) (f : PathFlag) : (s.raisePath f).path =
      { s.path with
        pathFlags := s.path.pathFlags ||| f.bit
        dirty := if s.path.pathFlags &&& f.bit = 0 then s.path.dirty.set 1 true else s.path.dirty } := by
  unfold State.raisePath; split
  · rfl
  · simp [PathFlag.or_of_set s.path.pathFlags f ‹_›]
@[simp] theorem State.raisePath_presented (s : State) (f : PathFlag) : (s.raisePath f).presented =
      s.presented := by
  unfold State.raisePath; split <;> rfl
@[simp] theorem State.raisePath_returned (s : State) (f : PathFlag) : (s.raisePath f).returned = s.returned := by
  unfold State.raisePath; split <;> rfl
@[simp] theorem State.raisePath_freeCount (s : State) (f : PathFlag) : (s.raisePath f).freeCount =
      s.freeCount := by
  unfold State.raisePath; split <;> rfl
@[simp] theorem State.raisePath_pending (s : State) (f : PathFlag) : (s.raisePath f).pending = s.pending := by
  unfold State.raisePath; split <;> rfl

end Sys2Proof.Machine
end

