-- ==== Sys2Proof/Laws/Tables.lean ====
section
/-! SUPPORT. Tables with rising keys: every operation keeps the canonical form, and what a table holds after it. -/

namespace Sys2Proof.Machine

variable {α : Type}

/-- A key above every key of a table. -/
theorem tableWf_cons {k : Nat} {v : α} {t : List (Nat × α)} :
    tableWf ((k, v) :: t) = true ↔ (∀ e ∈ t, k < e.1) ∧ tableWf t = true := by
  simp [tableWf, List.all_eq_true]

/-- What setting a key leaves in a table: the new entry and entries of before. -/
theorem mem_tableSet {k : Nat} {v : α} {t : List (Nat × α)} {e : Nat × α} (h : e ∈ tableSet k v t) :
    e = (k, v) ∨ e ∈ t := by
  induction t with
  | nil => simpa [tableSet] using h
  | cons x rest ih =>
    obtain ⟨j, w⟩ := x
    simp only [tableSet] at h
    split at h
    · simpa using h
    · split at h
      · rcases List.mem_cons.1 h with h | h
        · exact .inl h
        · exact .inr (List.mem_cons_of_mem _ h)
      · rcases List.mem_cons.1 h with h | h
        · exact .inr (h ▸ List.mem_cons_self)
        · rcases ih h with h | h
          · exact .inl h
          · exact .inr (List.mem_cons_of_mem _ h)

/-- Setting a key keeps a table canonical. -/
theorem tableWf_tableSet {k : Nat} {v : α} {t : List (Nat × α)} (h : tableWf t = true) :
    tableWf (tableSet k v t) = true := by
  induction t with
  | nil => simp [tableSet, tableWf]
  | cons x rest ih =>
    obtain ⟨j, w⟩ := x
    rw [tableWf_cons] at h
    simp only [tableSet]
    split
    · rename_i hk
      rw [tableWf_cons, tableWf_cons]
      refine ⟨?_, h⟩
      intro e he
      rcases List.mem_cons.1 he with rfl | he
      · exact hk
      · exact lt_trans hk (h.1 e he)
    · split
      · rename_i hj
        subst hj
        rw [tableWf_cons]
        exact h
      · rename_i hk hj
        rw [tableWf_cons]
        refine ⟨?_, ih h.2⟩
        intro e he
        rcases mem_tableSet he with rfl | he
        · exact lt_of_le_of_ne (Nat.le_of_not_lt hk) hj
        · exact h.1 e he

/-- A filtered table stays canonical. -/
theorem tableWf_filter {t : List (Nat × α)} (p : Nat × α → Bool) (h : tableWf t = true) :
    tableWf (t.filter p) = true := by
  induction t with
  | nil => simp [tableWf]
  | cons x rest ih =>
    obtain ⟨j, w⟩ := x
    rw [tableWf_cons] at h
    rw [List.filter_cons]
    split
    · rw [tableWf_cons]
      exact ⟨fun e he => h.1 e (List.mem_filter.1 he).1, ih h.2⟩
    · exact ih h.2

/-- A table whose values are changed in their places stays canonical. -/
theorem tableWf_map {t : List (Nat × α)} (f : Nat × α → Nat × α) (hf : ∀ e, (f e).1 = e.1) (h : tableWf t = true) :
    tableWf (t.map f) = true := by
  induction t with
  | nil => simp [tableWf]
  | cons x rest ih =>
    obtain ⟨j, w⟩ := x
    rw [tableWf_cons] at h
    rw [List.map_cons]
    have e1 : f (j, w) = (j, (f (j, w)).2) := Prod.ext (hf _) rfl
    rw [e1, tableWf_cons]
    refine ⟨?_, ih h.2⟩
    intro e he
    obtain ⟨x, hx, rfl⟩ := List.mem_map.1 he
    rw [hf]
    exact h.1 x hx

/-- The value a table holds after a key is set. -/
theorem tableGet_tableSet {k j : Nat} {v : α} {t : List (Nat × α)} (h : tableWf t = true) :
    tableGet j (tableSet k v t) = if k = j then some v else tableGet j t := by
  induction t with
  | nil => simp [tableSet, tableGet]
  | cons x rest ih =>
    obtain ⟨i, w⟩ := x
    rw [tableWf_cons] at h
    simp only [tableSet]
    split
    · simp [tableGet]
    · split
      · rename_i hi
        subst hi
        simp only [tableGet]
        split <;> rfl
      · rename_i hk hi
        simp only [tableGet, ih h.2]
        split
        · rename_i hij
          subst hij
          rw [if_neg (fun hc => hi hc.symm)]
        · rfl

/-- A table in which a place at or above the start is missing has a lowest free place there or below. -/
theorem lowestFree_le {p k : Nat} {t : List (Nat × α)} (hk : k ≤ p) (h : ∀ e ∈ t, e.1 ≠ p) : lowestFree k t ≤ p := by
  induction t generalizing k with
  | nil => simpa [lowestFree] using hk
  | cons x rest ih =>
    obtain ⟨j, w⟩ := x
    simp only [lowestFree]
    split
    · rename_i hj
      have hne : j ≠ p := h (j, w) List.mem_cons_self
      exact ih (by omega) fun e he => h e (List.mem_cons_of_mem _ he)
    · exact hk

/-- A table without one of its entries, keys rising, has no other entry at that place. -/
theorem place_unique {t : List (Nat × α)} (h : tableWf t = true) {a b : Nat × α} (ha : a ∈ t) (hb : b ∈ t)
    (hab : a.1 = b.1) : a = b := by
  induction t with
  | nil => simp at ha
  | cons x rest ih =>
    obtain ⟨j, w⟩ := x
    rw [tableWf_cons] at h
    rcases List.mem_cons.1 ha with rfl | ha
    · rcases List.mem_cons.1 hb with rfl | hb
      · rfl
      · exact absurd hab (ne_of_lt (h.1 b hb))
    · rcases List.mem_cons.1 hb with rfl | hb
      · exact absurd hab.symm (ne_of_lt (h.1 a ha))
      · exact ih h.2 ha hb

end Sys2Proof.Machine
end

