-- ==== Sys2Proof/Laws/Frames.lean ====
section
/-! SUPPORT. What the shared operations of the tracking well can do, said once: each changes only what its frame names,
and keeps the invariants of Safety. -/

namespace Sys2Proof.Machine

/-! ## Dirty marks -/

/-- No dirty mark of `d` is cleared in `d'`. -/
def MarksKept (d d' : Vector Bool 39) : Prop := ∀ g : Fin 39, d[g] = true → d'[g] = true

theorem MarksKept.refl (d : Vector Bool 39) : MarksKept d d := fun _ h => h

theorem MarksKept.trans {a b c : Vector Bool 39} (h : MarksKept a b) (g : MarksKept b c) : MarksKept a c :=
  fun x hx => g x (h x hx)

theorem MarksKept.set (d : Vector Bool 39) (i : Nat) (h : i < 39) : MarksKept d (d.set i true h) := by
  intro g hg
  simp only [Fin.getElem_fin, Vector.getElem_set] at hg ⊢
  split
  · rfl
  · exact hg

theorem MarksKept.ite {p : Prop} [Decidable p] {a b d : Vector Bool 39} (h : MarksKept d a) (g : MarksKept d b) :
    MarksKept d (if p then a else b) := by
  split
  · exact h
  · exact g

/-! ## The invariants an operation of the tracking well keeps -/

/-- From `s` to `t` the backlog, the flags and the coil table keep within their bounds, and no dirty mark is cleared. -/
structure Keeps (s t : State) : Prop where
  backlog : s.track.backlog.length ≤ 128 → t.track.backlog.length ≤ 128
  flags : s.FlagsOk → t.FlagsOk
  table : s.TableOk → t.TableOk
  marks : MarksKept s.path.dirty t.path.dirty

theorem Keeps.refl (s : State) : Keeps s s := ⟨id, id, id, MarksKept.refl _⟩

theorem Keeps.trans {s t u : State} (h : Keeps s t) (g : Keeps t u) : Keeps s u :=
  ⟨g.backlog ∘ h.backlog, g.flags ∘ h.flags, g.table ∘ h.table, h.marks.trans g.marks⟩

/-- Two states with the same backlog, flags, masks and table. -/
theorem Keeps.of_eq {s t : State} (hb : t.track.backlog = s.track.backlog) (hf : t.track.trackingFlags = s.track.trackingFlags)
    (hp : t.path.pathFlags = s.path.pathFlags) (ha : t.path.alertMask = s.path.alertMask)
    (hm : t.track.trackFaultMask = s.track.trackFaultMask) (ht : t.track.table = s.track.table)
    (hd : MarksKept s.path.dirty t.path.dirty := by exact MarksKept.refl _) : Keeps s t :=
  ⟨fun h => by rw [hb]; exact h, fun h => by unfold State.FlagsOk at *; rw [hf, hp, ha, hm]; exact h,
    fun h => by unfold State.TableOk at *; rw [ht]; exact h, hd⟩

/-! ## Frames of the tracking well -/

/-- A state with other contents of the coil table, the journal backlog, the anomaly log, the tracking flags and the
dirty marks. -/
def State.withTable (s : State) (tb : CoilTable) (ns : Nat) (bl : List JournalEntry)
    (an : Vector (Option Anomaly) 32) (ac tf : Word) (d : Vector Bool 39) : State :=
  { s with
    track := { s.track with
      table := tb, nextSeq := ns, backlog := bl, anomalies := an, anomalyCount := ac, trackingFlags := tf }
    path := { s.path with dirty := d } }

/-- Only the coil table, the journal backlog, the anomaly log, the tracking flags and dirty marks change. -/
def TableFrame (s t : State) : Prop :=
  (∃ tb ns bl an ac tf d, t = s.withTable tb ns bl an ac tf d) ∧ Keeps s t

theorem TableFrame.refl (s : State) : TableFrame s s := ⟨⟨_, _, _, _, _, _, _, rfl⟩, Keeps.refl s⟩

theorem TableFrame.trans {s t u : State} (h : TableFrame s t) (g : TableFrame t u) : TableFrame s u := by
  refine ⟨?_, h.2.trans g.2⟩
  obtain ⟨⟨_, _, _, _, _, _, _, rfl⟩, -⟩ := h
  obtain ⟨⟨_, _, _, _, _, _, _, rfl⟩, -⟩ := g
  exact ⟨_, _, _, _, _, _, _, rfl⟩

/-- What a line unit holds beside its seam tracking and its matcher. -/
def Line.wiring (ln : Line) : Line :=
  { ln with
    matcher := .idle, seamQueue := [], entryQueue := [], exitQueue := [], through := []
    lastSeamIn := none, lastExitSeam := none, lastShear := none }

/-- A state with other line units and other contents of the coil table and what goes with it. -/
def State.withLines (s : State) (ls : Vector Line 4) (tb : CoilTable) (ns : Nat) (bl : List JournalEntry)
    (an : Vector (Option Anomaly) 32) (ac tf : Word) (d : Vector Bool 39) : State :=
  { s with
    track := { s.track with
      lines := ls, table := tb, nextSeq := ns, backlog := bl, anomalies := an, anomalyCount := ac, trackingFlags := tf }
    path := { s.path with dirty := d } }

/-- Beside what a `TableFrame` admits, only the seam tracking and the matcher of line `l` change. -/
def SeamFrame (l : LineId) (s t : State) : Prop :=
  (∃ ls tb ns bl an ac tf d, t = s.withLines ls tb ns bl an ac tf d) ∧ Keeps s t ∧
    (t.line l).wiring = (s.line l).wiring ∧ ∀ j, j ≠ l → t.line j = s.line j

theorem SeamFrame.trans {l : LineId} {s t u : State} (h : SeamFrame l s t) (g : SeamFrame l t u) : SeamFrame l s u := by
  obtain ⟨h1, h2, h3, h4⟩ := h
  obtain ⟨g1, g2, g3, g4⟩ := g
  refine ⟨?_, h2.trans g2, g3.trans h3, fun j hj => (g4 j hj).trans (h4 j hj)⟩
  obtain ⟨_, _, _, _, _, _, _, _, rfl⟩ := h1
  obtain ⟨_, _, _, _, _, _, _, _, rfl⟩ := g1
  exact ⟨_, _, _, _, _, _, _, _, rfl⟩

theorem TableFrame.seam {l : LineId} {s t : State} (h : TableFrame s t) : SeamFrame l s t := by
  obtain ⟨⟨_, _, _, _, _, _, _, rfl⟩, hk⟩ := h
  exact ⟨⟨_, _, _, _, _, _, _, _, rfl⟩, hk, rfl, fun _ _ => rfl⟩

theorem SeamFrame.refl (l : LineId) (s : State) : SeamFrame l s s := (TableFrame.refl s).seam

/-! ## Line units -/

theorem State.line_setLine (s : State) (l j : LineId) (ln : Line) :
    (s.setLine l ln).line j = if l = j then ln else s.line j := by
  unfold State.line
  rw [State.setLine_track]
  simp only [Fin.getElem_fin, Vector.getElem_set, Fin.ext_iff]

@[simp] theorem State.line_setLine_self (s : State) (l : LineId) (ln : Line) : (s.setLine l ln).line l = ln := by
  rw [State.line_setLine, if_pos rfl]

theorem State.line_setLine_ne (s : State) {l j : LineId} (ln : Line) (h : j ≠ l) :
    (s.setLine l ln).line j = s.line j := by
  rw [State.line_setLine, if_neg (Ne.symm h)]

/-- Replacing a line unit by one with the same wiring. -/
theorem SeamFrame.setLine {l : LineId} (s : State) {ln : Line} (h : ln.wiring = (s.line l).wiring) :
    SeamFrame l s (s.setLine l ln) := by
  refine ⟨⟨(s.setLine l ln).track.lines, s.track.table, s.track.nextSeq, s.track.backlog, s.track.anomalies,
    s.track.anomalyCount, s.track.trackingFlags, (s.setLine l ln).path.dirty, ?_⟩, ?_, ?_, ?_⟩
  · unfold State.setLine State.markIf State.withLines; split <;> rfl
  · refine Keeps.of_eq (by simp) (by simp) (by simp) (by simp) (by simp) (by simp) ?_
    rw [State.setLine_path]
    exact MarksKept.ite (MarksKept.set _ _ _) (MarksKept.refl _)
  · rw [State.line_setLine_self, h]
  · intro j hj; exact State.line_setLine_ne s ln hj

/-! ## Marks, flags and anomalies -/

theorem TableFrame.mark (s : State) (g : Fin 39) : TableFrame s (s.mark g) :=
  ⟨⟨_, _, _, _, _, _, _, rfl⟩, Keeps.of_eq rfl rfl rfl rfl rfl rfl (MarksKept.set _ _ g.isLt)⟩

theorem TableFrame.markIf (s : State) (c : Bool) (g : Fin 39) : TableFrame s (s.markIf c g) := by
  cases c
  · exact TableFrame.refl s
  · exact TableFrame.mark s g

/-- Setting a flag of a flag set leaves the positions without a flag at 0. -/
theorem or_and_not {w f m : Word} (hw : w &&& ~~~m = 0) (hf : f &&& ~~~m = 0) : (w ||| f) &&& ~~~m = 0 := by
  apply BitVec.eq_of_getLsbD_eq
  intro i hi
  have h1 := congrArg (fun x => x.getLsbD i) hw
  have h2 := congrArg (fun x => x.getLsbD i) hf
  simp only [BitVec.getLsbD_and, BitVec.getLsbD_or] at *
  cases hm : (~~~m).getLsbD i <;> simp_all

/-- Clearing flags leaves the positions without a flag at 0. -/
theorem and_and_not {w c m : Word} (hw : w &&& ~~~m = 0) : (w &&& c) &&& ~~~m = 0 := by
  apply BitVec.eq_of_getLsbD_eq
  intro i hi
  have h1 := congrArg (fun x => x.getLsbD i) hw
  simp only [BitVec.getLsbD_and] at *
  cases hm : (~~~m).getLsbD i <;> simp_all

theorem TrackFlag.bit_in (f : TrackFlag) : f.bit &&& ~~~trackingBits = 0 := by cases f <;> decide

theorem PathFlag.bit_in (f : PathFlag) : f.bit &&& ~~~pathBits = 0 := by cases f <;> decide

theorem TableFrame.raiseTrack (s : State) (f : TrackFlag) : TableFrame s (s.raiseTrack f) := by
  refine ⟨⟨s.track.table, s.track.nextSeq, s.track.backlog, s.track.anomalies, s.track.anomalyCount,
    (s.raiseTrack f).track.trackingFlags, (s.raiseTrack f).path.dirty, ?_⟩, ?_, ?_, ?_, ?_⟩
  · unfold State.raiseTrack; split <;> rfl
  · intro h; simpa using h
  · intro h
    simp only [State.FlagsOk, State.raiseTrack_track, State.raiseTrack_path]
    exact ⟨or_and_not h.1 f.bit_in, h.2⟩
  · intro h
    simp only [State.TableOk, State.raiseTrack_track]
    exact h
  · rw [State.raiseTrack_path]
    exact MarksKept.ite (MarksKept.set _ _ _) (MarksKept.refl _)

theorem TableFrame.judgeAnnounce (s : State) : TableFrame s s.judgeAnnounce := by
  unfold State.judgeAnnounce; split
  · exact TableFrame.raiseTrack s _
  · exact TableFrame.refl s

theorem TableFrame.judgeBacklog (s : State) : TableFrame s s.judgeBacklog := by
  unfold State.judgeBacklog; split
  · exact TableFrame.raiseTrack s _
  · exact TableFrame.refl s

theorem TableFrame.anomaly (s : State) (c : AnomalyCode) (l : Option LineId) (p n : Option Nat) :
    TableFrame s (s.anomaly c l p n) := by
  unfold State.anomaly
  refine TableFrame.trans ?_ ((TableFrame.raiseTrack _ _).trans ((TableFrame.mark _ _).trans (TableFrame.mark _ _)))
  exact ⟨⟨_, _, _, _, _, _, _, rfl⟩, Keeps.of_eq rfl rfl rfl rfl rfl rfl⟩

/-! ## Records and settling -/

theorem TableFrame.modify (s : State) (n : Nat) (f : Record → Record) : TableFrame s (s.modify n f) := by
  refine ⟨⟨_, _, _, _, _, _, _, rfl⟩, id, id, ?_, MarksKept.refl _⟩
  rintro ⟨h1, h2, h3⟩
  refine ⟨tableWf_map _ ?_ h1, ?_, h3⟩
  · intro e; split <;> rfl
  · intro e he
    obtain ⟨x, hx, rfl⟩ := List.mem_map.1 he
    have := h2 x hx
    split <;> exact this

theorem TableFrame.mapSet (s : State) (number : Word) (n : Nat) : TableFrame s (s.mapSet number n) :=
  ⟨⟨_, _, _, _, _, _, _, rfl⟩, id, id, fun h => ⟨h.1, h.2.1, tableWf_tableSet h.2.2⟩, MarksKept.refl _⟩

theorem TableFrame.mapWrite (s : State) (number : Word) (n : Nat) : TableFrame s (s.mapWrite number n) := by
  unfold State.mapWrite
  split
  · exact TableFrame.mapSet _ _ _
  · split
    · exact TableFrame.mapSet _ _ _
    · exact TableFrame.refl s

theorem TableFrame.nextSequence (s : State) : TableFrame s s.nextSequence :=
  ⟨⟨_, _, _, _, _, _, _, rfl⟩, Keeps.of_eq rfl rfl rfl rfl rfl rfl (MarksKept.set _ _ journalGroup.isLt)⟩

theorem TableFrame.keepEntry (s : State) (e : JournalEntry) (h : s.track.backlog.length < 128) :
    TableFrame s (s.keepEntry e) := by
  refine ⟨⟨_, _, _, _, _, _, _, rfl⟩, fun _ => ?_, id, id, MarksKept.refl _⟩
  simp only [State.keepEntry, List.length_append, List.length_cons, List.length_nil]
  exact Nat.succ_le_of_lt h

theorem TableFrame.joinBacklog (s : State) (r : Record) : TableFrame s (s.joinBacklog r) := by
  unfold State.joinBacklog
  split
  · rename_i hlt
    exact (TableFrame.nextSequence s).trans ((TableFrame.keepEntry s.nextSequence _ hlt).trans (TableFrame.judgeBacklog _))
  · exact (TableFrame.nextSequence s).trans (TableFrame.anomaly _ _ _ _ _)

/-- Settling a record (R70) changes nothing but the table, the backlog, the log, the tracking flags and dirty marks. -/
theorem TableFrame.settle (s : State) (n : Nat) : TableFrame s (s.settle n) := by
  unfold State.settle
  split
  · exact TableFrame.refl s
  · exact (TableFrame.modify _ _ _).trans ((TableFrame.joinBacklog _ _).trans ((TableFrame.raiseTrack _ _).trans
      ((TableFrame.mark _ _).trans (TableFrame.markIf _ _ _))))

theorem TableFrame.forceSettle (s : State) (n : Nat) : TableFrame s (s.forceSettle n) :=
  (TableFrame.modify _ _ _).trans (TableFrame.settle _ _)

theorem TableFrame.settleCheck (s : State) (n : Nat) : TableFrame s (s.settleCheck n) := by
  unfold State.settleCheck
  split
  · exact TableFrame.refl s
  · split
    · exact TableFrame.settle s n
    · exact TableFrame.refl s

/-- An operation repeated over a list keeps a frame that each turn keeps. -/
theorem foldl_frame {α : Type} {F : State → State → Prop} (hr : ∀ s, F s s) (ht : ∀ {s t u}, F s t → F t u → F s u)
    (f : State → α → State) (hf : ∀ s a, F s (f s a)) (xs : List α) (s : State) : F s (xs.foldl f s) := by
  induction xs generalizing s with
  | nil => exact hr s
  | cons x rest ih => exact ht (hf s x) (ih (f s x))

theorem TableFrame.settleStation (s : State) (i : Fin 8) : TableFrame s (s.settleStation i) :=
  foldl_frame TableFrame.refl TableFrame.trans _ (fun s n => TableFrame.settleCheck s n) _ s

theorem TableFrame.tally (s : State) (n a b c : Nat) : TableFrame s (s.tally n a b c) := TableFrame.modify _ _ _

theorem TableFrame.setTable (s : State) (t : CoilTable)
    (h : s.TableOk → tableWf t.places = true ∧ (∀ e ∈ t.places, e.1 < 8192) ∧ tableWf t.idMap = true) :
    TableFrame s (s.setTable t) := ⟨⟨_, _, _, _, _, _, _, rfl⟩, id, id, h, MarksKept.refl _⟩

theorem TableFrame.reclaim (s : State) (n : Nat) : TableFrame s (s.reclaim n) :=
  (TableFrame.setTable s _ fun ⟨h1, h2, h3⟩ =>
    ⟨tableWf_filter _ h1, fun e he => h2 e (List.mem_filter.1 he).1, tableWf_filter _ h3⟩).trans (TableFrame.mark _ _)

theorem TableFrame.makeRoom (s : State) : TableFrame s s.makeRoom := by
  unfold State.makeRoom
  split
  · exact TableFrame.refl s
  · split
    · exact TableFrame.reclaim _ _
    · split
      · exact (TableFrame.forceSettle _ _).trans ((TableFrame.anomaly _ _ _ _ _).trans (TableFrame.reclaim _ _))
      · exact TableFrame.refl s

/-! ## Allocation -/

/-- What the record of lowest serial is found among. -/
theorem lowestSerial_some {p : Record → Bool} {rs : List Record} {r : Record} (h : lowestSerial p rs = some r) :
    r ∈ rs ∧ p r = true := by
  induction rs with
  | nil => simp [lowestSerial] at h
  | cons x rest ih =>
    simp only [lowestSerial] at h
    split at h
    · split at h
      · cases h; exact ⟨List.mem_cons_self, by assumption⟩
      · cases h
    · rename_i m hm
      split at h
      · rename_i hx
        cases h
        simp only [Bool.and_eq_true] at hx
        exact ⟨List.mem_cons_self, hx.1⟩
      · cases h
        obtain ⟨h1, h2⟩ := ih hm
        exact ⟨List.mem_cons_of_mem _ h1, h2⟩

theorem lowestSerial_none {p : Record → Bool} {rs : List Record} (h : lowestSerial p rs = none) :
    ∀ r ∈ rs, p r = false := by
  induction rs with
  | nil => simp
  | cons x rest ih =>
    simp only [lowestSerial] at h
    split at h
    · rename_i hm
      split at h
      · cases h
      · rename_i hx
        intro r hr
        rcases List.mem_cons.1 hr with rfl | hr
        · simpa using hx
        · exact ih hm r hr
    · split at h <;> cases h

/-- A reclaimed record's place is free. -/
theorem lowestFree_reclaim (s : State) {r : Record} (h : s.TableOk) (hr : r ∈ s.track.table.records) :
    lowestFree 0 (s.reclaim r.serial).track.table.places < 8192 := by
  obtain ⟨e, he, rfl⟩ := List.mem_map.1 hr
  refine lt_of_le_of_lt (lowestFree_le (p := e.1) (Nat.zero_le _) ?_) (h.2.1 e he)
  intro x hx hxe
  have hx' : x ∈ s.track.table.places.filter fun y => y.2.serial != e.2.serial := hx
  obtain ⟨hx1, hx2⟩ := List.mem_filter.1 hx'
  have := place_unique h.1 hx1 he hxe
  subst this
  simp at hx2

/-- The serials of the table's records are not changed by what changes the records in their places. -/
theorem TableFrame.serials_settle (s : State) (n : Nat) :
    (s.settle n).track.table.places.map (fun e => (e.1, e.2.serial)) =
      s.track.table.places.map (fun e => (e.1, e.2.serial)) := by
  have key : ∀ (f : Record → Record), (∀ r, (f r).serial = r.serial) →
      (s.modify n f).track.table.places.map (fun e => (e.1, e.2.serial)) =
        s.track.table.places.map (fun e => (e.1, e.2.serial)) := by
    intro f hf
    simp only [State.modify_track, List.map_map]
    apply List.map_congr_left
    intro e _
    simp only [Function.comp]
    split
    · simp only [hf]
    · rfl
  unfold State.settle
  split
  · rfl
  · have hj : ∀ (u : State) (r : Record), (u.joinBacklog r).track.table = u.track.table := by
      intro u r
      unfold State.joinBacklog
      split
      · unfold State.judgeBacklog; split <;> simp [State.keepEntry, State.nextSequence]
      · unfold State.anomaly; simp [State.nextSequence]
    simp only [State.markIf_track, State.mark_track, State.raiseTrack_track, hj]
    exact key _ fun _ => rfl

/-- Where an allocation can be made, making room leaves a free place (R61). -/
theorem State.makeRoom_free (s : State) (h : s.TableOk) (hc : s.canAllocate = true) :
    lowestFree 0 s.makeRoom.track.table.places < 8192 := by
  unfold State.makeRoom
  split
  · assumption
  · rename_i hfull
    split
    · rename_i r hr
      exact lowestFree_reclaim s h (lowestSerial_some hr).1
    · rename_i hnone
      split
      · rename_i r hr
        have hmem := (lowestSerial_some hr).1
        have f1 : TableFrame s ((s.forceSettle r.serial).anomaly .forcedSettle (some r.line) (some r.start)
            (some r.serial)) := (TableFrame.forceSettle _ _).trans (TableFrame.anomaly _ _ _ _ _)
        have hok := f1.2.table h
        obtain ⟨e, he, rfl⟩ := List.mem_map.1 hmem
        have hs : (e.1, e.2.serial) ∈ ((s.forceSettle e.2.serial).anomaly .forcedSettle (some e.2.line)
            (some e.2.start) (some e.2.serial)).track.table.places.map (fun x => (x.1, x.2.serial)) := by
          have ha : ∀ (u : State) c l p n, (u.anomaly c l p n).track.table = u.track.table := by
            intros; unfold State.anomaly; simp
          rw [ha]
          unfold State.forceSettle
          rw [TableFrame.serials_settle]
          refine List.mem_map.2 ⟨(e.1, e.2.force), ?_, rfl⟩
          simp only [State.modify_track]
          refine List.mem_map.2 ⟨e, he, ?_⟩
          simp
        obtain ⟨x, hx, hxe⟩ := List.mem_map.1 hs
        have hser : x.2.serial = e.2.serial := congrArg Prod.snd hxe
        rw [← hser] at hok hx ⊢
        exact lowestFree_reclaim _ hok (List.mem_map.2 ⟨x, hx, rfl⟩)
      · rename_i hnone2
        unfold State.canAllocate at hc
        simp only [Bool.and_eq_true, Bool.or_eq_true, decide_eq_true_eq] at hc
        rcases hc.2 with hlt | hany
        · exact absurd hlt hfull
        · obtain ⟨r, hr, hp⟩ := List.any_eq_true.1 hany
          have := lowestSerial_none hnone2 r hr
          rw [this] at hp
          cases hp

theorem TableFrame.allocate (s : State) (mk : Nat → Record) (hc : s.canAllocate = true) :
    TableFrame s (s.allocate mk) := by
  have h1 := TableFrame.makeRoom s
  have h2 : TableFrame s (s.makeRoom.setTable (s.makeRoom.track.table.adding mk)) := by
    obtain ⟨⟨_, _, _, _, _, _, _, h⟩, h3⟩ := h1
    refine ⟨?_, h3.backlog, h3.flags, fun hs => ?_, h3.marks⟩
    · rw [h]; exact ⟨_, _, _, _, _, _, _, rfl⟩
    · have hok := h3.table hs
      refine ⟨tableWf_tableSet hok.1, ?_, hok.2.2⟩
      intro e he
      rcases mem_tableSet he with rfl | he
      · exact State.makeRoom_free s hs hc
      · exact hok.2.1 e he
  exact h2.trans (TableFrame.mark _ _)

end Sys2Proof.Machine
end

