-- ==== Sys2Proof/Laws/Seams.lean ====
section
/-! SUPPORT. What seam tracking and the matcher of a line can do: they change that line's seam tracking and matcher, the
coil table and what goes with it, and nothing else. -/

namespace Sys2Proof.Machine

theorem SeamFrame.setSeams (s : State) (l : LineId) (q : List SeamEntry) : SeamFrame l s (s.setSeams l q) :=
  SeamFrame.setLine s rfl
theorem SeamFrame.setThrough (s : State) (l : LineId) (ns : List Nat) : SeamFrame l s (s.setThrough l ns) :=
  SeamFrame.setLine s rfl
theorem SeamFrame.setMatcher (s : State) (l : LineId) (m : Matcher) : SeamFrame l s (s.setMatcher l m) :=
  SeamFrame.setLine s rfl
theorem SeamFrame.setLastSeamIn (s : State) (l : LineId) (p : Nat) : SeamFrame l s (s.setLastSeamIn l p) :=
  SeamFrame.setLine s rfl
theorem SeamFrame.setLastExitSeam (s : State) (l : LineId) (p : Nat) : SeamFrame l s (s.setLastExitSeam l p) :=
  SeamFrame.setLine s rfl
theorem SeamFrame.setLastShear (s : State) (l : LineId) (p : Nat) : SeamFrame l s (s.setLastShear l p) :=
  SeamFrame.setLine s rfl

theorem SeamFrame.setQueue (s : State) (l : LineId) (k : Kind) (q : List Word) : SeamFrame l s (s.setQueue l k q) := by
  cases k
  · exact (SeamFrame.setLine s (ln := (s.line l).setQueue .entry q) rfl).trans (TableFrame.judgeAnnounce _).seam
  · exact SeamFrame.setLine s (ln := (s.line l).setQueue .exit q) rfl

theorem SeamFrame.announced (s : State) (k : Kind) (l : LineId) (q : List Word) (p n : Nat) :
    SeamFrame l s (s.announced k l q p n) := by
  unfold State.announced
  split
  · exact (TableFrame.anomaly _ _ _ _ _).seam
  · exact SeamFrame.setQueue _ _ _ _

theorem SeamFrame.openRecord (s : State) (k : Kind) (l : LineId) (p : Nat) (t : Time) :
    SeamFrame l s (s.openRecord k l p t).1 := by
  unfold State.openRecord
  split
  · rename_i hc
    exact ((TableFrame.allocate s _ hc).trans (TableFrame.mark _ _)).seam.trans (SeamFrame.announced _ _ _ _ _ _)
  · exact SeamFrame.refl l s

theorem TableFrame.sourceLookup (s : State) (n : Nat) : TableFrame s (s.sourceLookup n) := by
  unfold State.sourceLookup
  repeat' split
  all_goals first | exact TableFrame.refl s | exact TableFrame.modify _ _ _

theorem TableFrame.suspectOpen (s : State) (n : Nat) : TableFrame s (s.suspectOpen n) := TableFrame.modify _ _ _

theorem TableFrame.suspectEntry (s : State) (e : SeamEntry) : TableFrame s (s.suspectEntry e) := by
  unfold State.suspectEntry
  split
  · exact TableFrame.suspectOpen _ _
  · exact (TableFrame.suspectOpen _ _).trans (TableFrame.suspectOpen _ _)

theorem SeamFrame.pushSeam (s : State) (l : LineId) (e : SeamEntry) : SeamFrame l s (s.pushSeam l e) := by
  unfold State.pushSeam
  split
  · exact SeamFrame.setSeams _ _ _
  · split
    · exact SeamFrame.setSeams _ _ _
    · exact (SeamFrame.setSeams _ _ _).trans ((TableFrame.anomaly _ _ _ _ _).trans (TableFrame.suspectEntry _ _)).seam

theorem TableFrame.closeLoading (s : State) (c : Option Record) (p : Nat) (t : Time) :
    TableFrame s (s.closeLoading c p t) := by
  unfold State.closeLoading
  split
  · exact TableFrame.refl s
  · exact TableFrame.modify _ _ _

theorem SeamFrame.enterSeam (s : State) (l : LineId) (p : Nat) (t : Time) (n : Nat) (c : Option Record) :
    SeamFrame l s (s.enterSeam l p t n c) :=
  (TableFrame.sourceLookup _ _).seam.trans ((SeamFrame.pushSeam _ _ _).trans
    ((SeamFrame.setLastSeamIn _ _ _).trans (TableFrame.markIf _ _ _).seam))

theorem SeamFrame.acceptSeamIn (s : State) (l : LineId) (p : Nat) (t : Time) :
    SeamFrame l s (s.acceptSeamIn l p t).1 :=
  (TableFrame.closeLoading _ _ _ _).seam.trans ((SeamFrame.openRecord _ _ _ _ _).trans
    (SeamFrame.enterSeam _ _ _ _ _ _))

theorem TableFrame.checkElongation (s : State) (l : LineId) (n e p : Nat) :
    TableFrame s (s.checkElongation l n e p) := by
  unfold State.checkElongation
  split
  · exact (TableFrame.modify _ _ _).trans (TableFrame.anomaly _ _ _ _ _)
  · exact TableFrame.refl s

theorem TableFrame.endExitSpan (s : State) (l : LineId) (r : Record) (p : Nat) : TableFrame s (s.endExitSpan l r p) :=
  (TableFrame.modify _ _ _).trans ((TableFrame.checkElongation _ _ _ _ _).trans (TableFrame.settleCheck _ _))

theorem SeamFrame.closeExitOpen (s : State) (l : LineId) (p : Nat) : SeamFrame l s (s.closeExitOpen l p).1 := by
  unfold State.closeExitOpen
  split
  · exact SeamFrame.refl l s
  · split
    · exact SeamFrame.setThrough _ _ _
    · split
      · exact SeamFrame.refl l s
      · split
        · exact SeamFrame.setThrough _ _ _
        · exact (TableFrame.endExitSpan _ _ _ _).seam

theorem SeamFrame.pushThrough (s : State) (l : LineId) (n p : Nat) : SeamFrame l s (s.pushThrough l n p) := by
  unfold State.pushThrough
  split
  · exact SeamFrame.setThrough _ _ _
  · split
    · exact SeamFrame.setThrough _ _ _
    · exact (SeamFrame.setThrough _ _ _).trans (TableFrame.anomaly _ _ _ _ _).seam

theorem SeamFrame.startExitSpan (s : State) (l : LineId) (n p : Nat) : SeamFrame l s (s.startExitSpan l n p).1 := by
  unfold State.startExitSpan
  split
  · exact SeamFrame.refl l s
  · split
    · exact SeamFrame.refl l s
    · exact (TableFrame.modify _ _ _).seam.trans (SeamFrame.pushThrough _ _ _ _)

theorem SeamFrame.acceptExitSeam (s : State) (l : LineId) (p : Nat) : SeamFrame l s (s.acceptExitSeam l p).1 := by
  unfold State.acceptExitSeam
  split
  · exact (TableFrame.anomaly _ _ _ _ _).seam.trans (SeamFrame.setLastExitSeam _ _ _)
  · exact (SeamFrame.setSeams _ _ _).trans ((SeamFrame.closeExitOpen _ _ _).trans
      ((SeamFrame.startExitSpan _ _ _ _).trans (SeamFrame.setLastExitSeam _ _ _)))

theorem TableFrame.cutAnomalies (s : State) (l : LineId) (p n : Nat) (codes : List AnomalyCode) :
    TableFrame s (s.cutAnomalies l p n codes) :=
  foldl_frame TableFrame.refl TableFrame.trans _ (fun _ _ => TableFrame.anomaly _ _ _ _ _) codes s

theorem TableFrame.mapRecord (s : State) (w : Record) : TableFrame s (s.mapRecord w) := by
  unfold State.mapRecord
  split
  · exact TableFrame.refl s
  · exact TableFrame.mapWrite _ _ _

theorem SeamFrame.cutRecord (s : State) (l : LineId) (w : Record) (p : Nat) (t : Time) :
    SeamFrame l s (s.cutRecord l w p t) :=
  (TableFrame.modify _ _ _).seam.trans ((SeamFrame.setThrough _ _ _).trans ((TableFrame.cutAnomalies _ _ _ _ _).trans
    ((TableFrame.mapRecord _ _).trans (TableFrame.settleCheck _ _))).seam)

theorem SeamFrame.cutWinding (s : State) (l : LineId) (c : Option Record) (p : Nat) (t : Time) :
    SeamFrame l s (s.cutWinding l c p t) := by
  unfold State.cutWinding
  split
  · exact SeamFrame.refl l s
  · exact SeamFrame.cutRecord _ _ _ _ _

theorem SeamFrame.acceptShear (s : State) (l : LineId) (p : Nat) (t : Time) :
    SeamFrame l s (s.acceptShear l p t).1 :=
  (SeamFrame.cutWinding _ _ _ _ _).trans ((SeamFrame.openRecord _ _ _ _ _).trans
    ((SeamFrame.setLastShear _ _ _).trans (TableFrame.markIf _ _ _).seam))

theorem TableFrame.tagEvent (s : State) (l : LineId) (p : Nat) (k : Fin 3) : TableFrame s (s.tagEvent l p k) := by
  unfold State.tagEvent
  split
  · exact TableFrame.anomaly _ _ _ _ _
  · exact TableFrame.modify _ _ _

theorem SeamFrame.seamInEvent (s : State) (l : LineId) (p : Nat) (t : Time) : SeamFrame l s (s.seamInEvent l p t) := by
  unfold State.seamInEvent
  split
  · exact SeamFrame.acceptSeamIn _ _ _ _
  · exact (TableFrame.anomaly _ _ _ _ _).seam

theorem SeamFrame.exitSeamEvent (s : State) (l : LineId) (p : Nat) : SeamFrame l s (s.exitSeamEvent l p) := by
  unfold State.exitSeamEvent
  split
  · exact SeamFrame.acceptExitSeam _ _ _
  · exact (TableFrame.anomaly _ _ _ _ _).seam

theorem SeamFrame.shearEvent (s : State) (l : LineId) (p : Nat) (t : Time) : SeamFrame l s (s.shearEvent l p t) := by
  unfold State.shearEvent
  split
  · exact SeamFrame.acceptShear _ _ _ _
  · exact (TableFrame.anomaly _ _ _ _ _).seam

/-! ## The matcher -/

theorem SeamFrame.matchEvent (s : State) (l : LineId) (k : Fin 3) (m : Nat) : SeamFrame l s (s.matchEvent l k m) := by
  unfold State.matchEvent
  split
  · exact SeamFrame.exitSeamEvent _ _ _
  · exact (TableFrame.tagEvent _ _ _ _).seam

theorem SeamFrame.judgeHole (s : State) (l : LineId) (ps : List Nat) (al : List (Fin 3)) (p : Nat) (d : Int) :
    SeamFrame l s (s.judgeHole l ps al p d) := by
  unfold State.judgeHole
  dsimp only
  split
  · exact (TableFrame.anomaly _ _ _ _ _).seam.trans (SeamFrame.setMatcher _ _ _)
  · split
    · exact SeamFrame.setMatcher _ _ _
    · exact (SeamFrame.setMatcher _ _ _).trans (SeamFrame.matchEvent _ _ _ _)

theorem SeamFrame.holeEvent (s : State) (l : LineId) (p : Nat) : SeamFrame l s (s.holeEvent l p) := by
  unfold State.holeEvent
  dsimp only
  split
  · exact SeamFrame.setMatcher _ _ _
  · split
    · exact SeamFrame.setMatcher _ _ _
    · exact SeamFrame.judgeHole _ _ _ _ _ _
  · split
    · exact SeamFrame.refl l s
    · exact SeamFrame.setMatcher _ _ _

theorem SeamFrame.matcherMoved (s : State) (l : LineId) (f : Bool) : SeamFrame l s (s.matcherMoved l f) := by
  unfold State.matcherMoved
  dsimp only
  split
  · split
    · split
      · exact SeamFrame.setMatcher _ _ _
      · exact SeamFrame.refl l s
    · exact SeamFrame.refl l s
  · exact SeamFrame.setMatcher _ _ _

/-- A capture (R22) changes its line's seam tracking and matcher, the coil table and what goes with it. -/
theorem SeamFrame.capture (s : State) (l : LineId) (i : MarkerInput) (p : Nat) (t : Time) :
    SeamFrame l s (s.capture l i p t) := by
  cases i
  · exact SeamFrame.seamInEvent _ _ _ _
  · exact SeamFrame.holeEvent _ _ _
  · exact SeamFrame.shearEvent _ _ _ _

end Sys2Proof.Machine
end

