-- ==== Sys2Proof/Laws/Sealing.lean ====
section
/-! SUPPORT. What the sealing of a station can do: it changes that station's bins, appends to the bookkeeping queue or
waits for a place in it, and changes the coil table and what goes with it. -/

namespace Sys2Proof.Machine

/-- A state with other stations and other contents of the bookkeeping queue, the wait list, the coil table and what goes
with it. -/
def State.withSeal (s : State) (sts : Vector Station 8) (bk : List Bookkeeping) (nid : Nat) (wl : List Waiter)
    (tb : CoilTable) (ns : Nat) (bl : List JournalEntry) (an : Vector (Option Anomaly) 32) (ac tf : Word)
    (d : Vector Bool 39) : State :=
  { s with
    track := { s.track with
      table := tb, nextSeq := ns, backlog := bl, anomalies := an, anomalyCount := ac, trackingFlags := tf }
    path := { s.path with stations := sts, bookkeeping := bk, nextId := nid, waitList := wl, dirty := d } }

/-- What a station holds beside its state. -/
def Station.settings (st : Station) : Station := { st with state := .off }

/-- The sealing of station i: what it can change, and what it keeps. -/
structure SealFrame (i : Fin 8) (s t : State) : Prop where
  shape : ∃ sts bk nid wl tb ns bl an ac tf d, t = s.withSeal sts bk nid wl tb ns bl an ac tf d
  keeps : Keeps s t
  own : (t.station i).settings = (s.station i).settings
  others : ∀ j, j ≠ i → t.station j = s.station j
  grows : ∃ more, t.path.bookkeeping = s.path.bookkeeping ++ more
  waits : ∃ more, t.path.waitList = s.path.waitList ++ more
  room : s.path.bookkeeping.length ≤ 64 → t.path.bookkeeping.length ≤ 64

theorem SealFrame.refl (i : Fin 8) (s : State) : SealFrame i s s :=
  ⟨⟨_, _, _, _, _, _, _, _, _, _, _, rfl⟩, Keeps.refl s, rfl, fun _ _ => rfl, ⟨[], by simp⟩, ⟨[], by simp⟩, id⟩

theorem SealFrame.trans {i : Fin 8} {s t u : State} (h : SealFrame i s t) (g : SealFrame i t u) : SealFrame i s u := by
  refine ⟨?_, h.keeps.trans g.keeps, g.own.trans h.own, fun j hj => (g.others j hj).trans (h.others j hj), ?_, ?_,
    g.room ∘ h.room⟩
  · obtain ⟨_, _, _, _, _, _, _, _, _, _, _, h1⟩ := h.shape
    obtain ⟨_, _, _, _, _, _, _, _, _, _, _, g1⟩ := g.shape
    rw [g1, h1]
    exact ⟨_, _, _, _, _, _, _, _, _, _, _, rfl⟩
  · obtain ⟨m, hm⟩ := h.grows
    obtain ⟨n, hn⟩ := g.grows
    exact ⟨m ++ n, by rw [hn, hm, List.append_assoc]⟩
  · obtain ⟨m, hm⟩ := h.waits
    obtain ⟨n, hn⟩ := g.waits
    exact ⟨m ++ n, by rw [hn, hm, List.append_assoc]⟩

theorem TableFrame.sealing {i : Fin 8} {s t : State} (h : TableFrame s t) : SealFrame i s t := by
  obtain ⟨⟨_, _, _, _, _, _, _, rfl⟩, hk⟩ := h
  exact ⟨⟨_, _, _, _, _, _, _, _, _, _, _, rfl⟩, hk, rfl, fun _ _ => rfl, ⟨[], by simp [State.withTable]⟩,
    ⟨[], by simp [State.withTable]⟩, id⟩

theorem State.station_setStation (s : State) (i j : Fin 8) (st : Station) :
    (s.setStation i st).station j = if i = j then st else s.station j := by
  unfold State.station
  rw [State.setStation_path]
  simp only [Fin.getElem_fin, Vector.getElem_set, Fin.ext_iff]

@[simp] theorem State.station_setStation_self (s : State) (i : Fin 8) (st : Station) :
    (s.setStation i st).station i = st := by
  rw [State.station_setStation, if_pos rfl]

theorem State.station_setStation_ne (s : State) {i j : Fin 8} (st : Station) (h : j ≠ i) :
    (s.setStation i st).station j = s.station j := by
  rw [State.station_setStation, if_neg (Ne.symm h)]

/-- Replacing a station by one with the same settings. -/
theorem SealFrame.setStation {i : Fin 8} (s : State) {st : Station} (h : st.settings = (s.station i).settings) :
    SealFrame i s (s.setStation i st) := by
  refine ⟨⟨(s.setStation i st).path.stations, s.path.bookkeeping, s.path.nextId, s.path.waitList, s.track.table,
    s.track.nextSeq, s.track.backlog, s.track.anomalies, s.track.anomalyCount, s.track.trackingFlags,
    (s.setStation i st).path.dirty, ?_⟩, ?_, ?_, ?_, ?_, ?_, ?_⟩
  · unfold State.setStation State.markIf State.withSeal; split <;> rfl
  · refine Keeps.of_eq (by simp) (by simp) (by simp) (by simp) (by simp) (by simp) ?_
    rw [State.setStation_path]
    exact MarksKept.ite (MarksKept.set _ _ _) (MarksKept.refl _)
  · rw [State.station_setStation_self, h]
  · intro j hj; exact State.station_setStation_ne s st hj
  · exact ⟨[], by simp⟩
  · exact ⟨[], by simp⟩
  · intro h; simpa using h

theorem SealFrame.setLive (s : State) (i : Fin 8) (d : LiveData) : SealFrame i s (s.setLive i d) :=
  SealFrame.setStation s rfl

theorem SealFrame.append (i : Fin 8) (s : State) (b : WriteBurst) (h : s.path.bookkeeping.length < 64) :
    SealFrame i s (s.append b) :=
  ⟨⟨_, _, _, _, _, _, _, _, _, _, _, rfl⟩, Keeps.of_eq rfl rfl rfl rfl rfl rfl, rfl, fun _ _ => rfl, ⟨_, rfl⟩,
    ⟨[], by simp⟩, fun _ => by simpa using h⟩

theorem SealFrame.wait (i : Fin 8) (s : State) (w : Waiter) : SealFrame i s (s.wait w) :=
  ⟨⟨_, _, _, _, _, _, _, _, _, _, _, rfl⟩, Keeps.of_eq rfl rfl rfl rfl rfl rfl, rfl, fun _ _ => rfl, ⟨[], by simp⟩,
    ⟨_, rfl⟩, fun h => h⟩

theorem TableFrame.tallyRun (s : State) (i : Fin 8) (b lo hi : Nat) : TableFrame s (s.tallyRun i b lo hi) := by
  unfold State.tallyRun
  apply foldl_frame TableFrame.refl TableFrame.trans
  intro u e
  split
  · exact TableFrame.refl u
  · exact TableFrame.tally _ _ _ _ _

theorem SealFrame.missingStep (s : State) (i : Fin 8) (n : Int) : SealFrame i s (s.missingStep i n) := by
  unfold State.missingStep
  split
  · exact SealFrame.refl i s
  · split
    · exact SealFrame.refl i s
    · exact (SealFrame.setLive _ _ _).trans ((TableFrame.tallyRun _ _ _ _ _).trans (TableFrame.settleStation _ _)).sealing

theorem TableFrame.tallyOwner (s : State) (o : Option Record) (v : Bool) : TableFrame s (s.tallyOwner o v) := by
  unfold State.tallyOwner
  split
  · exact TableFrame.refl s
  · exact TableFrame.tally _ _ _ _ _

theorem SealFrame.presentStep (s : State) (i : Fin 8) (f : Bool) (h : s.path.bookkeeping.length < 64) :
    SealFrame i s (s.presentStep i f) := by
  unfold State.presentStep
  dsimp only
  split
  · exact SealFrame.refl i s
  · split
    · exact SealFrame.refl i s
    · exact (SealFrame.append i s _ h).trans ((SealFrame.setLive _ _ _).trans
        ((TableFrame.tallyOwner _ _ _).trans (TableFrame.settleStation _ _)).sealing)

theorem SealFrame.pauseSealing (s : State) (i : Fin 8) : SealFrame i s (s.pauseSealing i) := by
  unfold State.pauseSealing
  split
  · exact SealFrame.refl i s
  · exact (SealFrame.setLive _ _ _).trans (SealFrame.wait _ _ _)

theorem State.canAppend_lt {s : State} (h : s.canAppend = true) : s.path.bookkeeping.length < 64 := by
  unfold State.canAppend at h
  simp only [Bool.and_eq_true, decide_eq_true_eq] at h
  exact h.1

theorem SealFrame.sealBins (i : Fin 8) (lim : Int) (f : Bool) (bins : List (Nat × OpenBin)) (s : State) :
    SealFrame i s (State.sealBins i lim f bins s) := by
  induction bins generalizing s with
  | nil => exact SealFrame.missingStep _ _ _
  | cons x rest ih =>
    obtain ⟨b, bin⟩ := x
    simp only [State.sealBins]
    split
    · split
      · rename_i hc
        exact (SealFrame.missingStep _ _ _).trans
          ((SealFrame.presentStep _ _ _ (State.canAppend_lt hc)).trans (ih _))
      · exact (SealFrame.missingStep _ _ _).trans (SealFrame.pauseSealing _ _)
    · exact SealFrame.missingStep _ _ _

/-- The sealing of a station (R96). -/
theorem SealFrame.seal (s : State) (i : Fin 8) : SealFrame i s (s.seal i) := by
  unfold State.seal
  split
  · exact SealFrame.refl i s
  · split
    · exact SealFrame.sealBins _ _ _ _ _
    · exact SealFrame.refl i s

/-- A paused station that is given a free place takes its step and goes on (R100, R143). -/
theorem SealFrame.resumeSealing (s : State) (i : Fin 8) (h : s.path.bookkeeping.length < 64) :
    SealFrame i s (s.resumeSealing i) := by
  unfold State.resumeSealing
  split
  · exact SealFrame.refl i s
  · refine (SealFrame.setLive s i _).trans ((SealFrame.presentStep _ _ _ ?_).trans (SealFrame.seal _ _))
    unfold State.setLive
    simpa using h

theorem SealFrame.enterLive (s : State) (i : Fin 8) : SealFrame i s (s.enterLive i) := SealFrame.setLive _ _ _

/-! ## The bins of a station -/

/-- What a LIVE station holds is in order: its open bins rise, and lie above its sealed bin (R81). -/
def LiveData.Ok (d : LiveData) : Prop := tableWf d.bins = true ∧ ∀ e ∈ d.bins, d.sealedBin < (e.1 : Int)

/-- No station changes with the coil table. -/
theorem TableFrame.station {s t : State} (h : TableFrame s t) (j : Fin 8) : t.station j = s.station j := by
  obtain ⟨⟨_, _, _, _, _, _, _, rfl⟩, -⟩ := h
  rfl

/-- A station holds live data exactly when it is LIVE. -/
theorem Station.live?_eq {st : Station} {d : LiveData} : st.live? = some d ↔ st.state = .live d := by
  unfold Station.live?
  split <;> simp_all

theorem LiveData.Ok.sealed {d : LiveData} {b : Nat} {bin : OpenBin} {rest : List (Nat × OpenBin)} (h : d.Ok)
    (hb : d.bins = (b, bin) :: rest) : (d.sealed b).Ok := by
  have hw := h.1
  rw [hb, tableWf_cons] at hw
  refine ⟨?_, fun e he => ?_⟩
  · show tableWf d.bins.tail = true
    rw [hb]; exact hw.2
  · have := hw.1 e (by simpa [LiveData.sealed, hb] using he)
    show (b : Int) < _
    omega

/-- A missing step moves the station's sealed bin up to its limit, and nothing else of the station. -/
theorem State.missingStep_station {s : State} {i : Fin 8} {d : LiveData} (n : Int) (h : (s.station i).state = .live d) :
    ((s.missingStep i n).station i).state = .live { d with sealedBin := max d.sealedBin n } := by
  unfold State.missingStep
  rw [Station.live?_eq.2 h]
  dsimp only
  split
  · rw [h, Int.max_eq_left ‹_›]
  · rw [(TableFrame.settleStation _ _).station, (TableFrame.tallyRun _ _ _ _ _).station]
    unfold State.setLive
    rw [State.station_setStation_self, Int.max_eq_right (by omega)]

/-- A present step takes the lowest open bin from the table, and the sealed bin becomes its number. -/
theorem State.presentStep_station {s : State} {i : Fin 8} {d : LiveData} {b : Nat} {bin : OpenBin}
    {rest : List (Nat × OpenBin)} (f : Bool) (h : (s.station i).state = .live d) (hb : d.bins = (b, bin) :: rest) :
    ((s.presentStep i f).station i).state = .live (d.sealed b) := by
  unfold State.presentStep
  rw [Station.live?_eq.2 h]
  dsimp only
  rw [hb]
  dsimp only
  rw [(TableFrame.settleStation _ _).station, (TableFrame.tallyOwner _ _ _).station]
  unfold State.setLive
  rw [State.station_setStation_self]

theorem State.pauseSealing_station {s : State} {i : Fin 8} {d : LiveData} (h : (s.station i).state = .live d) :
    ((s.pauseSealing i).station i).state = .live { d with paused := true } := by
  unfold State.pauseSealing
  rw [Station.live?_eq.2 h]
  dsimp only
  unfold State.setLive
  show ((State.setStation _ _ _).station i).state = _
  rw [State.station_setStation_self]

/-- The sealing of a LIVE station's bins keeps it LIVE and its bins in order, and moves the sealed bin no further than
the limit. -/
theorem State.sealBins_ok {i : Fin 8} (lim : Int) (f : Bool) (bins : List (Nat × OpenBin)) :
    ∀ {s : State} {d : LiveData}, (s.station i).state = .live d → d.bins = bins → d.Ok →
      ∃ d', ((State.sealBins i lim f bins s).station i).state = .live d' ∧ d'.Ok ∧ d'.sealedBin ≤ max d.sealedBin lim := by
  induction bins with
  | nil =>
    intro s d h hb ok
    exact ⟨_, State.missingStep_station lim h, ⟨ok.1, fun e he => by simp [hb] at he⟩, Int.le_refl _⟩
  | cons x rest ih =>
    obtain ⟨b, bin⟩ := x
    intro s d h hb ok
    have hS : d.sealedBin < (b : Int) := ok.2 (b, bin) (by rw [hb]; exact List.mem_cons_self ..)
    have above : ∀ e ∈ d.bins, (b : Int) ≤ e.1 := by
      have hw := ok.1
      rw [hb, tableWf_cons] at hw
      intro e he
      rw [hb] at he
      rcases List.mem_cons.1 he with rfl | he
      · exact Int.le_refl _
      · have := hw.1 e he; omega
    have moved : ∀ n : Int, n < b → ({ d with sealedBin := max d.sealedBin n } : LiveData).Ok := fun n hn =>
      ⟨ok.1, fun e he => by have := above e he; show max d.sealedBin n < _; omega⟩
    simp only [State.sealBins]
    split
    · have h1 := State.missingStep_station ((b : Int) - 1) h
      have ok1 := moved ((b : Int) - 1) (by omega)
      split
      · obtain ⟨d', h2, ok2, le⟩ :=
          ih (State.presentStep_station f h1 hb) (by show d.bins.tail = _; rw [hb]; rfl) (ok1.sealed hb)
        refine ⟨d', h2, ok2, ?_⟩
        have : d'.sealedBin ≤ max (b : Int) lim := le
        omega
      · refine ⟨_, State.pauseSealing_station h1, ok1, ?_⟩
        show max d.sealedBin ((b : Int) - 1) ≤ _
        omega
    · exact ⟨_, State.missingStep_station lim h, moved lim (by omega), Int.le_refl _⟩

/-- A sealing of station i reaches the bins of no other station. -/
theorem SealFrame.binsOk {i : Fin 8} {s t : State} (h : SealFrame i s t) (hs : s.BinsOk)
    (hi : ∀ d, (t.station i).state = .live d → d.Ok) : t.BinsOk := by
  intro j d hd
  by_cases hj : j = i
  · subst hj; exact hi d hd
  · rw [h.others j hj] at hd; exact hs j d hd

/-- Sealing, forced or not, keeps every station's bins in order (R81). -/
theorem State.BinsOk.sealBins {s : State} (h : s.BinsOk) {i : Fin 8} {d : LiveData} (hd : (s.station i).state = .live d)
    (lim : Int) (f : Bool) : (State.sealBins i lim f d.bins s).BinsOk := by
  refine (SealFrame.sealBins i lim f d.bins s).binsOk h fun d' hd' => ?_
  obtain ⟨d'', h1, ok, -⟩ := State.sealBins_ok lim f d.bins hd rfl (h i d hd)
  rw [h1] at hd'
  cases hd'
  exact ok

theorem State.BinsOk.seal {s : State} (h : s.BinsOk) (i : Fin 8) : (s.seal i).BinsOk := by
  unfold State.seal
  split
  · exact h
  · rename_i d hd
    split
    · exact h.sealBins (Station.live?_eq.1 hd) _ _
    · exact h

theorem State.BinsOk.setLive {s : State} (h : s.BinsOk) (i : Fin 8) {d : LiveData} (ok : d.Ok) : (s.setLive i d).BinsOk := by
  refine (SealFrame.setLive s i d).binsOk h fun d' hd' => ?_
  unfold State.setLive at hd'
  rw [State.station_setStation_self] at hd'
  cases hd'
  exact ok

theorem State.BinsOk.presentStep {s : State} (h : s.BinsOk) (i : Fin 8) (f : Bool) (hr : s.path.bookkeeping.length < 64) :
    (s.presentStep i f).BinsOk := by
  refine (SealFrame.presentStep s i f hr).binsOk h fun d' hd' => ?_
  cases hl : (s.station i).live? with
  | none =>
    unfold State.presentStep at hd'
    rw [hl] at hd'
    exact h i d' hd'
  | some d =>
    have hd := Station.live?_eq.1 hl
    cases hb : d.bins with
    | nil =>
      unfold State.presentStep at hd'
      rw [hl] at hd'
      dsimp only at hd'
      rw [hb] at hd'
      exact h i d' hd'
    | cons x rest =>
      rw [State.presentStep_station f hd hb] at hd'
      cases hd'
      exact LiveData.Ok.sealed (h i d hd) hb

theorem State.BinsOk.resumeSealing {s : State} (h : s.BinsOk) (i : Fin 8) (hr : s.path.bookkeeping.length < 64) :
    (s.resumeSealing i).BinsOk := by
  unfold State.resumeSealing
  split
  · exact h
  · rename_i d hd
    refine ((h.setLive i (d := { d with paused := false }) (h i d (Station.live?_eq.1 hd))).presentStep i false ?_).seal i
    unfold State.setLive
    simpa using hr

/-- Entering LIVE empties the open-bin table (R87). -/
theorem State.BinsOk.enterLive {s : State} (h : s.BinsOk) (i : Fin 8) : (s.enterLive i).BinsOk :=
  h.setLive i ⟨rfl, nofun⟩

/-- A word recorded in a bin above the sealed bin keeps the bins in order (R94). -/
theorem State.BinsOk.record {s : State} (h : s.BinsOk) {i : Fin 8} {b : Nat} (c : Nat) (v : Word)
    (hb : ∀ d, (s.station i).state = .live d → d.sealedBin < (b : Int)) : (s.record i b c v).BinsOk := by
  unfold State.record
  split
  · exact h
  · rename_i d hd
    have hd := Station.live?_eq.1 hd
    refine h.setLive i ⟨tableWf_tableSet (h i d hd).1, fun e he => ?_⟩
    rcases mem_tableSet he with rfl | he
    · exact hb d hd
    · exact (h i d hd).2 e he

/-- Sealing a station keeps every definition as it is (R96). -/
theorem SealFrame.defn {i : Fin 8} {s t : State} (h : SealFrame i s t) (j : Fin 8) :
    (t.station j).defn = (s.station j).defn := by
  by_cases hj : j = i
  · rw [hj]
    exact (congrArg Station.defn h.own : (t.station i).settings.defn = (s.station i).settings.defn)
  · rw [h.others j hj]

end Sys2Proof.Machine
end

