-- ==== Sys2Proof/Laws/Directives.lean ====
section
/-! SUPPORT. How a directive is taken and how its result is placed: one lemma for all directives. -/

namespace Sys2Proof.Machine

theorem State.slot_setSlot (s : State) (k j : Fin 16) (sl : Slot) :
    (s.setSlot k sl).slot j = if k = j then sl else s.slot j := by
  unfold State.slot
  rw [State.setSlot_path]
  simp only [Fin.getElem_fin, Vector.getElem_set, Fin.ext_iff]

/-- A FREE unit with a slot at the head of its FIFO takes that slot's directive (R156, R157). -/
theorem State.directive_takes {s : State} {k : Fin 16} {code : BitVec 8} (f : (Nat → Word) → State → DirOutcome)
    (h : s.Takes k code) :
    s.directive code f = (s.beginDirective k).finish k (f (s.slot k).word (s.beginDirective k)) := by
  obtain ⟨-, h1, h2, h3, h4⟩ := h
  unfold State.directive State.headSlot
  rw [if_pos ⟨h1, h2⟩, h3]
  simp only [h4, if_true]

/-- What the unit's offers change of the path well. -/
def unitPath (p q : PathWell) : PathWell :=
  { p with
    slots := q.slots, bookkeeping := q.bookkeeping, nextId := q.nextId, waitList := q.waitList
    directiveUnit := q.directiveUnit, dirty := q.dirty, pathFlags := q.pathFlags }

/-- What the unit's offers do with the bursts they are given: all are placed and the directive completes, or one waits. -/
structure Offered (k : Fin 16) (bs : List WriteBurst) (u t : State) : Prop where
  part : t = { u with path := t.path }
  path : t.path = unitPath u.path t.path
  marks : MarksKept u.path.dirty t.path.dirty
  others : ∀ j, j ≠ k → t.slot j = u.slot j
  result :
    ((bs ≠ [] → u.path.waitList = [] ∧ u.path.bookkeeping.length + bs.length ≤ 64) ∧
      t.path.bookkeeping.map (·.burst) = u.path.bookkeeping.map (·.burst) ++ bs ∧
      t.path.waitList = u.path.waitList ∧ t.slot k = { u.slot k with state := .idle } ∧
      t.path.pathFlags = u.path.pathFlags ||| 0x100 ∧ t.path.directiveUnit = .free) ∨
    ((∃ placed b rest, bs = placed ++ b :: rest ∧
      t.path.bookkeeping.map (·.burst) = u.path.bookkeeping.map (·.burst) ++ placed ∧
      t.path.waitList = u.path.waitList ++ [.directive b] ∧ t.path.directiveUnit = .answering k rest ∧
      (u.path.waitList ≠ [] ∧ placed = [] ∨ 64 ≤ u.path.bookkeeping.length + placed.length)) ∧
      t.slot k = u.slot k ∧ t.path.pathFlags = u.path.pathFlags)
  room : u.path.bookkeeping.length ≤ 64 → t.path.bookkeeping.length ≤ 64

theorem Offered.complete (k : Fin 16) (u : State) : Offered k [] u (u.completeDirective k) := by
  have hp : (u.completeDirective k).path =
      { u.path with
        slots := u.path.slots.set k.val { u.slot k with state := .idle } k.isLt
        pathFlags := u.path.pathFlags ||| 0x100
        directiveUnit := .free
        dirty := (u.completeDirective k).path.dirty } := by
    unfold State.completeDirective
    simp only [State.setUnit_path, State.raisePath_path, State.mark_path, State.setSlot_path]
    rfl
  have hslot : ∀ j, (u.completeDirective k).slot j = if k = j then { u.slot k with state := .idle } else u.slot j := by
    intro j
    rw [← State.slot_setSlot]
    unfold State.slot
    rw [hp, State.setSlot_path]
    rfl
  refine ⟨?_, ?_, ?_, ?_, .inl ⟨fun h => absurd rfl h, ?_, ?_, ?_, ?_, ?_⟩, ?_⟩
  · unfold State.completeDirective State.raisePath; split <;> rfl
  · rw [hp]; rfl
  · unfold State.completeDirective
    simp only [State.setUnit_path, State.raisePath_path, State.mark_path, State.setSlot_path]
    exact (MarksKept.set _ _ _).trans (MarksKept.ite (MarksKept.set _ _ _) (MarksKept.refl _))
  · intro j hj; rw [hslot, if_neg (Ne.symm hj)]
  · rw [hp]; simp
  · rw [hp]
  · rw [hslot, if_pos rfl]
  · rw [hp]
  · rw [hp]
  · intro h; rw [hp]; exact h

/-- The unit's offers (R143, R158). -/
theorem Offered.offerAnswer (k : Fin 16) (bs : List WriteBurst) (u : State) :
    Offered k bs u (State.offerAnswer k bs u) := by
  induction bs generalizing u with
  | nil => exact Offered.complete k u
  | cons b rest ih =>
    simp only [State.offerAnswer]
    split
    · rename_i hc
      have hlt := State.canAppend_lt hc
      have hw : u.path.waitList = [] := by
        unfold State.canAppend at hc
        simp only [Bool.and_eq_true, List.isEmpty_iff] at hc
        exact hc.2
      have h := ih (u.append b)
      refine ⟨?_, ?_, h.marks, h.others, ?_, ?_⟩
      · have := h.part
        rw [this]; rfl
      · have := h.path
        rw [this]; rfl
      · rcases h.result with ⟨h1, h2, h3, h4, h5, h6⟩ | ⟨⟨placed, x, more, h1, h2, h3, h4, h5⟩, h6, h7⟩
        · refine .inl ⟨fun _ => ⟨hw, ?_⟩, ?_, h3, h4, h5, h6⟩
          · by_cases hr : rest = []
            · subst hr; simp only [List.length_cons, List.length_nil]; omega
            · have := (h1 hr).2
              simp only [State.append_path, List.length_append, List.length_cons, List.length_nil] at this ⊢
              omega
          · rw [h2]; simp
        · refine .inr ⟨⟨b :: placed, x, more, ?_, ?_, h3, h4, ?_⟩, h6, h7⟩
          · rw [h1]; rfl
          · rw [h2]; simp
          · refine .inr ?_
            rcases h5 with ⟨h8, -⟩ | h8
            · exact absurd hw h8
            · simp only [State.append_path, List.length_append, List.length_cons, List.length_nil] at h8 ⊢
              omega
      · intro _
        refine h.room ?_
        simpa using hlt
    · rename_i hc
      refine ⟨rfl, rfl, MarksKept.refl _, fun _ _ => rfl, .inr ⟨⟨[], b, rest, rfl, ?_, rfl, rfl, ?_⟩, rfl, rfl⟩, id⟩
      · simp
      · unfold State.canAppend at hc
        simp only [Bool.and_eq_true, decide_eq_true_eq, List.isEmpty_iff, not_and_or] at hc
        rcases hc with hc | hc
        · exact .inr (Nat.not_lt.1 hc)
        · exact .inl ⟨hc, rfl⟩

/-- A result always has its last burst. -/
theorem resultBursts_ne_nil (base : Nat) (k : Fin 16) (a : List Word) (w : Word) : resultBursts base k a w ≠ [] := by
  unfold resultBursts; simp

/-- The result of a directive whose effect has been made on the state `e`, up to dirty marks, is placed (R158, R159). -/
theorem State.answerWith_completes (e : State) (k : Fin 16) (r : Option Reason) (a : List Word) (d : Vector Bool 39)
    (hd : MarksKept e.path.dirty d) :
    e.Completes (State.answerWith { e with path.dirty := d } k r a) k r a := by
  have h := Offered.offerAnswer k (resultBursts e.base k a (statusWord (e.slot k).tag r a.length))
    { e with path.dirty := d }
  have heq : State.answerWith { e with path.dirty := d } k r a =
      State.offerAnswer k (resultBursts e.base k a (statusWord (e.slot k).tag r a.length)) { e with path.dirty := d } :=
    rfl
  rw [heq]
  refine ⟨?_, ?_, hd.trans h.marks, h.others, ?_⟩
  · rw [h.part]
  · have := h.path
    rw [this]; rfl
  · rcases h.result with ⟨h1, h2, h3, h4, h5, h6⟩ | ⟨h1, h2, h3⟩
    · exact .inl ⟨h1 (resultBursts_ne_nil _ _ _ _), h2, h3, h4, h5, h6⟩
    · exact .inr ⟨h1, h2, h3⟩

/-! ## The 24 rows that take a directive -/

/-- Each row that stands for a directive takes it, while the part is powered. -/
theorem exec_directive {i : Instr} {code : BitVec 8} {f : (Nat → Word) → State → DirOutcome}
    (h : directiveOf i = some (code, f)) {s : State} (hp : s.powered = true) : exec i s = .next (s.directive code f) := by
  cases i <;> simp only [directiveOf, reduceCtorEq, Option.some.injEq, Prod.mk.injEq] at h <;>
    obtain ⟨rfl, rfl⟩ := h <;> exact congrArg Host.Outcome.next (if_pos hp)

/-- A directive that is taken and refused changes nothing but the slot and the result (R157). -/
theorem runs_refused {i : Instr} {code : BitVec 8} {f : (Nat → Word) → State → DirOutcome}
    (h : directiveOf i = some (code, f)) {s : State} {k : Fin 16} (ht : s.Takes k code) {r : Reason} {a : List Word}
    (hf : f (s.param k) (s.beginDirective k) = .refused r a) : Runs i s (s.beginDirective k) k (some r) a := by
  refine ⟨_, exec_directive h ht.1, ?_⟩
  rw [State.directive_takes f ht]
  show State.Completes _ (State.finish _ _ (f (s.param k) _)) _ _ _
  rw [hf]
  exact State.answerWith_completes _ _ _ _ _ (MarksKept.refl (s.beginDirective k).path.dirty)

/-- A directive that is taken and done has its effect, up to dirty marks, and its answer is placed (R157, R158). -/
theorem runs_done {i : Instr} {code : BitVec 8} {f : (Nat → Word) → State → DirOutcome}
    (h : directiveOf i = some (code, f)) {s : State} {k : Fin 16} (ht : s.Takes k code) {e : State} {a : List Word}
    {d : Vector Bool 39} (hm : MarksKept e.path.dirty d)
    (hf : f (s.param k) (s.beginDirective k) = .done { e with path.dirty := d } a) : Runs i s e k none a := by
  refine ⟨_, exec_directive h ht.1, ?_⟩
  rw [State.directive_takes f ht]
  show State.Completes _ (State.finish _ _ (f (s.param k) _)) _ _ _
  rw [hf]
  exact State.answerWith_completes _ _ _ _ _ hm

end Sys2Proof.Machine
end

