-- ==== Sys2Proof/Laws/Takes.lean ====
section
/-! SUPPORT. What a take can do, said once: what a directive's effect leaves, what its result leaves, that each take
removes the head of the FIFO, and that the takes that are due leave none (R156). -/

namespace Sys2Proof.Machine

/-! ## Frames -/

/-- A tracking well with nothing in it; it stands for one that may have changed. -/
def Tracking.blank : Tracking :=
  { Tracking.cold Levels.quiet with
    table := { places := [], nextSerial := 0, idMap := [] }, nextSeq := 0, backlog := []
    anomalies := .replicate 32 none, anomalyCount := 0, trackingFlags := 0 }

/-- A state with everything that the effect of a directive can change taken out. -/
def State.effectCore (s : State) : State :=
  { s with
    track := .blank, freeCount := 0
    path := { s.path with
      stations := .replicate 8 .reset, prepQueue := [], cursors := .replicate 8 .closed, waitList := []
      journal := none, dirty := .replicate 39 false, period := 0, periodCount := 0, pathFlags := 0, alertMask := 0 } }

/-- A state with everything that a take can change taken out: what its effect and its result can change. -/
def State.takeCore (s : State) : State :=
  { s.effectCore with
    path := { s.effectCore.path with
      slots := .replicate 16 .reset, fifo := [], directiveUnit := .free, bookkeeping := [], nextId := 0 } }

/-- The effect of a directive: what it can change, and what it keeps. -/
structure EffectFrame (s t : State) : Prop where
  core : t.effectCore = s.effectCore
  keeps : Keeps s t

theorem EffectFrame.refl (s : State) : EffectFrame s s := ⟨rfl, Keeps.refl s⟩

theorem EffectFrame.trans {s t u : State} (h : EffectFrame s t) (g : EffectFrame t u) : EffectFrame s u :=
  ⟨g.core.trans h.core, h.keeps.trans g.keeps⟩

theorem TableFrame.effect {s t : State} (h : TableFrame s t) : EffectFrame s t := by
  refine ⟨?_, h.2⟩
  obtain ⟨⟨_, _, _, _, _, _, _, rfl⟩, -⟩ := h
  rfl

theorem SeamFrame.effect {l : LineId} {s t : State} (h : SeamFrame l s t) : EffectFrame s t := by
  refine ⟨?_, h.2.1⟩
  obtain ⟨⟨_, _, _, _, _, _, _, _, rfl⟩, -⟩ := h
  rfl

/-- Takes: what they can change, and what they keep. -/
structure TakeFrame (s t : State) : Prop where
  core : t.takeCore = s.takeCore
  keeps : Keeps s t
  room : s.path.bookkeeping.length ≤ 64 → t.path.bookkeeping.length ≤ 64

theorem TakeFrame.refl (s : State) : TakeFrame s s := ⟨rfl, Keeps.refl s, id⟩

theorem TakeFrame.trans {s t u : State} (h : TakeFrame s t) (g : TakeFrame t u) : TakeFrame s u :=
  ⟨g.core.trans h.core, h.keeps.trans g.keeps, g.room ∘ h.room⟩

/-- What the takes leave as it was: the supplies, the path state, and everything the P-side port looks at. -/
theorem TakeFrame.port {s t : State} (h : TakeFrame s t) :
    t.powered = s.powered ∧ t.path.state = s.path.state ∧ t.path.port = s.path.port ∧
      t.path.requests = s.path.requests ∧ t.path.areaSel = s.path.areaSel ∧ t.presented = s.presented := by
  have of (α : Type) (f : State → α) (hf : ∀ x, f x.takeCore = f x) : f t = f s := by
    rw [← hf t, h.core, hf s]
  exact ⟨of _ (·.powered) fun _ => rfl, of _ (·.path.state) fun _ => rfl, of _ (·.path.port) fun _ => rfl,
    of _ (·.path.requests) fun _ => rfl, of _ (·.path.areaSel) fun _ => rfl, of _ (·.presented) fun _ => rfl⟩

/-! ## What the updates a directive makes change -/

theorem EffectFrame.mark (s : State) (g : Fin 39) : EffectFrame s (s.mark g) := (TableFrame.mark s g).effect

theorem EffectFrame.setLine (s : State) (l : LineId) (ln : Line) : EffectFrame s (s.setLine l ln) := by
  refine ⟨?_, Keeps.of_eq (by simp) (by simp) (by simp) (by simp) (by simp) (by simp) ?_⟩
  · unfold State.setLine State.markIf; split <;> rfl
  · rw [State.setLine_path]
    exact MarksKept.ite (MarksKept.set _ _ _) (MarksKept.refl _)

theorem EffectFrame.setStation (s : State) (i : Fin 8) (st : Station) : EffectFrame s (s.setStation i st) := by
  refine ⟨?_, Keeps.of_eq (by simp) (by simp) (by simp) (by simp) (by simp) (by simp) ?_⟩
  · unfold State.setStation State.markIf; split <;> rfl
  · rw [State.setStation_path]
    exact MarksKept.ite (MarksKept.set _ _ _) (MarksKept.refl _)

theorem EffectFrame.setCursor (s : State) (k : Fin 8) (c : Cursor) : EffectFrame s (s.setCursor k c) := by
  refine ⟨?_, Keeps.of_eq (by simp) (by simp) (by simp) (by simp) (by simp) (by simp) ?_⟩
  · unfold State.setCursor State.markIf; split <;> rfl
  · rw [State.setCursor_path]
    exact MarksKept.ite (MarksKept.set _ _ _) (MarksKept.refl _)

theorem EffectFrame.setJournal (s : State) (j : Option JournalSetting) : EffectFrame s (s.setJournal j) := by
  refine ⟨?_, Keeps.of_eq (by simp) (by simp) (by simp) (by simp) (by simp) (by simp) ?_⟩
  · unfold State.setJournal State.markIf; split <;> rfl
  · rw [State.setJournal_path]
    exact MarksKept.ite (MarksKept.set _ _ _) (MarksKept.refl _)

theorem EffectFrame.setQueue (s : State) (l : LineId) (k : Kind) (q : List Word) : EffectFrame s (s.setQueue l k q) :=
  (SeamFrame.setQueue s l k q).effect

theorem EffectFrame.beginPreparation (s : State) (i : Fin 8) : EffectFrame s (s.beginPreparation i) :=
  EffectFrame.trans (t := { s with path.prepQueue := s.path.prepQueue ++ [i] })
    ⟨rfl, Keeps.of_eq rfl rfl rfl rfl rfl rfl⟩ (EffectFrame.setStation _ _ _)

theorem EffectFrame.enterLive (s : State) (i : Fin 8) : EffectFrame s (s.enterLive i) := EffectFrame.setStation _ _ _

theorem EffectFrame.stopPreparing (s : State) (i : Fin 8) : EffectFrame s (s.stopPreparing i) :=
  EffectFrame.trans (t := { s with path.prepQueue := s.path.prepQueue.filter fun j => j != i })
    ⟨rfl, Keeps.of_eq rfl rfl rfl rfl rfl rfl⟩ ((EffectFrame.setStation _ _ _).trans (EffectFrame.mark _ _))

theorem EffectFrame.stopLive (s : State) (i : Fin 8) : EffectFrame s (s.stopLive i) := by
  have h : EffectFrame s { s with path.waitList := s.path.waitList.filter fun w => w != Waiter.sealing i } :=
    ⟨rfl, Keeps.of_eq rfl rfl rfl rfl rfl rfl⟩
  exact ((h.trans (EffectFrame.setStation _ i _)).trans (EffectFrame.mark _ (stationGroup i))).trans
    (TableFrame.settleStation _ i).effect

theorem EffectFrame.setPeriod (s : State) (p : Nat) : EffectFrame s (s.setPeriod p) :=
  EffectFrame.trans (t := { s with path.period := p, path.periodCount := 0 })
    ⟨rfl, Keeps.of_eq rfl rfl rfl rfl rfl rfl⟩ (EffectFrame.mark _ _)

theorem EffectFrame.loadClock (s : State) (t : Time) : EffectFrame s (s.loadClock t) :=
  EffectFrame.trans (t := { s with track.clock := t }) ⟨rfl, Keeps.of_eq rfl rfl rfl rfl rfl rfl⟩ (EffectFrame.mark _ _)

theorem EffectFrame.drawn (s : State) : EffectFrame s s.drawn := ⟨rfl, Keeps.of_eq rfl rfl rfl rfl rfl rfl⟩

theorem EffectFrame.setMasks (s : State) {a f : Word} (ha : a &&& ~~~flagBits = 0) (hf : f &&& ~~~trackingBits = 0) :
    EffectFrame s (s.setMasks a f) :=
  EffectFrame.trans (t := { s with path.alertMask := a, track.trackFaultMask := f })
    ⟨rfl, id, fun h => ⟨h.1, h.2.1, ha, hf⟩, id, MarksKept.refl _⟩ (EffectFrame.mark _ _)

theorem EffectFrame.clearFlags (s : State) (set : Word) : EffectFrame s (s.clearFlags set) :=
  ⟨rfl, id, fun h => ⟨and_and_not h.1, and_and_not h.2.1, h.2.2.1, h.2.2.2⟩, id, MarksKept.refl _⟩

theorem EffectFrame.rejudge (s : State) (set : Word) : EffectFrame s (s.rejudge set) := by
  unfold State.rejudge
  have h : EffectFrame s (if set &&& TrackFlag.announceEmpty.bit ≠ 0 then s.judgeAnnounce else s) := by
    split
    · exact (TableFrame.judgeAnnounce s).effect
    · exact EffectFrame.refl s
  refine h.trans ?_
  generalize (if set &&& TrackFlag.announceEmpty.bit ≠ 0 then s.judgeAnnounce else s) = v
  show EffectFrame v (if _ then v.judgeBacklog else v)
  split
  · exact (TableFrame.judgeBacklog v).effect
  · exact EffectFrame.refl v

/-! ## The effect of each directive -/

/-- The effect of a directive stays within its frame (R157). -/
theorem EffectFrame.of_done {i : Instr} {code : BitVec 8} {f : (Nat → Word) → State → DirOutcome}
    (h : directiveOf i = some (code, f)) {w : Nat → Word} {s u : State} {a : List Word} (hf : f w s = .done u a) :
    EffectFrame s u := by
  cases i <;> simp only [directiveOf, reduceCtorEq, Option.some.injEq, Prod.mk.injEq] at h <;> obtain ⟨-, rfl⟩ := h
  case defineLine =>
    unfold defineLine at hf
    dsimp only at hf
    repeat' split at hf
    all_goals cases hf
    exact (EffectFrame.setLine _ _ _).trans (EffectFrame.mark _ _)
  case defineHolePatterns =>
    unfold defineHolePatterns at hf
    repeat' split at hf
    all_goals cases hf
    exact (EffectFrame.setLine _ _ _).trans (EffectFrame.mark _ _)
  case startTracking =>
    unfold startTracking at hf
    repeat' split at hf
    all_goals cases hf
    exact ((EffectFrame.setLine _ _ _).trans (EffectFrame.mark _ _)).trans (TableFrame.judgeAnnounce _).effect
  case stopTracking =>
    unfold stopTracking at hf
    repeat' split at hf
    all_goals cases hf
    exact ((EffectFrame.setLine _ _ _).trans (EffectFrame.mark _ _)).trans (TableFrame.judgeAnnounce _).effect
  case clearLine =>
    unfold clearLine at hf
    dsimp only at hf
    repeat' split at hf
    all_goals cases hf
    exact ((foldl_frame EffectFrame.refl EffectFrame.trans _ (fun s n => (TableFrame.forceSettle s n).effect) _ s).trans
      (EffectFrame.setLine _ _ _)).trans (TableFrame.judgeAnnounce _).effect
  case setClock =>
    unfold setClock at hf
    split at hf <;> cases hf
    exact EffectFrame.loadClock _ _
  case announceEntry =>
    unfold announce at hf
    dsimp only at hf
    repeat' split at hf
    all_goals cases hf
    exact EffectFrame.setQueue _ _ _ _
  case announceExit =>
    unfold announce at hf
    dsimp only at hf
    repeat' split at hf
    all_goals cases hf
    exact EffectFrame.setQueue _ _ _ _
  case withdraw =>
    unfold withdraw at hf
    dsimp only at hf
    repeat' split at hf
    all_goals cases hf
    all_goals exact EffectFrame.setQueue _ _ _ _
  case injectMarker =>
    unfold injectMarker injected at hf
    dsimp only at hf
    repeat' split at hf
    all_goals cases hf
    · exact (SeamFrame.acceptSeamIn _ _ _ _).effect
    · exact (SeamFrame.acceptExitSeam _ _ _).effect
    · exact (SeamFrame.acceptShear _ _ _ _).effect
  case nameRecord =>
    unfold nameRecord at hf
    dsimp only at hf
    repeat' split at hf
    all_goals cases hf
    · exact ((TableFrame.modify _ _ _).trans (TableFrame.sourceLookup _ _)).effect
    all_goals
      first
      | exact ((TableFrame.modify _ _ _).trans (TableFrame.mapWrite _ _ _)).effect
      | exact (TableFrame.modify _ _ _).effect
  case readRecord =>
    unfold readRecord at hf
    repeat' split at hf
    all_goals cases hf
    exact EffectFrame.refl _
  case trace =>
    unfold trace at hf
    dsimp only at hf
    repeat' split at hf
    all_goals cases hf
    exact EffectFrame.drawn _
  case defineStation =>
    unfold defineStation at hf
    dsimp only at hf
    repeat' split at hf
    all_goals cases hf
    all_goals exact (EffectFrame.setStation _ _ _).trans (EffectFrame.mark _ _)
  case defineVerdict =>
    unfold defineVerdict at hf
    dsimp only at hf
    repeat' split at hf
    all_goals cases hf
    exact EffectFrame.setStation _ _ _
  case activateStation =>
    unfold activateStation at hf
    dsimp only at hf
    repeat' split at hf
    all_goals cases hf
    · exact (EffectFrame.setStation _ _ _).trans (EffectFrame.beginPreparation _ _)
    · exact (EffectFrame.setStation _ _ _).trans (EffectFrame.enterLive _ _)
  case deactivateStation =>
    unfold deactivateStation at hf
    repeat' split at hf
    all_goals cases hf
    · exact EffectFrame.stopPreparing _ _
    · exact EffectFrame.stopLive _ _
  case openCursor =>
    unfold openCursor at hf
    dsimp only at hf
    repeat' split at hf
    all_goals cases hf
    all_goals exact EffectFrame.setCursor _ _ _
  case refreshCursor =>
    unfold refreshCursor at hf
    repeat' split at hf
    all_goals cases hf
    all_goals exact (EffectFrame.setCursor _ _ _).trans (EffectFrame.mark _ _)
  case closeCursor =>
    unfold closeCursor at hf
    split at hf <;> cases hf
    exact EffectFrame.setCursor _ _ _
  case setJournal =>
    unfold Sys2Proof.Machine.setJournal at hf
    dsimp only at hf
    repeat' split at hf
    all_goals cases hf
    all_goals exact EffectFrame.setJournal _ _
  case acknowledgeEvents =>
    unfold acknowledgeEvents at hf
    split at hf <;> cases hf
    exact ((EffectFrame.clearFlags _ _).trans (EffectFrame.rejudge _ _)).trans (EffectFrame.mark _ _)
  case setRouting =>
    unfold setRouting at hf
    split at hf
    · cases hf
    · rename_i h
      cases hf
      simp only [not_or, not_not] at h
      exact EffectFrame.setMasks _ h.1 h.2
  case setMirrorPeriod =>
    unfold setMirrorPeriod at hf
    split at hf <;> cases hf
    exact EffectFrame.setPeriod _ _

/-! ## A take -/

/-- The slot becomes RUNNING and leaves the FIFO (R156). -/
theorem TakeFrame.begin (s : State) (k : Fin 16) : TakeFrame s (s.beginDirective k) :=
  ⟨rfl, Keeps.of_eq rfl rfl rfl rfl rfl rfl (MarksKept.set _ 0 (by decide)), id⟩

theorem EffectFrame.take {s t : State} (h : EffectFrame s t) : TakeFrame s t := by
  have hb : t.path.bookkeeping = s.path.bookkeeping := by
    show t.effectCore.path.bookkeeping = s.effectCore.path.bookkeeping
    rw [h.core]
  refine ⟨?_, h.keeps, fun hr => by rw [hb]; exact hr⟩
  unfold State.takeCore
  rw [h.core]

/-- The result of a directive (R158). -/
theorem TakeFrame.answerWith (s : State) (k : Fin 16) (r : Option Reason) (a : List Word) :
    TakeFrame s (s.answerWith k r a) := by
  have h := Offered.offerAnswer k (resultBursts s.base k a (statusWord (s.slot k).tag r a.length)) s
  have ht : s.answerWith k r a =
      { s with path := unitPath s.path (s.answerWith k r a).path } := by
    have h1 := h.part
    have h2 := h.path
    exact h1.trans (congrArg (fun p => { s with path := p }) h2)
  have hf : (s.answerWith k r a).path.pathFlags = s.path.pathFlags ||| 0x100 ∨
      (s.answerWith k r a).path.pathFlags = s.path.pathFlags := by
    rcases h.result with ⟨_, _, _, _, h5, _⟩ | ⟨_, _, h5⟩
    · exact .inl h5
    · exact .inr h5
  refine ⟨by rw [ht]; rfl, ⟨?_, ?_, ?_, h.marks⟩, h.room⟩
  · rw [ht]; exact id
  · intro hs
    refine ⟨?_, ?_, ?_, ?_⟩
    · rw [ht]; exact hs.1
    · rcases hf with hf | hf <;> rw [hf]
      · exact or_and_not hs.2.1 (by decide)
      · exact hs.2.1
    · rw [ht]; exact hs.2.2.1
    · rw [ht]; exact hs.2.2.2
  · rw [ht]; exact id

/-- A result leaves the FIFO as it is. -/
theorem State.answerWith_fifo (s : State) (k : Fin 16) (r : Option Reason) (a : List Word) :
    (s.answerWith k r a).path.fifo = s.path.fifo := by
  have h : (s.answerWith k r a).path = unitPath s.path (s.answerWith k r a).path :=
    (Offered.offerAnswer k (resultBursts s.base k a (statusWord (s.slot k).tag r a.length)) s).path
  rw [h]; rfl

/-- The result of a directive whose effect keeps its frame. -/
theorem TakeFrame.finish {s : State} {k : Fin 16} {o : DirOutcome} (h : ∀ u a, o = .done u a → EffectFrame s u) :
    TakeFrame s (s.finish k o) ∧ (s.finish k o).path.fifo = s.path.fifo := by
  cases o with
  | refused r a => exact ⟨TakeFrame.answerWith _ _ _ _, State.answerWith_fifo _ _ _ _⟩
  | done u a =>
    have hu := h u a rfl
    refine ⟨hu.take.trans (TakeFrame.answerWith _ _ _ _), (State.answerWith_fifo u k none a).trans ?_⟩
    show u.effectCore.path.fifo = s.effectCore.path.fifo
    rw [hu.core]

/-- The slot that can be taken (R156). -/
theorem State.headSlot_some {s : State} {k : Fin 16} : s.headSlot = some k ↔
    s.path.directiveUnit = .free ∧ (s.path.state = .opened ∨ s.path.state = .draining) ∧ s.path.fifo.head? = some k := by
  unfold State.headSlot
  split
  · rename_i h; exact ⟨fun g => ⟨h.1, h.2, g⟩, fun g => g.2.2⟩
  · rename_i h
    refine ⟨fun g => ?_, fun g => absurd ⟨g.1, g.2.1⟩ h⟩
    cases g

/-- No take is due exactly when the unit has no slot to take (R156). -/
theorem State.headSlot_none {s : State} : s.headSlot = none ↔ s.NothingToTake := by
  unfold State.headSlot State.NothingToTake
  split
  · rename_i h
    rw [List.head?_eq_none_iff]
    refine ⟨fun g _ hn => absurd g hn, fun g => ?_⟩
    by_contra hn
    have := g h.1 hn
    rcases h.2 with h2 | h2
    · exact this.1 h2
    · exact this.2 h2
  · rename_i h
    refine ⟨fun _ hu _ => ?_, fun _ => rfl⟩
    simp only [not_and, not_or] at h
    exact h hu

/-- A slot that is taken is the head's, with its code (R156). -/
theorem State.Takes.head {s : State} {k : Fin 16} {code : BitVec 8} (h : s.Takes k code) : s.headSlot = some k :=
  State.headSlot_some.2 ⟨h.2.1, h.2.2.1, h.2.2.2.1⟩

/-- What a row of chapter 9 that takes the directive of slot k does (R156 to R158). -/
theorem TakeFrame.directive {i : Instr} {code : BitVec 8} {f : (Nat → Word) → State → DirOutcome}
    (h : directiveOf i = some (code, f)) {s : State} {k : Fin 16} (hk : s.headSlot = some k) (hc : (s.slot k).code = code) :
    TakeFrame s (s.directive code f) ∧ (s.directive code f).path.fifo = s.path.fifo.tail := by
  unfold State.directive
  rw [hk]
  simp only [hc, if_true]
  have g := TakeFrame.finish (s := s.beginDirective k) (k := k) (o := f (s.slot k).word (s.beginDirective k))
    fun u a hu => EffectFrame.of_done h hu
  exact ⟨(TakeFrame.begin s k).trans g.1, g.2⟩

theorem TakeFrame.takeDescend {s : State} {k : Fin 16} (hk : s.headSlot = some k) (hc : (s.slot k).code = 0x23) :
    TakeFrame s s.takeDescend ∧ s.takeDescend.path.fifo = s.path.fifo.tail := by
  unfold State.takeDescend
  rw [hk]
  simp only [hc, if_true]
  unfold State.beginDescend
  split
  · have g := TakeFrame.finish (s := s.beginDirective k) (k := k) (o := .refused .notFound [])
      (fun u a hu => by cases hu)
    exact ⟨(TakeFrame.begin s k).trans g.1, g.2⟩
  · exact ⟨(TakeFrame.begin s k).trans ⟨rfl, Keeps.of_eq rfl rfl rfl rfl rfl rfl, id⟩, rfl⟩

theorem TakeFrame.unknownCode {s : State} {k : Fin 16} (hk : s.headSlot = some k)
    (hc : (s.slot k).code ∉ directiveCodes) : TakeFrame s s.unknownCode ∧ s.unknownCode.path.fifo = s.path.fifo.tail := by
  unfold State.unknownCode
  rw [hk]
  simp only [List.contains_iff_mem, hc, if_false]
  have g := TakeFrame.finish (s := s.beginDirective k) (k := k) (o := .refused .unknownCode []) (fun u a hu => by cases hu)
  exact ⟨(TakeFrame.begin s k).trans g.1, g.2⟩

/-! ## The take of a code is its row's -/

/-- The row that takes a code makes the take of that code (9.7 of 09, R157). -/
theorem exec_takesCode {i : Instr} {code : BitVec 8} (h : takesCode i code) {s : State} (hp : s.powered = true) :
    exec i s = .next (s.takeCode code.toNat) := by
  rcases h with h | ⟨rfl, rfl⟩ | ⟨rfl, h⟩
  · cases i <;> simp only [directiveOf, Option.map_none, Option.map_some, reduceCtorEq, Option.some.injEq] at h <;>
      subst h <;> exact congrArg Host.Outcome.next (if_pos hp)
  · exact congrArg Host.Outcome.next (if_pos hp)
  · have : s.takeCode code.toNat = s.unknownCode := by
      unfold State.takeCode
      split
      case h_26 => rfl
      all_goals
        rename_i hx
        have hc : code = BitVec.ofNat 8 code.toNat := by simp
        rw [hx] at hc
        subst hc
        exact absurd (by decide) h
    rw [this]
    exact congrArg Host.Outcome.next (if_pos hp)

/-- Every code has a row that takes it. -/
theorem exists_takesCode (code : BitVec 8) : ∃ i, takesCode i code := by
  by_cases h : code ∈ directiveCodes
  · unfold directiveCodes at h
    simp only [List.mem_cons, List.not_mem_nil, or_false] at h
    rcases h with rfl | rfl | rfl | rfl | rfl | rfl | rfl | rfl | rfl | rfl | rfl | rfl | rfl | rfl | rfl | rfl | rfl |
      rfl | rfl | rfl | rfl | rfl | rfl | rfl | rfl
    · exact ⟨.defineLine, .inl rfl⟩
    · exact ⟨.defineHolePatterns, .inl rfl⟩
    · exact ⟨.startTracking, .inl rfl⟩
    · exact ⟨.stopTracking, .inl rfl⟩
    · exact ⟨.clearLine, .inl rfl⟩
    · exact ⟨.setClock, .inl rfl⟩
    · exact ⟨.announceEntry, .inl rfl⟩
    · exact ⟨.announceExit, .inl rfl⟩
    · exact ⟨.withdraw, .inl rfl⟩
    · exact ⟨.injectMarker, .inl rfl⟩
    · exact ⟨.nameRecord, .inl rfl⟩
    · exact ⟨.readRecord, .inl rfl⟩
    · exact ⟨.trace, .inl rfl⟩
    · exact ⟨.descend, .inr (.inl ⟨rfl, rfl⟩)⟩
    · exact ⟨.defineStation, .inl rfl⟩
    · exact ⟨.defineVerdict, .inl rfl⟩
    · exact ⟨.activateStation, .inl rfl⟩
    · exact ⟨.deactivateStation, .inl rfl⟩
    · exact ⟨.openCursor, .inl rfl⟩
    · exact ⟨.refreshCursor, .inl rfl⟩
    · exact ⟨.closeCursor, .inl rfl⟩
    · exact ⟨.setJournal, .inl rfl⟩
    · exact ⟨.acknowledgeEvents, .inl rfl⟩
    · exact ⟨.setRouting, .inl rfl⟩
    · exact ⟨.setMirrorPeriod, .inl rfl⟩
  · exact ⟨.unknownCode, .inr (.inr ⟨rfl, h⟩)⟩

/-- A take keeps its frame and removes the head of the FIFO (R156). -/
theorem TakeFrame.takeCode {s : State} {k : Fin 16} (h : s.headSlot = some k) :
    TakeFrame s (s.takeCode (s.slot k).code.toNat) ∧
      (s.takeCode (s.slot k).code.toNat).path.fifo = s.path.fifo.tail := by
  generalize hc : (s.slot k).code = code
  by_cases hd : code ∈ directiveCodes
  · unfold directiveCodes at hd
    simp only [List.mem_cons, List.not_mem_nil, or_false] at hd
    rcases hd with rfl | rfl | rfl | rfl | rfl | rfl | rfl | rfl | rfl | rfl | rfl | rfl | rfl | rfl | rfl | rfl | rfl |
      rfl | rfl | rfl | rfl | rfl | rfl | rfl | rfl
    · exact TakeFrame.directive (i := .defineLine) rfl h hc
    · exact TakeFrame.directive (i := .defineHolePatterns) rfl h hc
    · exact TakeFrame.directive (i := .startTracking) rfl h hc
    · exact TakeFrame.directive (i := .stopTracking) rfl h hc
    · exact TakeFrame.directive (i := .clearLine) rfl h hc
    · exact TakeFrame.directive (i := .setClock) rfl h hc
    · exact TakeFrame.directive (i := .announceEntry) rfl h hc
    · exact TakeFrame.directive (i := .announceExit) rfl h hc
    · exact TakeFrame.directive (i := .withdraw) rfl h hc
    · exact TakeFrame.directive (i := .injectMarker) rfl h hc
    · exact TakeFrame.directive (i := .nameRecord) rfl h hc
    · exact TakeFrame.directive (i := .readRecord) rfl h hc
    · exact TakeFrame.directive (i := .trace) rfl h hc
    · exact TakeFrame.takeDescend h hc
    · exact TakeFrame.directive (i := .defineStation) rfl h hc
    · exact TakeFrame.directive (i := .defineVerdict) rfl h hc
    · exact TakeFrame.directive (i := .activateStation) rfl h hc
    · exact TakeFrame.directive (i := .deactivateStation) rfl h hc
    · exact TakeFrame.directive (i := .openCursor) rfl h hc
    · exact TakeFrame.directive (i := .refreshCursor) rfl h hc
    · exact TakeFrame.directive (i := .closeCursor) rfl h hc
    · exact TakeFrame.directive (i := .setJournal) rfl h hc
    · exact TakeFrame.directive (i := .acknowledgeEvents) rfl h hc
    · exact TakeFrame.directive (i := .setRouting) rfl h hc
    · exact TakeFrame.directive (i := .setMirrorPeriod) rfl h hc
  · have : s.takeCode code.toNat = s.unknownCode := by
      unfold State.takeCode
      split
      case h_26 => rfl
      all_goals
        rename_i hx
        have hn : code = BitVec.ofNat 8 code.toNat := by simp
        rw [hx] at hn
        subst hn
        exact absurd (by decide) hd
    rw [this]
    exact TakeFrame.unknownCode h (hc ▸ hd)

/-! ## The takes that are due -/

/-- Takes made one after another keep the frame of a take. -/
theorem TakeFrame.takeUpTo (n : Nat) (s : State) : TakeFrame s (State.takeUpTo n s) := by
  induction n generalizing s with
  | zero => exact TakeFrame.refl s
  | succ n ih =>
    simp only [State.takeUpTo]
    split
    · exact TakeFrame.refl s
    · rename_i k hk
      exact (TakeFrame.takeCode hk).1.trans (ih _)

/-- As many takes as the FIFO holds slots leave none that is due (R156). -/
theorem State.takeUpTo_headSlot (n : Nat) (s : State) (h : s.path.fifo.length ≤ n) :
    (State.takeUpTo n s).headSlot = none := by
  induction n generalizing s with
  | zero =>
    rw [State.headSlot_none]
    exact fun _ hn => absurd (List.eq_nil_of_length_eq_zero (Nat.le_zero.1 h)) hn
  | succ n ih =>
    simp only [State.takeUpTo]
    split
    · assumption
    · rename_i k hk
      refine ih _ ?_
      rw [(TakeFrame.takeCode hk).2, List.length_tail]
      omega

/-- What the takes that are due can do (R156). -/
theorem TakeFrame.takeDue (s : State) : TakeFrame s s.takeDue := TakeFrame.takeUpTo _ s

/-- Once they are made none is due (R156). -/
theorem State.takeDue_nothingToTake (s : State) : s.takeDue.NothingToTake :=
  State.headSlot_none.1 (State.takeUpTo_headSlot _ s (Nat.le_refl _))

/-- None is due: nothing is taken. -/
theorem State.takeDue_of_none {s : State} (h : s.NothingToTake) : s.takeDue = s := by
  unfold State.takeDue
  cases hn : s.path.fifo.length with
  | zero => rfl
  | succ n => simp only [State.takeUpTo, State.headSlot_none.2 h]

@[simp] theorem State.takeDue_takeDue (s : State) : s.takeDue.takeDue = s.takeDue :=
  State.takeDue_of_none s.takeDue_nothingToTake

/-- The first of the takes that are due, and then the others (R156). -/
theorem State.takeDue_cons {s : State} {k : Fin 16} (h : s.headSlot = some k) :
    s.takeDue = (s.takeCode (s.slot k).code.toNat).takeDue := by
  have hf : s.path.fifo ≠ [] := fun hn => by
    have := (State.headSlot_some.1 h).2.2
    rw [hn] at this
    cases this
  unfold State.takeDue
  rw [(TakeFrame.takeCode h).2, List.length_tail]
  cases hn : s.path.fifo.length with
  | zero => exact absurd (List.eq_nil_of_length_eq_zero hn) hf
  | succ n => simp only [State.takeUpTo, h, Nat.add_sub_cancel]

@[simp] theorem State.takeDue_powered (s : State) : s.takeDue.powered = s.powered := (TakeFrame.takeDue s).port.1

/-! ## Commands and the takes before them -/

/-- A command with no take due has its own effect (R156). -/
theorem afterTakes_ready {f : State → State} {s : State} (h : s.Ready) : afterTakes f s = .next (f s) := by
  unfold afterTakes powered
  simp only [h.1, if_true, State.takeDue_of_none h.2]

/-- A command finds the part as the takes that are due leave it (R156). -/
theorem afterTakes_takeDue (f : State → State) {s : State} (h : s.powered = true) :
    afterTakes f s = afterTakes f s.takeDue := by
  unfold afterTakes powered
  simp only [State.takeDue_powered, h, if_true, State.takeDue_takeDue]

/-- Every command but a directive's row, a cold start and a loss of standby supply comes after the takes that are due
(R156, log 5). -/
theorem exec_waitsForTakes {c : Instr} (h : waitsForTakes c) {s : State} (hp : s.powered = true) :
    exec c s = exec c s.takeDue := by
  have write (b : WriteBurst) : presentWrite b s = presentWrite b s.takeDue := by
    unfold presentWrite
    split
    · exact afterTakes_takeDue _ hp
    · rfl
  have read (b : ReadBurst) : presentRead b s = presentRead b s.takeDue := by
    unfold presentRead
    split
    · exact afterTakes_takeDue _ hp
    · rfl
  obtain ⟨h1, h2, h3, h4, h5⟩ := h
  cases c
  case passThroughWrite b => exact write b
  case directiveSlotWrite b => exact write b
  case goWord b => exact write b
  case intakeWrite b => exact write b
  case passThroughRead b => exact read b
  case apertureRead b => exact read b
  case coldStart lv => exact absurd rfl (h5 lv)
  case standbyPowerLoss => exact absurd rfl h4
  case descend => exact absurd rfl h2
  case unknownCode => exact absurd rfl h3
  case pathResetBegin c =>
    show execPathResetBegin c s = execPathResetBegin c s.takeDue
    unfold execPathResetBegin
    exact afterTakes_takeDue _ hp
  case pathResetEnd c st =>
    show execPathResetEnd c st s = execPathResetEnd c st s.takeDue
    unfold execPathResetEnd
    exact afterTakes_takeDue _ hp
  case serverStateChange a b =>
    show execServerStateChange a b s = execServerStateChange a b s.takeDue
    unfold execServerStateChange
    exact afterTakes_takeDue _ hp
  case encoderPulse l sd =>
    show execEncoderPulse l sd s = execEncoderPulse l sd s.takeDue
    unfold execEncoderPulse
    exact afterTakes_takeDue _ hp
  case runLevelChange l v =>
    show execRunLevelChange l v s = execRunLevelChange l v s.takeDue
    unfold execRunLevelChange
    exact afterTakes_takeDue _ hp
  case directionLevelChange l sd f =>
    show execDirectionLevelChange l sd f s = execDirectionLevelChange l sd f s.takeDue
    unfold execDirectionLevelChange
    exact afterTakes_takeDue _ hp
  case timeBaseTick =>
    show execTimeBaseTick s = execTimeBaseTick s.takeDue
    unfold execTimeBaseTick
    exact afterTakes_takeDue _ hp
  case markerRawTransition l i =>
    show execMarkerRawTransition l i s = execMarkerRawTransition l i s.takeDue
    unfold execMarkerRawTransition
    exact afterTakes_takeDue _ hp
  case debounceComplete l i =>
    show execDebounceComplete l i s = execDebounceComplete l i s.takeDue
    unfold execDebounceComplete
    exact afterTakes_takeDue _ hp
  case apertureReadReturn =>
    show execApertureReadReturn s = execApertureReadReturn s.takeDue
    unfold execApertureReadReturn
    exact afterTakes_takeDue _ hp
  case readDataReturn =>
    show execReadDataReturn s = execReadDataReturn s.takeDue
    unfold execReadDataReturn
    exact afterTakes_takeDue _ hp
  case mSideGrant =>
    show execMSideGrant s = execMSideGrant s.takeDue
    unfold execMSideGrant
    exact afterTakes_takeDue _ hp
  case mSideBurstComplete data =>
    show execMSideBurstComplete data s = execMSideBurstComplete data s.takeDue
    unfold execMSideBurstComplete
    exact afterTakes_takeDue _ hp
  case journalEntryBegin =>
    show execJournalEntryBegin s = execJournalEntryBegin s.takeDue
    unfold execJournalEntryBegin
    exact afterTakes_takeDue _ hp
  case mirrorGroupWrite =>
    show execMirrorGroupWrite s = execMirrorGroupWrite s.takeDue
    unfold execMirrorGroupWrite
    exact afterTakes_takeDue _ hp
  case mirrorPeriodComplete =>
    show execMirrorPeriodComplete s = execMirrorPeriodComplete s.takeDue
    unfold execMirrorPeriodComplete
    exact afterTakes_takeDue _ hp
  case resolverTurn =>
    show execResolverTurn s = execResolverTurn s.takeDue
    unfold execResolverTurn
    exact afterTakes_takeDue _ hp
  case descendScanVisit =>
    show execDescendScanVisit s = execDescendScanVisit s.takeDue
    unfold execDescendScanVisit
    exact afterTakes_takeDue _ hp
  all_goals cases h1

end Sys2Proof.Machine
end

