-- ==== Sys2Proof/Laws/Port.lean ====
section
/-! SUPPORT. What the acceptance of P-side transactions can do, said once: acceptance reaches the queues, the port, the
directive slots, the stations and what sealing reaches, and nothing else. -/

namespace Sys2Proof.Machine

/-- A state with everything that the acceptance of a transaction can change taken out. Two states with the same core
agree on every other field. -/
def State.portCore (s : State) : State :=
  { s with
    presented := [], returned := []
    track := { s.track with
      table := { places := [], nextSerial := 0, idMap := [] }, nextSeq := 0, backlog := []
      anomalies := .replicate 32 none, anomalyCount := 0, trackingFlags := 0 }
    path := { s.path with
      requests := [], port := none, slots := .replicate 16 .reset, fifo := [], stations := .replicate 8 .reset
      bookkeeping := [], nextId := 0, waitList := [], dirty := .replicate 39 false, pathFlags := 0 } }

/-- What the acceptance of transactions can change, and what it keeps. -/
structure PortFrame (s t : State) : Prop where
  core : t.portCore = s.portCore
  keeps : Keeps s t
  room : s.path.bookkeeping.length ≤ 64 → t.path.bookkeeping.length ≤ 64

theorem PortFrame.refl (s : State) : PortFrame s s := ⟨rfl, Keeps.refl s, id⟩

theorem PortFrame.trans {s t u : State} (h : PortFrame s t) (g : PortFrame t u) : PortFrame s u :=
  ⟨g.core.trans h.core, h.keeps.trans g.keeps, g.room ∘ h.room⟩

theorem SealFrame.port {i : Fin 8} {s t : State} (h : SealFrame i s t) : PortFrame s t := by
  refine ⟨?_, h.keeps, h.room⟩
  obtain ⟨_, _, _, _, _, _, _, _, _, _, _, h1⟩ := h.shape
  rw [h1]; rfl

theorem TableFrame.port {s t : State} (h : TableFrame s t) : PortFrame s t := (h.sealing (i := 0)).port

/-- The outcome of an update of what the core takes out. -/
theorem PortFrame.of_core {s t : State} (hc : t.portCore = s.portCore) (hb : t.track.backlog = s.track.backlog)
    (hf : t.track.trackingFlags = s.track.trackingFlags) (hp : t.path.pathFlags = s.path.pathFlags)
    (ht : t.track.table = s.track.table) (hk : t.path.bookkeeping = s.path.bookkeeping)
    (hd : MarksKept s.path.dirty t.path.dirty) : PortFrame s t := by
  refine ⟨hc, Keeps.of_eq hb hf hp ?_ ?_ ht hd, fun h => by rw [hk]; exact h⟩
  · have h := congrArg (fun x : State => x.path.alertMask) hc
    exact h
  · have h := congrArg (fun x : State => x.track.trackFaultMask) hc
    exact h

theorem PortFrame.request (s : State) (rs : List Request) : PortFrame s (s.request rs) :=
  PortFrame.of_core rfl rfl rfl rfl rfl rfl (MarksKept.refl _)
theorem PortFrame.holdPort (s : State) (h : HeldRead) : PortFrame s (s.holdPort h) :=
  PortFrame.of_core rfl rfl rfl rfl rfl rfl (MarksKept.refl _)
theorem PortFrame.releasePort (s : State) : PortFrame s s.releasePort :=
  PortFrame.of_core rfl rfl rfl rfl rfl rfl (MarksKept.refl _)
theorem PortFrame.returnData (s : State) (ws : List Word) : PortFrame s (s.returnData ws) :=
  PortFrame.of_core rfl rfl rfl rfl rfl rfl (MarksKept.refl _)
theorem PortFrame.setPresented (s : State) (ts : List Transaction) : PortFrame s (s.setPresented ts) :=
  PortFrame.of_core rfl rfl rfl rfl rfl rfl (MarksKept.refl _)
theorem PortFrame.setSlot (s : State) (k : Fin 16) (sl : Slot) : PortFrame s (s.setSlot k sl) :=
  PortFrame.of_core rfl rfl rfl rfl rfl rfl (MarksKept.refl _)

theorem PortFrame.setStation (s : State) (i : Fin 8) (st : Station) : PortFrame s (s.setStation i st) := by
  refine PortFrame.of_core ?_ (by simp) (by simp) (by simp) (by simp) (by simp) ?_
  · unfold State.setStation State.markIf; split <;> rfl
  · rw [State.setStation_path]
    exact MarksKept.ite (MarksKept.set _ _ _) (MarksKept.refl _)

theorem PortFrame.raisePath (s : State) (f : PathFlag) : PortFrame s (s.raisePath f) := by
  refine ⟨?_, ⟨fun h => by simpa using h, ?_, ?_, ?_⟩, fun h => by simpa using h⟩
  · unfold State.raisePath; split <;> rfl
  · intro h
    simp only [State.FlagsOk, State.raisePath_track, State.raisePath_path]
    exact ⟨h.1, or_and_not h.2.1 f.bit_in, h.2.2⟩
  · intro h
    simp only [State.TableOk, State.raisePath_track]
    exact h
  · rw [State.raisePath_path]
    exact MarksKept.ite (MarksKept.set _ _ _) (MarksKept.refl _)

/-! ## Directive slots -/

theorem PortFrame.pushFifo (s : State) (k : Fin 16) (w : Word) : PortFrame s (s.queueSlot k w) := by
  unfold State.queueSlot
  refine PortFrame.trans ?_ (TableFrame.mark _ _).port
  exact PortFrame.of_core rfl rfl rfl rfl rfl rfl (MarksKept.refl _)

theorem PortFrame.goWord (s : State) (k : Fin 16) (x : Lane) : PortFrame s (s.goWord k x) := by
  unfold State.goWord
  split
  · exact PortFrame.raisePath _ _
  · split
    · exact PortFrame.refl s
    · exact PortFrame.pushFifo _ _ _

theorem PortFrame.slotWord (s : State) (k : Fin 16) (w : Nat) (x : Lane) : PortFrame s (s.slotWord k w x) := by
  unfold State.slotWord
  repeat' split
  all_goals first
    | exact PortFrame.refl s
    | exact PortFrame.goWord _ _ _
    | exact PortFrame.raisePath _ _
    | exact PortFrame.setSlot _ _ _

theorem PortFrame.slotWords (k : Fin 16) (w : Nat) (xs : List Lane) (s : State) :
    PortFrame s (State.slotWords k w xs s) := by
  induction xs generalizing w s with
  | nil => exact PortFrame.refl s
  | cons x rest ih => exact (PortFrame.slotWord _ _ _ _).trans (ih _ _)

/-! ## Intake -/

theorem PortFrame.discard (s : State) (i : Fin 8) (f : PathFlag) : PortFrame s (s.discard i f) :=
  (PortFrame.setStation _ _ _).trans (PortFrame.raisePath _ _)

theorem PortFrame.makePlace (s : State) (i : Fin 8) (d : LiveData) (b : Nat) : PortFrame s (s.makePlace i d b) := by
  unfold State.makePlace
  repeat' split
  all_goals first
    | exact PortFrame.refl s
    | exact (SealFrame.sealBins _ _ _ _ _).port

theorem PortFrame.record (s : State) (i : Fin 8) (b c : Nat) (v : Word) : PortFrame s (s.record i b c v) := by
  unfold State.record
  split
  · exact PortFrame.refl s
  · exact (SealFrame.setLive _ _ _).port

/-- From one point of an intake burst to a later one: the frame of acceptance, no request yet, and at most `n` words more
recorded (R94). -/
structure IntakeRun.Goes (n : Nat) (a b : IntakeRun) : Prop where
  frame : PortFrame a.state b.state
  requests : b.state.path.requests = a.state.path.requests
  count : b.recorded.length ≤ a.recorded.length + n

theorem State.setStation_requests (s : State) (i : Fin 8) (st : Station) :
    (s.setStation i st).path.requests = s.path.requests := by simp

theorem State.discard_requests (s : State) (i : Fin 8) (f : PathFlag) :
    (s.discard i f).path.requests = s.path.requests := by
  unfold State.discard; simp

theorem SealFrame.requests {i : Fin 8} {s t : State} (h : SealFrame i s t) : t.path.requests = s.path.requests := by
  obtain ⟨_, _, _, _, _, _, _, _, _, _, _, h1⟩ := h.shape
  rw [h1]; rfl

theorem State.makePlace_requests (s : State) (i : Fin 8) (d : LiveData) (b : Nat) :
    (s.makePlace i d b).path.requests = s.path.requests := by
  unfold State.makePlace
  repeat' split
  all_goals first
    | rfl
    | exact (SealFrame.sealBins _ _ _ _ _).requests

theorem State.record_requests (s : State) (i : Fin 8) (b c : Nat) (v : Word) :
    (s.record i b c v).path.requests = s.path.requests := by
  unfold State.record
  split
  · rfl
  · exact (SealFrame.setLive _ _ _).requests

theorem IntakeRun.goes_discard (run : IntakeRun) (i : Fin 8) (f : PathFlag) (n : Nat) :
    IntakeRun.Goes n run { run with state := run.state.discard i f } :=
  ⟨PortFrame.discard _ _ _, State.discard_requests _ _ _, Nat.le_add_right _ _⟩

theorem IntakeRun.goes_place (run : IntakeRun) (i : Fin 8) (d : LiveData) (b w : Nat) (v : Word) :
    IntakeRun.Goes 1 run (run.place i d b w v) := by
  unfold IntakeRun.place
  split
  · exact ⟨(PortFrame.makePlace _ _ _ _).trans (PortFrame.record _ _ _ _ _),
      (State.record_requests _ _ _ _ _).trans (State.makePlace_requests _ _ _ _), by simp⟩
  · exact IntakeRun.goes_discard _ _ _ _

theorem IntakeRun.goes_channel (run : IntakeRun) (i : Fin 8) (d : LiveData) (r w : Nat) (v : Word) :
    IntakeRun.Goes 1 run (run.channel i d r w v) := by
  unfold IntakeRun.channel
  dsimp only
  split
  · exact IntakeRun.goes_discard _ _ _ _
  · split
    · exact IntakeRun.goes_discard _ _ _ _
    · exact IntakeRun.goes_place _ _ _ _ _ _

theorem IntakeRun.goes_word (i : Fin 8) (r : Nat) (run : IntakeRun) (w : Nat) (x : Lane) :
    IntakeRun.Goes (if x.en = 0 then 0 else 1) run (run.word i r w x) := by
  unfold IntakeRun.word
  dsimp only
  by_cases hx : x.en = 0
  · rw [if_pos hx, if_pos hx]
    exact ⟨PortFrame.refl _, rfl, Nat.le_add_right _ _⟩
  · rw [if_neg hx, if_neg hx]
    split
    · exact IntakeRun.goes_discard _ _ _ _
    · split
      · exact IntakeRun.goes_discard _ _ _ _
      · exact IntakeRun.goes_channel _ _ _ _ _ _

theorem enabledWords_cons (x : Lane) (rest : List Lane) :
    enabledWords (x :: rest) = (if x.en = 0 then 0 else 1) + enabledWords rest := by
  unfold enabledWords
  rw [List.filter_cons]
  by_cases hx : x.en = 0#4
  · simp [hx]
  · have h1 : (x.en != 0) = true := by simpa using hx
    have h2 : ¬x.en = 0 := hx
    rw [if_neg h2, h1, if_pos rfl, List.length_cons, Nat.add_comm]

theorem IntakeRun.goes_words (i : Fin 8) (r w : Nat) (xs : List Lane) (run : IntakeRun) :
    IntakeRun.Goes (enabledWords xs) run (intakeWords i r w xs run) := by
  induction xs generalizing w run with
  | nil => exact ⟨PortFrame.refl _, rfl, Nat.le_add_right _ _⟩
  | cons x rest ih =>
    have h1 := IntakeRun.goes_word i r run w x
    have h2 := ih (w + 1) (run.word i r w x)
    refine ⟨h1.frame.trans h2.frame, h2.requests.trans h1.requests, ?_⟩
    have hc := enabledWords_cons x rest
    have := h1.count
    have := h2.count
    rw [hc]
    show (intakeWords i r (w + 1) rest (run.word i r w x)).recorded.length ≤ _
    omega

theorem recordedBins_length (rs : List Recorded) (seen : List Nat) :
    (recordedBins rs seen).length ≤ seen.length + rs.length := by
  induction rs generalizing seen with
  | nil => simp [recordedBins]
  | cons r rest ih =>
    simp only [recordedBins]
    refine (ih _).trans ?_
    split
    · simp
    · simp; omega

theorem PortFrame.intakeBurst (s : State) (i : Fin 8) (w : Nat) (xs : List Lane) :
    PortFrame s (s.intakeBurst i w xs) :=
  (IntakeRun.goes_words i (s.reference i) w xs { state := s, recorded := [] }).frame.trans (PortFrame.request _ _)

/-! ## Acceptance -/

theorem State.raisePath_requests (s : State) (f : PathFlag) : (s.raisePath f).path.requests = s.path.requests := by
  simp

theorem State.goWord_requests (s : State) (k : Fin 16) (x : Lane) : (s.goWord k x).path.requests = s.path.requests := by
  unfold State.goWord
  split
  · exact State.raisePath_requests _ _
  · split
    · rfl
    · rfl

theorem State.slotWord_requests (s : State) (k : Fin 16) (w : Nat) (x : Lane) :
    (s.slotWord k w x).path.requests = s.path.requests := by
  unfold State.slotWord
  split
  · rfl
  · split
    · exact State.goWord_requests _ _ _
    · split
      · exact State.raisePath_requests _ _
      · split <;> rfl

theorem State.slotWords_requests (k : Fin 16) (w : Nat) (xs : List Lane) (s : State) :
    (State.slotWords k w xs s).path.requests = s.path.requests := by
  induction xs generalizing w s with
  | nil => rfl
  | cons x rest ih => exact (ih _ _).trans (State.slotWord_requests _ _ _ _)

theorem PortFrame.acceptAperture (s : State) (k : Fin 8) (p f c : Nat) : PortFrame s (s.acceptAperture k p f c) := by
  unfold State.acceptAperture
  split
  · exact PortFrame.returnData _ _
  · exact PortFrame.returnData _ _
  · exact (PortFrame.request _ _).trans (PortFrame.holdPort _ _)

theorem PortFrame.acceptWriteAt (s : State) (b : WriteBurst) (a : AreaPart) : PortFrame s (s.acceptWriteAt b a) := by
  cases a with
  | slot k w => exact (PortFrame.slotWords k w b.words s).trans (PortFrame.request _ _)
  | intake i w => exact PortFrame.intakeBurst s i w b.words
  | plain => exact PortFrame.request s _
  | status => exact PortFrame.request s _
  | aperture k p w => exact PortFrame.request s _
  | outside => exact PortFrame.request s _

theorem PortFrame.acceptReadAt (s : State) (b : ReadBurst) (a : AreaPart) : PortFrame s (s.acceptReadAt b a) := by
  have h := (PortFrame.request s [.read b s.bookkeepingMark]).trans (PortFrame.holdPort _ (.passThrough b none))
  cases a with
  | aperture k p w => exact PortFrame.acceptAperture s k p w b.count
  | slot k w => exact h
  | intake i w => exact h
  | plain => exact h
  | status => exact h
  | outside => exact h

theorem PortFrame.accept (s : State) (t : Transaction) : PortFrame s (s.accept t) := by
  cases t with
  | write b => exact PortFrame.acceptWriteAt s b (decodeArea s.base b.addr)
  | read b => exact PortFrame.acceptReadAt s b (decodeArea s.base b.addr)

/-- An intake burst enters at most one request for each word enabled (R138). -/
theorem State.intakeBurst_requests (s : State) (i : Fin 8) (w : Nat) (xs : List Lane) :
    (s.intakeBurst i w xs).path.requests.length ≤ s.path.requests.length + enabledWords xs := by
  have h := IntakeRun.goes_words i (s.reference i) w xs { state := s, recorded := [] }
  have hb := recordedBins_length (intakeWords i (s.reference i) w xs { state := s, recorded := [] }).recorded []
  have hc := h.count
  have he : (s.intakeBurst i w xs).path.requests.length =
      s.path.requests.length +
        (recordedBins (intakeWords i (s.reference i) w xs { state := s, recorded := [] }).recorded []).length := by
    show (_ ++ List.map _ _ : List Request).length = _
    rw [List.length_append, List.length_map, h.requests]
  rw [he]
  simp only [List.length_nil] at hb hc
  omega

theorem slotReads_length (base first count : Nat) : (slotReads base first count).length ≤ 2 := by
  unfold slotReads
  split
  · exact Nat.le_succ 1
  · exact Nat.le_refl 2

/-- An aperture read enters at most two requests (R138). -/
theorem State.acceptAperture_requests (s : State) (k : Fin 8) (p f c : Nat) :
    (s.acceptAperture k p f c).path.requests.length ≤ s.path.requests.length + 2 := by
  unfold State.acceptAperture
  split
  · exact Nat.le_add_right _ _
  · exact Nat.le_add_right _ _
  · show (_ ++ List.map _ _ : List Request).length ≤ _
    rw [List.length_append, List.length_map]
    exact Nat.add_le_add_left (slotReads_length _ _ _) _

theorem State.acceptWriteAt_requests (s : State) (b : WriteBurst) (a : AreaPart) :
    (s.acceptWriteAt b a).path.requests.length ≤ s.path.requests.length + writeEntries b.words a := by
  have h : (s.request [.write b]).path.requests.length ≤ s.path.requests.length + 1 :=
    Nat.le_of_eq (List.length_append ..)
  cases a with
  | slot k w =>
    show (_ ++ [_] : List Request).length ≤ _
    rw [List.length_append, State.slotWords_requests]
    exact Nat.le_refl _
  | intake i w => exact State.intakeBurst_requests _ _ _ _
  | plain => exact h
  | status => exact h
  | aperture k p w => exact h
  | outside => exact h

theorem State.acceptReadAt_requests (s : State) (b : ReadBurst) (a : AreaPart) :
    (s.acceptReadAt b a).path.requests.length ≤ s.path.requests.length + readEntries a := by
  have h : (s.request [.read b s.bookkeepingMark]).path.requests.length ≤ s.path.requests.length + 1 :=
    Nat.le_of_eq (List.length_append ..)
  cases a with
  | aperture k p w => exact State.acceptAperture_requests _ _ _ _ _
  | slot k w => exact h
  | intake i w => exact h
  | plain => exact h
  | status => exact h
  | outside => exact h

/-- An accepted transaction enters at most the requests it was given room for (R138). -/
theorem State.accept_requests (s : State) (t : Transaction) :
    (s.accept t).path.requests.length ≤ s.path.requests.length + entriesNeeded s.base t := by
  cases t with
  | write b => exact State.acceptWriteAt_requests s b (decodeArea s.base b.addr)
  | read b => exact State.acceptReadAt_requests s b (decodeArea s.base b.addr)

/-- What the acceptance of what is presented can change, with the takes that come before an acceptance (R135, R156), and
what it keeps. -/
structure AdmitFrame (s t : State) : Prop where
  core : t.portCore.takeCore = s.portCore.takeCore
  keeps : Keeps s t
  room : s.path.bookkeeping.length ≤ 64 → t.path.bookkeeping.length ≤ 64

theorem AdmitFrame.refl (s : State) : AdmitFrame s s := ⟨rfl, Keeps.refl s, id⟩

theorem AdmitFrame.trans {s t u : State} (h : AdmitFrame s t) (g : AdmitFrame t u) : AdmitFrame s u :=
  ⟨g.core.trans h.core, h.keeps.trans g.keeps, g.room ∘ h.room⟩

theorem PortFrame.admits {s t : State} (h : PortFrame s t) : AdmitFrame s t := ⟨by rw [h.core], h.keeps, h.room⟩

theorem TakeFrame.admits {s t : State} (h : TakeFrame s t) : AdmitFrame s t := by
  have both : ∀ x : State, x.portCore.takeCore = x.takeCore.portCore := fun _ => rfl
  exact ⟨by rw [both, both, h.core], h.keeps, h.room⟩

theorem AdmitFrame.letInList (ts : List Transaction) (s : State) : AdmitFrame s (State.letInList ts s) := by
  induction ts generalizing s with
  | nil => exact AdmitFrame.refl s
  | cons t rest ih =>
    simp only [State.letInList]
    split
    · exact ((TakeFrame.takeDue s).admits.trans (PortFrame.accept _ t).admits).trans (ih _)
    · exact (PortFrame.setPresented _ _).admits

/-- The acceptance of what is presented (R135). -/
theorem AdmitFrame.letIn (s : State) : AdmitFrame s s.letIn :=
  (PortFrame.setPresented s []).admits.trans (AdmitFrame.letInList _ _)

/-- A transaction is presented (R135). -/
theorem AdmitFrame.present (s : State) (t : Transaction) : AdmitFrame s (s.present t) :=
  (PortFrame.setPresented s []).admits.trans (AdmitFrame.letInList _ _)

/-- Whether a transaction is accepted is not changed by the takes that come before it (R135, R156). -/
theorem State.accepts_takeDue (s : State) (t : Transaction) : s.takeDue.accepts t = s.accepts t := by
  obtain ⟨-, h1, h2, h3, h4, -⟩ := (TakeFrame.takeDue s).port
  unfold State.accepts State.base
  rw [h1, h2, h3, h4]

/-- The memory request queue never holds more than it can (R139), and takes nothing outside OPEN (R135). -/
theorem State.letInList_requests (ts : List Transaction) (s : State) :
    (s.path.requests.length ≤ 32 → (State.letInList ts s).path.requests.length ≤ 32) ∧
      (s.path.state ≠ .opened → (State.letInList ts s).path.requests = s.path.requests) := by
  induction ts generalizing s with
  | nil => exact ⟨fun h => h, fun _ => rfl⟩
  | cons t rest ih =>
    simp only [State.letInList]
    split
    · rename_i hc
      have hd := hc
      rw [← State.accepts_takeDue] at hd
      unfold State.accepts at hc hd
      simp only [Bool.and_eq_true, beq_iff_eq, decide_eq_true_eq] at hc hd
      exact ⟨fun _ => (ih _).1 ((State.accept_requests s.takeDue t).trans hd.2), fun h => absurd hc.1.1 h⟩
    · exact ⟨fun h => h, fun _ => rfl⟩

/-- Nothing was presented. -/
theorem State.setPresented_self {s : State} (h : s.presented = []) : s.setPresented [] = s := by
  unfold State.setPresented; rw [← h]

/-- Nothing presented: acceptance does nothing. -/
theorem State.letIn_of_nil {s : State} (h : s.presented = []) : s.letIn = s := by
  unfold State.letIn
  rw [h, State.setPresented_self h]
  rfl

/-- With nothing else presented and no take due, a transaction is offered alone. -/
theorem State.present_alone {s : State} {t : Transaction} (h : s.presented = []) (hn : s.NothingToTake) :
    s.present t = if s.accepts t then s.accept t else s.setPresented [t] := by
  unfold State.present
  rw [h, State.setPresented_self h]
  simp only [List.nil_append, State.letInList, State.takeDue_of_none hn]

/-- A transaction that is not accepted stays presented (R135). -/
theorem State.present_withheld {s : State} {t : Transaction} (h : s.presented = []) (hn : s.NothingToTake)
    (ht : s.accepts t = false) : s.present t = { s with presented := [t] } := by
  rw [State.present_alone h hn, ht]; rfl

/-- With nothing else presented and no take due, a transaction that is accepted does what its acceptance does. -/
theorem State.present_accepted {s : State} {t : Transaction} (h : s.presented = []) (hn : s.NothingToTake)
    (ht : s.accepts t = true) : s.present t = s.accept t := by
  rw [State.present_alone h hn, ht]; rfl

/-! ## The decoder and the rows that present a burst -/

/-- The base of the reserved area as R136 writes it. -/
theorem areaBase_eq (sel : BitVec 4) : areaBase sel = (sel.toNat + 1) * 2 ^ 30 - 2 ^ 20 := by
  unfold areaBase
  omega

/-- An address of the reserved area has the part of its offset. -/
theorem decodeArea_inside {base o : Nat} (h : o < 0x100000) : decodeArea base (base + o) = partOf o := by
  unfold decodeArea areaSize
  rw [if_pos (by omega)]
  congr 1; omega

/-- An address below or above the area. -/
theorem decodeArea_outside {base a : Nat} (h : a < base ∨ base + 0x100000 ≤ a) : decodeArea base a = .outside := by
  unfold decodeArea areaSize
  rw [if_neg (by omega)]

/-- Offsets of directive slots. -/
theorem partOf_slot (k : Fin 16) {w b : Nat} (hw : w < 128) (hb : b < 4) :
    partOf (512 * k.val + 4 * w + b) = .slot k w := by
  have hk := k.isLt
  unfold partOf
  rw [dif_pos (by omega)]
  have h1 : (512 * k.val + 4 * w + b) / 512 = k.val := by omega
  have h2 : (512 * k.val + 4 * w + b) % 512 / 4 = w := by omega
  simp only [h1, h2, Fin.eta]

/-- Offsets of the status area. -/
theorem partOf_status {o : Nat} (h : 0x2000 ≤ o) (g : o < 0x4000) : partOf o = .status := by
  unfold partOf
  rw [dif_neg (by omega), if_pos (by omega)]

/-- Offsets of intake windows. -/
theorem partOf_intake (i : Fin 8) {w b : Nat} (hw : w < 16) (hb : b < 4) :
    partOf (0x4000 + 64 * i.val + 4 * w + b) = .intake i w := by
  have hk := i.isLt
  unfold partOf
  rw [dif_neg (by omega), if_neg (by omega), dif_pos (by omega)]
  have h1 : (0x4000 + 64 * i.val + 4 * w + b - 0x4000) / 64 = i.val := by omega
  have h2 : (0x4000 + 64 * i.val + 4 * w + b) % 64 / 4 = w := by omega
  simp only [h1, h2, Fin.eta]

/-- Offsets of plain memory. -/
theorem partOf_plain {o : Nat} (h : (0x4200 ≤ o ∧ o < 0x10000) ∨ (0x90000 ≤ o ∧ o < 0x100000)) : partOf o = .plain := by
  unfold partOf
  rw [dif_neg (by omega), if_neg (by omega), dif_neg (by omega)]
  split
  · rfl
  · rw [dif_neg (by omega)]

/-- Offsets of apertures. -/
theorem partOf_aperture (k : Fin 8) {i w b : Nat} (hi : i < 1024) (hw : w < 16) (hb : b < 4) :
    partOf (0x10000 + 65536 * k.val + 64 * i + 4 * w + b) = .aperture k i w := by
  have hk := k.isLt
  unfold partOf
  rw [dif_neg (by omega), if_neg (by omega), dif_neg (by omega), if_neg (by omega), dif_pos (by omega)]
  have h1 : (0x10000 + 65536 * k.val + 64 * i + 4 * w + b - 0x10000) / 65536 = k.val := by omega
  have h2 : (0x10000 + 65536 * k.val + 64 * i + 4 * w + b) % 65536 / 64 = i := by omega
  have h3 : (0x10000 + 65536 * k.val + 64 * i + 4 * w + b) % 64 / 4 = w := by omega
  simp only [h1, h2, h3, Fin.eta]

/-- Which part the decoder finds, by the address alone. -/
theorem decodeArea_cases (base a : Nat) :
    (∃ k w, decodeArea base a = .slot k w ∧ base ≤ a ∧ a < base + 0x2000) ∨
    (∃ i w, decodeArea base a = .intake i w ∧ base + 0x4000 ≤ a ∧ a < base + 0x4200) ∨
    (∃ k i w, decodeArea base a = .aperture k i w ∧ base + 0x10000 ≤ a ∧ a < base + 0x90000) ∨
    ((decodeArea base a = .plain ∨ decodeArea base a = .status ∨ decodeArea base a = .outside) ∧
      ¬(base ≤ a ∧ a < base + 0x2000) ∧ ¬(base + 0x4000 ≤ a ∧ a < base + 0x4200) ∧
      ¬(base + 0x10000 ≤ a ∧ a < base + 0x90000)) := by
  by_cases hin : base ≤ a ∧ a < base + 0x100000
  · have h0 : decodeArea base a = partOf (a - base) := by
      unfold decodeArea areaSize; rw [if_pos hin]
    rw [h0]; unfold partOf
    split
    · exact .inl ⟨_, _, rfl, by omega, by omega⟩
    · split
      · exact .inr (.inr (.inr ⟨.inr (.inl rfl), by omega, by omega, by omega⟩))
      · split
        · exact .inr (.inl ⟨_, _, rfl, by omega, by omega⟩)
        · split
          · exact .inr (.inr (.inr ⟨.inl rfl, by omega, by omega, by omega⟩))
          · split
            · exact .inr (.inr (.inl ⟨_, _, _, rfl, by omega, by omega⟩))
            · exact .inr (.inr (.inr ⟨.inl rfl, by omega, by omega, by omega⟩))
  · exact .inr (.inr (.inr ⟨.inr (.inr (decodeArea_outside (by omega))), by omega, by omega, by omega⟩))

/-- The entries a write burst needs (R138). -/
theorem entries_write (base : Nat) (w : WriteBurst) : entriesNeeded base (.write w) =
    (if base + 0x4000 ≤ w.addr ∧ w.addr < base + 0x4200 then (w.words.filter fun x => x.en != 0).length else 1) := by
  show writeEntries w.words (decodeArea base w.addr) = _
  rcases decodeArea_cases base w.addr with ⟨k, j, h, g⟩ | ⟨i, j, h, g⟩ | ⟨k, i, j, h, g⟩ | ⟨h, g⟩
  · rw [h, if_neg (by omega)]; rfl
  · rw [h, if_pos (by omega)]; rfl
  · rw [h, if_neg (by omega)]; rfl
  · rw [if_neg g.2.1]; rcases h with h | h | h <;> rw [h] <;> rfl

/-- The entries a read burst needs (R138). -/
theorem entries_read (base : Nat) (w : ReadBurst) : entriesNeeded base (.read w) =
    (if base + 0x10000 ≤ w.addr ∧ w.addr < base + 0x90000 then 2 else 1) := by
  show readEntries (decodeArea base w.addr) = _
  rcases decodeArea_cases base w.addr with ⟨k, j, h, g⟩ | ⟨i, j, h, g⟩ | ⟨k, i, j, h, g⟩ | ⟨h, g⟩
  · rw [h, if_neg (by omega)]; rfl
  · rw [h, if_neg (by omega)]; rfl
  · rw [h, if_pos (by omega)]; rfl
  · rw [if_neg g.2.2]; rcases h with h | h | h <;> rw [h] <;> rfl

/-- Every row that presents a write burst presents it. -/
theorem exec_asWrite {c : Instr} {b : WriteBurst} (h : c ∈ asWrite b) (hb : b.wf = true) {s : State} (hr : s.Ready) :
    exec c s = .next (s.present (.write b)) := by
  unfold asWrite at h
  simp only [List.mem_cons, List.not_mem_nil, or_false] at h
  rcases h with rfl | rfl | rfl | rfl <;>
  · show presentWrite b s = _
    unfold presentWrite
    rw [if_pos hb, afterTakes_ready hr]

/-- Every row that presents a read burst presents it. -/
theorem exec_asRead {c : Instr} {b : ReadBurst} (h : c ∈ asRead b) (hb : b.wf = true) {s : State} (hr : s.Ready) :
    exec c s = .next (s.present (.read b)) := by
  unfold asRead at h
  simp only [List.mem_cons, List.not_mem_nil, or_false] at h
  rcases h with rfl | rfl <;>
  · show presentRead b s = _
    unfold presentRead
    rw [if_pos hb, afterTakes_ready hr]

/-- A transaction waits while one of its conditions fails (R135). -/
theorem accepts_false {s : State} {t : Transaction}
    (h : s.path.state ≠ .opened ∨ s.path.port ≠ none ∨ 32 < s.path.requests.length + entriesNeeded s.base t) :
    s.accepts t = false := by
  unfold State.accepts Config.requestCap
  rcases h with h | h | h
  · simp [h]
  · cases hp : s.path.port with
    | none => exact absurd hp h
    | some _ => simp
  · have : ¬(s.path.requests.length + entriesNeeded s.base t ≤ 32) := by omega
    simp [this]

/-- A transaction whose entries fit is accepted (R135). -/
theorem accepts_true {s : State} {t : Transaction} (h : s.PortReady)
    (g : s.path.requests.length + entriesNeeded s.base t ≤ 32) : s.accepts t = true := by
  unfold State.accepts Config.requestCap
  simp [h.2.1, h.2.2.1, g]

end Sys2Proof.Machine
end

