-- ==== Sys2Proof/Laws/Bursts.lean ====
section
/-! SUPPORT. What a burst does once it is accepted: slot words, intake words, aperture reads (chapters 5, 7, 8, 9). -/

namespace Sys2Proof.Machine

/-- What a well-formed write burst satisfies. -/
theorem wf_write {b : WriteBurst} (h : b.wf = true) :
    b.addr % 4 = 0 ∧ b.addr < 2 ^ 34 ∧ 1 ≤ b.words.length ∧ b.addr % 32 / 4 + b.words.length ≤ 8 := by
  unfold WriteBurst.wf burstShape at h
  simp only [Bool.and_eq_true, beq_iff_eq, decide_eq_true_eq] at h
  exact ⟨h.1.1.1, h.1.1.2, h.1.2, h.2⟩

/-- The reserved area starts at a block. -/
theorem base_mod (s : State) : s.base % 32 = 0 := by
  unfold State.base areaBase; omega

/-- A write burst into slot k, once accepted. -/
theorem exec_slotWrite {c : Instr} {b : WriteBurst} (hc : c ∈ asWrite b) (hb : b.wf = true) {s : State} (hr : s.PortReady)
    (hl : s.path.requests.length < 32) (k : Fin 16) {w : Nat} (hw : w < 128) (ha : b.addr = s.base + 512 * k.val + 4 * w) :
    exec c s = .next ((State.slotWords k w b.words s).withRequest (.write b)) := by
  have hd : decodeArea s.base b.addr = .slot k w := by
    rw [ha, show s.base + 512 * k.val + 4 * w = s.base + (512 * k.val + 4 * w + 0) by omega,
      decodeArea_inside (by have := k.isLt; omega), partOf_slot k hw (by omega)]
  have hacc : s.accepts (.write b) = true := by
    apply accepts_true hr
    rw [entries_write, if_neg (by have := k.isLt; omega)]; omega
  rw [exec_asWrite hc hb hr.1, State.present_accepted hr.2.2.2 hr.1.2 hacc]
  show Host.Outcome.next (s.acceptWriteAt b (decodeArea s.base b.addr)) = _
  rw [hd]
  rfl

/-- The mask of the bytes whose enable is set. -/
def byteMask (en : BitVec 4) : Word :=
    (if en.getLsbD 0 then 0x000000FF else 0) ||| (if en.getLsbD 1 then 0x0000FF00 else 0) |||
    (if en.getLsbD 2 then 0x00FF0000 else 0) ||| (if en.getLsbD 3 then 0xFF000000 else 0)

/-- A bit of the mask is the enable of its byte. -/
theorem byteMask_bit : ∀ (n : Fin 16) (j : Fin 32), (byteMask (BitVec.ofFin n)).getLsbD j.val = (BitVec.ofFin n : BitVec 4).getLsbD (j.val / 8) := by
  decide +kernel

/-- A bit after a merge is the new one where its byte is enabled (R153). -/
theorem mergeBytes_bit (old new : Word) (en : BitVec 4) (j : Nat) (hj : j < 32) :
    (mergeBytes old new en).getLsbD j = (if en.getLsbD (j / 8) then new.getLsbD j else old.getLsbD j) := by
  show ((old &&& ~~~(byteMask en)) ||| (new &&& byteMask en)).getLsbD j = _
  have h := byteMask_bit en.toFin ⟨j, hj⟩
  simp only [BitVec.ofFin_toFin] at h
  simp only [BitVec.getLsbD_or, BitVec.getLsbD_and, BitVec.getLsbD_not, hj, decide_true, Bool.true_and, h]
  cases en.getLsbD (j / 8) <;> simp

/-- Parameter words into an IDLE slot merge into its shadow and change nothing else (R153). -/
theorem slotWords_idle (k : Fin 16) (xs : List Lane) : ∀ (w : Nat) (s : State), (s.slot k).state = .idle → w + xs.length ≤ 48 →
    State.slotWords k w xs s = { s with path.slots := (State.slotWords k w xs s).path.slots } ∧
    (∀ j, j ≠ k → (State.slotWords k w xs s).slot j = s.slot j) ∧
    (State.slotWords k w xs s).slot k = { s.slot k with shadow := ((State.slotWords k w xs s).slot k).shadow } ∧
    ∀ i, i < 48 → ((State.slotWords k w xs s).slot k).word i =
        (if w ≤ i then
          match xs[i - w]? with
          | some x => mergeBytes ((s.slot k).word i) x.data x.en
          | none => (s.slot k).word i
         else (s.slot k).word i) := by
  induction xs with
  | nil => intro w s hi hw; refine ⟨rfl, fun _ _ => rfl, rfl, fun i hi => ?_⟩; simp [State.slotWords]
  | cons x rest ih =>
    intro w s hi hw
    simp only [List.length_cons] at hw
    have hone : s.slotWord k w x = if x.en = 0 then s else s.capturedWord k w x := by
      unfold State.slotWord Slot.isIdle
      simp only [hi]
      split
      · rfl
      · rw [if_neg (by omega), if_neg (by decide), if_pos (by omega)]
    have hcap : ∀ j, (s.slotWord k w x).slot j = if k = j ∧ x.en ≠ 0 then { s.slot k with shadow := (s.slot k).shadow.setIfInBounds w (mergeBytes ((s.slot k).word w) x.data x.en) } else s.slot j := by
      intro j
      rw [hone]
      split
      · rename_i he; simp [he]
      · rename_i he
        unfold State.capturedWord
        rw [State.slot_setSlot]
        by_cases hkj : k = j
        · rw [if_pos hkj, if_pos ⟨hkj, he⟩]
        · rw [if_neg hkj, if_neg (fun h => hkj h.1)]
    have hidle : ((s.slotWord k w x).slot k).state = .idle := by
      rw [hcap]; split <;> exact hi
    obtain ⟨h1, h2, h3, h4⟩ := ih (w + 1) (s.slotWord k w x) hidle (by omega)
    have e : State.slotWords k w (x :: rest) s = State.slotWords k (w + 1) rest (s.slotWord k w x) := rfl
    rw [e]
    refine ⟨?_, ?_, ?_, ?_⟩
    · rw [h1, hone]
      split <;> rfl
    · intro j hj
      rw [h2 j hj, hcap, if_neg (by simp [Ne.symm hj])]
    · rw [h3, hcap]; split <;> rfl
    · intro i hi'
      rw [h4 i hi', hcap]
      have hword : ∀ (v : Word), Slot.word { s.slot k with shadow := (s.slot k).shadow.setIfInBounds w v } i = if w = i then v else (s.slot k).word i := by
        intro v
        unfold Slot.word
        simp only [Vector.getElem?_setIfInBounds]
        split
        · rename_i hwi; subst hwi; simp [hi']
        · rfl
      by_cases hwi : w = i
      · subst hwi
        rw [if_neg (by omega), if_pos (le_refl _)]
        simp only [Nat.sub_self, List.getElem?_cons_zero]
        split
        · rw [hword, if_pos rfl]
        · rename_i he
          simp only [true_and, Decidable.not_not, ne_eq, not_not] at he
          rw [he]
          apply BitVec.eq_of_getLsbD_eq
          intro j hj
          rw [mergeBytes_bit _ _ _ _ hj]; simp
      · have hs : ∀ sl : Slot, sl = (if k = k ∧ x.en ≠ 0 then { s.slot k with shadow := (s.slot k).shadow.setIfInBounds w (mergeBytes ((s.slot k).word w) x.data x.en) } else s.slot k) → sl.word i = (s.slot k).word i := by
          intro sl h; subst h
          split
          · rw [hword, if_neg hwi]
          · rfl
        rw [hs _ rfl]
        by_cases hle : w + 1 ≤ i
        · rw [if_pos hle, if_pos (by omega)]
          obtain ⟨m, hm⟩ : ∃ m, i - w = m + 1 := ⟨i - w - 1, by omega⟩
          rw [hm, show i - (w + 1) = m by omega, List.getElem?_cons_succ]
        · rw [if_neg hle, if_neg (by omega)]

/-- Words 48 to 126 of an IDLE slot change nothing. -/
theorem slotWords_answer (k : Fin 16) (xs : List Lane) : ∀ (w : Nat) (s : State), (s.slot k).state = .idle → 48 ≤ w → w + xs.length < 128 →
    State.slotWords k w xs s = s := by
  induction xs with
  | nil => intro w s _ _ _; rfl
  | cons x rest ih =>
    intro w s hi h48 hw
    simp only [List.length_cons] at hw
    have hone : s.slotWord k w x = s := by
      unfold State.slotWord Slot.isIdle
      simp only [hi]
      split
      · rfl
      · rw [if_neg (by omega), if_neg (by decide), if_neg (by omega)]
    show State.slotWords k (w + 1) rest (s.slotWord k w x) = s
    rw [hone, ih _ _ hi (by omega) (by omega)]

/-- Setting ACCESS_FAULT twice is setting it once. -/
theorem withPathFlag_idem (s : State) : (s.withPathFlag 0x800).withPathFlag 0x800 = s.withPathFlag 0x800 := by
  unfold State.withPathFlag
  have h : (s.path.pathFlags ||| (0x800 : Word)) &&& 0x800 ≠ 0 := by
    intro h
    have := congrArg (fun v : Word => v.getLsbD 11) h
    simp at this
  simp only [if_neg h, BitVec.or_assoc, BitVec.or_self]

/-- Raising ACCESS_FAULT is setting it, with G1 dirty if it was clear. -/
theorem raisePath_access (s : State) : s.raisePath .accessFault = s.withPathFlag 0x800 := by
  have h := State.raisePath_path s .accessFault
  unfold State.raisePath
  show (if s.path.pathFlags &&& 0x800 = 0 then _ else _) = _
  unfold State.withPathFlag
  split
  · rfl
  · rename_i hne
    have : s.path.pathFlags ||| (0x800 : Word) = s.path.pathFlags := PathFlag.or_of_set s.path.pathFlags .accessFault hne
    rw [this]

/-- Words into a busy slot: ACCESS_FAULT when one carries a byte enable, else nothing (R153). -/
theorem slotWords_busy (k : Fin 16) (xs : List Lane) : ∀ (w : Nat) (s : State), (s.slot k).state ≠ .idle →
    ((∃ x ∈ xs, x.en ≠ 0) → State.slotWords k w xs s = s.withPathFlag 0x800) ∧
    ((∀ x ∈ xs, x.en = 0) → State.slotWords k w xs s = s) := by
  induction xs with
  | nil => intro w s _; refine ⟨fun ⟨x, h, _⟩ => by simp at h, fun _ => rfl⟩
  | cons x rest ih =>
    intro w s hb
    have hni : (s.slot k).isIdle = false := by
      unfold Slot.isIdle; simpa using hb
    have hone : s.slotWord k w x = if x.en = 0 then s else s.withPathFlag 0x800 := by
      unfold State.slotWord State.goWord
      split
      · rfl
      · split
        · rw [if_pos (.inl hni), raisePath_access]
        · simp only [hni, if_true, raisePath_access]
    have hb' : ((s.withPathFlag 0x800).slot k).state ≠ .idle := hb
    constructor
    · intro ⟨y, hy, hye⟩
      show State.slotWords k (w + 1) rest (s.slotWord k w x) = _
      rw [hone]
      by_cases hx : x.en = 0
      · rw [if_pos hx]
        have : y ∈ rest := by
          rcases List.mem_cons.mp hy with h | h
          · subst h; exact absurd hx hye
          · exact h
        exact (ih _ _ hb).1 ⟨y, this, hye⟩
      · rw [if_neg hx]
        by_cases hr : ∃ z ∈ rest, z.en ≠ 0
        · rw [(ih _ _ hb').1 hr, withPathFlag_idem]
        · exact (ih _ _ hb').2 (by push Not at hr; exact hr)
    · intro hall
      show State.slotWords k (w + 1) rest (s.slotWord k w x) = _
      rw [hone, if_pos (hall x (by simp))]
      exact (ih _ _ hb).2 fun z hz => hall z (by simp [hz])

/-- The words of a burst are taken in order. -/
theorem slotWords_append (k : Fin 16) (xs ys : List Lane) : ∀ (w : Nat) (s : State),
    State.slotWords k w (xs ++ ys) s = State.slotWords k (w + xs.length) ys (State.slotWords k w xs s) := by
  induction xs with
  | nil => intro w s; rfl
  | cons x rest ih =>
    intro w s
    show State.slotWords k (w + 1) (rest ++ ys) (s.slotWord k w x) = _
    rw [ih, List.length_cons, show w + 1 + rest.length = w + (rest.length + 1) by omega]
    rfl

/-- A discard is what `Discards` says (R95). -/
theorem discard_discards (s : State) (i : Fin 8) (f : PathFlag) : s.Discards i f.bit (s.discard i f) := by
  unfold State.discard
  have h := State.raisePath_path (s.setStation i { s.station i with discarded := satAdd (s.station i).discarded 1 }) f
  have h2 := State.setStation_path s i { s.station i with discarded := satAdd (s.station i).discarded 1 }
  unfold State.Discards
  generalize hx : (s.setStation i { s.station i with discarded := satAdd (s.station i).discarded 1 }).raisePath f = t
  have e : t = { s with path := t.path } := by
    rw [← hx]
    unfold State.raisePath State.setStation State.markIf
    split <;> split <;> rfl
  rw [hx] at h
  rw [e, h, h2]
  rfl

/-- A recording is what `Records` says (R94). -/
theorem record_records (s : State) (i : Fin 8) (d : LiveData) (b c : Nat) (v : Word) (h : (s.station i).state = .live d) :
    s.Records i d b c v (s.record i b c v) := by
  unfold State.record
  rw [Station.live?_eq.mpr h]
  unfold State.Records State.setLive
  dsimp only
  rw [State.setStation_path]
  unfold State.setStation State.markIf
  split <;> rfl

/-- A word that R92 passes is offered a place in its bin. -/
theorem word_place {i : Fin 8} {R : Nat} {run : IntakeRun} {w : Nat} {x : Lane} {d : LiveData} {b : Nat} (he : x.en = 0xF)
    (hf : run.state.Files i R w d b) (h1 : d.sealedBin < (b : Int))
    (h2 : d.highest - (run.state.station i).d.slotCount < (b : Int)) :
    run.word i R w x = run.place i d b w x.data := by
  obtain ⟨hp, h4, hc, p, hp1, hp2, hb⟩ := hf
  unfold IntakeRun.word IntakeRun.channel; dsimp only
  rw [if_neg (by rw [he]; decide), if_neg (by simp [he, hp]; omega), Station.live?_eq.mpr hp]
  have hx : (R : Int) - ((run.state.station i).d.offsets[w - 4]?).getD 0 = p := hp1.symm
  dsimp only
  rw [hx, if_neg (by unfold maxPos; omega), Int.toNat_natCast, ← hb, if_neg (by omega)]

/-- A bin that needs a victim can be opened when the victim lies below it and the queue has the places (R93). -/
theorem canOpen_victim {s : State} {i : Fin 8} {d : LiveData} {b x : Nat} (h : (tableGet b d.bins).isSome = false)
    (hv : d.victim (s.station i).d.slotCount b = some x) :
    s.canOpen i d b = true ↔ x < b ∧ d.binsUpTo x ≤ s.bookkeepingFree := by
  unfold State.canOpen
  rw [h, hv]; simp

/-- A read burst into an aperture, once accepted. -/
theorem exec_apertureRead {c : Instr} {b : ReadBurst} (hc : c ∈ asRead b) (hb : b.wf = true) {s : State} (hr : s.PortReady)
    (hl : s.path.requests.length ≤ 30) (k : Fin 8) {i w : Nat} (hi : i < 1024) (hw : w < 16)
    (ha : b.addr = s.base + 0x10000 + 65536 * k.val + 64 * i + 4 * w) :
    exec c s = .next (s.acceptAperture k i w b.count) := by
  have hd : decodeArea s.base b.addr = .aperture k i w := by
    rw [ha, show s.base + 0x10000 + 65536 * k.val + 64 * i + 4 * w = s.base + (0x10000 + 65536 * k.val + 64 * i + 4 * w + 0) by omega,
      decodeArea_inside (by have := k.isLt; omega), partOf_aperture k hi hw (by omega)]
  have hacc : s.accepts (.read b) = true := by
    apply accepts_true hr
    rw [entries_read, if_pos (by have := k.isLt; omega)]; omega
  rw [exec_asRead hc hb hr.1, State.present_accepted hr.2.2.2 hr.1.2 hacc]
  show Host.Outcome.next (s.acceptReadAt b (decodeArea s.base b.addr)) = _
  rw [hd]
  rfl

/-- The judgement of a point of a cursor that is not CLOSED (R128). -/
theorem judgePoint_of {s : State} {k : Fin 8} {d : CursorDef} {t : List Resolved} (h : s.cursor k = .resolving d t ∨ s.cursor k = .ready d t) (i : Nat) :
    s.judgePoint k i = if d.count ≤ i then .answer .noPoint 0 0 0
    else
      match t[i]? with
      | none => .answer .notReady 0 0 (d.target? i)
      | some r => s.judgeResolved d r (d.target? i) := by
  unfold State.judgePoint
  rcases h with h | h <;> rw [h] <;> rfl

/-- A point judged without memory is answered at once (R129). -/
theorem answer_of {s : State} {k : Fin 8} {i w n : Nat} {st : PointStatus} {a p : Nat} {x : Int}
    (h : s.judgePoint k i = .answer st a p x) : s.acceptAperture k i w n = s.withAnswer w n st a p x := by
  unfold State.acceptAperture
  rw [h]; rfl

end Sys2Proof.Machine
end

