-- ==== Sys2Proof/Laws/Engines.lean ====
section
/-! SUPPORT. The arbiter, the mirror, the journal writer and the resolver: what each chooses (chapters 7, 8, 10). -/

namespace Sys2Proof.Machine

/-- When a read shares a byte with a write, enables counted (R147). -/
theorem sharesByte_iff (r : ReadBurst) (b : WriteBurst) : sharesByte r b = true ↔
    ∃ j x, b.words[j]? = some x ∧ x.en ≠ 0 ∧ r.addr ≤ b.addr + 4 * j ∧ b.addr + 4 * j < r.addr + 4 * r.count := by
  unfold sharesByte
  simp only [List.any_eq_true, List.mem_range, Bool.and_eq_true, decide_eq_true_eq]
  constructor
  · rintro ⟨j, hj, ⟨h1, h2⟩, h3⟩
    rw [List.getElem?_eq_getElem hj] at h1
    exact ⟨j, _, List.getElem?_eq_getElem hj, by simpa using h1, h2, h3⟩
  · rintro ⟨j, x, hx, h1, h2, h3⟩
    have hj : j < b.words.length := (List.getElem?_eq_some_iff.mp hx).1
    exact ⟨j, hj, ⟨by rw [hx]; simpa using h1, h2⟩, h3⟩

/-- A grant to the class the arbiter chooses. -/
theorem exec_grant {s : State} (hr : s.Ready) {c : GrantClass} (h : s.grantClass = some c) :
    exec .mSideGrant s = .next ((s.grantTo c).letIn) := by
  show afterTakes (fun s => s.grant) s = _
  rw [afterTakes_ready hr]
  unfold State.grant
  rw [h]

/-- Class B offers while the bookkeeping queue is not empty. -/
theorem bOffers_iff (s : State) : s.bOffers = true ↔ s.path.bookkeeping ≠ [] := by
  unfold State.bOffers; cases s.path.bookkeeping <;> simp

/-- Class F is granted only in OPEN, to a fill write. -/
theorem grantClass_f {s : State} (h : s.grantClass = some .f) : s.path.state = .opened ∧ s.fOffers = true := by
  unfold State.grantClass at h
  split at h
  · cases h
  · split at h
    · rename_i ho
      refine ⟨ho, ?_⟩
      split at h
      · rename_i hx; exact hx.1
      · split at h
        · cases h
        · split at h
          · cases h
          · split at h
            · cases h
            · split at h
              · assumption
              · cases h
    · split at h
      · cases h
      · split at h <;> cases h
    · cases h
    · cases h

/-- A grant of the F class (R88). -/
theorem grantTo_f {s : State} {i : Fin 8} {q : List (Fin 8)} {p : Nat} {d : StationDef} (hg : s.grantClass = some .f)
    (hq : s.path.prepQueue = i :: q) (hst : (s.station i).state = .preparing p) (hdef : (s.station i).defn = some d) :
    s.grantTo .f = State.fillStep { s with
      path.bCount := s.path.bCount, path.fCount := 0
      path.inProgress := some (.fWrite (fullBurst (d.ringBase + 64 * p) (emptyHeader d.tag))) } i := by
  obtain ⟨ho, hf⟩ := grantClass_f hg
  have hd : (s.station i).d = d := by unfold Station.d; rw [hdef]; rfl
  have h1 : s.fillWrite = some (i, fullBurst (d.ringBase + 64 * p) (emptyHeader d.tag)) := by
    unfold State.fillWrite
    rw [if_pos ho, hq]; dsimp only; rw [hst]; dsimp only; rw [hd]
  have h2 : (s.countGrant .f).fillWrite = s.fillWrite := by
    unfold State.countGrant; rw [if_pos ho]; rfl
  show (s.countGrant .f).grantF = _
  unfold State.grantF
  rw [h2, h1]
  dsimp only
  unfold State.countGrant
  rw [if_pos ho]
  rfl

/-- The first dirty group of the rotation. -/
theorem firstDirty_some (d : Vector Bool 39) : ∀ (n m : Nat) (r g : Fin 39), m < n →
    g.val = (r.val + m) % 39 → d[g] = true →
    (∀ (g' : Fin 39) (j : Nat), j < m → g'.val = (r.val + j) % 39 → d[g'] = false) → firstDirty d n r = some g := by
  intro n
  induction n with
  | zero => intro m r g h; omega
  | succ n ih =>
    intro m r g hm hg hd hall
    unfold firstDirty
    cases m with
    | zero =>
      have : g = r := Fin.ext (by omega)
      subst this
      rw [if_pos hd]
    | succ m =>
      have h0 := hall r 0 (by omega) (by omega)
      rw [h0]
      simp only [Bool.false_eq_true, if_false]
      apply ih m (nextGroup r) g (by omega) (by unfold nextGroup; simp only; omega) hd
      intro g' j hj hg'
      exact hall g' (j + 1) (by omega) (by unfold nextGroup at hg'; simp only at hg'; omega)

/-- With no group dirty there is none to take. -/
theorem firstDirty_none (d : Vector Bool 39) (h : ∀ g : Fin 39, d[g] = false) : ∀ (n : Nat) (r : Fin 39), firstDirty d n r = none := by
  intro n
  induction n with
  | zero => intro r; rfl
  | succ n ih => intro r; unfold firstDirty; rw [h r]; simp [ih]

/-- The mirror waits when a burst of it is on the wait list. -/
theorem mirrorWaits_iff (s : State) : s.mirrorWaits = true ↔ ∃ b, .mirror b ∈ s.path.waitList := by
  unfold State.mirrorWaits
  simp only [List.any_eq_true]
  constructor
  · rintro ⟨w, hw, h⟩
    cases w <;> simp at h
    exact ⟨_, hw⟩
  · rintro ⟨b, hb⟩; exact ⟨_, hb, rfl⟩

/-- The journal writer waits when a burst of it is on the wait list. -/
theorem journalWaits_iff (s : State) : s.journalWaits = true ↔ ∃ b, .journal b ∈ s.path.waitList := by
  unfold State.journalWaits
  simp only [List.any_eq_true]
  constructor
  · rintro ⟨w, hw, h⟩
    cases w <;> simp at h
    exact ⟨_, hw⟩
  · rintro ⟨b, hb⟩; exact ⟨_, hb, rfl⟩

/-- A place is free. -/
theorem canAppend_true {s : State} (h : s.path.waitList = []) (g : s.path.bookkeeping.length < 64) : s.canAppend = true := by
  unfold State.canAppend Config.bookkeepingCap; simp [h, g]

/-- No place is free. -/
theorem canAppend_false {s : State} (h : s.path.waitList ≠ [] ∨ 64 ≤ s.path.bookkeeping.length) : s.canAppend = false := by
  unfold State.canAppend Config.bookkeepingCap
  rcases h with h | h
  · cases hw : s.path.waitList <;> simp_all
  · simp; omega

/-- The rotation of the resolver by number. -/
theorem resolverOrder_eq : ∀ mark : Fin 8, resolverOrder mark = (List.finRange 8).map fun m => (⟨(mark.val + 1 + m.val) % 8, Nat.mod_lt _ (by decide)⟩ : Fin 8) := by
  decide

/-- The first cursor of the rotation that a test admits. -/
theorem find_resolverOrder (k mark : Fin 8) (n : Nat) (P : Fin 8 → Bool) (hn : n < 8)
    (hk : k.val = (mark.val + 1 + n) % 8) (hP : P k = true)
    (hall : ∀ (j : Fin 8) (m : Nat), m < n → j.val = (mark.val + 1 + m) % 8 → P j = false) :
    (resolverOrder mark).find? P = some k := by
  rw [resolverOrder_eq]
  rw [List.find?_eq_some_iff_getElem]
  refine ⟨hP, n, by simpa using hn, ?_, ?_⟩
  · simp; exact Fin.ext hk.symm
  · intro j hj
    simp
    exact hall _ j hj rfl

/-- A walk does not read the resolver mark. -/
theorem walkFrom_mark (s : State) (k : Fin 8) (l : LineId) (sd : Side) : ∀ (n : Nat) (r : Record) (q : Nat),
    State.walkFrom { s with path.resolverMark := k } l sd n r q = s.walkFrom l sd n r q := by
  intro n
  induction n with
  | zero => intro r q; rfl
  | succ n ih =>
    intro r q
    unfold State.walkFrom
    split
    · rfl
    · cases r.kind <;> dsimp only
      · have : State.entryHop { s with path.resolverMark := k } r q = s.entryHop r q := rfl
        rw [this]
        split <;> first | exact ih _ _ | rfl
      · split <;> first | exact ih _ _ | rfl

/-- Resolving a point does not read the resolver mark. -/
theorem resolve_mark (s : State) (k : Fin 8) (d : CursorDef) (x : Int) :
    State.resolve { s with path.resolverMark := k } d x = s.resolve d x := by
  have hw : State.walk { s with path.resolverMark := k } d x = s.walk d x := by
    unfold State.walk
    have : State.find { s with path.resolverMark := k } d.target = s.find d.target := rfl
    rw [this]
    cases s.find d.target with
    | none => rfl
    | some r =>
      dsimp only
      have : State.targetLength { s with path.resolverMark := k } r = s.targetLength r := rfl
      rw [this]
      split
      · rfl
      · exact walkFrom_mark _ _ _ _ _ _ _
  unfold State.resolve
  rw [hw]
  cases s.walk d x <;> rfl

end Sys2Proof.Machine
end

