-- ==== Sys2Proof/Laws/Judgement.lean ====
section
/-! SUPPORT. What the judgement of a directive reads: numbers, clear lines; effects up to dirty marks (chapter 9). -/

namespace Sys2Proof.Machine

/-- A word that names no line. -/
theorem lineOf_none {w : Word} (h : 4 ≤ w.toNat) : lineOf w = none := by unfold lineOf; rw [dif_neg (by omega)]

/-- A word that names a line. -/
theorem lineOf_some {w : Word} {l : LineId} (h : w.toNat = l.val) : lineOf w = some l := by
  unfold lineOf; rw [dif_pos (by have := l.isLt; omega)]; simp [h]

/-- A word that names no station or cursor. -/
theorem eightOf_none {w : Word} (h : 8 ≤ w.toNat) : eightOf w = none := by unfold eightOf; rw [dif_neg (by omega)]

/-- A word that names a station or cursor. -/
theorem eightOf_some {w : Word} {l : Fin 8} (h : w.toNat = l.val) : eightOf w = some l := by
  unfold eightOf; rw [dif_pos (by have := l.isLt; omega)]; simp [h]

/-- A directive that is executed, with an effect given up to dirty marks. -/
theorem runs_done_up_to_marks {i : Instr} {code : BitVec 8} {f : (Nat → Word) → State → DirOutcome}
    (h : directiveOf i = some (code, f)) {s : State} {k : Fin 16} (ht : s.Takes k code) {e u : State} {a : List Word}
    (hu : u = { e with path.dirty := u.path.dirty }) (hm : MarksKept e.path.dirty u.path.dirty)
    (hf : f (s.param k) (s.beginDirective k) = .done u a) : Runs i s e k none a := by
  apply runs_done h ht hm
  rw [hf, ← hu]

/-- A directive that the unit does not take changes nothing (R156). -/
theorem directive_not_taken {s : State} {code : BitVec 8} (h : ∀ k, ¬s.Takes k code) (hp : s.powered = true) (f) : s.directive code f = s := by
  unfold State.directive State.headSlot
  split
  · rfl
  · rename_i k hk
    split at hk
    · rename_i hc
      split
      · rename_i hcode; exact absurd ⟨hp, hc.1, hc.2, hk, hcode⟩ (h k)
      · rfl
    · cases hk

/-- Replacing a line unit, up to dirty marks. -/
theorem setLine_eq (s : State) (l : LineId) (ln : Line) :
    s.setLine l ln = { s.withLine l ln with path.dirty := (s.setLine l ln).path.dirty } ∧ MarksKept s.path.dirty (s.setLine l ln).path.dirty := by
  constructor
  · unfold State.setLine State.markIf; split <;> rfl
  · rw [State.setLine_path]; exact MarksKept.ite (MarksKept.set _ _ _) (MarksKept.refl _)

/-- Marks kept are kept when both sides gain one. -/
theorem MarksKept.set_both {a b : Vector Bool 39} (h : MarksKept a b) (i : Nat) (hi : i < 39) : MarksKept (a.set i true hi) (b.set i true hi) := by
  intro j hj
  have := h j
  simp only [Fin.getElem_fin, Vector.getElem_set] at hj this ⊢
  split
  · rfl
  · rename_i hne; rw [if_neg hne] at hj; exact this hj

/-- Taking a directive leaves the lines. -/
theorem beginDirective_line (s : State) (k : Fin 16) (l : LineId) : (s.beginDirective k).line l = s.line l := rfl

/-- No member is found exactly when none passes the test. -/
theorem find?_isNone_iff {α} (p : α → Bool) (xs : List α) : (xs.find? p).isNone = true ↔ ∀ x ∈ xs, p x = false := by
  rw [Option.isNone_iff_eq_none, List.find?_eq_none]; simp

/-- The test of a clear line is what `Clear` says (R7). -/
theorem lineClear_iff (s : State) (l : LineId) : s.lineClear l = true ↔ s.Clear l := by
  unfold State.lineClear State.Clear State.findOpen
  simp only [Bool.and_eq_true, List.isEmpty_iff, find?_isNone_iff, Bool.and_eq_false_iff, decide_eq_false_iff_not, beq_eq_false_iff_ne]
  constructor
  · rintro ⟨⟨⟨h1, h2⟩, h3⟩, h4⟩
    exact ⟨h1, h2, fun r hr hl => ⟨(h3 r hr).resolve_left (fun h => h hl), (h4 r hr).resolve_left (fun h => h hl)⟩⟩
  · rintro ⟨h1, h2, h3⟩
    refine ⟨⟨⟨h1, h2⟩, fun r hr => ?_⟩, fun r hr => ?_⟩
    · by_cases hl : r.line = l
      · exact .inr (h3 r hr hl).1
      · exact .inl hl
    · by_cases hl : r.line = l
      · exact .inr (h3 r hr hl).2
      · exact .inl hl

end Sys2Proof.Machine
end

