-- ==== Sys2Proof/Laws/Settling.lean ====
section
/-! SUPPORT. Records of the coil table by serial: finding, changing and settling one, and what a settling leaves. -/

namespace Sys2Proof.Machine

/-- The records of a table with one function applied to the record of a serial, places unchanged. -/
def mapSerial (n : Nat) (f : Record → Record) (places : List (Nat × Record)) : List (Nat × Record) :=
  places.map fun e => (e.1, if e.2.serial = n then f e.2 else e.2)

theorem State.modify_places (s : State) (n : Nat) (f : Record → Record) :
    (s.modify n f).track.table.places = mapSerial n f s.track.table.places := by
  show List.map _ _ = List.map _ _
  apply List.map_congr_left
  intro e _
  by_cases h : e.2.serial = n <;> simp [h]

/-- Changing a record is changing the places of the table and nothing else. -/
theorem State.modify_eq (s : State) (n : Nat) (f : Record → Record) :
    s.modify n f = { s with track.table.places := mapSerial n f s.track.table.places } := by
  rw [← State.modify_places]; rfl

theorem mapSerial_serials (n : Nat) (f : Record → Record) (hf : ∀ r, (f r).serial = r.serial)
    (places : List (Nat × Record)) : (mapSerial n f places).map (·.2.serial) = places.map (·.2.serial) := by
  unfold mapSerial
  rw [List.map_map]
  apply List.map_congr_left
  intro e _
  by_cases h : e.2.serial = n <;> simp [h, hf]

theorem find?_serial (places : List (Nat × Record)) (n : Nat) (r : Record)
    (h : (places.find? fun e => e.2.serial == n).map (·.2) = some r) : r.serial = n ∧ ∃ p, (p, r) ∈ places := by
  obtain ⟨e, he, rfl⟩ := Option.map_eq_some_iff.1 h
  exact ⟨by simpa using List.find?_some he, e.1, List.mem_of_find?_eq_some he⟩

theorem CoilTable.find_some {t : CoilTable} {n : Nat} {r : Record} (h : t.find n = some r) :
    r.serial = n ∧ r ∈ t.records := by
  obtain ⟨h1, p, h2⟩ := find?_serial _ _ _ h
  exact ⟨h1, List.mem_map.2 ⟨_, h2, rfl⟩⟩

theorem CoilTable.find_none {t : CoilTable} {n : Nat} (h : ∀ r ∈ t.records, r.serial ≠ n) : t.find n = none := by
  unfold CoilTable.find
  rw [List.find?_eq_none.2]
  · rfl
  · intro e he
    simpa using h _ (List.mem_map.2 ⟨e, he, rfl⟩)

/-- With no serial repeated, a record of the table is the one found under its serial. -/
theorem CoilTable.find_of_mem {t : CoilTable} (hn : (t.records.map (·.serial)).Nodup) {r : Record} (h : r ∈ t.records) :
    t.find r.serial = some r := by
  unfold CoilTable.records at hn h
  unfold CoilTable.find
  generalize t.places = ps at hn h
  induction ps with
  | nil => cases h
  | cons e rest ih =>
    simp only [List.map_cons, List.nodup_cons] at hn
    rw [List.find?_cons]
    rcases List.mem_cons.1 h with rfl | h
    · simp
    · have : e.2.serial ≠ r.serial := fun he => hn.1 (he ▸ List.mem_map.2 ⟨r, h, rfl⟩)
      have hb : (e.2.serial == r.serial) = false := by simpa using this
      rw [hb]
      exact ih hn.2 h

theorem CoilTable.find_map (t : CoilTable) (f : Record → Record) (hf : ∀ r, (f r).serial = r.serial) (n : Nat) :
    CoilTable.find { t with places := t.places.map fun e => (e.1, f e.2) } n = (t.find n).map f := by
  unfold CoilTable.find
  rw [List.find?_map]
  have : ((fun e : Nat × Record => e.2.serial == n) ∘ fun e : Nat × Record => (e.1, f e.2)) = fun e => e.2.serial == n := by
    funext e; simp [hf]
  rw [this]
  cases t.places.find? fun e => e.2.serial == n <;> rfl

/-- What is found after a record has been changed. -/
theorem State.find_modify (s : State) (n m : Nat) (f : Record → Record) (hf : ∀ r, (f r).serial = r.serial) :
    (s.modify n f).find m = (s.find m).map fun r => if r.serial = n then f r else r := by
  unfold State.find
  rw [State.modify_eq]
  exact CoilTable.find_map s.track.table (fun r => if r.serial = n then f r else r)
    (by intro r; by_cases h : r.serial = n <;> simp [h, hf]) m

theorem State.find_modify_self {s : State} {n : Nat} {r : Record} (h : s.find n = some r) (f : Record → Record)
    (hf : ∀ r, (f r).serial = r.serial) : (s.modify n f).find n = some (f r) := by
  rw [State.find_modify _ _ _ _ hf, h]
  simp [(CoilTable.find_some h).1]

theorem State.find_modify_ne (s : State) {n m : Nat} (h : m ≠ n) (f : Record → Record)
    (hf : ∀ r, (f r).serial = r.serial) : (s.modify n f).find m = s.find m := by
  rw [State.find_modify _ _ _ _ hf]
  cases hx : s.find m with
  | none => rfl
  | some r => simp [(CoilTable.find_some hx).1, h]

/-! ## The log and the flags leave the table, the backlog and the next number -/

theorem State.raiseTrack_rest (s : State) (f : TrackFlag) :
    (s.raiseTrack f).track.table = s.track.table ∧ (s.raiseTrack f).track.backlog = s.track.backlog ∧
      (s.raiseTrack f).track.nextSeq = s.track.nextSeq ∧ (s.raiseTrack f).track.anomalies = s.track.anomalies ∧
      (s.raiseTrack f).track.anomalyCount = s.track.anomalyCount := by
  unfold State.raiseTrack; split <;> exact ⟨rfl, rfl, rfl, rfl, rfl⟩

theorem State.judgeBacklog_rest (s : State) :
    s.judgeBacklog.track.table = s.track.table ∧ s.judgeBacklog.track.backlog = s.track.backlog ∧
      s.judgeBacklog.track.nextSeq = s.track.nextSeq ∧ s.judgeBacklog.track.anomalies = s.track.anomalies ∧
      s.judgeBacklog.track.anomalyCount = s.track.anomalyCount := by
  unfold State.judgeBacklog
  split
  · exact State.raiseTrack_rest _ _
  · exact ⟨rfl, rfl, rfl, rfl, rfl⟩

theorem State.judgeAnnounce_rest (s : State) :
    s.judgeAnnounce.track.table = s.track.table ∧ s.judgeAnnounce.track.backlog = s.track.backlog ∧
      s.judgeAnnounce.track.nextSeq = s.track.nextSeq ∧ s.judgeAnnounce.track.anomalies = s.track.anomalies ∧
      s.judgeAnnounce.track.anomalyCount = s.track.anomalyCount := by
  unfold State.judgeAnnounce
  split
  · exact State.raiseTrack_rest _ _
  · exact ⟨rfl, rfl, rfl, rfl, rfl⟩

/-- An anomaly takes the log place its number names, and leaves table, backlog and next number (R168). -/
theorem State.anomaly_rest (s : State) (c : AnomalyCode) (l : Option LineId) (p n : Option Nat) :
    (s.anomaly c l p n).track.table = s.track.table ∧ (s.anomaly c l p n).track.backlog = s.track.backlog ∧
      (s.anomaly c l p n).track.nextSeq = s.track.nextSeq ∧
      (s.anomaly c l p n).track.anomalies = s.track.anomalies.set (s.track.anomalyCount.toNat % 32)
        (some { number := s.track.anomalyCount, time := s.track.clock, code := c, line := l, pos := p, serial := n })
        (Nat.mod_lt _ (by decide)) ∧
      (s.anomaly c l p n).track.anomalyCount = s.track.anomalyCount + 1 := by
  unfold State.anomaly
  simp only [State.mark_track]
  have h := State.raiseTrack_rest
    { s with
      track.anomalies := s.track.anomalies.set (s.track.anomalyCount.toNat % 32)
        (some { number := s.track.anomalyCount, time := s.track.clock, code := c, line := l, pos := p, serial := n })
        (Nat.mod_lt _ (by decide))
      track.anomalyCount := s.track.anomalyCount + 1 } .anomaly
  exact h

/-- A record that joins the backlog consumes the next number; there is an entry for it when there is room (R70, R163). -/
theorem State.joinBacklog_rest (s : State) (r : Record) :
    (s.joinBacklog r).track.table = s.track.table ∧ (s.joinBacklog r).track.nextSeq = s.track.nextSeq + 1 ∧
      (s.joinBacklog r).track.backlog = (if s.track.backlog.length < 128 then
        s.track.backlog ++ [{ seq := s.track.nextSeq, settledAt := s.track.clock, record := r }]
       else s.track.backlog) := by
  unfold State.joinBacklog Config.backlogCap
  split
  · obtain ⟨h1, h2, h3, -⟩ := State.judgeBacklog_rest (s.nextSequence.keepEntry
      { seq := s.track.nextSeq, settledAt := s.track.clock, record := r })
    exact ⟨h1, h3, h2⟩
  · obtain ⟨h1, h2, h3, -⟩ := State.anomaly_rest s.nextSequence .journalBacklogFull (some r.line) none (some r.serial)
    exact ⟨h1, h3, h2⟩

/-- What a settling leaves (R70): the record SETTLED in its place, one number consumed, one entry for it while there is
room. -/
theorem State.settle_rest {s : State} {n : Nat} {r : Record} (h : s.find n = some r) :
    (s.settle n).track.table = { s.track.table with places := mapSerial n Record.settled s.track.table.places } ∧
      (s.settle n).track.nextSeq = s.track.nextSeq + 1 ∧
      (s.settle n).track.backlog = (if s.track.backlog.length < 128 then
        s.track.backlog ++ [{ seq := s.track.nextSeq, settledAt := s.track.clock, record := r.settled }]
       else s.track.backlog) := by
  unfold State.settle
  rw [h]
  simp only [State.markIf_track, State.mark_track]
  obtain ⟨h1, h2, h3, -⟩ := State.raiseTrack_rest ((s.modify n Record.settled).joinBacklog r.settled) .recordSettled
  obtain ⟨g1, g2, g3⟩ := State.joinBacklog_rest (s.modify n Record.settled) r.settled
  refine ⟨?_, ?_, ?_⟩
  · rw [h1, g1, State.modify_eq]
  · rw [h3, g2]; rfl
  · rw [h2, g3]; rfl

/-- Raising a tracking flag sets its bit and changes nothing else of the tracking well (R169). -/
theorem State.raiseTrack_or (s : State) (f : TrackFlag) :
    (s.raiseTrack f).track = { s.track with trackingFlags := s.track.trackingFlags ||| f.bit } := by
  unfold State.raiseTrack
  split
  · rfl
  · rename_i h
    have : s.track.trackingFlags ||| f.bit = s.track.trackingFlags := by
      have key : ∀ k : Nat, k < 32 → ∀ w : Word, w &&& BitVec.twoPow 32 k ≠ 0 → w ||| BitVec.twoPow 32 k = w := by
        intro k hk w hw
        have hb : w.getLsbD k = true := by
          by_contra hc
          refine hw (BitVec.eq_of_getLsbD_eq fun j hj => ?_)
          by_cases hjk : j = k
          · subst hjk; simp at hc; simp [hc]
          · simp [BitVec.getLsbD_twoPow, Ne.symm hjk]
        refine BitVec.eq_of_getLsbD_eq fun j hj => ?_
        by_cases hjk : j = k
        · subst hjk; simp [hb]
        · simp [BitVec.getLsbD_twoPow, Ne.symm hjk]
      cases f
      · exact key 0 (by decide) _ h
      · exact key 1 (by decide) _ h
      · exact key 2 (by decide) _ h
      · exact key 3 (by decide) _ h
    rw [this]

/-- What an anomaly changes of the tracking well, whole (R168). -/
theorem State.anomaly_track (s : State) (c : AnomalyCode) (l : Option LineId) (p n : Option Nat) :
    (s.anomaly c l p n).track = { s.track with
      anomalies := (s.anomaly c l p n).track.anomalies, anomalyCount := s.track.anomalyCount + 1
      trackingFlags := s.track.trackingFlags ||| 0x1 } := by
  unfold State.anomaly
  simp only [State.mark_track]
  rw [State.raiseTrack_or]
  rfl

/-- What a settling changes of the tracking well, whole (R70, R163): an entry while there is room, else an anomaly. -/
theorem State.settle_track {s : State} {n : Nat} {r : Record} (h : s.find n = some r) :
    (s.settle n).track = { s.track with
      table := { s.track.table with places := mapSerial n Record.settled s.track.table.places }
      nextSeq := s.track.nextSeq + 1
      backlog := (s.settle n).track.backlog
      anomalies := if s.track.backlog.length < 128 then s.track.anomalies
        else (s.anomaly .journalBacklogFull (some r.line) none (some r.serial)).track.anomalies
      anomalyCount := if s.track.backlog.length < 128 then s.track.anomalyCount else s.track.anomalyCount + 1
      trackingFlags := s.track.trackingFlags ||| 0x2 ||| (if s.track.backlog.length < 128 then
        (if 95 ≤ s.track.backlog.length then 0x8 else 0) else 0x1) } := by
  unfold State.settle
  rw [h]
  simp only [State.markIf_track, State.mark_track]
  rw [State.raiseTrack_or]
  have hm : (s.modify n Record.settled).track =
      { s.track with table := { s.track.table with places := mapSerial n Record.settled s.track.table.places } } := by
    rw [State.modify_eq]
  unfold State.joinBacklog Config.backlogCap
  have hb : (s.modify n Record.settled).track.backlog = s.track.backlog := by rw [hm]
  rw [hb]
  by_cases hl : s.track.backlog.length < 128
  · rw [if_pos hl, if_pos hl, if_pos hl, if_pos hl]
    unfold State.judgeBacklog
    have hh : ∀ e : JournalEntry, ((s.modify n Record.settled).nextSequence.keepEntry e).backlogHigh =
        decide (95 ≤ s.track.backlog.length) := by
      intro e
      show decide (96 ≤ ((s.modify n Record.settled).track.backlog ++ [e]).length) = _
      rw [hb, List.length_append]
      simp
    rw [hh]
    by_cases h95 : 95 ≤ s.track.backlog.length
    · rw [if_pos (decide_eq_true h95), if_pos h95, State.raiseTrack_or]
      show Tracking.mk _ _ _ _ _ _ _ _ _ _ = _
      simp only [State.keepEntry, State.nextSequence, State.mark_track, hm, TrackFlag.bit, Tracking.mk.injEq, true_and, and_true]
      rw [BitVec.or_assoc, BitVec.or_assoc]
      rfl
    · rw [if_neg (by simpa using h95), if_neg h95]
      show Tracking.mk _ _ _ _ _ _ _ _ _ _ = _
      simp only [State.keepEntry, State.nextSequence, State.mark_track, hm, TrackFlag.bit, Tracking.mk.injEq, true_and, and_true]
      exact BitVec.or_zero.symm
  · rw [if_neg hl, if_neg hl, if_neg hl, if_neg hl, State.anomaly_track]
    have ha : ((s.modify n Record.settled).nextSequence.anomaly .journalBacklogFull (some r.settled.line) none
        (some r.settled.serial)).track.anomalies =
        (s.anomaly .journalBacklogFull (some r.line) none (some r.serial)).track.anomalies := by
      rw [(State.anomaly_rest _ _ _ _ _).2.2.2.1, (State.anomaly_rest s _ _ _ _).2.2.2.1]
      rfl
    rw [ha]
    show Tracking.mk _ _ _ _ _ _ _ _ _ _ = _
    simp only [State.nextSequence, State.mark_track, hm, TrackFlag.bit, Tracking.mk.injEq, true_and, and_true]
    rw [BitVec.or_assoc, BitVec.or_assoc]
    rfl

theorem State.settle_absent {s : State} {n : Nat} (h : s.find n = none) : s.settle n = s := by
  unfold State.settle; rw [h]

/-- A forced settling (R71): as a settling, of a record flagged FORCED. -/
theorem State.forceSettle_rest {s : State} {n : Nat} {r : Record} (h : s.find n = some r) :
    (s.forceSettle n).track.table =
        { s.track.table with places := mapSerial n (fun r => r.force.settled) s.track.table.places } ∧
      (s.forceSettle n).track.nextSeq = s.track.nextSeq + 1 ∧
      (s.forceSettle n).track.backlog = (if s.track.backlog.length < 128 then
        s.track.backlog ++ [{ seq := s.track.nextSeq, settledAt := s.track.clock, record := r.force.settled }]
       else s.track.backlog) := by
  have hf := State.find_modify_self h Record.force fun _ => rfl
  obtain ⟨h1, h2, h3⟩ := State.settle_rest hf
  refine ⟨?_, h2, h3⟩
  show (State.settle _ n).track.table = _
  rw [h1, State.modify_eq]
  simp only [CoilTable.mk.injEq, and_true]
  unfold mapSerial
  rw [List.map_map]
  apply List.map_congr_left
  intro e _
  by_cases hx : e.2.serial = n
  · simp [hx, Record.force]
  · simp [hx]

/-! ## Settling a list of records -/

theorem mapSerial_congr {n : Nat} {f g : Record → Record} {places : List (Nat × Record)}
    (h : ∀ e ∈ places, e.2.serial = n → f e.2 = g e.2) : mapSerial n f places = mapSerial n g places := by
  unfold mapSerial
  apply List.map_congr_left
  intro e he
  by_cases hx : e.2.serial = n
  · simp [hx, h e he hx]
  · simp [hx]

/-- The records of a list of serials, each settled in its place. -/
def settledList (ns : List Nat) (f : Record → Record) (places : List (Nat × Record)) : List (Nat × Record) :=
  places.map fun e => (e.1, if e.2.serial ∈ ns then f e.2 else e.2)

/-- An operation that settles the record of each serial of a list, where every serial names a record and none stands
twice: every record is settled once, in the list's order (R69, R70). -/
theorem settle_list {step : State → Nat → State} {f : Record → Record} (hf : ∀ r, (f r).serial = r.serial) (ns : List Nat) :
    ∀ (s : State), ns.Nodup → (∀ n ∈ ns, ∃ r, s.find n = some r) →
    (∀ u n r, n ∈ ns → u.find n = some r → s.find n = some r →
      (step u n).track.table = { u.track.table with places := mapSerial n f u.track.table.places } ∧
        (step u n).track.nextSeq = u.track.nextSeq + 1 ∧
        (step u n).track.backlog = (if u.track.backlog.length < 128 then
          u.track.backlog ++ [{ seq := u.track.nextSeq, settledAt := u.track.clock, record := f r }]
         else u.track.backlog)) →
    (ns.foldl step s).track.table = { s.track.table with places := settledList ns f s.track.table.places } ∧
      (ns.foldl step s).track.nextSeq = s.track.nextSeq + ns.length ∧
      (s.track.backlog.length + ns.length ≤ 128 →
        (ns.foldl step s).track.backlog.map (·.record.serial) = s.track.backlog.map (·.record.serial) ++ ns) := by
  induction ns with
  | nil =>
    intro s _ _ _
    refine ⟨?_, rfl, fun _ => by simp⟩
    simp [settledList]
  | cons n rest ih =>
    intro s hnd hfind hstep
    obtain ⟨hn, hrest⟩ := List.nodup_cons.1 hnd
    obtain ⟨r, hr⟩ := hfind n List.mem_cons_self
    obtain ⟨h1, h2, h3⟩ := hstep s n r List.mem_cons_self hr hr
    have hfd : ∀ m, m ≠ n → (step s n).find m = s.find m := by
      intro m hm
      have := State.find_modify_ne s (n := n) hm f hf
      rw [← this]
      show (step s n).track.table.find m = (s.modify n f).track.table.find m
      rw [h1, State.modify_eq]
    obtain ⟨g1, g2, g3⟩ := ih (step s n) hrest
      (fun m hm => by rw [hfd m (fun h => hn (h ▸ hm))]; exact hfind m (List.mem_cons_of_mem _ hm))
      (fun u m x hm hu hs => hstep u m x (List.mem_cons_of_mem _ hm) hu
        (by rwa [hfd m (fun h => hn (h ▸ hm))] at hs))
    refine ⟨?_, ?_, fun hlen => ?_⟩
    · rw [List.foldl_cons, g1, h1]
      simp only [CoilTable.mk.injEq, and_true]
      unfold settledList mapSerial
      rw [List.map_map]
      apply List.map_congr_left
      intro e _
      by_cases hx : e.2.serial = n
      · simp [hx, hf, hn]
      · simp [hx]
    · rw [List.foldl_cons, g2, h2, List.length_cons]; omega
    · rw [List.length_cons] at hlen
      rw [if_pos (by omega)] at h3
      rw [List.foldl_cons, g3 (by rw [h3]; simp only [List.length_append, List.length_cons, List.length_nil]; omega), h3]
      have : (f r).serial = n := by rw [hf]; exact (CoilTable.find_some hr).1
      simp [this]

theorem mem_insertAsc {n m : Nat} {xs : List Nat} : m ∈ insertAsc n xs ↔ m = n ∨ m ∈ xs := by
  induction xs with
  | nil => simp [insertAsc]
  | cons x rest ih =>
    unfold insertAsc
    split
    · simp
    · simp only [List.mem_cons, ih]; tauto

theorem insertAsc_perm (n : Nat) (xs : List Nat) : (insertAsc n xs).Perm (n :: xs) := by
  induction xs with
  | nil => exact List.Perm.refl _
  | cons x rest ih =>
    unfold insertAsc
    split
    · exact List.Perm.refl _
    · exact (ih.cons x).trans (List.Perm.swap _ _ _)

/-- Sorting keeps the members. -/
theorem sortAsc_perm (xs : List Nat) : (sortAsc xs).Perm xs := by
  induction xs with
  | nil => exact List.Perm.refl _
  | cons x rest ih => exact (insertAsc_perm _ _).trans (ih.cons x)

theorem insertAsc_sorted (n : Nat) {xs : List Nat} (h : xs.Pairwise (· ≤ ·)) : (insertAsc n xs).Pairwise (· ≤ ·) := by
  induction xs with
  | nil => simp [insertAsc]
  | cons x rest ih =>
    obtain ⟨h1, h2⟩ := List.pairwise_cons.1 h
    unfold insertAsc
    split
    · rename_i hx
      refine List.pairwise_cons.2 ⟨fun m hm => ?_, h⟩
      rcases List.mem_cons.1 hm with rfl | hm
      · exact hx
      · exact Nat.le_trans hx (h1 m hm)
    · rename_i hx
      refine List.pairwise_cons.2 ⟨fun m hm => ?_, ih h2⟩
      rcases mem_insertAsc.1 hm with rfl | hm
      · omega
      · exact h1 m hm

/-- Sorting puts the numbers in increasing order (R69). -/
theorem sortAsc_sorted (xs : List Nat) : (sortAsc xs).Pairwise (· ≤ ·) := by
  induction xs with
  | nil => exact List.Pairwise.nil
  | cons x rest ih => exact insertAsc_sorted x ih

/-! ## The settle checks of a station -/

theorem State.settleCheck_settles {s : State} {n : Nat} {r : Record} (h : s.find n = some r)
    (hm : s.meetsSettle r = true) : s.settleCheck n = s.settle n := by
  unfold State.settleCheck; rw [h]; simp [hm]

theorem State.settleCheck_not {s : State} {n : Nat} {r : Record} (h : s.find n = some r)
    (hm : s.meetsSettle r = false) : s.settleCheck n = s := by
  unfold State.settleCheck; rw [h]; simp [hm]

/-- The settle checks of a station that is not LIVE settle every THROUGH or CUT record of it, in increasing serial order
(R68, R69). -/
theorem State.settleStation_off {s : State} {i : Fin 8} (hoff : (s.station i).live? = none)
    (hnd : (s.track.table.records.map (·.serial)).Nodup) :
    ∃ ns : List Nat, ns.Pairwise (· ≤ ·) ∧
      ns.Perm ((s.track.table.records.filter fun r =>
        decide (r.station = i ∧ (r.state = .through ∨ r.state = .cut))).map (·.serial)) ∧
      (s.settleStation i).track.table =
        { s.track.table with places := settledAtStation i s.track.table.places } ∧
      (s.settleStation i).track.nextSeq = s.track.nextSeq + ns.length ∧
      (s.track.backlog.length + ns.length ≤ 128 →
        (s.settleStation i).track.backlog.map (·.record.serial) = s.track.backlog.map (·.record.serial) ++ ns) := by
  have hp : (fun r : Record => decide (r.station = i) && (r.state == .through || r.state == .cut)) =
      fun r => decide (r.station = i ∧ (r.state = .through ∨ r.state = .cut)) := by
    funext r; by_cases h1 : r.station = i <;> cases hs : r.state <;> simp [h1]
  refine ⟨sortAsc ((s.track.table.records.filter fun r =>
    decide (r.station = i ∧ (r.state = .through ∨ r.state = .cut))).map (·.serial)), sortAsc_sorted _, sortAsc_perm _, ?_⟩
  unfold State.settleStation
  rw [hp]
  generalize hxs : sortAsc ((s.track.table.records.filter fun r =>
    decide (r.station = i ∧ (r.state = .through ∨ r.state = .cut))).map (·.serial)) = xs
  have hperm : xs.Perm ((s.track.table.records.filter fun r =>
      decide (r.station = i ∧ (r.state = .through ∨ r.state = .cut))).map (·.serial)) := by
    rw [← hxs]; exact sortAsc_perm _
  have hmem : ∀ n, n ∈ xs ↔ ∃ r : Record, r ∈ s.track.table.records ∧ (r.station = i ∧ (r.state = .through ∨ r.state = .cut)) ∧
      r.serial = n := by
    intro n
    rw [hperm.mem_iff, List.mem_map]
    constructor
    · rintro ⟨r, hr, rfl⟩
      obtain ⟨h1, h2⟩ := List.mem_filter.1 hr
      exact ⟨r, h1, of_decide_eq_true h2, rfl⟩
    · rintro ⟨r, h1, h2, rfl⟩
      exact ⟨r, List.mem_filter.2 ⟨h1, decide_eq_true h2⟩, rfl⟩
  have hndx : xs.Nodup := hperm.nodup_iff.2 (hnd.sublist (List.Sublist.map _ List.filter_sublist))
  have key : ∀ (ys : List Nat) (u : State), u.path.stations = s.path.stations →
      (∀ n ∈ ys, ∃ r, u.find n = some r ∧ r.station = i ∧ (r.state = .through ∨ r.state = .cut)) → ys.Nodup →
      ys.foldl (fun acc n => acc.settleCheck n) u = ys.foldl (fun acc n => acc.settle n) u := by
    intro ys
    induction ys with
    | nil => intro u _ _ _; rfl
    | cons n rest ih =>
      intro u hu hr hd
      obtain ⟨hn, hd⟩ := List.nodup_cons.1 hd
      obtain ⟨r, h1, h2, h3⟩ := hr n List.mem_cons_self
      have hms : u.meetsSettle r = true := by
        unfold State.meetsSettle
        have : (u.station r.station).live? = none := by
          rw [h2]; unfold State.station; rw [hu]; exact hoff
        rw [this]
        rcases h3 with h3 | h3 <;> rw [h3] <;> rfl
      rw [List.foldl_cons, List.foldl_cons, State.settleCheck_settles h1 hms]
      apply ih
      · obtain ⟨⟨_, _, _, _, _, _, _, he⟩, -⟩ := TableFrame.settle u n
        rw [he]; exact hu
      · intro m hm
        obtain ⟨x, hx, h⟩ := hr m (List.mem_cons_of_mem _ hm)
        refine ⟨x, ?_, h⟩
        have hmn : m ≠ n := fun h => hn (h ▸ hm)
        rw [← hx, ← State.find_modify_ne u hmn Record.settled fun _ => rfl]
        show (u.settle n).track.table.find m = (u.modify n Record.settled).track.table.find m
        rw [(State.settle_rest h1).1, State.modify_eq]
      · exact hd
  rw [key xs s rfl (fun n hn => by
    obtain ⟨r, h1, h2, rfl⟩ := (hmem n).1 hn
    exact ⟨r, CoilTable.find_of_mem hnd h1, h2⟩) hndx]
  obtain ⟨h1, h2, h3⟩ := settle_list (f := Record.settled) (fun _ => rfl) xs s hndx
    (fun n hn => by
      obtain ⟨r, h1, h2, rfl⟩ := (hmem n).1 hn
      exact ⟨r, CoilTable.find_of_mem hnd h1⟩)
    (fun u n r _ hu _ => State.settle_rest hu)
  refine ⟨?_, h2, h3⟩
  rw [h1]
  simp only [CoilTable.mk.injEq, and_true]
  unfold settledList settledAtStation
  apply List.map_congr_left
  intro e he
  have hr : e.2 ∈ s.track.table.records := List.mem_map.2 ⟨e, he, rfl⟩
  by_cases hc : e.2.station = i ∧ (e.2.state = .through ∨ e.2.state = .cut)
  · rw [if_pos hc, if_pos ((hmem _).2 ⟨_, hr, hc, rfl⟩)]; rfl
  · rw [if_neg hc, if_neg]
    intro hx
    obtain ⟨r, h1, h2, h3⟩ := (hmem _).1 hx
    have ha := CoilTable.find_of_mem hnd h1
    have hb := CoilTable.find_of_mem hnd hr
    rw [h3, hb] at ha
    cases ha
    exact hc h2

end Sys2Proof.Machine
end

