-- ==== Sys2Proof/Laws/Lineage.lean ====
section
/-! SUPPORT. Owners of positions and the stop test of the lineage walk (chapters 5 and 7). -/

namespace Sys2Proof.Machine

/-- The stop test asks for the record of the requested station (R123). -/
theorem isAt_iff (r : Record) (l : LineId) (sd : Side) : r.isAt l sd = true ↔ r.station = stationOf l sd := by
  have hv : r.station.val = 2 * r.line.val + r.kind.code := rfl
  rw [Fin.ext_iff, hv]
  unfold Record.isAt stationOf Kind.code
  have := r.line.isLt; have := l.isLt
  cases hk : r.kind <;> cases sd <;> simp [Fin.ext_iff] <;> omega

/-- No record is found exactly when the test admits none. -/
theorem greatestSerial_none {p : Record → Bool} {rs : List Record} :
    greatestSerial p rs = none ↔ ∀ r ∈ rs, p r = false := by
  induction rs with
  | nil => simp [greatestSerial]
  | cons x rest ih =>
    simp only [greatestSerial, List.mem_cons, forall_eq_or_imp]
    cases hg : greatestSerial p rest with
    | none => simp only []; rw [← ih]; by_cases hx : p x = true <;> simp [hx, hg]
    | some m =>
      simp only []
      have : ¬ ∀ r ∈ rest, p r = false := by rw [← ih, hg]; simp
      constructor
      · intro h; split at h <;> cases h
      · intro h; exact absurd h.2 this

/-- The record found has the greatest serial of those the test admits. -/
theorem greatestSerial_some {p : Record → Bool} {rs : List Record} {r : Record} (h : greatestSerial p rs = some r) :
    r ∈ rs ∧ p r = true ∧ ∀ r' ∈ rs, p r' = true → r'.serial ≤ r.serial := by
  have none_case : ∀ rs : List Record, greatestSerial p rs = none → ∀ r ∈ rs, p r = false := by
    intro rs
    induction rs with
    | nil => simp
    | cons x rest ih =>
      intro h
      simp only [greatestSerial] at h
      split at h
      · rename_i hm
        split at h
        · cases h
        · rename_i hx; intro r hr
          rcases List.mem_cons.1 hr with rfl | hr
          · simpa using hx
          · exact ih hm r hr
      · split at h <;> cases h
  induction rs generalizing r with
  | nil => simp [greatestSerial] at h
  | cons x rest ih =>
    simp only [greatestSerial] at h
    split at h
    · rename_i hm
      split at h
      · cases h
        refine ⟨List.mem_cons_self, by assumption, fun r' hr' hp => ?_⟩
        rcases List.mem_cons.1 hr' with rfl | hr'
        · exact Nat.le_refl _
        · rw [none_case _ hm r' hr'] at hp; cases hp
      · cases h
    · rename_i m hm
      obtain ⟨h1, h2, h3⟩ := ih hm
      split at h
      · rename_i hx
        cases h
        simp only [Bool.and_eq_true, decide_eq_true_eq] at hx
        refine ⟨List.mem_cons_self, hx.1, fun r' hr' hp => ?_⟩
        rcases List.mem_cons.1 hr' with rfl | hr'
        · exact Nat.le_refl _
        · have := h3 r' hr' hp; omega
      · rename_i hx
        cases h
        refine ⟨List.mem_cons_of_mem _ h1, h2, fun r' hr' hp => ?_⟩
        rcases List.mem_cons.1 hr' with rfl | hr'
        · simp only [Bool.and_eq_true, decide_eq_true_eq, hp, true_and] at hx; omega
        · exact h3 r' hr' hp

/-- A span that holds a position (R97). -/
theorem spans_iff (r : Record) (pos : Nat) : r.spans pos = true ↔ r.start ≤ pos ∧ ∀ e, r.stop = some e → pos < e := by
  unfold Record.spans
  cases r.stop <;> simp

/-- The records of a station are those of its line and kind (R97). -/
theorem owner_test (r : Record) (i : Fin 8) : (decide (r.line = stationLine i) && r.kind == stationKind i) = true ↔ r.station = i := by
  have hv : r.station.val = 2 * r.line.val + r.kind.code := rfl
  rw [Fin.ext_iff (a := r.station), hv]
  unfold stationLine stationKind Kind.code
  have := r.line.isLt; have := i.isLt
  cases hk : r.kind <;> by_cases h : i.val % 2 = 0 <;> simp [Fin.ext_iff, h] <;> omega

/-- The first member that passes a test is found. -/
theorem find?_first {α} {p : α → Bool} {pre post : List α} {g : α} (h : ∀ x ∈ pre, p x = false) (hg : p g = true) :
   (pre ++ g :: post).find? p = some g := by
  rw [List.find?_append, List.find?_eq_none.2 (by simpa using h), List.find?_cons_of_pos hg]; rfl

/-- An anomaly leaves the lines. -/
theorem anomaly_line (s : State) (c a b d) (l : LineId) : (s.anomaly c a b d).line l = s.line l := by
  obtain ⟨⟨_, _, _, _, _, _, _, he⟩, -⟩ := TableFrame.anomaly s c a b d
  rw [he]; rfl

end Sys2Proof.Machine
end

