-- ==== Sys2Proof/Laws/Opening.lean ====
section
/-! SUPPORT. Allocating a place and opening a record, in a table with a place free (chapters 3 and 4). -/

namespace Sys2Proof.Machine

/-- A key that no entry has. -/
theorem tableGet_none {α} {k : Nat} {t : List (Nat × α)} : tableGet k t = none ↔ ∀ e ∈ t, e.1 ≠ k := by
  induction t with
  | nil => simp [tableGet]
  | cons e rest ih =>
    obtain ⟨j, v⟩ := e
    simp only [tableGet]
    split
    · rename_i h; simp [h]
    · rename_i h; rw [ih]; simp [h]

/-- The lowest free place (R61). -/
theorem lowestFree_eq {α} {t : List (Nat × α)} : ∀ {k place : Nat}, tableWf t = true → (∀ e ∈ t, k ≤ e.1) → k ≤ place →
    tableGet place t = none → (∀ j, k ≤ j → j < place → tableGet j t ≠ none) → lowestFree k t = place := by
  induction t with
  | nil =>
    intro k place _ _ hk _ h
    unfold lowestFree
    by_contra hne
    exact h k (Nat.le_refl _) (by omega) rfl
  | cons e rest ih =>
    intro k place hwf hge hk hn h
    obtain ⟨j, v⟩ := e
    rw [tableWf_cons] at hwf
    unfold lowestFree
    split
    · rename_i hjk
      subst hjk
      simp only [tableGet] at hn
      split at hn
      · cases hn
      · rename_i hne
        apply ih hwf.2 (fun e he => by have := hwf.1 e he; omega) (by omega) hn
        intro m hm hmp
        have := h m (by omega) hmp
        simp only [tableGet] at this
        rwa [if_neg (by omega)] at this
    · rename_i hjk
      by_contra hne
      have := h k (Nat.le_refl _) (by omega)
      apply this
      rw [tableGet_none]
      intro e he
      rcases List.mem_cons.1 he with rfl | he
      · exact hjk
      · have h1 := hwf.1 e he
        have h2 := hge (j, v) List.mem_cons_self
        dsimp only at h2
        omega

/-- An allocation in a table with a place free (R56, R61). -/
theorem allocate_free {s : State} {mk : Nat → Record} {place : Nat} (h : s.TableOk) (hp : place < 8192)
    (hn : tableGet place s.track.table.places = none) (hl : ∀ j, j < place → tableGet j s.track.table.places ≠ none) :
      s.allocate mk = (State.mark { s with
        track.table.places := tableSet place (mk s.track.table.nextSerial) s.track.table.places
        track.table.nextSerial :=
          if s.track.table.nextSerial = 4294967295 then 0 else s.track.table.nextSerial + 1 } 0) := by
  have hlf : lowestFree 0 s.track.table.places = place := lowestFree_eq h.1 (fun _ _ => Nat.zero_le _) (Nat.zero_le _) hn (fun j _ hj => hl j hj)
  have hm : s.makeRoom = s := by unfold State.makeRoom Config.places; rw [hlf, if_pos hp]
  unfold State.allocate CoilTable.adding
  rw [hm, hlf]
  rfl

/-- A record put in the place another has left. -/
theorem tableSet_full {t : List (Nat × Record)} (hwf : tableWf t = true) {place : Nat} {old v : Record} (hmem : (place, old) ∈ t) :
   tableSet place v (t.filter fun e => e.1 != place) = t.map fun e => if e.1 = place then (place, v) else e := by
  induction t with
  | nil => cases hmem
  | cons e rest ih =>
    obtain ⟨j, w⟩ := e
    rw [tableWf_cons] at hwf
    by_cases hj : j = place
    · subst hj
      have hr : ∀ e ∈ rest, e.1 ≠ j := fun e he => by have := hwf.1 e he; omega
      rw [List.filter_cons_of_neg (by simp), List.map_cons, if_pos rfl]
      rw [List.filter_eq_self.2 (by intro e he; simpa using hr e he)]
      have hm : rest.map (fun e => if e.1 = j then (j, v) else e) = rest := by
        conv_rhs => rw [← List.map_id rest]
        apply List.map_congr_left; intro e he; rw [if_neg (hr e he)]; rfl
      rw [hm]
      cases rest with
      | nil => rfl
      | cons f rest =>
        obtain ⟨m, x⟩ := f
        have := hwf.1 (m, x) List.mem_cons_self
        unfold tableSet; rw [if_pos this]
    · have hmem' : (place, old) ∈ rest := by
        rcases List.mem_cons.1 hmem with h | h
        · cases h; exact absurd rfl hj
        · exact h
      have hlt := hwf.1 _ hmem'
      dsimp only at hlt
      rw [List.filter_cons_of_pos (by simpa using hj), List.map_cons, if_neg hj]
      unfold tableSet
      rw [if_neg (by omega), if_neg hj, ih hwf.2 hmem']

/-- In a table of 8192 records every place is taken. -/
theorem full_places {t : List (Nat × Record)} (hwf : tableWf t = true) (hb : ∀ e ∈ t, e.1 < 8192) (hlen : t.length = 8192) (j : Nat) (hj : j < 8192) :
    tableGet j t ≠ none := by
  intro hn
  rw [tableGet_none] at hn
  have hnd : (t.map (·.1)).Nodup := by
    have : ∀ (t : List (Nat × Record)), tableWf t = true → (t.map (·.1)).Nodup := by
      intro t
      induction t with
      | nil => intro _; exact List.nodup_nil
      | cons e rest ih =>
        intro h
        obtain ⟨k, v⟩ := e
        rw [tableWf_cons] at h
        refine List.nodup_cons.2 ⟨?_, ih h.2⟩
        intro hm
        obtain ⟨x, hx, hxe⟩ := List.mem_map.1 hm
        have := h.1 x hx
        dsimp only at hxe
        omega
    exact this t hwf
  have hsub : (t.map (·.1)) ⊆ (List.range 8192).erase j := by
    intro x hx
    obtain ⟨e, he, rfl⟩ := List.mem_map.1 hx
    rw [List.Nodup.mem_erase_iff List.nodup_range]
    exact ⟨hn e he, List.mem_range.2 (hb e he)⟩
  have := (List.subperm_of_subset hnd hsub).length_le
  rw [List.length_map, hlen, List.length_erase_of_mem (List.mem_range.2 hj), List.length_range] at this
  omega

/-- The record of lowest serial of those a test admits is found (R61). -/
theorem lowestSerial_is {p : Record → Bool} {rs : List Record} {r : Record} (hr : r ∈ rs) (hp : p r = true)
    (hmin : ∀ x ∈ rs, p x = true → r.serial ≤ x.serial) (hnd : (rs.map (·.serial)).Nodup) : lowestSerial p rs = some r := by
  cases h : lowestSerial p rs with
  | none => rw [lowestSerial_none h r hr] at hp; cases hp
  | some m =>
    have hm := lowestSerial_some h
    have hle : ∀ {rs : List Record} {m : Record}, lowestSerial p rs = some m → ∀ x ∈ rs, p x = true → m.serial ≤ x.serial := by
      intro rs
      induction rs with
      | nil => intro m h; simp [lowestSerial] at h
      | cons y rest ih =>
        intro m h x hx hpx
        simp only [lowestSerial] at h
        split at h
        · rename_i hn
          split at h
          · cases h
            rcases List.mem_cons.1 hx with rfl | hx
            · exact Nat.le_refl _
            · rw [lowestSerial_none hn x hx] at hpx; cases hpx
          · cases h
        · rename_i m' hm'
          split at h
          · rename_i hy
            cases h
            simp only [Bool.and_eq_true, decide_eq_true_eq] at hy
            rcases List.mem_cons.1 hx with rfl | hx
            · exact Nat.le_refl _
            · have := ih hm' x hx hpx; omega
          · rename_i hy
            cases h
            rcases List.mem_cons.1 hx with rfl | hx
            · simp only [hpx, Bool.true_and, decide_eq_true_eq] at hy; omega
            · exact ih hm' x hx hpx
    have h1 := hle h r hr hp
    have h2 := hmin m hm.1 hm.2
    have heq : m.serial = r.serial := by omega
    have := List.inj_on_of_nodup_map hnd hm.1 hr heq
    rw [this]

/-- Of the tracking well only lines, table, log and flags change, and of the path well only dirty marks. -/
structure TrackRest (s t : State) : Prop where
  path : t.path = { s.path with dirty := t.path.dirty }
  clock : t.track.clock = s.track.clock
  backlog : t.track.backlog = s.track.backlog
  nextSeq : t.track.nextSeq = s.track.nextSeq

/-- Nothing changes. -/
theorem TrackRest.refl (s : State) : TrackRest s s := ⟨rfl, rfl, rfl, rfl⟩

/-- One change after another. -/
theorem TrackRest.trans {s t u : State} (h : TrackRest s t) (g : TrackRest t u) : TrackRest s u :=
  ⟨by rw [g.path, h.path], g.clock.trans h.clock, g.backlog.trans h.backlog, g.nextSeq.trans h.nextSeq⟩

/-- What an anomaly leaves as it is. -/
theorem anomaly_keeps (s : State) (c a b d) : (s.anomaly c a b d).track.lines = s.track.lines ∧ (s.anomaly c a b d).track.clock = s.track.clock ∧
   (s.anomaly c a b d).path = { s.path with dirty := (s.anomaly c a b d).path.dirty } := by
  obtain ⟨⟨_, _, _, _, _, _, _, he⟩, -⟩ := TableFrame.anomaly s c a b d
  refine ⟨?_, ?_, ?_⟩ <;> · rw [he]; rfl

/-- An anomaly changes log, flags and marks. -/
theorem anomaly_trackRest (s : State) (c a b d) : TrackRest s (s.anomaly c a b d) :=
  ⟨(anomaly_keeps s c a b d).2.2, (anomaly_keeps s c a b d).2.1, (State.anomaly_rest s c a b d).2.1, (State.anomaly_rest s c a b d).2.2.1⟩

/-- Replacing a line unit changes lines and marks. -/
theorem setLine_trackRest (s : State) (l : LineId) (ln : Line) : TrackRest s (s.setLine l ln) := by
  have h := (setLine_eq s l ln).1
  generalize s.setLine l ln = w at h
  rw [h]; exact ⟨rfl, rfl, rfl, rfl⟩

/-- Replacing a line unit leaves table and log. -/
theorem setLine_table (s : State) (l : LineId) (ln : Line) : (s.setLine l ln).track.table = s.track.table ∧ (s.setLine l ln).track.anomalies = s.track.anomalies ∧
   (s.setLine l ln).track.anomalyCount = s.track.anomalyCount := by
  have h := (setLine_eq s l ln).1
  generalize s.setLine l ln = w at h
  rw [h]; exact ⟨rfl, rfl, rfl⟩

/-- Judging ANNOUNCE_EMPTY changes flags and marks. -/
theorem judgeAnnounce_trackRest (s : State) : TrackRest s s.judgeAnnounce ∧ s.judgeAnnounce.track.lines = s.track.lines := by
  obtain ⟨⟨_, _, _, _, _, _, _, he⟩, -⟩ := TableFrame.judgeAnnounce s
  have := State.judgeAnnounce_rest s
  refine ⟨⟨?_, ?_, this.2.1, this.2.2.1⟩, ?_⟩ <;> · rw [he]; rfl

/-- Changing a record changes the table. -/
theorem modify_trackRest (s : State) (n f) : TrackRest s (s.modify n f) ∧ (s.modify n f).track.lines = s.track.lines ∧ (s.modify n f).track.anomalies = s.track.anomalies ∧
  (s.modify n f).track.anomalyCount = s.track.anomalyCount := ⟨⟨rfl, rfl, rfl, rfl⟩, rfl, rfl, rfl⟩

/-- Marking changes marks. -/
theorem markIf_trackRest (s : State) (c : Bool) (g) : TrackRest s (s.markIf c g) ∧ (s.markIf c g).track = s.track := by
  unfold State.markIf; split <;> exact ⟨⟨rfl, rfl, rfl, rfl⟩, rfl⟩

/-- What opening a record leaves, in a table with a place free (R37, R41, R46). -/
theorem openRecord_rest {s : State} {kind : Kind} {l : LineId} {p : Nat} {t : Time} {place n : Nat} (h : s.TableOk) (hp : place < 8192)
    (hn : tableGet place s.track.table.places = none) (hl : ∀ j, j < place → tableGet j s.track.table.places ≠ none)
    (hs : n = s.track.table.nextSerial) (h0 : n ≠ 0) :
    ∃ w, s.openRecord kind l p t = (w, n) ∧ TrackRest s w ∧
      w.track.table = { places := tableSet place (newRecord kind l p t ((s.line l).queue kind).head? n) s.track.table.places
                        nextSerial := if n = 4294967295 then 0 else n + 1, idMap := s.track.table.idMap } ∧
      w.line l = (s.line l).setQueue kind ((s.line l).queue kind).tail ∧ (∀ j, j ≠ l → w.line j = s.line j) ∧
      ((s.line l).queue kind ≠ [] → w.track.anomalies = s.track.anomalies ∧ w.track.anomalyCount = s.track.anomalyCount) ∧
      ((s.line l).queue kind = [] → w.track.anomalyCount = s.track.anomalyCount + 1 ∧
        w.track.anomalies = s.track.anomalies.set (s.track.anomalyCount.toNat % 32)
        (some { number := s.track.anomalyCount, time := s.track.clock, code := .noAnnouncement, line := some l, pos := some p, serial := some n })
        (Nat.mod_lt _ (by decide))) := by
  have hlf : lowestFree 0 s.track.table.places = place := lowestFree_eq h.1 (fun _ _ => Nat.zero_le _) (Nat.zero_le _) hn (fun j _ hj => hl j hj)
  have hc : s.canAllocate = true := by
    unfold State.canAllocate Config.places
    rw [hlf, ← hs]; simp [h0, hp]
  have hal := allocate_free (mk := newRecord kind l p t ((s.line l).queue kind).head?) h hp hn hl
  obtain ⟨a, ha⟩ : ∃ a, a = (s.allocate (newRecord kind l p t ((s.line l).queue kind).head?)).mark (lineGroup l) := ⟨_, rfl⟩
  have hat : a.track = { s.track with table := { places := tableSet place (newRecord kind l p t ((s.line l).queue kind).head? n) s.track.table.places, nextSerial := if n = 4294967295 then 0 else n + 1, idMap := s.track.table.idMap } } := by
    rw [ha, hal, hs]; rfl
  have hap : a.path = { s.path with dirty := a.path.dirty } := by rw [ha, hal]; rfl
  refine ⟨a.announced kind l ((s.line l).queue kind) p n, ?_, ?_⟩
  · unfold State.openRecord; rw [if_pos hc, ← hs, ← ha]
  clear ha hal
  have hra : TrackRest s a := ⟨hap, by rw [hat], by rw [hat], by rw [hat]⟩
  have hline : ∀ j, a.line j = s.line j := fun j => by unfold State.line; rw [hat]
  unfold State.announced
  cases hq : (s.line l).queue kind with
  | nil =>
    dsimp only
    obtain ⟨a1, a2, a3, a4, a5⟩ := State.anomaly_rest a .noAnnouncement (some l) (some p) (some n)
    have hli := (anomaly_keeps a .noAnnouncement (some l) (some p) (some n)).1
    refine ⟨hra.trans (anomaly_trackRest _ _ _ _ _), ?_, ?_, ?_, fun h => absurd rfl h, fun _ => ⟨?_, ?_⟩⟩
    · rw [a1, hat]; dsimp only; rw [hq]
    · unfold State.line at *; rw [hli, hat]; cases kind <;> (simp only [Line.queue] at hq; simp only [Line.setQueue, List.tail_nil]; rw [← hq])
    · intro j _; unfold State.line; rw [hli, hat]
    · rw [a5, hat]
    · rw [a4, hat]
  | cons x rest =>
    dsimp only
    have hset : (a.setQueue l kind rest).track.table = a.track.table ∧ TrackRest a (a.setQueue l kind rest) ∧ (a.setQueue l kind rest).track.anomalies = a.track.anomalies ∧
       (a.setQueue l kind rest).track.anomalyCount = a.track.anomalyCount ∧ (a.setQueue l kind rest).track.lines = (a.setLine l ((a.line l).setQueue kind rest)).track.lines := by
      have h1 := setLine_table a l ((a.line l).setQueue kind rest)
      have h2 := setLine_trackRest a l ((a.line l).setQueue kind rest)
      unfold State.setQueue
      cases kind
      · have h3 := judgeAnnounce_trackRest (a.setLine l ((a.line l).setQueue .entry rest))
        have h4 := State.judgeAnnounce_rest (a.setLine l ((a.line l).setQueue .entry rest))
        exact ⟨h4.1.trans h1.1, h2.trans h3.1, h4.2.2.2.1.trans h1.2.1, h4.2.2.2.2.trans h1.2.2, h3.2⟩
      · exact ⟨h1.1, h2, h1.2.1, h1.2.2, rfl⟩
    obtain ⟨b1, b2, b3, b4, b5⟩ := hset
    refine ⟨hra.trans b2, ?_, ?_, ?_, fun _ => ⟨?_, ?_⟩, fun h => by cases h⟩
    · rw [b1, hat]; dsimp only; rw [hq]
    · have e1 : (a.setQueue l kind rest).line l = (a.setLine l ((a.line l).setQueue kind rest)).line l := by
        unfold State.line at *; rw [b5]
      rw [e1, State.line_setLine_self, hline l]; rfl
    · intro j hj
      have e1 : (a.setQueue l kind rest).line j = (a.setLine l ((a.line l).setQueue kind rest)).line j := by
        unfold State.line at *; rw [b5]
      rw [e1, State.line_setLine_ne _ _ hj, hline j]
    · rw [b3, hat]
    · rw [b4, hat]

/-- The plausibility test is what `Passes` says (R40). -/
theorem plausible_iff (last : Option Nat) (sp p : Nat) : plausible last sp p = true ↔ Passes last sp p := by
  unfold plausible Passes; cases last <;> simp

/-- Changing the record of a serial is changing the record itself. -/
theorem mapSerial_some {s : State} {r : Record} (hs : s.SerialsOk) (hr : r ∈ s.track.table.records) (f : Record → Record) :
    mapSerial r.serial f s.track.table.places = s.track.table.places.map fun e => if some r = some e.2 then (e.1, f e.2) else e := by
  unfold mapSerial
  apply List.map_congr_left
  intro e he
  have hm : e.2 ∈ s.track.table.records := List.mem_map.2 ⟨_, he, rfl⟩
  by_cases h : e.2.serial = r.serial
  · have := List.inj_on_of_nodup_map hs.1 hm hr h
    rw [if_pos h, if_pos (by rw [this])]
  · rw [if_neg h, if_neg (fun x => h (by rw [Option.some.inj x]))]

/-- A key is free whatever the records hold. -/
theorem tableGet_map {k : Nat} (g : Nat × Record → Nat × Record) (hg : ∀ e, (g e).1 = e.1) (t : List (Nat × Record)) : tableGet k (t.map g) = none ↔ tableGet k t = none := by
  rw [tableGet_none, tableGet_none]
  constructor
  · intro h e he; have := h (g e) (List.mem_map.2 ⟨e, he, rfl⟩); rwa [hg] at this
  · intro h e he; obtain ⟨x, hx, rfl⟩ := List.mem_map.1 he; rw [hg]; exact h x hx

/-- Changing the record just put in the table. -/
theorem mapSerial_tableSet {n place : Nat} {v : Record} {f : Record → Record} {t : List (Nat × Record)} (hv : v.serial = n) (ht : ∀ e ∈ t, e.2.serial ≠ n) :
    mapSerial n f (tableSet place v t) = tableSet place (f v) t := by
  induction t with
  | nil => simp [tableSet, mapSerial, hv]
  | cons e rest ih =>
    obtain ⟨j, w⟩ := e
    have h1 : w.serial ≠ n := ht (j, w) List.mem_cons_self
    have h2 : ∀ e ∈ rest, e.2.serial ≠ n := fun e he => ht e (List.mem_cons_of_mem _ he)
    have hid : mapSerial n f rest = rest := by
      unfold mapSerial; conv_rhs => rw [← List.map_id rest]
      apply List.map_congr_left; intro e he; rw [if_neg (h2 e he)]; rfl
    unfold tableSet
    split
    · show mapSerial n f ((place, v) :: (j, w) :: rest) = _
      unfold mapSerial at hid ⊢
      simp only [List.map_cons, if_pos hv, if_neg h1, hid]
    · split
      · unfold mapSerial at hid ⊢
        simp only [List.map_cons, if_pos hv, hid]
      · have := ih h2
        unfold mapSerial at this ⊢
        simp only [List.map_cons, if_neg h1, this]

/-- The record just put in the table is found. -/
theorem find_tableSet {t : CoilTable} {n place : Nat} {v : Record} (hv : v.serial = n) (ht : ∀ e ∈ t.places, e.2.serial ≠ n) (x : CoilTable) (hx : x.places = tableSet place v t.places) :
    x.find n = some v := by
  unfold CoilTable.find; rw [hx]
  have : ∀ (ps : List (Nat × Record)), (∀ e ∈ ps, e.2.serial ≠ n) → (tableSet place v ps).find? (fun e => e.2.serial == n) = some (place, v) := by
    intro ps
    induction ps with
    | nil => intro _; simp [tableSet, hv]
    | cons e rest ih =>
      intro h
      obtain ⟨j, w⟩ := e
      have h1 : w.serial ≠ n := h (j, w) List.mem_cons_self
      unfold tableSet
      split
      · simp [hv]
      · split
        · simp [hv]
        · rw [List.find?_cons_of_neg (by simpa using h1)]; exact ih (fun e he => h e (List.mem_cons_of_mem _ he))
  rw [this _ ht]; rfl

/-- The LOADING or WINDING record of a line. -/
theorem findOpen_eq (s : State) (l : LineId) (st : RecordState) : s.findOpen l st = s.track.table.records.find? (fun r => decide (r.line = l ∧ r.state = st)) := by
  unfold State.findOpen
  congr 1; funext r
  by_cases h1 : r.line = l <;> by_cases h2 : r.state = st <;> simp [h1, h2]

end Sys2Proof.Machine
end

