-- ==== Sys2Proof/Laws/Log.lean ====
section
/-! SUPPORT. How the anomaly log grows, and what settle checks and the end of an exit span leave (chapters 3, 4 and 10). -/

namespace Sys2Proof.Machine

/-- A `TableFrame` that keeps the identity map and the next serial. -/
structure TableSame (s t : State) : Prop where
  frame : TableFrame s t
  idMap : t.track.table.idMap = s.track.table.idMap
  next : t.track.table.nextSerial = s.track.table.nextSerial

/-- One change after another. -/
theorem TableSame.trans {s t u} (h : TableSame s t) (g : TableSame t u) : TableSame s u := ⟨h.frame.trans g.frame, g.idMap.trans h.idMap, g.next.trans h.next⟩

/-- Nothing changes. -/
theorem TableSame.refl (s) : TableSame s s := ⟨TableFrame.refl s, rfl, rfl⟩

/-- What a `TableFrame` leaves as it is. -/
theorem TableFrame.rest {s t : State} (h : TableFrame s t) : t.path = { s.path with dirty := t.path.dirty } ∧ t.track.clock = s.track.clock ∧ t.track.lines = s.track.lines := by
  obtain ⟨⟨_, _, _, _, _, _, _, he⟩, -⟩ := h
  refine ⟨?_, ?_, ?_⟩ <;> · rw [he]; rfl

/-- The stations stay. -/
theorem TableSame.station {s t : State} (h : TableSame s t) (i) : t.station i = s.station i := by
  unfold State.station; rw [h.frame.rest.1]

/-- The lines stay. -/
theorem TableSame.line {s t : State} (h : TableSame s t) (i) : t.line i = s.line i := by
  unfold State.line; rw [h.frame.rest.2.2]

/-- Changing a record. -/
theorem modify_same (s : State) (n f) : TableSame s (s.modify n f) := ⟨TableFrame.modify _ _ _, rfl, rfl⟩

/-- An anomaly leaves every record. -/
theorem anomaly_same (s : State) (a b c d) : TableSame s (s.anomaly a b c d) ∧ ∀ m, (s.anomaly a b c d).find m = s.find m := by
  have := (State.anomaly_rest s a b c d).1
  exact ⟨⟨TableFrame.anomaly _ _ _ _ _, by rw [this], by rw [this]⟩, fun m => by unfold State.find; rw [this]⟩

/-- A settling. -/
theorem settle_same (s : State) (n) : TableSame s (s.settle n) := by
  refine ⟨TableFrame.settle _ _, ?_, ?_⟩
  · cases h : s.find n with
    | none => rw [State.settle_absent h]
    | some r => rw [(State.settle_rest h).1]
  · cases h : s.find n with
    | none => rw [State.settle_absent h]
    | some r => rw [(State.settle_rest h).1]

/-- What is found after a settling (R70). -/
theorem find_settle {s : State} {n : Nat} {r : Record} (h : s.find n = some r) : (s.settle n).find n = some r.settled ∧ ∀ m, m ≠ n → (s.settle n).find m = s.find m := by
  have e : ∀ m, (s.settle n).find m = (s.modify n Record.settled).find m := by
    intro m; unfold State.find; rw [(State.settle_rest h).1, State.modify_eq]
  exact ⟨by rw [e, State.find_modify_self h Record.settled (fun _ => rfl)], fun m hm => by rw [e, State.find_modify_ne s hm Record.settled (fun _ => rfl)]⟩

/-- A settling enters at most one anomaly (R163). -/
theorem settle_log (s : State) (n : Nat) : ((s.settle n).track.anomalies = s.track.anomalies ∧ (s.settle n).track.anomalyCount = s.track.anomalyCount) ∨
   ∃ e, (s.settle n).track.anomalies = s.track.anomalies.set (s.track.anomalyCount.toNat % 32) e (Nat.mod_lt _ (by decide)) ∧ (s.settle n).track.anomalyCount = s.track.anomalyCount + 1 := by
  cases h : s.find n with
  | none => rw [State.settle_absent h]; exact .inl ⟨rfl, rfl⟩
  | some r =>
    unfold State.settle; rw [h]
    simp only [State.markIf_track, State.mark_track]
    have hr := State.raiseTrack_rest ((s.modify n Record.settled).joinBacklog r.settled) .recordSettled
    rw [hr.2.2.2.1, hr.2.2.2.2]
    unfold State.joinBacklog
    split
    · left
      have := State.judgeBacklog_rest ((s.modify n Record.settled).nextSequence.keepEntry { seq := (s.modify n Record.settled).track.nextSeq, settledAt := (s.modify n Record.settled).track.clock, record := r.settled })
      exact ⟨this.2.2.2.1, this.2.2.2.2⟩
    · right
      have := State.anomaly_rest (s.modify n Record.settled).nextSequence .journalBacklogFull (some r.settled.line) none (some r.settled.serial)
      exact ⟨_, this.2.2.2.1, this.2.2.2.2⟩

/-- The log gains k entries, one after another in its places (R168). -/
inductive LogGrows : Nat → State → State → Prop
  | zero {s t : State} : t.track.anomalies = s.track.anomalies → t.track.anomalyCount = s.track.anomalyCount → LogGrows 0 s t
  | add {k : Nat} {s t u : State} (e) : LogGrows k s t → u.track.anomalies = t.track.anomalies.set (t.track.anomalyCount.toNat % 32) e (Nat.mod_lt _ (by decide)) →
     u.track.anomalyCount = t.track.anomalyCount + 1 → LogGrows (k + 1) s u

/-- The count rises with the entries. -/
theorem LogGrows.count {k s t} (h : LogGrows k s t) : t.track.anomalyCount = s.track.anomalyCount + BitVec.ofNat 32 k := by
  induction h with
  | zero _ h => rw [h]; simp
  | add e _ _ h ih => rw [h, ih]; rw [BitVec.add_assoc]; congr 1; rw [BitVec.ofNat_add]; rfl

/-- One growth after another. -/
theorem LogGrows.trans {k j : Nat} {s t u} (h : LogGrows k s t) (g : LogGrows j t u) : LogGrows (k + j) s u := by
  induction g with
  | zero h1 h2 =>
    cases h with
    | zero a b => exact .zero (h1.trans a) (h2.trans b)
    | add e a b c => exact .add e a (h1.trans b) (h2.trans c)
  | add e _ h1 h2 ih => exact .add e (ih h) h1 h2

/-- An entry stays while fewer than 32 follow it. -/
theorem LogGrows.get {k : Nat} {t u : State} (h : LogGrows k t u) (hk : k < 32) (c : Word) (hc : t.track.anomalyCount = c + 1) (e)
    (he : t.track.anomalies[c.toNat % 32]'(Nat.mod_lt _ (by decide)) = e) : u.track.anomalies[c.toNat % 32]'(Nat.mod_lt _ (by decide)) = e := by
  induction h with
  | zero h1 h2 => rw [← he]; simp only [h1]
  | add e' g h1 h2 ih =>
    have hg := g.count
    have h3 := ih (by omega) hc he
    simp only [h1]
    rw [Vector.getElem_set_ne]
    · exact h3
    · rw [hg, hc]
      have h1 : (1 : Word).toNat = 1 := rfl
      simp only [BitVec.toNat_add, BitVec.toNat_ofNat, h1]
      omega

/-- An anomaly stands in the log while fewer than 32 others follow. -/
theorem anomaly_logged (s : State) (a b c d) : LogGrows 1 s (s.anomaly a b c d) ∧ ∀ (u : State) (k : Nat), k < 32 → LogGrows k (s.anomaly a b c d) u → u.Logged a b c d s.track.clock := by
  obtain ⟨h1, h2, h3, h4, h5⟩ := State.anomaly_rest s a b c d
  refine ⟨.add _ (.zero rfl rfl) h4 h5, fun u k hk hg => ?_⟩
  exact ⟨⟨s.track.anomalyCount.toNat % 32, Nat.mod_lt _ (by decide)⟩, s.track.anomalyCount, hg.get hk s.track.anomalyCount h5 _ (by rw [h4]; exact Vector.getElem_set_self _)⟩

/-- What a settle check leaves (R68, R69). -/
theorem settleCheck_same {s : State} {n : Nat} {r : Record} (h : s.find n = some r) : TableSame s (s.settleCheck n) ∧
    (s.settleCheck n).find n = some (if s.meetsSettle r then r.settled else r) ∧ (∀ m, m ≠ n → (s.settleCheck n).find m = s.find m) ∧
    ∃ k, k ≤ 1 ∧ LogGrows k s (s.settleCheck n) := by
  cases hm : s.meetsSettle r with
  | true =>
    rw [State.settleCheck_settles h hm]
    refine ⟨settle_same _ _, (find_settle h).1, (find_settle h).2, ?_⟩
    rcases settle_log s n with ⟨a, b⟩ | ⟨e, a, b⟩
    · exact ⟨0, by omega, .zero a b⟩
    · exact ⟨1, le_refl _, .add e (.zero rfl rfl) a b⟩
  | false => rw [State.settleCheck_not h hm]; exact ⟨TableSame.refl _, h, fun _ _ => rfl, 0, by omega, .zero rfl rfl⟩

/-- The settle condition of a THROUGH or CUT record (R68). -/
theorem meetsSettle_iff {s : State} {r : Record} (hst : r.state = .through ∨ r.state = .cut) {e : Nat} (he : r.stop = some e) : s.meetsSettle r = true ↔ s.SettlesAt r e := by
  unfold State.meetsSettle State.SettlesAt sealedPosition Station.live?
  rw [he]
  rcases hst with h | h <;> rw [h] <;> cases (s.station r.station).state <;> simp

/-- What ending an exit span leaves: the exit end, the elongation and its check, the settle check (R44, R45, R69). -/
theorem endExitSpan_rest {s : State} {l : LineId} {r : Record} {p xs xe : Nat} (h : s.find r.serial = some r) (h1 : r.exitStart = some xs) (h2 : r.stop = some xe) :
   ∃ r' v, TableSame s (s.endExitSpan l r p) ∧ (s.endExitSpan l r p).find r.serial = some r' ∧ (∀ m, m ≠ r.serial → (s.endExitSpan l r p).find m = s.find m) ∧ v = min ((p - xs) * 1000 / (xe - r.start)) 4294967295 ∧
              r' = { r with
                exitEnd := some p, elongation := some v, state := r'.state
                flags.suspect := r.flags.suspect || decide (v < (s.line l).elongMin ∨ (s.line l).elongMax < v) } ∧
              (s.SettlesAt r xe → r'.state = .settled) ∧ (¬s.SettlesAt r xe → r'.state = .through) ∧
       (∃ k, k ≤ 2 ∧ LogGrows k s (s.endExitSpan l r p)) ∧
       (v < (s.line l).elongMin ∨ (s.line l).elongMax < v → ∀ (u : State) (k : Nat), k < 20 → LogGrows k (s.endExitSpan l r p) u →
                u.Logged .elongationImplausible (some l) (some p) (some r.serial) s.track.clock) := by
  obtain ⟨v, hv⟩ : ∃ v, v = min ((p - xs) * 1000 / (xe - r.start)) 4294967295 := ⟨_, rfl⟩
  have he : elongationOf (r.stop.getD r.start - r.start) (p - r.exitStart.getD p) = v := by
    unfold elongationOf; rw [h1, h2, hv]; rfl
  have hm : s.endExitSpan l r p = (((s.modify r.serial fun x => x.endExit p v).checkElongation l r.serial v p).settleCheck r.serial) := by
    unfold State.endExitSpan; rw [he]
  rw [hm]
  have hf1 : (s.modify r.serial fun x => x.endExit p v).find r.serial = some (r.endExit p v) := State.find_modify_self h _ (fun _ => rfl)
  have hf2 : ∀ m, m ≠ r.serial → (s.modify r.serial fun x => x.endExit p v).find m = s.find m := fun m hm => State.find_modify_ne _ hm _ (fun _ => rfl)
  have hsm := modify_same s r.serial (fun x => x.endExit p v)
  have hg0 : LogGrows 0 s (s.modify r.serial fun x => x.endExit p v) := .zero rfl rfl
  have hline : (s.modify r.serial fun x => x.endExit p v).line l = s.line l := rfl
  have hclk : (s.modify r.serial fun x => x.endExit p v).track.clock = s.track.clock := rfl
  generalize s.modify r.serial (fun x => x.endExit p v) = b at *
  unfold State.checkElongation
  rw [hline]
  by_cases hw : v < (s.line l).elongMin ∨ (s.line l).elongMax < v
  · rw [if_pos hw]
    have hf3 : (b.modify r.serial Record.suspect).find r.serial = some (r.endExit p v).suspect := State.find_modify_self hf1 Record.suspect (fun _ => rfl)
    have hf4 : ∀ m, m ≠ r.serial → (b.modify r.serial Record.suspect).find m = s.find m := fun m hm => (State.find_modify_ne b hm Record.suspect (fun _ => rfl)).trans (hf2 m hm)
    have hs2 := hsm.trans (modify_same b r.serial Record.suspect)
    have hg2 : LogGrows 0 s (b.modify r.serial Record.suspect) := hg0.trans (show LogGrows 0 b (b.modify r.serial Record.suspect) from .zero rfl rfl)
    have hclk2 : (b.modify r.serial Record.suspect).track.clock = s.track.clock := hclk
    generalize b.modify r.serial Record.suspect = c at *
    obtain ⟨a1, a2⟩ := anomaly_same c .elongationImplausible (some l) (some p) (some r.serial)
    obtain ⟨a3, a4⟩ := anomaly_logged c .elongationImplausible (some l) (some p) (some r.serial)
    generalize c.anomaly .elongationImplausible (some l) (some p) (some r.serial) = d at *
    have hfd : d.find r.serial = some (r.endExit p v).suspect := by rw [a2]; exact hf3
    obtain ⟨c1, c2, c3, k, c4, c5⟩ := settleCheck_same hfd
    have hsd := hs2.trans a1
    refine ⟨_, v, hsd.trans c1, c2, fun m hm => (c3 m hm).trans ((a2 m).trans (hf4 m hm)), hv, ?_, ?_, ?_, ⟨0 + 1 + k, by omega, (hg2.trans a3).trans c5⟩, fun _ u j hj hg => ?_⟩
    · split <;> simp [Record.settled, Record.suspect, Record.endExit, hw]
    · intro hset
      rw [if_pos]
      · rfl
      · rw [meetsSettle_iff (r := (r.endExit p v).suspect) (e := xe) (.inl rfl) h2]
        intro x hx
        rw [hsd.station] at hx ⊢
        exact hset x hx
    · intro hset
      rw [if_neg]
      · rfl
      · rw [meetsSettle_iff (r := (r.endExit p v).suspect) (e := xe) (.inl rfl) h2]
        intro hx; apply hset
        intro x hx'
        have := hx x (by rw [hsd.station]; exact hx')
        rwa [hsd.station] at this
    · rw [← hclk2]
      exact a4 u (k + j) (by omega) (c5.trans hg)
  · rw [if_neg hw]
    obtain ⟨c1, c2, c3, k, c4, c5⟩ := settleCheck_same hf1
    refine ⟨_, v, hsm.trans c1, c2, fun m hm => (c3 m hm).trans (hf2 m hm), hv, ?_, ?_, ?_, ⟨0 + k, by omega, hg0.trans c5⟩, fun h => absurd h hw⟩
    · split <;> simp [Record.settled, Record.endExit, hw]
    · intro hset
      rw [if_pos]
      · rfl
      · rw [meetsSettle_iff (r := r.endExit p v) (e := xe) (.inl rfl) h2]
        intro x hx
        rw [hsm.station] at hx ⊢
        exact hset x hx
    · intro hset
      rw [if_neg]
      · rfl
      · rw [meetsSettle_iff (r := r.endExit p v) (e := xe) (.inl rfl) h2]
        intro hx; apply hset
        intro x hx'
        have := hx x (by rw [hsm.station]; exact hx')
        rwa [hsm.station] at this

end Sys2Proof.Machine
end

