-- ==== Sys2Proof/Laws/Markers.lean ====
section
/-! SUPPORT. Marker inputs and the time base: what a raw transition, a completion and a tick do (chapters 1 and 2). -/

namespace Sys2Proof.Machine

/-- A line unit replaced by one that shows the same content is replaced and nothing else happens. -/
theorem State.setLine_same (s : State) (l : LineId) (ln : Line) (h : (s.line l).content = ln.content) :
    s.setLine l ln = s.withLine l ln := by
  unfold State.setLine; rw [h]; simp [State.markIf]

/-- A line's mirror group shows nothing of its marker inputs. -/
theorem Line.content_setMarker (ln : Line) (i : MarkerInput) (m : Marker) : (ln.setMarker i m).content = ln.content := by
  cases i <;> rfl

@[simp] theorem Line.marker_setMarker (ln : Line) (i : MarkerInput) (m : Marker) : (ln.setMarker i m).marker i = m := by
  cases i <;> rfl

/-- Writing a pending change changes that input and nothing else (R18). -/
theorem State.setPending_eq (s : State) (l : LineId) (i : MarkerInput) (c : Option Pending) :
    s.setPending l i c = s.withLine l ((s.line l).setMarker i { (s.line l).marker i with pending := c }) :=
  State.setLine_same _ _ _ (Line.content_setMarker _ _ _).symm

/-- With nothing due there is nothing to complete (R19). -/
theorem State.completeDue_none {s : State} {l : LineId} {i : MarkerInput}
    (h : ∀ c, ((s.line l).marker i).pending = some c → c.remaining ≠ 0) : s.completeDue l i = s := by
  unfold State.completeDue
  cases hx : ((s.line l).marker i).pending with
  | none => rfl
  | some c => simp [h c hx]

/-- A change that is due completes (R19). -/
theorem State.completeDue_due {s : State} {l : LineId} {i : MarkerInput} {c : Pending}
    (h : ((s.line l).marker i).pending = some c) (hc : c.remaining = 0) : s.completeDue l i = s.completeChange l i := by
  unfold State.completeDue; rw [h]; simp [hc]

/-- A raw transition with a change pending drops it (R18). -/
theorem State.rawTransition_drop {s : State} {l : LineId} {i : MarkerInput} {c : Pending}
    (h : ((s.line l).marker i).pending = some c) : s.rawTransition l i = s.setPending l i none := by
  unfold State.rawTransition; rw [h]

/-- A raw transition with none pending starts one, which completes at once if its debounce time is 0 (R18, R19). -/
theorem State.rawTransition_start {s : State} {l : LineId} {i : MarkerInput} (h : ((s.line l).marker i).pending = none) :
    s.rawTransition l i = (s.setPending l i (some ((s.line l).change i s.track.clock))).completeDue l i := by
  unfold State.rawTransition; rw [h]

/-- The rows of chapter 2 on a powered part with no take due. -/
theorem exec_markerRawTransition (s : State) (l : LineId) (i : MarkerInput) (h : s.Ready) :
    exec (.markerRawTransition l i) s = .next (s.rawTransition l i) := by
  show execMarkerRawTransition l i s = _
  unfold execMarkerRawTransition; rw [afterTakes_ready h]

theorem exec_debounceComplete (s : State) (l : LineId) (i : MarkerInput) (h : s.Ready) :
    exec (.debounceComplete l i) s = .next (s.completeDue l i) := by
  show execDebounceComplete l i s = _
  unfold execDebounceComplete; rw [afterTakes_ready h]

/-- A tick on a powered part with no take due (R14, R19, R176). -/
theorem exec_timeBaseTick (s : State) (h : s.Ready) :
    exec .timeBaseTick s = .next s.completePeriod.advanceTime.completeAllDue := by
  show execTimeBaseTick s = _
  unfold execTimeBaseTick; rw [afterTakes_ready h]

/-- A tick lowers the remaining of the pending changes and changes nothing else of a line; no mirror group shows it. -/
theorem State.tickMarkers_eq (s : State) : s.tickMarkers = { s with track.lines := s.track.lines.map Line.tick } := by
  have step : ∀ (u : State) (l : LineId), u.setLine l (u.line l).tick = u.withLine l (u.line l).tick :=
    fun u l => State.setLine_same _ _ _ rfl
  have fold : ∀ (ls : List LineId) (u : State), ls.foldl (fun acc l => acc.setLine l (acc.line l).tick) u =
      { u with track.lines := ls.foldl (fun v l => v.set l.val v[l].tick l.isLt) u.track.lines } := by
    intro ls
    induction ls with
    | nil => intro u; rfl
    | cons l rest ih => intro u; rw [List.foldl_cons, step, ih]; rfl
  have h : allLines.foldl (fun v l => v.set l.val v[l].tick l.isLt) s.track.lines = s.track.lines.map Line.tick := by
    apply Vector.ext
    intro j hj
    match j, hj with
    | 0, _ => simp [allLines]
    | 1, _ => simp [allLines]
    | 2, _ => simp [allLines]
    | 3, _ => simp [allLines]
  unfold State.tickMarkers
  rw [fold, h]

end Sys2Proof.Machine
end

