-- ==== Sys2Proof/Laws/Power.lean ====
section
/-! SUPPORT. How a path reset ends, said once: what its end leaves, that no path reset goes on whose conditions both hold,
and what a cold start makes of its own (R178, R179). -/

namespace Sys2Proof.Machine

theorem State.resetOver_iff {s : State} :
    s.resetOver = true ↔ s.path.state = .down ∧ s.pathPower = true ∧ s.prst = false := by
  simp [State.resetOver, and_assoc]

/-- A path reset one of whose conditions fails goes on, and outside a path reset nothing ends (R179). -/
theorem State.endIfOver_of_not {s : State} (h : ¬(s.path.state = .down ∧ s.pathPower = true ∧ s.prst = false))
    (straps : BitVec 4) : s.endIfOver straps = s :=
  if_neg (mt State.resetOver_iff.1 h)

/-- The end of a path reset: every path-well block at its reset values, AREA_SEL sampled, the server lines decoded into OPEN
on RUN, else, with both queues empty, into HOLD at once; then what is presented is offered to the port (R179, R135). -/
theorem State.endPathReset_eq (s : State) (straps : BitVec 4) :
    s.endPathReset straps = State.letIn { s with
      path := { PathWell.reset straps with
        state := if s.ssa = true ∧ s.ssb = true then .opened else .hold
        server := some (decodeServer s.ssa s.ssb) } } := by
  unfold State.endPathReset
  obtain ⟨_, _, _, a, b, _⟩ := s
  cases a <;> cases b <;> rfl

/-- With nothing presented the end of a path reset accepts nothing (R135). -/
theorem State.endPathReset_of_nil {s : State} (h : s.presented = []) (straps : BitVec 4) :
    s.endPathReset straps = { s with
      path := { PathWell.reset straps with
        state := if s.ssa = true ∧ s.ssb = true then .opened else .hold
        server := some (decodeServer s.ssa s.ssb) } } := by
  rw [State.endPathReset_eq]
  exact State.letIn_of_nil h

/-- What acceptance leaves as it was: the supplies, PRST and the path state. -/
theorem AdmitFrame.power {s t : State} (h : AdmitFrame s t) :
    t.powered = s.powered ∧ t.pathPower = s.pathPower ∧ t.prst = s.prst ∧ t.path.state = s.path.state := by
  have of (α : Type) (f : State → α) (hf : ∀ x, f x.portCore.takeCore = f x) : f t = f s := by
    rw [← hf t, h.core, hf s]
  exact ⟨of _ (·.powered) fun _ => rfl, of _ (·.pathPower) fun _ => rfl, of _ (·.prst) fun _ => rfl,
    of _ (·.path.state) fun _ => rfl⟩

/-- A path reset ends at the first moment both of its conditions hold: what goes on is in DOWN with a condition that fails
(R179). -/
theorem State.resetOver_endIfOver (s : State) (straps : BitVec 4) : (s.endIfOver straps).resetOver = false := by
  unfold State.endIfOver
  split
  · rw [State.endPathReset_eq, Bool.eq_false_iff, ne_eq, State.resetOver_iff, (AdmitFrame.letIn _).power.2.2.2]
    rintro ⟨h, -⟩
    split at h <;> cases h
  · exact Bool.eq_false_iff.2 ‹_›

/-- Neither the end of a path reset nor its going on moves a supply or PRST (R179). -/
theorem State.endIfOver_power (s : State) (straps : BitVec 4) :
    (s.endIfOver straps).powered = s.powered ∧ (s.endIfOver straps).pathPower = s.pathPower ∧
      (s.endIfOver straps).prst = s.prst := by
  unfold State.endIfOver
  split
  · rw [State.endPathReset_eq]
    exact ⟨(AdmitFrame.letIn _).power.1, (AdmitFrame.letIn _).power.2.1, (AdmitFrame.letIn _).power.2.2.1⟩
  · exact ⟨rfl, rfl, rfl⟩

/-- From a state that is DOWN while a condition fails, the end of the path reset, or its going on, leaves the path DOWN
exactly while a condition fails (R177, R179). -/
theorem State.endIfOver_resetOk {s : State} (h : s.pathPower = false ∨ s.prst = true → s.path.state = .down)
    (straps : BitVec 4) : (s.endIfOver straps).ResetOk := by
  intro _
  obtain ⟨-, hp, hr⟩ := s.endIfOver_power straps
  have fails : (s.pathPower = false ∨ s.prst = true) ↔ ¬(s.pathPower = true ∧ s.prst = false) := by
    cases s.pathPower <;> cases s.prst <;> decide
  have goesOn := mt State.resetOver_iff.2 (Bool.eq_false_iff.1 (s.resetOver_endIfOver straps))
  rw [hp, hr] at goesOn ⊢
  refine ⟨fun hd => fails.2 fun hc => goesOn ⟨hd, hc⟩, fun hc => ?_⟩
  rw [State.endIfOver_of_not fun ho => fails.1 hc ho.2, h hc]

/-- The monitor reaches the tracking well and the dirty marks (R181). -/
theorem State.monitor_eq (s : State) :
    ∃ tr dirty, s.monitor = { s with track := tr, path.dirty := dirty } := by
  unfold State.monitor
  split
  · split
    · exact ⟨_, _, rfl⟩
    · obtain ⟨⟨_, _, _, _, _, _, _, h⟩, -⟩ := TableFrame.anomaly s .serverStateIllegal none none none
      rw [h]
      exact ⟨_, _, rfl⟩
  · exact ⟨_, _, rfl⟩

/-- A cold start leaves the path DOWN exactly where the server supply is absent or PRST asserted (R178, R179). -/
theorem execColdStart_resetOk (lv : Levels) (s : State) :
    ∃ t, execColdStart lv s = .next t ∧ t.ResetOk := by
  refine ⟨_, rfl, State.endIfOver_resetOk (fun _ => ?_) _⟩
  obtain ⟨_, _, h⟩ := State.monitor_eq (s.coldWith lv)
  rw [h]
  rfl

/-- A cold start that finds the server supply present and PRST negated brings the path well up: its path reset ends within
it, with AREA_SEL sampled and the server lines decoded (R178, R179, R136). -/
theorem execColdStart_bringsPathUp {lv : Levels} (h : bringsPathUp lv) (s : State) :
    ∃ tr, execColdStart lv s = .next { s.coldWith lv with
      track := tr
      path := { PathWell.reset lv.areaSel with
        state := if lv.ssa = true ∧ lv.ssb = true then .opened else .hold
        server := some (decodeServer lv.ssa lv.ssb) } } := by
  obtain ⟨tr, _, hm⟩ := State.monitor_eq (s.coldWith lv)
  refine ⟨tr, ?_⟩
  unfold execColdStart
  rw [hm, State.endIfOver, if_pos (State.resetOver_iff.2 ⟨rfl, h⟩), State.endPathReset_of_nil rfl]
  rfl

end Sys2Proof.Machine
end

