-- ==== Sys2Proof/Laws/Stations.lean ====
section
/-! SUPPORT. What the directives of stations, verdict chains and cursors judge: words, rings, terms (chapters 5 to 7). -/

namespace Sys2Proof.Machine

/-- Replacing a station, up to dirty marks. -/
theorem setStation_eq (s : State) (i : Fin 8) (st : Station) :
    s.setStation i st = { s.withStation i st with path.dirty := (s.setStation i st).path.dirty } ∧
      MarksKept s.path.dirty (s.setStation i st).path.dirty := by
  unfold State.setStation State.markIf
  split
  · exact ⟨rfl, MarksKept.set _ _ (stationGroup i).isLt⟩
  · exact ⟨rfl, MarksKept.refl _⟩

/-- Replacing a cursor, up to dirty marks. -/
theorem setCursor_eq (s : State) (i : Fin 8) (c : Cursor) :
    s.setCursor i c = { s.withCursor i c with path.dirty := (s.setCursor i c).path.dirty } ∧
      MarksKept s.path.dirty (s.setCursor i c).path.dirty := by
  unfold State.setCursor State.markIf
  split
  · exact ⟨rfl, MarksKept.set _ _ (cursorGroup i).isLt⟩
  · exact ⟨rfl, MarksKept.refl _⟩

/-- A directive whose effect ends with a group marked dirty. -/
theorem runs_done_marked {i : Instr} {code : BitVec 8} {f : (Nat → Word) → State → DirOutcome}
    (h : directiveOf i = some (code, f)) {s : State} {k : Fin 16} (ht : s.Takes k code) {e u : State} {a : List Word} {g : Fin 39}
    (hu : u = { e with path.dirty := u.path.dirty } ∧ MarksKept e.path.dirty u.path.dirty)
    (hf : f (s.param k) (s.beginDirective k) = .done (u.mark g) a) : Runs i s (e.mark g) k none a := by
  refine runs_done_up_to_marks h ht (u := u.mark g) ?_ (MarksKept.set_both hu.2 _ g.isLt) hf
  unfold State.mark
  rw [hu.1]

/-- The slot counts are the powers of two from 512 to 1,048,576 (R82). -/
theorem slotCounts_iff (n : Nat) : slotCounts.contains n = true ↔ ∃ k, 9 ≤ k ∧ k ≤ 20 ∧ n = 2 ^ k := by
  constructor
  · intro h
    simp only [slotCounts, List.contains_iff_mem, List.mem_cons, List.not_mem_nil, or_false] at h
    rcases h with h|h|h|h|h|h|h|h|h|h|h|h
    exacts [⟨9, by omega, by omega, h⟩, ⟨10, by omega, by omega, h⟩, ⟨11, by omega, by omega, h⟩, ⟨12, by omega, by omega, h⟩,
      ⟨13, by omega, by omega, h⟩, ⟨14, by omega, by omega, h⟩, ⟨15, by omega, by omega, h⟩, ⟨16, by omega, by omega, h⟩,
      ⟨17, by omega, by omega, h⟩, ⟨18, by omega, by omega, h⟩, ⟨19, by omega, by omega, h⟩, ⟨20, by omega, by omega, h⟩]
  · rintro ⟨k, h1, h2, rfl⟩
    have : ∀ k : Fin 21, 9 ≤ k.val → slotCounts.contains (2 ^ k.val) = true := by decide
    exact this ⟨k, by omega⟩ h1

/-- The test of the words of Define Station is what `StationGiven` says. -/
theorem stationWordsOk_iff (w : Nat → Word) : stationWordsOk w = true ↔ StationGiven w := by
  unfold stationWordsOk StationGiven within withinInt joined
  simp only [Bool.and_eq_true, decide_eq_true_eq, slotCounts_iff, List.all_eq_true, List.mem_range]
  constructor
  · rintro ⟨⟨⟨⟨⟨⟨⟨⟨h1, h2⟩, h3⟩, h4⟩, h5⟩, h6⟩, h7⟩, h8⟩, h9⟩
    exact ⟨h1, by omega, h3, by omega, by omega, by omega, by omega, by omega, h7, h8, by omega⟩
  · rintro ⟨h1, h2, h3, h4, h5, h6, h7, h8, h9, h10, h11⟩
    refine ⟨⟨⟨⟨⟨⟨⟨⟨h1, by omega⟩, h3⟩, by omega⟩, by omega⟩, by omega⟩, h9⟩, h10⟩, by omega⟩

/-- The definition that admissible words give lies in its ranges (R82, R83). -/
theorem stationDef_inRange {w : Nat → Word} (h : stationWordsOk w = true) : (stationDef w).InRange := by
  obtain ⟨h1, _, ⟨n, lo, hi, h4⟩, h5, h6, h7, h8, h9, offs, settle, top⟩ := (stationWordsOk_iff w).mp h
  have offset : ∀ c, -100000 ≤ stationOffset w c ∧ stationOffset w c ≤ 100000 := by
    intro c
    unfold stationOffset
    split
    · exact offs c ‹_›
    · omega
  refine ⟨?_, ⟨⟨n, by omega⟩, lo, h4⟩, top, h5, h6, h7, settle, h8, h9, ?_⟩
  · show ((w 2).toNat + (w 3).toNat * 4294967296) % 64 = 0
    omega
  · intro c
    fin_cases c <;> exact offset _

/-- A state whose stations hold the definitions of another keeps their ranges. -/
theorem State.DefinitionsOk.of_defn {s t : State} (h : ∀ i, (t.station i).defn = (s.station i).defn) (hs : s.DefinitionsOk) :
    t.DefinitionsOk := fun i d hd => hs i d (h i ▸ hd)

/-- Define Station on admissible words keeps every definition in its ranges (R84). -/
theorem State.DefinitionsOk.define {s : State} (hs : s.DefinitionsOk) (i : Fin 8) {w : Nat → Word} (h : stationWordsOk w = true)
    {st : Station} (hd : st.defn = some (stationDef w)) : (s.setStation i st).DefinitionsOk := by
  intro j d hj
  rw [State.station_setStation] at hj
  split at hj
  · rw [hd] at hj
    cases hj
    exact stationDef_inRange h
  · exact hs j d hj

/-- Every station is in the list of them. -/
theorem mem_allStations (i : Fin 8) : i ∈ allStations := by revert i; decide

/-- The test of two ranges is what `SharesMemory` says. -/
theorem overlaps_iff (a n b m : Nat) : overlaps a n b m = true ↔ SharesMemory a n b m := by
  unfold overlaps SharesMemory; simp

/-- The test against reserved area and rings is what `MeetsPart` says. -/
theorem meetsRing_iff (s : State) (but : Option (Fin 8)) (base len : Nat) :
    (overlaps base len s.base areaSize || s.meetsRing but base len) = true ↔ s.MeetsPart but base len := by
  unfold State.MeetsPart
  rw [Bool.or_eq_true, overlaps_iff]
  refine or_congr Iff.rfl ?_
  unfold State.meetsRing
  rw [List.any_eq_true]
  constructor
  · rintro ⟨j, _, h⟩
    split at h
    · cases h
    · rename_i hne
      split at h
      · cases h
      · rename_i d hd
        exact ⟨j, d, hne, hd, (overlaps_iff _ _ _ _).mp h⟩
  · rintro ⟨j, d, hne, hd, h⟩
    refine ⟨j, mem_allStations j, ?_⟩
    rw [if_neg hne, hd]
    exact (overlaps_iff _ _ _ _).mpr h

/-- The test against the journal ring. -/
theorem meetsJournal_iff (s : State) (base len : Nat) : s.meetsJournal base len = true ↔
    ∃ j, s.path.journal = some j ∧ SharesMemory base len j.base (j.size * 512) := by
  unfold State.meetsJournal
  split
  · rename_i h; simp [h]
  · rename_i j h; rw [overlaps_iff]; simp [h]

/-- A definition with the values of the words is the one the words give. -/
theorem stationDef_eq (w : Nat → Word) (d : StationDef) (h1 : d.ringBase = (w 2).toNat + (w 3).toNat * 4294967296)
  (h2 : d.slotCount = (w 4).toNat) (h3 : d.binLength = (w 5).toNat) (h4 : d.tag = w 6) (h5 : d.settle = (w 7).toNat) (h6 : d.channels = (w 8).toNat)
  (h7 : ∀ c : Fin 12, d.offsets[c] = if c.val < (w 8).toNat then (w (9 + c.val)).toInt else 0) : stationDef w = d := by
  obtain ⟨a, b, c, e, f, g, o⟩ := d
  subst h1 h2 h3 h4 h5 h6
  unfold stationDef joined
  congr 1
  apply Vector.ext
  intro i hi
  rw [show o[i] = _ from h7 ⟨i, hi⟩]
  have : ∀ i : Fin 12, #v[stationOffset w 0, stationOffset w 1, stationOffset w 2, stationOffset w 3, stationOffset w 4,
      stationOffset w 5, stationOffset w 6, stationOffset w 7, stationOffset w 8, stationOffset w 9,
      stationOffset w 10, stationOffset w 11][i] = stationOffset w i.val := by
    intro i; fin_cases i <;> rfl
  exact this ⟨i, hi⟩

/-- Taking a directive leaves the stations. -/
theorem beginDirective_station (s : State) (k : Fin 16) (l) : (s.beginDirective k).station l = s.station l := rfl

/-- Reading a term is what `TermGiven` says (R104). -/
theorem readTerm_given {ch : Nat} {a b c d : Word} {t : Term} : TermGiven ch a b c d t ↔ readTerm ch a b c d = some t := by
  have h6 : ∀ n, n = 0 ∨ n = 1 ∨ n = 2 ∨ n = 3 ∨ n = 4 ∨ n = 5 ∨ n = 6 ∨ n = 7 ∨ 8 ≤ n := by intro n; omega
  have h5 : ∀ n, n = 0 ∨ n = 1 ∨ n = 2 ∨ n = 3 ∨ n = 4 ∨ 5 ≤ n := by intro n; omega
  have ha := h6 a.toNat
  have hb := h5 b.toNat
  unfold readTerm
  cases t with
  | block o =>
    unfold TermGiven
    constructor
    · intro h; cases o <;> simp only at h <;> rw [h] <;> rfl
    · intro h
      dsimp only at h
      split at h <;> try (split at h <;> [cases h; (split at h <;> cases h)])
      · cases h; assumption
      · cases h; assumption
      · cases h
  | cond o t c v =>
    unfold TermGiven
    constructor
    · rintro ⟨h1, h2, h3, h4, h5⟩
      subst h3 h5
      cases o <;> simp only at h1 <;> rw [h1] <;> cases t <;> simp only at h2 <;> rw [h2] <;> exact if_pos h4
    · intro h
      dsimp only at h
      split at h <;> rename_i he <;> first | (cases h; done) | (
        split at h <;> [cases h; skip]
        rename_i t' ht
        split at h <;> [skip; cases h]
        rename_i hc
        simp only [Option.some.injEq, Term.cond.injEq] at h
        obtain ⟨h1, h2, h3, h4⟩ := h
        subst h1 h2 h3 h4
        refine ⟨he, ?_, rfl, hc, by cases t' <;> rfl⟩
        split at ht <;> rename_i hb' <;> first | (cases ht; done) | (cases ht; exact hb'))

/-- Terms that can each be read are read in order. -/
theorem readTerms_ok (ch : Nat) (w : Nat → Word) : ∀ (n k : Nat) (chain : List Term), chain.length = n →
    (∀ j t, chain[j]? = some t → readTerm ch (w (2 + 4 * (k + j))) (w (3 + 4 * (k + j))) (w (4 + 4 * (k + j))) (w (5 + 4 * (k + j))) = some t) →
    readTerms ch w k n = some chain := by
  intro n
  induction n with
  | zero => intro k chain h _; rw [List.length_eq_zero_iff.mp h]; rfl
  | succ n ih =>
    intro k chain h hj
    cases chain with
    | nil => cases h
    | cons t rest =>
      unfold readTerms
      have h0 := hj 0 t rfl
      rw [Nat.add_zero] at h0
      rw [h0]; dsimp only
      rw [ih (k + 1) rest (by simpa using h) (fun j t ht => by
        have := hj (j + 1) t ht
        rwa [show k + 1 + j = k + (j + 1) by omega])]
      rfl

/-- One term that cannot be read refuses the chain. -/
theorem readTerms_none (ch : Nat) (w : Nat → Word) : ∀ (n k j : Nat), j < n →
    readTerm ch (w (2 + 4 * (k + j))) (w (3 + 4 * (k + j))) (w (4 + 4 * (k + j))) (w (5 + 4 * (k + j))) = none →
    readTerms ch w k n = none := by
  intro n
  induction n with
  | zero => intro k j h; omega
  | succ n ih =>
    intro k j hj h
    unfold readTerms
    cases j with
    | zero => rw [Nat.add_zero] at h; rw [h]
    | succ j =>
      split
      · rfl
      · rw [ih (k + 1) j (by omega) (by rwa [show k + 1 + j = k + (j + 1) by omega])]; rfl

/-- What the structural check finds is the depth of the result stack (R106). -/
theorem checkFrom_spec (b : OpenBin) (all : List Term) : ∀ (rest : List Term) (k depth : Nat) (st : List Bool),
    all = all.take k ++ rest → k ≤ all.length → (all.take k).foldl (fun st t => t.apply b st) [] = st → st.length = depth → depth ≤ 4 →
    (∀ n, n ≤ k → depthAfter (all.take n) b ≤ 4) →
    (checkFrom k depth rest = none → (∀ n, depthAfter (all.take n) b ≤ 4) ∧ depthAfter all b = 1) ∧
    ∀ t kind, checkFrom k depth rest = some (t, kind) →
      (kind = 2 ∧ depthAfter (all.take t) b = 4 ∧ ∃ x, all[t]? = some x ∧ x.pushes = true) ∨
      (kind = 3 ∧ ∃ x, all[t]? = some x ∧ x.pushes = false ∧ depthAfter (all.take t) b < x.takes) ∨
      (kind = 4 ∧ t = all.length ∧ depthAfter all b ≠ 1) := by
  intro rest
  induction rest with
  | nil =>
    intro k depth st ha hk hst hl h4 hn
    rw [List.append_nil] at ha
    have hkl : k = all.length := by
      have := congrArg List.length ha; rw [List.length_take] at this; omega
    have hd : depthAfter all b = depth := by unfold depthAfter; rw [ha, hst, hl]
    unfold checkFrom
    constructor
    · intro h
      split at h
      · rename_i h1
        refine ⟨fun n => ?_, by omega⟩
        by_cases hnk : n ≤ k
        · exact hn n hnk
        · rw [List.take_of_length_le (by omega)]; omega
      · cases h
    · intro t kind h
      split at h
      · cases h
      · cases h
        right; right; refine ⟨rfl, hkl, by omega⟩
  | cons x rest ih =>
    intro k depth st ha hk hst hl h4 hn
    have hx : all[k]? = some x := by
      rw [ha, List.getElem?_append_right (by rw [List.length_take]; omega), List.length_take, Nat.min_eq_left hk, Nat.sub_self]; rfl
    have hkl : k < all.length := by rw [List.getElem?_eq_some_iff] at hx; exact hx.1
    have htake : all.take (k + 1) = all.take k ++ [x] := by
      rw [List.take_add_one, hx]; rfl
    have hall : all = all.take (k + 1) ++ rest := by rw [htake, List.append_assoc]; exact ha
    have hfold : (all.take (k + 1)).foldl (fun st t => t.apply b st) [] = x.apply b st := by
      rw [htake, List.foldl_append, hst]; rfl
    have hdk : depthAfter (all.take k) b = depth := by unfold depthAfter; rw [hst, hl]
    have next : ∀ d, (x.apply b st).length = d → d ≤ 4 → _ := fun d hd hd4 =>
      ih (k + 1) d (x.apply b st) hall hkl hfold hd hd4 (fun n hnk => by
        by_cases h : n ≤ k
        · exact hn n h
        · rw [show n = k + 1 by omega]; unfold depthAfter; rw [hfold, hd]; exact hd4)
    cases x with
    | cond op t c v =>
      have hpush : (op = .load ∨ op = .loadNot) → _ := fun (h : op = .load ∨ op = .loadNot) =>
        next (depth + 1) (by rcases h with rfl | rfl <;> simp [Term.apply, CondOp.apply, hl])
      have hkeep : op ≠ .load → op ≠ .loadNot → depth ≠ 0 → _ := fun h1 h2 h3 =>
        next depth (by
          cases st with
          | nil => simp at hl; omega
          | cons a st => rw [← hl]; cases op <;> first | rfl | exact absurd rfl h1 | exact absurd rfl h2) h4
      unfold checkFrom
      cases op <;> dsimp only
      case load | loadNot =>
        split
        · rename_i h
          refine ⟨fun h => (by cases h), fun t' kind h' => ?_⟩
          cases h'; left; exact ⟨rfl, by omega, _, hx, rfl⟩
        · rename_i h; exact hpush (by simp) (by omega)
      all_goals
        split
        · rename_i h
          refine ⟨fun h => (by cases h), fun t' kind h' => ?_⟩
          cases h'; right; left; exact ⟨rfl, _, hx, rfl, by rw [hdk, h]; exact Nat.one_pos⟩
        · rename_i h; exact hkeep (by simp) (by simp) h
    | block op =>
      unfold checkFrom
      split
      · rename_i h
        refine ⟨fun h => (by cases h), fun t' kind h' => ?_⟩
        cases h'; right; left; exact ⟨rfl, _, hx, rfl, by rw [hdk]; exact h⟩
      · rename_i h
        refine next (depth - 1) ?_ (by omega)
        match st, hl with
        | a :: c :: st, hl => cases op <;> simp [Term.apply, BlockOp.apply] <;> simp at hl <;> omega
        | [a], hl => simp at hl; omega
        | [], hl => simp at hl; omega

/-- A cursor whose content changes is marked dirty. -/
theorem setCursor_ne (s : State) (c : Fin 8) (x : Cursor) (h : (s.cursor c).content ≠ x.content) : s.setCursor c x = (s.withCursor c x).mark (cursorGroup c) := by
  unfold State.setCursor State.markIf
  rw [if_pos (by simpa using h)]

end Sys2Proof.Machine
end

