-- ==== Sys2Proof/Tests/Slice0.lean ====
section
/-! SUPPORT. Tests of one step each, and for every statement a concrete state and operands that meet its hypotheses. -/

namespace Sys2Proof.Tests

open Sys2Proof Sys2Proof.Machine
set_option Elab.async false

/-! ## Small states -/

/-- The state one command leaves, put at the front of the queue; the state given where the command stops. -/
def after (c : Instr) (s : State) : State :=
  match step { s with pending := c :: s.pending } with
  | .next t => t
  | _ => s

/-- The state after reset, or another, with a directive in slot 0 at the head of the FIFO. -/
def taking (code : BitVec 8) (ws : List Int) (s : State := .reset) : State :=
  { s with
    path.fifo := [0]
    path.slots := s.path.slots.set 0
      { state := .queued, shadow := Vector.ofFn fun i => BitVec.ofInt 32 (ws.getD i.val 0), code := code
        tag := 0x1234 } }

/-- The words of the last burst of the bookkeeping queue. -/
def lastWords (s : State) : List Word := (s.path.bookkeeping.getLast?.map fun e => e.burst.words.map (·.data)).getD []

/-- The words of the first burst of the bookkeeping queue. -/
def firstWords (s : State) : List Word := (s.path.bookkeeping.head?.map fun e => e.burst.words.map (·.data)).getD []

/-- The status word of the result placed last. -/
def status (s : State) : Word := (lastWords s).getD 6 0

/-- Line 1 in a line state. -/
def inLine (st : LineState) (s : State := .reset) : State := s.withLine 1 { s.line 1 with state := st }

/-- A record of line 1 with nothing but its place in the tables. -/
def coil (n : Nat) (kind : Kind) (state : RecordState) (start : Nat) (stop : Option Nat := none) : Record :=
  { opened n kind 1 state none 0 start none with stop := stop }

/-- A table that holds records in the places from 0 up. -/
def holding (rs : List Record) (next : Nat) (s : State := .reset) : State :=
  { s with track.table.places := (List.range rs.length).zip rs, track.table.nextSerial := next }

/-- The state with its path in another state. -/
def inPath (p : PathState) (s : State := .reset) : State := { s with path.state := p }

/-- The bookkeeping queue with n bursts. -/
def bursts (n : Nat) (s : State := .reset) : State :=
  { s with path.bookkeeping := List.replicate n { id := 0, burst := { addr := 0, words := [⟨0, 0xF⟩] } } }

/-! ## Ill-formed terms -/

theorem test_wf_write_8_words : Instr.wf (.passThroughWrite ⟨0x20, List.replicate 8 ⟨0, 0xF⟩⟩) = true := by decide
theorem test_wf_write_misaligned : Instr.wf (.passThroughWrite ⟨0x22, [⟨0, 0xF⟩]⟩) = false := by decide
theorem test_wf_write_beyond_memory : Instr.wf (.directiveSlotWrite ⟨2 ^ 34, [⟨0, 0xF⟩]⟩) = false := by decide
theorem test_wf_write_empty : Instr.wf (.goWord ⟨0x20, []⟩) = false := by decide
theorem test_wf_write_over_block : Instr.wf (.intakeWrite ⟨0x24, List.replicate 8 ⟨0, 0xF⟩⟩) = false := by decide
theorem test_wf_read_last_word : Instr.wf (.passThroughRead ⟨2 ^ 34 - 4, 1⟩) = true := by decide
theorem test_wf_read_misaligned : Instr.wf (.passThroughRead ⟨0x21, 1⟩) = false := by decide
theorem test_wf_read_beyond_memory : Instr.wf (.apertureRead ⟨2 ^ 34, 1⟩) = false := by decide
theorem test_wf_read_empty : Instr.wf (.apertureRead ⟨0x20, 0⟩) = false := by decide
theorem test_wf_read_over_block : Instr.wf (.passThroughRead ⟨0x38, 3⟩) = false := by decide

/-! ## Power, path reset and server states -/

theorem witness_StepRunsTheFrontCommand :
    ({ State.reset with pending := [.timeBaseTick] } : State).pending = .timeBaseTick :: [] ∧ State.reset.pending = [] := by
  decide

theorem witness_CommandsCompleteAndLeaveTheQueueAlone :
    Instr.wf .mSideGrant = true ∧ Instr.wf (.goWord ⟨0x1FC, [⟨0, 0xF⟩]⟩) = true ∧
      WriteBurst.wf ⟨0, []⟩ = false ∧ ReadBurst.wf ⟨0, 9⟩ = false := by decide

/-- Every pair of conditions a cold start can find: with supply and PRST negated its path reset ends within it, into OPEN
on RUN and into HOLD on any other decoding (R178, R179, R148). -/
theorem witness_ColdStartGivesColdStartValues :
    bringsPathUp Levels.quiet ∧ bringsPathUp { Levels.quiet with ssa := false } ∧
      ¬bringsPathUp { Levels.quiet with prst := true } ∧ ¬bringsPathUp { Levels.quiet with serverSupply := false } := by
  decide

theorem test_coldStart_illegal_combination :
    ((after (.coldStart { Levels.quiet with ssb := false, areaSel := 3 }) .reset).track.illegalMark,
      (after (.coldStart { Levels.quiet with ssb := false, areaSel := 3 }) .reset).track.anomalyCount,
      (after (.coldStart { Levels.quiet with ssb := false, areaSel := 3 }) .reset).path.state,
      (after (.coldStart { Levels.quiet with ssb := false, areaSel := 3 }) .reset).base) = (true, 1, .hold, 0xFFF00000) := by
  decide +kernel

theorem test_coldStart_under_PRST :
    ((after (.coldStart { Levels.quiet with prst := true }) .reset).path.state,
      (after (.pathResetEnd .prstNegated 3) (after (.coldStart { Levels.quiet with prst := true }) .reset)).path.state) =
      (.down, .opened) := by decide +kernel

theorem test_standbyPowerLoss :
    ((after .standbyPowerLoss (holding [coil 1 .exit .winding 5] 2)).powered,
      (after .standbyPowerLoss (holding [coil 1 .exit .winding 5] 2)).track.table.places) = (false, []) := by decide +kernel

theorem witness_WithoutSupplyThePartDoesNothing :
    State.reset.unpowered.powered = false ∧ Instr.wf .timeBaseTick = true ∧
      (∀ lv, Instr.timeBaseTick ≠ .coldStart lv) ∧ Instr.timeBaseTick ≠ .standbyPowerLoss := by
  refine ⟨rfl, rfl, fun _ => ?_, ?_⟩ <;> exact nofun


theorem witness_PathResetEnds :
    (∀ s ∈ [{ inPath .down with prst := true }, { inPath .down with pathPower := false }],
      s.powered = true ∧ s.path.state = .down ∧ s.presented = [] ∧ s.ResetOk ∧ (s.pathPower = true ∨ s.prst = false)) ∧
    (State.reset.Ready ∧ State.reset.path.state ≠ .down ∧ (inPath .down).Ready ∧
      ({ inPath .down with pathPower := false } : State).pathPower = false ∧
      ({ inPath .down with prst := true } : State).prst = true ∧
      ({ inPath .down with presented := [.read ⟨0, 1⟩] } : State).presented ≠ []) := by decide +kernel

theorem test_pathResetEnd_hold :
    ((after (.pathResetEnd .prstNegated 5) { inPath .down with prst := true, ssb := false, ssa := false }).path.state,
      (after (.pathResetEnd .prstNegated 5) { inPath .down with prst := true, ssb := false, ssa := false }).base) =
      (.hold, 0x17FF00000) := by decide +kernel

theorem witness_ServerLinesAreDecoded :
    State.reset.Ready ∧ State.reset.track.illegalMark = false ∧
      ({ State.reset with track.illegalMark := true } : State).track.illegalMark = true ∧
      ({ State.reset with pathPower := false } : State).pathPower = false := by decide +kernel

theorem witness_PathStateFollowsTheServer :
    (State.reset.Ready ∧ State.reset.pathPower = true ∧ State.reset.path.state = .opened) ∧
      (inPath .down).path.state = .down ∧ (inPath .hold).path.state = .hold ∧ (inPath .draining).path.state = .draining := by
  decide +kernel

theorem test_serverStateChange_drain :
    ((after (.serverStateChange false true) .reset).path.state,
      (after (.serverStateChange false true)
        { State.reset with path.inProgress := some (.pRead ⟨0, 1⟩) }).path.state) = (.hold, .draining) := by decide +kernel

/-! ## Line units and time -/

/-- Line 1 in TRACKING with one pulse to go on the exit side, at a counter value and in a direction. -/
def stepping (counter : Nat) (forward : Bool) (mark : Bool := false) : State :=
  (inLine .tracking).withLine 1 { (inLine .tracking).line 1 with
    exit := { reload := 4, stepLen := 5, remaining := 1, counter := counter, limitMark := mark, forward := forward } }

theorem witness_PulsesAreCountedOrIgnored :
    ((State.reset.line 1).state = .unconfigured ∧
      (((inLine .standby).withLine 1 { (inLine .standby).line 1 with gated := true }).line 1).gated = true ∧
      (((inLine .standby).withLine 1 { (inLine .standby).line 1 with gated := true }).line 1).run = false) ∧
    (((inLine .standby).line 1).state ≠ .unconfigured ∧ ((inLine .standby).line 1).gated = false) ∧
    1 < (((inLine .standby).withLine 1 { (inLine .standby).line 1 with
        exit := { ((inLine .standby).line 1).exit with remaining := 2 } }).line 1).exit.remaining := by decide +kernel

theorem test_runLevelChange : ((after (.runLevelChange 2 true) .reset).line 2).run = true := by decide +kernel

theorem test_directionLevelChange :
    ((after (.directionLevelChange 2 .exit false) .reset).line 2).exit.forward = false ∧
      ((after (.directionLevelChange 2 .exit false) .reset).line 2).entry.forward = true := by decide +kernel

/-- The same at counter 1000, forward, with the matcher in RECOVERY up to an end position. -/
def recovering (e : Nat) : State :=
  (stepping 1000 true).withLine 1 { (stepping 1000 true).line 1 with matcher := .recovery e }

theorem witness_AStepMovesTheCounter :
    ((stepping 281474976710654 true).Ready ∧ ((stepping 281474976710654 true).line 1).state ≠ .unconfigured ∧
      ((stepping 281474976710654 true).line 1).gated = false ∧ ((stepping 281474976710654 true).line 1).exit.remaining ≤ 1 ∧
      ((stepping 281474976710654 true).line 1).exit.counter < 281474976710655) ∧
    (((stepping 1 false).line 1).exit.forward = false ∧ 0 < ((stepping 1 false).line 1).exit.counter) ∧
    (((recovering 1005).line 1).matcher = .recovery 1005 ∧
      (1005 : Int) ≤ ((1000 + 5 : Nat) : Int) - ((recovering 1005).line 1).hole.offset ∧
      ((1000 + 5 : Nat) : Int) - ((recovering 1006).line 1).hole.offset < 1006 ∧ ((recovering 1005).line 1).gated = false) ∧
    (((inLine .standby).line 1).entry.forward = true ∧ ((inLine .standby).line 1).entry.remaining ≤ 1 ∧
      ((inLine .standby).line 1).entry.counter < 281474976710655) := by decide +kernel

theorem test_encoderPulse_step :
    ((after (.encoderPulse 1 .exit) (stepping 1000 false)).line 1).exit =
      { reload := 4, stepLen := 5, remaining := 4, counter := 995, limitMark := false, forward := false } ∧
    ((after (.encoderPulse 1 .exit) (recovering 1005)).line 1).matcher = .idle ∧
    ((after (.encoderPulse 1 .exit) (recovering 1006)).line 1).matcher = .recovery 1006 := by decide +kernel

theorem test_encoderPulse_at_limit :
    ((after (.encoderPulse 1 .exit) (stepping 0 false)).track.anomalies[0]).map (fun a => (a.code, a.line, a.pos)) =
      some (.counterLimit, some 1, some 0) := by decide +kernel

theorem witness_AStepAtALimitIsRefused :
    (((stepping 281474976710655 true).line 1).exit.forward = true ∧
      281474976710655 ≤ ((stepping 281474976710655 true).line 1).exit.counter ∧
      ((stepping 281474976710655 true).line 1).exit.remaining ≤ 1 ∧
      ((stepping 281474976710655 true).line 1).exit.limitMark = false) ∧
    (((stepping 0 false true).line 1).exit.forward = false ∧ ((stepping 0 false true).line 1).exit.counter = 0 ∧
      ((stepping 0 false true).line 1).gated = false ∧ ((stepping 0 false true).line 1).state ≠ .unconfigured ∧
      ((stepping 0 false true).line 1).exit.limitMark = true) := by decide +kernel

/-- A pending change of the SHEAR input of line 1. -/
def pendingShear (c : Pending) : State :=
  (inLine .tracking).withLine 1 { (inLine .tracking).line 1 with
    shear := { settled := false, pending := some c, edge := .rising, debounce := 3, offset := 20 } }

theorem witness_ATickAdvancesTime :
    (State.reset.Ready ∧
      ∀ l i, (((pendingShear ⟨true, 420520, 7, 2, false⟩).line l).marker i).pending.all (fun c => decide (2 ≤ c.remaining)) = true) ∧
    (((pendingShear ⟨true, 420520, 7, 2, false⟩).line 1).marker .shear).pending ≠ none ∧ State.reset.path.period = 0 ∧
    ({ State.reset with path.period := 1000, path.periodCount := 999 } : State).path.periodCount <
      ({ State.reset with path.period := 1000, path.periodCount := 999 } : State).path.period ∧
    ({ State.reset with path.period := 1000, path.periodCount := 1000 } : State).path.period ≤
      ({ State.reset with path.period := 1000, path.periodCount := 1000 } : State).path.periodCount := by
  refine ⟨⟨⟨rfl, fun _ h => absurd rfl h⟩, fun l i => ?_⟩, ?_⟩
  · revert l; cases i <;> decide +kernel
  · decide +kernel

theorem test_timeBaseTick_wraps :
    (after .timeBaseTick { State.reset with track.clock := 0xFFFFFFFFFFFF }).track.clock = 0 := by decide +kernel

theorem test_timeBaseTick_completes :
    (((after .timeBaseTick (pendingShear ⟨true, 420520, 7, 2, false⟩)).line 1).shear.pending,
      ((after .timeBaseTick (pendingShear ⟨true, 420520, 7, 1, false⟩)).line 1).shear.pending,
      ((after .timeBaseTick (pendingShear ⟨true, 420520, 7, 1, false⟩)).line 1).shear.settled,
      (after .timeBaseTick (pendingShear ⟨true, 420520, 7, 1, false⟩)).track.table.records.map fun r => (r.start, r.openedAt)) =
      (some ⟨true, 420520, 7, 1, false⟩, none, true, [(420500, 7)]) := by decide +kernel

/-- Line 1 at counter 1000, with debounce time 3 at its SHEAR input. -/
def debouncing : State :=
  (inLine .tracking).withLine 1 { (inLine .tracking).line 1 with
    exit := { ((inLine .tracking).line 1).exit with counter := 1000 }
    shear := { settled := false, pending := none, edge := .rising, debounce := 3, offset := 20 } }

theorem witness_MarkerInputsDebounceTheirTransitions :
    (((State.reset.line 1).marker .shear).pending = none) ∧
    (((pendingShear ⟨true, 420520, 7, 3, false⟩).line 1).marker .shear).pending = some ⟨true, 420520, 7, 3, false⟩ ∧
    (((pendingShear ⟨true, 20, 7, 0, false⟩).line 1).marker .shear).pending = some ⟨true, 20, 7, 0, false⟩ ∧
    EdgeSelect.admits .rising true = true ∧ EdgeSelect.admits .rising false = false ∧
    ((pendingShear ⟨true, 20, 7, 0, false⟩).line 1).state = .tracking ∧ ((0 : Nat) : Int) = ((20 : Nat) : Int) - 20 ∧
    (State.reset.line 1).state ≠ .tracking ∧ ((19 : Nat) : Int) - 20 < 0 ∧
    (((State.reset.line 1).marker .shear).debounce = 0 ∧ ((debouncing.line 1).marker .shear).pending = none ∧
      ((debouncing.line 1).marker .shear).debounce ≠ 0) := by decide +kernel

theorem test_markerRawTransition_pending :
    ((after (.markerRawTransition 1 .shear) debouncing).line 1).shear.pending = some ⟨true, 1000, 0, 3, false⟩ := by
  decide +kernel

theorem test_markerRawTransition_at_once :
    (((after (.markerRawTransition 1 .seamIn) .reset).line 1).seamIn.settled,
      ((after (.markerRawTransition 1 .seamIn) .reset).line 1).seamIn.pending) = (true, none) := by decide +kernel

theorem test_debounceComplete_cuts :
    ((after (.debounceComplete 1 .shear) (pendingShear ⟨true, 420520, 7, 0, false⟩)).track.table.places.map fun e =>
      (e.2.serial, e.2.state, e.2.start, e.2.openedAt)) = [(1, .winding, 420500, 7)] := by decide +kernel

/-! ## The P-side -/

/-- A burst of full words. -/
def full (addr : Nat) (ws : List Word) : WriteBurst := { addr := addr, words := ws.map fun w => ⟨w, 0xF⟩ }

/-- The memory request queue with n entries. -/
def queued (n : Nat) : State := { State.reset with path.requests := List.replicate n (.write (full 0 [0])) }

theorem witness_TheReservedAreaStandsWhereAreaSelPutsIt :
    (0xFFFFF < 0x100000) ∧ ((0x3FEFFFFF : Nat) < 0x3FF00000 ∧ 0x3FF00000 + 0x100000 ≤ (0x40000000 : Nat)) ∧
      (127 < 128 ∧ 3 < 4) ∧ ((0x2000 : Nat) ≤ 0x3FFF ∧ 0x3FFF < 0x4000) ∧ (15 < 16) ∧
      (0x4200 ≤ 0x4200 ∧ (0x8FFFF : Nat) < 0x90000 ∧ 0xFFFFF < 0x100000) ∧ 1023 < 1024 ∧
      (∀ lv, Instr.timeBaseTick ≠ .coldStart lv) ∧ (∀ e straps, Instr.timeBaseTick ≠ .pathResetEnd e straps) ∧
      ∃ t, exec .timeBaseTick State.reset = .next t := by
  refine ⟨by decide, by decide, by decide, by decide, by decide, by decide, by decide, fun _ => ?_, fun _ _ => ?_, _, rfl⟩ <;>
    exact nofun

theorem test_areaBase : (areaBase 0, areaBase 15) = (0x3FF00000, 0x3FFF00000) := by decide

theorem test_decodeArea_ends :
    [0x3FEFFFFF, 0x3FF00000, 0x3FF01FFF, 0x3FF02000, 0x3FF04000, 0x3FF041FF, 0x3FF04200, 0x3FF10000, 0x3FF8FFFF,
        0x3FF90000, 0x40000000].map (decodeArea (areaBase 0)) =
      [.outside, .slot 0 0, .slot 15 127, .status, .intake 0 0, .intake 7 15, .plain, .aperture 0 0 0, .aperture 7 1023 15,
        .plain, .outside] := by decide

/-- The states of the witnesses above and below, whatever their fields that a take does not look at, owe no take. -/
theorem witness_NoTakeIsDue (p : PathState) (n : Nat) (f m : Bool) (c : Pending) :
    (inPath p).Ready ∧ (bursts n).Ready ∧ (queued n).Ready ∧ (stepping n f m).Ready ∧ (pendingShear c).Ready ∧ debouncing.Ready ∧
      ∀ st, (inLine st).Ready :=
  ⟨⟨rfl, fun _ h => absurd rfl h⟩, ⟨rfl, fun _ h => absurd rfl h⟩, ⟨rfl, fun _ h => absurd rfl h⟩, ⟨rfl, fun _ h => absurd rfl h⟩,
    ⟨rfl, fun _ h => absurd rfl h⟩, ⟨rfl, fun _ h => absurd rfl h⟩, fun _ => ⟨rfl, fun _ h => absurd rfl h⟩⟩

theorem witness_TransactionsAreWithheldWithoutRoom :
    ((queued 25).Ready ∧ (queued 25).presented = [] ∧
      WriteBurst.wf (full 0x3FF04000 (List.replicate 8 0)) = true ∧
      32 < (queued 25).path.requests.length + entriesNeeded (queued 25).base (.write (full 0x3FF04000 (List.replicate 8 0)))) ∧
    (ReadBurst.wf ⟨0x3FF10000, 8⟩ = true ∧
      32 < (queued 31).path.requests.length + entriesNeeded (queued 31).base (.read ⟨0x3FF10000, 8⟩)) ∧
    (inPath .hold).path.state ≠ .opened ∧
      ({ State.reset with path.port := some (.passThrough ⟨0, 1⟩ none) } : State).path.port ≠ none := by decide +kernel

theorem witness_OtherBurstsAreForwardedUnchanged :
    (queued 31).PortReady ∧ (queued 31).path.requests.length < 32 ∧
      (WriteBurst.wf (full 0x3FF02000 [1]) = true ∧ WriteBurst.wf (full 0x3FF04200 [1]) = true ∧
        WriteBurst.wf (full 0x3FEFFFFC [1]) = true) ∧
      ReadBurst.wf ⟨0x3FF0FFFC, 1⟩ = true ∧ ReadBurst.wf ⟨0x3FF90000, 8⟩ = true := by decide +kernel

theorem test_passThroughWrite :
    (after (.passThroughWrite (full 0x1000 [7])) .reset).path.requests = [.write (full 0x1000 [7])] := by decide +kernel

theorem test_passThroughRead :
    ((after (.passThroughRead ⟨0x1000, 2⟩) (bursts 1)).path.requests,
      (after (.passThroughRead ⟨0x1000, 2⟩) (bursts 1)).path.port) =
      ([.read ⟨0x1000, 2⟩ [0]], some (.passThrough ⟨0x1000, 2⟩ none)) := by decide +kernel

/-- Slot 3 is RUNNING. -/
def busy : State := { State.reset with path.slots := State.reset.path.slots.set 3 { Slot.reset with state := .running } }

theorem witness_ParameterWritesAreCapturedInAnIdleSlot :
    State.reset.PortReady ∧ State.reset.path.requests.length < 32 ∧ 31 < 32 ∧
      (WriteBurst.wf (full (0x3FF00000 + 512 * 3 + 4 * 47) [1]) = true ∧ (State.reset.slot 3).state = .idle ∧ 47 < 48) ∧
      (WriteBurst.wf (full (0x3FF00000 + 512 * 3 + 4 * 120) (List.replicate 7 1)) = true ∧ 120 + 7 < 128 ∧ 48 ≤ 120) ∧
      (busy.PortReady ∧ (busy.slot 3).state ≠ .idle ∧
        (∃ x ∈ (full (0x3FF00000 + 512 * 3 + 4 * 127) [1]).words, x.en ≠ 0) ∧
        ∀ x ∈ (⟨0x3FF00600, [⟨1, 0⟩]⟩ : WriteBurst).words, x.en = 0) := by decide +kernel

theorem test_directiveSlotWrite_merges :
    ((after (.directiveSlotWrite ⟨0x3FF00000 + 512 * 3 + 4 * 47, [⟨0xAABBCCDD, 0x5⟩]⟩) .reset).slot 3).word 47 = 0x00BB00DD := by
  decide +kernel

theorem witness_TheGoWordQueuesAnIdleSlot :
    State.reset.PortReady ∧ WriteBurst.wf (full (0x3FF00000 + 512 * 15 + 4 * 127) [0x12340052]) = true ∧
      127 + (full (0x3FF00000 + 512 * 15 + 4 * 127) [0x12340052]).words.length = 128 ∧
      (full (0x3FF00000 + 512 * 15 + 4 * 127) [0x12340052]).words.getLast? = some ⟨0x12340052, 0xF⟩ ∧
      (State.reset.slot 15).state = .idle ∧ ((0x12340052 : Word).toNat % 256 ≠ 0 ∧ (0x12340000 : Word).toNat % 256 = 0) ∧
      ((0x7 : BitVec 4) ≠ 0xF ∧ (0x7 : BitVec 4) ≠ 0) := by decide +kernel

theorem test_goWord :
    ((after (.goWord (full (0x3FF00000 + 512 * 15 + 4 * 127) [0x12340052])) .reset).path.fifo,
      ((after (.goWord (full (0x3FF00000 + 512 * 15 + 4 * 127) [0x12340052])) .reset).slot 15).tag) = ([15], 0x1234) := by
  decide +kernel

/-- A definition with two channels, the second 51,200 mm upstream. -/
def twoChannels : StationDef :=
  { ringBase := 0x1000000, slotCount := 512, binLength := 100, tag := 0x77, settle := 0, channels := 2
    offsets := #v[0, -51200, 0, 0, 0, 0, 0, 0, 0, 0, 0, 0] }

/-- Station 3, on the exit side of line 1, in a state, with the exit counter at a position. -/
def station (st : StationState) (counter : Nat := 0) (sd : StationDef := twoChannels) (s : State := .reset) : State :=
  (s.withLine 1 { s.line 1 with exit := { (s.line 1).exit with counter := counter } }).withStation 3
    { defn := some sd, chain := [], state := st, incarnation := 1, discarded := 0 }

/-- A LIVE station that has sealed up to a bin, with no bin open. -/
def live (sealed : Int) (bins : List (Nat × OpenBin) := []) : StationState :=
  .live { sealedBin := sealed, highest := (bins.getLast?.map fun e => (e.1 : Int)).getD sealed, bins := bins, paused := false }

/-- A bin in which one value has been recorded. -/
def oneValue : OpenBin := OpenBin.empty.record 0 9

/-- Intake that has begun at a state. -/
def begun (s : State) : IntakeRun := { state := s, recorded := [] }

theorem witness_IntakeBurstsAreTakenApart :
    WriteBurst.wf (full (0x3FF04000 + 64 * 3 + 4 * 15) [1]) = true ∧ (queued 31).PortReady ∧
      (queued 31).path.requests.length + ((full (0x3FF04000 + 64 * 3 + 4 * 15) [1]).words.filter fun x => x.en != 0).length ≤ 32 ∧
      15 < 16 := by decide +kernel

theorem test_intakeWrite :
    ((after (.intakeWrite (full (0x3FF04000 + 64 * 3 + 16) [1, 2])) (station (live 9999) 1000030)).path.requests.map fun r =>
      match r with
      | .write b => b.addr
      | .read b _ => b.addr) = [0x1000000 + 64 * (10000 % 512), 0x1000000 + 64 * (10512 % 512)] := by decide +kernel

theorem witness_IntakeWordsAreDiscarded :
    ((0x3 : BitVec 4) ≠ 0 ∧ (0x3 : BitVec 4) ≠ 0xF ∧ (State.reset.station 3).state = .off ∧
      ((station (live 5)).station 3).d.channels ≤ 6 - 4 ∧ 3 < 4) ∧
    (4 - 4 < ((station (.preparing 0)).station 3).d.channels ∧ ((station (.preparing 0)).station 3).state = .preparing 0) ∧
    (281474976710655 < ((281474976710600 : Nat) : Int) - (station (live 5)).channelOffset 3 5) ∧
    ((station (live 5)).Files 3 500 4 ⟨5, 5, [], false⟩ 5 ∧ ((5 : Nat) : Int) ≤ 5) := by
  refine ⟨?_, ?_, ?_, ⟨?_, ?_, ?_, 500, ?_, ?_, ?_⟩, ?_⟩ <;> decide +kernel

theorem witness_IntakeWordsAreRecorded :
    (((station (live 5)).Files 3 600 4 ⟨5, 5, [], false⟩ 6 ∧ (5 : Int) < (6 : Nat) ∧ (5 : Int) - 512 < (6 : Nat)) ∧
      (∀ e ∈ ([] : List (Nat × OpenBin)), e.1 % 512 ≠ 6 % 512) ∧ ([] : List (Nat × OpenBin)).length < 256) ∧
    ((station (live 5 [(6, oneValue)])).Files 3 51800 4 ⟨5, 6, [(6, oneValue)], false⟩ 518 ∧
      (tableGet 518 [(6, oneValue)]).isSome = false ∧
      512 = ((station (live 5 [(6, oneValue)])).station 3).d.slotCount ∧ tableWf [(6, oneValue)] = true ∧
      (6, oneValue) ∈ [(6, oneValue)] ∧ 6 % 512 = 518 % 512 ∧
      (∀ e ∈ [(6, oneValue)], e.1 % 512 = 518 % 512 → 6 ≤ e.1) ∧ (∀ e ∈ [(6, oneValue)], (5 : Int) < (e.1 : Int)) ∧
      (station (live 5 [(6, oneValue)])).path.waitList = [] ∧
      ([(6, oneValue)].filter fun e => decide (e.1 ≤ 6)).length ≤
        64 - (station (live 5 [(6, oneValue)])).path.bookkeeping.length ∧
      64 - (bursts 64).path.bookkeeping.length < ([(6, oneValue)].filter fun e => decide (e.1 ≤ 6)).length ∧ 6 < 518 ∧
      ((State.sealBins 3 6 true [(6, oneValue)] (station (live 5 [(6, oneValue)]))).station 3).state =
        .live ⟨6, 6, [], false⟩) := by
  refine ⟨⟨⟨⟨?_, ?_, ?_, 600, ?_, ?_, ?_⟩, ?_⟩, ?_⟩, ⟨?_, ?_, ?_, 51800, ?_, ?_, ?_⟩, ?_⟩ <;> decide +kernel

/-- A full table whose oldest open bin lies above bin 6: no forced seal frees a place for bin 6 (log 12). -/
def fullBins : List (Nat × OpenBin) := (List.range 256).map fun n => (n + 7, oneValue)

theorem witness_IntakeWordsAtAFullTable :
    (tableWf fullBins = true ∧ (7, oneValue) ∈ fullBins ∧ 256 ≤ fullBins.length ∧ (∀ e ∈ fullBins, 7 ≤ e.1) ∧
      (∀ e ∈ fullBins, e.1 % 512 ≠ 6 % 512) ∧ (∀ e ∈ fullBins, e.1 % 512 ≠ 263 % 512) ∧
      (tableGet 6 fullBins).isSome = false ∧ (tableGet 263 fullBins).isSome = false ∧ 6 ≤ 7 ∧ 7 < 263 ∧
      (fullBins.filter fun e => decide (e.1 ≤ 7)).length ≤ 64 - (station (live 5 fullBins)).path.bookkeeping.length) ∧
    (station (live 5 fullBins)).Files 3 600 4 ⟨5, 262, fullBins, false⟩ 6 ∧
    (station (live 5 fullBins)).Files 3 26300 4 ⟨5, 262, fullBins, false⟩ 263 := by
  refine ⟨?_, ⟨?_, ?_, ?_, 600, ?_, ?_, ?_⟩, ?_, ?_, ?_, 26300, ?_, ?_, ?_⟩ <;> decide +kernel

theorem test_intakeWrite_full_table :
    ((after (.intakeWrite (full (0x3FF04000 + 64 * 3 + 16) [1])) (station (live 5 fullBins) 600)).station 3).state =
        live 5 fullBins ∧
      ((after (.intakeWrite (full (0x3FF04000 + 64 * 3 + 16) [1])) (station (live 5 fullBins) 26300)).station 3).state =
        live 7 (fullBins.tail ++ [(263, OpenBin.empty.record 0 1)]) := by decide +kernel

/-- A cursor on station 3 in a state of the table, on a machine. -/
def cursorAt (c : CursorDef → List Resolved → Cursor) (table : List Resolved) (s : State) : State :=
  s.withCursor 2 (c { target := 9, line := 1, side := .exit, x0 := 5, stepLen := 10, count := 2 } table)

/-- A resolved entry at bin 6 of station 3. -/
def entryOk : Resolved := { status := .ok, ancestor := 9, pos := 5, bin := some 6, incarnation := some 1 }

theorem witness_AperturePointsAnsweredAtOnce :
    (ReadBurst.wf ⟨0x3FF10000 + 65536 * 2 + 64 * 1023, 8⟩ = true ∧ (queued 30).PortReady ∧
      (queued 30).path.requests.length ≤ 30 ∧ 1023 < 1024 ∧ (queued 30).cursor 2 = .closed) ∧
    (2 ≤ 1023 ∧ 1 < 2 ∧ ([] : List Resolved).length ≤ 1) ∧
    ((cursorAt .ready [{ entryOk with status := .pending }, entryOk] (station (live 5))).cursor 2 =
        .ready ⟨9, 1, .exit, 5, 10, 2⟩ [{ entryOk with status := .pending }, entryOk]) ∧
    (((station .off).station (stationOf 1 .exit)).live? = none ∧ stationOf 1 .exit = 3) ∧
    ((6 : Nat) : Int) ≤ 600 - ((station (live 5)).station 3).d.slotCount ∧
    (((station (live 5)).station 3).state = .live ⟨5, 5, [], false⟩ ∧
      (5 : Int) - ((station (live 5)).station 3).d.slotCount < (6 : Nat) ∧ (5 : Int) < (6 : Nat)) := by decide +kernel

theorem witness_AperturePointsGoToMemory :
    ReadBurst.wf ⟨0x3FF10000 + 65536 * 2 + 64 * 0 + 4 * 8, 8⟩ = true ∧ 8 < 16 ∧
      (cursorAt .ready [entryOk] (station (live 6))).PortReady ∧
      (cursorAt .ready [entryOk] (station (live 6))).cursor 2 = .ready ⟨9, 1, .exit, 5, 10, 2⟩ [entryOk] ∧ 0 < 2 ∧
      [entryOk][0]? = some entryOk ∧ entryOk.status = .ok ∧ entryOk.bin = some 6 ∧
      ((cursorAt .ready [entryOk] (station (live 6))).station 3).state = .live ⟨6, 6, [], false⟩ ∧
      ((cursorAt .ready [entryOk] (station (live 6))).station 3).defn = some twoChannels ∧
      entryOk.incarnation = some ((cursorAt .ready [entryOk] (station (live 6))).station 3).incarnation ∧
      (6 : Int) - twoChannels.slotCount < (6 : Nat) ∧ ((6 : Nat) : Int) ≤ 6 := by decide +kernel

theorem test_apertureRead_closed :
    (after (.apertureRead ⟨0x3FF10000, 2⟩) .reset).returned = [[8, 0]] := by decide +kernel

theorem test_apertureRead_memory :
    (after (.apertureRead ⟨0x3FF10000 + 65536 * 2 + 4 * 2, 8⟩) (cursorAt .ready [entryOk] (station (live 6)))).returned = [] ∧
    (after (.apertureRead ⟨0x3FF10000 + 65536 * 2 + 4 * 8, 8⟩) (cursorAt .ready [entryOk] (station (live 6)))).path.requests =
      [.read ⟨0x1000000 + 64 * 6, 4⟩ [], .read ⟨0x1000000 + 64 * 6 + 32, 8⟩ []] := by decide +kernel

/-- An aperture read whose one M-side read has completed. -/
def apertureHeld (got : List (List Word)) : State :=
  { State.reset with
    path.port := some (.aperture
      { first := 0, count := 5, bin := 6, tag := 0x77, ancestor := 9, pos := 5, target := 5, reads := 1, got := got }) }

theorem witness_ReadsReturnAndReleaseThePort :
    (({ State.reset with path.port := some (.passThrough ⟨0, 1⟩ (some [7])) } : State).path.port =
        some (.passThrough ⟨0, 1⟩ (some [7]))) ∧
    (∀ b ws, State.reset.path.port ≠ some (.passThrough b (some ws))) ∧
    (∀ h, State.reset.path.port = some (.aperture h) → h.got.length ≠ h.reads) ∧
    (∃ h, (apertureHeld [[0x78, 9, 0, 0, 0]]).path.port = some (.aperture h) ∧ h.got.length = h.reads ∧ h.slotWord 0 ≠ h.tag) ∧
    ∃ h, (apertureHeld [[0x77, 9, 0, 0x00080080, 5]]).path.port = some (.aperture h) ∧ h.got.length = h.reads ∧
      h.slotWord 0 = h.tag ∧ (h.slotWord 2).toNat + (h.slotWord 3).toNat % 128 * 4294967296 = h.bin / 512 := by
  refine ⟨rfl, fun _ _ => nofun, fun _ => nofun, ⟨_, rfl, ?_⟩, ⟨_, rfl, ?_⟩⟩ <;> decide +kernel

theorem test_readDataReturn :
    ((after .readDataReturn { State.reset with path.port := some (.passThrough ⟨0, 1⟩ (some [7])) }).returned,
      (after .readDataReturn { State.reset with path.port := some (.passThrough ⟨0, 1⟩ (some [7])) }).path.port) =
      ([[7]], none) := by decide +kernel

theorem test_readDataReturn_then_answer :
    (after .readDataReturn
      { State.reset with
        path.port := some (.passThrough ⟨0, 1⟩ (some [7])), presented := [.read ⟨0x3FF10000, 2⟩] }).returned =
      [[7], [8, 0]] := by decide +kernel

theorem test_apertureReadReturn :
    (after .apertureReadReturn (apertureHeld [[0x77, 9, 0, 0x00080080, 5]])).returned = [[0x00200200, 9, 5, 5, 5]] ∧
    (after .apertureReadReturn (apertureHeld [[0x78, 9, 0, 0x00080080, 5]])).returned = [[13, 9, 5, 5, 0x80000000]] := by
  decide +kernel

/-! ## The M-side -/

/-- A machine with a P read that waits for the burst it overlaps, in a path state. -/
def heldRead (p : PathState) : State :=
  { inPath p (bursts 1) with path.requests := [.read ⟨0, 1⟩ [0]], path.port := some (.passThrough ⟨0, 1⟩ none) }

/-- Station 3 PREPARING at the head of the preparation queue, with its progress. -/
def preparing (progress : Nat) (s : State := .reset) : State :=
  { station (.preparing progress) 1000 twoChannels s with path.prepQueue := [3] }

/-- None of these states owes a take, nor does a unit with a directive in hand. -/
theorem witness_NoTakeIsDueOnTheMSide (p : PathState) (n : Nat) (got : List (List Word)) (k : Fin 16) (bs : List WriteBurst) :
    (heldRead p).Ready ∧ (preparing n).Ready ∧ (apertureHeld got).Ready ∧
      ∀ s : State, s.powered = true → s.path.directiveUnit = .answering k bs → s.Ready :=
  ⟨⟨rfl, fun _ h => absurd rfl h⟩, ⟨rfl, fun _ h => absurd rfl h⟩, ⟨rfl, fun _ h => absurd rfl h⟩,
    fun _ hp hu => ⟨hp, fun h => nomatch hu.symm.trans h⟩⟩

theorem witness_TheArbiterChoosesTheClass :
    ((heldRead .opened).heldBack = true ∧ (preparing 0).fOffers = true) ∧
    (({ State.reset with path.inProgress := some (.pRead ⟨0, 1⟩) } : State).path.inProgress ≠ none) ∧
    (({ preparing 0 with path.fCount := 32 } : State).fOffers = true ∧
      32 ≤ ({ preparing 0 with path.fCount := 32 } : State).path.fCount) ∧
    (({ bursts 1 with path.bCount := 8 } : State).path.bookkeeping ≠ [] ∧
      8 ≤ ({ bursts 1 with path.bCount := 8 } : State).path.bCount) ∧
    ((queued 1).path.requests ≠ [] ∧ (queued 1).heldBack = false ∧ (queued 1).path.bookkeeping = []) ∧
    ((heldRead .draining).path.state = .draining ∧ (heldRead .draining).heldBack = true) ∧
    State.reset.grantClass = none := by decide +kernel

theorem test_grantClass :
    [heldRead .opened, heldRead .draining, queued 1, preparing 0, inPath .hold (queued 1)].map State.grantClass =
      [some .b, some .b, some .p, some .f, none] := by decide +kernel

theorem witness_GrantsPutABurstInProgress :
    ((queued 1).grantClass = some .p ∧ (queued 1).path.requests = [.write (full 0 [0])]) ∧
    ((bursts 1).grantClass = some .b ∧ (bursts 1).path.bookkeeping = [⟨0, ⟨0, [⟨0, 0xF⟩]⟩⟩] ∧ (bursts 1).path.waitList = []) ∧
    ((preparing 510).grantClass = some .f ∧ (preparing 510).path.prepQueue = [3] ∧
      ((preparing 510).station 3).state = .preparing 510 ∧ ((preparing 510).station 3).defn = some twoChannels ∧
      510 + 1 < twoChannels.slotCount) ∧
    ((preparing 511).grantClass = some .f ∧ (preparing 511).Ready ∧
      ((preparing 511).station 3).state = .preparing 511 ∧ twoChannels.slotCount ≤ 511 + 1) ∧
    (({ bursts 64 with path.waitList := [.mirror (full 0 [1])] } : State).grantClass = some .b) ∧
    ((({ station (live 5 [(6, oneValue)]) with
        path.waitList := [.sealing 3], path.bookkeeping := (bursts 1).path.bookkeeping } : State).station 3).state =
      .live ⟨5, 6, [(6, oneValue)], false⟩ ∧
      ({ station (live 5 [(6, oneValue)]) with
        path.waitList := [.sealing 3], path.bookkeeping := (bursts 1).path.bookkeeping } : State).grantClass = some .b ∧
      ({ station (live 5 [(6, oneValue)]) 1000 twoChannels (heldRead .draining) with
        path.waitList := [.sealing 3] } : State).grantClass = some .b) := by
  decide +kernel

theorem test_mSideGrant_last_fill :
    ((after .mSideGrant (preparing 511)).station 3).state = live 9 ∧
      (after .mSideGrant (preparing 511)).path.pathFlags = 0x400 ∧
      (after .mSideGrant (preparing 511)).path.inProgress =
        some (.fWrite (full (0x1000000 + 64 * 511) [0x77, 0, 0xFFFFFFFF, 0x7F])) := by decide +kernel

theorem test_mSideGrant_handoff :
    (after .mSideGrant { bursts 64 with path.waitList := [.journal (full 512 [1])] }).path.waitList = [] ∧
    (after .mSideGrant { bursts 64 with path.waitList := [.journal (full 512 [1])] }).path.progress = 1 := by decide +kernel

theorem witness_BurstsComplete :
    (State.reset.path.inProgress = none) ∧
    (({ heldRead .draining with path.inProgress := some (.pRead ⟨0, 1⟩) } : State).path.inProgress = some (.pRead ⟨0, 1⟩) ∧
      ([] : List Word).length < (⟨0, 1⟩ : ReadBurst).count ∧ (⟨0, 1⟩ : ReadBurst).count ≤ [(7 : Word)].length) ∧
    (({ heldRead .draining with path.inProgress := some (.pRead ⟨0, 1⟩) } : State).path.port =
      some (.passThrough ⟨0, 1⟩ none)) ∧
    (∃ h, (apertureHeld []).path.port = some (.aperture h)) ∧
    ({ State.reset with path.inProgress := some (.bWrite (full 0 [0])) } : State).path.inProgress =
      some (.bWrite (full 0 [0])) := ⟨rfl, ⟨rfl, by decide, by decide⟩, rfl, ⟨_, rfl⟩, rfl⟩

theorem test_mSideBurstComplete :
    ((after (.mSideBurstComplete [7, 8])
        { inPath .draining with
          path.inProgress := some (.pRead ⟨0, 1⟩), path.port := some (.passThrough ⟨0, 1⟩ none) }).path.port,
      (after (.mSideBurstComplete [7, 8]) { inPath .draining with path.inProgress := some (.pRead ⟨0, 1⟩) }).path.state) =
      (some (.passThrough ⟨0, 1⟩ (some [7])), .hold) := by decide +kernel

/-! ## Journal writer, mirror and resolver -/

/-- A settled record of line 1 in the backlog under sequence number 40, the journal set, and n bursts queued. -/
def journalling (n : Nat) : State :=
  { bursts n with
    path.journal := some { base := 0x200, size := 16 }
    track.backlog := [{ seq := 40, settledAt := 7, record := coil 9 .exit .settled 5 (some 9) }], track.nextSeq := 41 }

theorem witness_HandedPlacesGoOn :
    (∀ w ∈ [Waiter.directive (full 0x100 [1]), .journal (full 0x100 [1]), .mirror (full 0x100 [1])],
      ({ bursts 64 with path.waitList := [w] } : State).grantClass = some .b ∧
        ({ heldRead .draining with path.waitList := [w] } : State).grantClass = some .b) ∧
    (({ bursts 64 with path.directiveUnit := .answering 15 [full 0x120 [1]] } : State).path.directiveUnit =
        .answering 15 ([full 0x120 [1]]) ∧ 64 ≤ (bursts 63).path.bookkeeping.length + 1 ∧
      ({ bursts 64 with path.directiveUnit := .answering 15 [] } : State).path.directiveUnit = .answering 15 []) ∧
    (∀ n ∈ [0, 14, 15], ({ journalling 64 with path.progress := n, path.waitList := [.journal (full 0x200 [1])] } : State).grantClass =
      some .b) ∧
    ((journalling 64).path.journal = some ⟨0x200, 16⟩ ∧
      (journalling 64).track.backlog = [⟨40, 7, coil 9 .exit .settled 5 (some 9)⟩] ∧ (journalling 64).path.state = .opened ∧
      (heldRead .draining).path.state ≠ .opened ∧ 0 < 15 ∧ 14 < 15 ∧ 15 ≤ 15 ∧
      ∀ b', .journal b' ∉ ([] : List Waiter)) := by
  refine ⟨?_, ?_, ?_, ?_, ?_, ?_, ?_, ?_, ?_, ?_, fun _ => List.not_mem_nil⟩ <;> decide +kernel

/-- A path in a state, with block 0 of an entry still to be written, station 3 with bin 6 due, and a write presented. -/
def goingOn (p : PathState) : State :=
  { station (live 5 [(6, oneValue)]) 700 twoChannels (inPath p (journalling 0)) with
    path.progress := 15, presented := [.write (full 0 [1])] }

theorem witness_TheReturnToOpenGoesOn :
    ((goingOn .hold).Ready ∧ (goingOn .hold).pathPower = true ∧ (goingOn .hold).path.state = .hold ∧
      (goingOn .draining).path.state = .draining) ∧
    ((goingOn .opened).path.state = .opened ∧ (goingOn .opened).path.journal = some ⟨0x200, 16⟩ ∧
      (goingOn .opened).track.backlog = [⟨40, 7, coil 9 .exit .settled 5 (some 9)⟩] ∧
      (∀ b, .journal b ∉ (goingOn .opened).path.waitList)) ∧
    (∀ p ∈ [1, 15], 0 < p ∧ p < 16 ∧
      ([1, 2, 3, 4, 5, 6, 7, 8, 9, 10, 11, 12, 13, 14, 15, 0].drop p : List Nat).length = 16 - p ∧
      (bursts (48 + p)).path.bookkeeping.length + (16 - p) ≤ 64 ∧ (bursts (49 + p)).path.bookkeeping.length + (15 - p) = 64 ∧
      15 - p < 16 - p) ∧
    (State.reset.path.progress = 0 ∧ State.reset.path.journal = none ∧ State.reset.presented = []) ∧
    ((goingOn .opened).presented = [.write (full 0 [1])] ∧ (goingOn .hold).path.state ≠ .opened ∧
      (goingOn .opened).path.port = none ∧
      (queued 31).path.requests.length + entriesNeeded (goingOn .opened).base (.write (full 0 [1])) ≤ 32 ∧
      32 < (queued 32).path.requests.length + entriesNeeded (goingOn .opened).base (.write (full 0 [1]))) ∧
    (∃ x, exec (.passThroughWrite (full 0 [1])) { goingOn .opened with presented := [] } = .next x) ∧
    ∃ x, exec (.passThroughRead ⟨0, 1⟩) State.reset = .next x := by
  refine ⟨by decide +kernel, ⟨rfl, rfl, rfl, fun b h => ?_⟩, by decide +kernel, by decide +kernel, by decide +kernel, ⟨_, rfl⟩, _, rfl⟩
  exact nomatch (show _ ∈ ([] : List Waiter) from h)

theorem test_serverStateChange_goes_on :
    ((after (.serverStateChange true true) (goingOn .hold)).station 3).state = .live ⟨6, 6, [], false⟩ ∧
      (after (.serverStateChange true true) (goingOn .hold)).path.journalHead = 40 ∧
      (after (.serverStateChange true true) (goingOn .hold)).path.requests = [.write (full 0 [1])] := by decide +kernel

theorem witness_JournalEntriesAreWrittenBlock0Last :
    ((journalling 0).Ready ∧ (journalling 0).path.journal = some ⟨0x200, 16⟩ ∧
      (journalling 0).track.backlog = [⟨40, 7, coil 9 .exit .settled 5 (some 9)⟩] ∧ (journalling 0).path.state = .opened ∧
      (journalling 0).path.progress = 0 ∧ (∀ b, .journal b ∉ (journalling 0).path.waitList) ∧
      (journalling 0).path.waitList = []) ∧
    ((journalling 48).path.bookkeeping.length + 16 ≤ 64 ∧ (journalling 49).path.bookkeeping.length + 15 = 64 ∧
      (journalling 64).path.bookkeeping.length + 0 = 64) ∧
    (({ journalling 64 with path.waitList := [.mirror (full 0 [0])] } : State).path.waitList ≠ [] ∧
      ∀ b, .journal b ∉ ({ journalling 64 with path.waitList := [.mirror (full 0 [0])] } : State).path.waitList) ∧
    State.reset.path.journal = none ∧
      ∃ b, .journal b ∈ ({ journalling 64 with path.waitList := [.journal (full 0 [0])] } : State).path.waitList := by
  refine ⟨⟨⟨rfl, fun _ h => absurd rfl h⟩, rfl, rfl, rfl, rfl, fun b h => ?_, rfl⟩, by decide +kernel, ⟨nofun, fun b h => ?_⟩, rfl, full 0 [0], ?_⟩
  · exact nomatch (show _ ∈ ([] : List Waiter) from h)
  · have := List.mem_singleton.1 (show _ ∈ ([.mirror (full 0 [0])] : List Waiter) from h); exact nomatch this
  · exact List.mem_singleton_self _

theorem test_journalEntryBegin :
    ((after .journalEntryBegin (journalling 0)).path.bookkeeping.length,
      (after .journalEntryBegin (journalling 0)).path.journalHead,
      (after .journalEntryBegin (journalling 0)).path.bookkeeping.getLast?.map (·.burst.addr),
      (after .journalEntryBegin (journalling 0)).track.backlog) = (16, 40, some (0x200 + 512 * 8), []) := by decide +kernel

theorem test_journalEntryBegin_waits :
    ((after .journalEntryBegin (journalling 49)).path.progress,
      (after .journalEntryBegin (journalling 49)).path.waitList.length) = (15, 1) := by decide +kernel

/-- The one dirty group is G3, and the rotation mark is past it. -/
def oneDirty : State :=
  { State.reset with path.dirty := (Vector.replicate 39 false).set 3 true, path.rotation := 4 }

theorem witness_TheMirrorWritesTheNextDirtyGroup :
    (oneDirty.Ready ∧ oneDirty.path.state = .opened ∧ (∀ b, .mirror b ∉ oneDirty.path.waitList) ∧ 38 < 39 ∧
      (3 : Fin 39).val = (oneDirty.path.rotation.val + 38) % 39 ∧ oneDirty.path.dirty[(3 : Fin 39)] = true ∧
      (∀ (g' : Fin 39) (m : Nat), m < 38 → g'.val = (oneDirty.path.rotation.val + m) % 39 → oneDirty.path.dirty[g'] = false) ∧
      oneDirty.path.waitList = [] ∧ oneDirty.path.bookkeeping.length < 64) ∧
    64 ≤ (bursts 64).path.bookkeeping.length ∧ (inPath .draining).path.state ≠ .opened ∧
      (∀ g : Fin 39, ({ State.reset with path.dirty := .replicate 39 false } : State).path.dirty[g] = false) := by
  have clean : ∀ g : Fin 39, g ≠ 3 → oneDirty.path.dirty[g] = false := by decide +kernel
  refine ⟨⟨⟨rfl, fun _ h => absurd rfl h⟩, rfl, fun b h => ?_, by decide, by decide, by decide +kernel, fun g' m hm hg => ?_, rfl, by decide⟩,
    by decide +kernel, by decide, by decide +kernel⟩
  · exact nomatch (show _ ∈ ([] : List Waiter) from h)
  · refine clean g' fun hc => ?_
    have e : oneDirty.path.rotation.val = 4 := rfl
    rw [hc, e] at hg
    have : (3 : Fin 39).val = 3 := rfl
    omega

theorem test_mirrorGroupWrite :
    ((after .mirrorGroupWrite oneDirty).path.bookkeeping.map (·.burst.addr), (after .mirrorGroupWrite oneDirty).path.rotation,
      (after .mirrorGroupWrite oneDirty).path.dirty[(3 : Fin 39)]) = ([0x3FF02060], 4, false) := by decide +kernel

theorem test_groupWords_flags :
    ({ State.reset with track.trackingFlags := 3, path.pathFlags := 0x100, path.alertMask := 0x1F0F } : State).groupWords 0 1 =
      [0x103, 0x1F0F, 0, 0, 0, 0, 0, 0] := by decide +kernel

theorem witness_TheResolverServesTheCursorsInTurn :
    ((cursorAt .resolving [] State.reset).Ready ∧ 2 < 8 ∧
      (2 : Fin 8).val = ((cursorAt .resolving [] State.reset).path.resolverMark.val + 1 + 2) % 8 ∧
      (cursorAt .resolving [] State.reset).cursor 2 = .resolving ⟨9, 1, .exit, 5, 10, 2⟩ [] ∧
      ∀ (j : Fin 8) (m : Nat), m < 2 → j.val = ((cursorAt .resolving [] State.reset).path.resolverMark.val + 1 + m) % 8 →
        ∀ d' table', (cursorAt .resolving [] State.reset).cursor j ≠ .resolving d' table') ∧
    ([] : List Resolved).length + 1 < 2 ∧ 2 ≤ [entryOk].length + 1 ∧
    ∀ k d table, State.reset.cursor k ≠ .resolving d table := by
  have others : ∀ j : Fin 8, j ≠ 2 → (cursorAt .resolving [] State.reset).cursor j = .closed := by decide +kernel
  have closed : ∀ k, State.reset.cursor k = .closed := by decide +kernel
  refine ⟨⟨⟨rfl, fun _ h => absurd rfl h⟩, by decide, rfl, rfl, fun j m hm hj d' table' h => ?_⟩, by decide, by decide, fun k d table h => ?_⟩
  · have e : (cursorAt .resolving [] State.reset).path.resolverMark.val = 7 := rfl
    rw [e] at hj
    exact nomatch (others j (fun hc => by subst hc; have : (2 : Fin 8).val = 2 := rfl; omega)).symm.trans h
  · exact nomatch (closed k).symm.trans h

theorem test_resolverTurn_lost :
    (after .resolverTurn (cursorAt .resolving [entryOk] State.reset)).cursor 2 =
      .ready ⟨9, 1, .exit, 5, 10, 2⟩ [entryOk, ⟨.lineageLost, 9, 0, none, none⟩] := by decide +kernel

theorem test_resolverTurn_ok :
    (after .resolverTurn (cursorAt .resolving [] (holding [coil 9 .exit .cut 595 (some 900)] 10 (station (live 5))))).cursor 2 =
      .resolving ⟨9, 1, .exit, 5, 10, 2⟩ [entryOk] := by decide +kernel

/-! ## Directives -/

theorem witness_DirectivesAreTakenJudgedAndAnswered :
    (directiveOf .setClock = some (0x06, setClock) ∧ (taking 0x06 [5, 0x10000]).Takes 0 0x06 ∧
      (taking 0x06 [5, 0xFFFF]).Takes 0 0x06 ∧ (∀ k, ¬State.reset.Takes k 0x06)) ∧
    (∃ r a, setClock ((taking 0x06 [5, 0x10000]).param 0) ((taking 0x06 [5, 0x10000]).beginDirective 0) = .refused r a) ∧
    (∃ e a, setClock ((taking 0x06 [5, 0xFFFF]).param 0) ((taking 0x06 [5, 0xFFFF]).beginDirective 0) = .done e a) ∧
    ((taking 0x07 []).Takes 0 0x07 ∧ (0x07 : BitVec 8) ∉ directiveCodes) ∧
    (∀ k code, State.reset.Takes k code → code ∈ directiveCodes) ∧
    takesCode .setClock 0x06 ∧ takesCode .descend 0x23 ∧ takesCode .unknownCode 0x07 ∧ waitsForTakes .timeBaseTick := by
  exact ⟨⟨rfl, by decide +kernel, by decide +kernel, fun k h => nomatch h.2.2.2.1⟩, ⟨_, _, rfl⟩, ⟨_, _, rfl⟩,
    by decide +kernel, fun k code h => (nomatch h.2.2.2.1), .inl rfl, .inr (.inl ⟨rfl, rfl⟩),
    .inr (.inr ⟨rfl, by decide +kernel⟩), rfl, nofun, nofun, nofun, fun _ => nofun⟩

theorem test_unknownCode :
    (status (after .unknownCode (taking 0x07 [])), (after .unknownCode (taking 0x07 [])).path.pathFlags) = (0x21001234, 0x100) := by
  decide +kernel

theorem test_directive_waits :
    (after .setClock { taking 0x06 [5, 0] with path.bookkeeping := (bursts 64).path.bookkeeping }).path.directiveUnit =
      .answering 0 [blockBurst (0x3FF00000 + 480) fun i => if i = 6 then some 0x10021234 else none] := by decide +kernel

/-- A take that is due comes before the tick, and before a drain that ends in HOLD (R156, R161). -/
theorem test_take_comes_first :
    (after .timeBaseTick (taking 0x06 [5, 0])).track.clock = 6 ∧
    after .timeBaseTick (taking 0x06 [5, 0]) = after .timeBaseTick (after .setClock (taking 0x06 [5, 0])) ∧
    ((after (.mSideBurstComplete []) (taking 0x06 [5, 0] { inPath .draining with
        path.inProgress := some (.pWrite (full 0 [1])) })).path.state,
      (after (.mSideBurstComplete []) (taking 0x06 [5, 0] { inPath .draining with
        path.inProgress := some (.pWrite (full 0 [1])) })).path.fifo) = (.hold, []) := by decide +kernel

/-- At a return to OPEN the go word of slot 0 is accepted, its directive is taken, and the parameter write that was
presented behind it finds slot 0 IDLE and is captured (R135, R156, R161). -/
theorem test_take_before_the_next_acceptance :
    (((after (.serverStateChange true true) { inPath .hold with
        presented := [.write (full (0x3FF00000 + 508) [0x00010006]), .write (full 0x3FF00000 [9])] }).slot 0).word 0,
      (after (.serverStateChange true true) { inPath .hold with
        presented := [.write (full (0x3FF00000 + 508) [0x00010006]), .write (full 0x3FF00000 [9])] }).path.pathFlags) =
      (9, 0x100) := by decide +kernel

/-- The words of a Define Line for line 1, every one of them at a limit of its range. -/
def lineWords : List Int :=
  [1, 1, 1000, 4096, 1, 1, 3, 15, -100000, 0, 0, -100000, 1, 7, 100000, 1, 1000000, 50000, 500, 20000, 1, 500, 10, 10000]

/-- Line 1 with a seam in its seam queue. -/
def withSeam (st : LineState) : State :=
  (inLine st).withLine 1 { (inLine st).line 1 with seamQueue := [⟨100, 7, 1, none⟩] }

theorem witness_DefineLineSetsTheWholeDefinition :
    ((taking 0x01 [4]).Takes 0 0x01 ∧ 4 ≤ ((taking 0x01 [4]).param 0 0).toNat) ∧
    ((taking 0x01 lineWords).Takes 0 0x01 ∧ ((taking 0x01 lineWords).param 0 0).toNat = (1 : LineId).val ∧
      ((taking 0x01 lineWords).line 1).state = .unconfigured ∧ lineWordsOk ((taking 0x01 lineWords).param 0) = true) ∧
    (((taking 0x01 lineWords (inLine .tracking)).line 1).state = .tracking ∧
      (taking 0x01 lineWords (inLine .tracking)).Takes 0 0x01) ∧
    (((taking 0x01 lineWords (withSeam .standby)).line 1).state = .standby ∧ ¬(taking 0x01 lineWords (withSeam .standby)).Clear 1) ∧
    (((taking 0x01 [1] (inLine .standby)).line 1).state = .standby ∧ (taking 0x01 [1] (inLine .standby)).Clear 1 ∧
      lineWordsOk ((taking 0x01 [1] (inLine .standby)).param 0) = false) := by decide +kernel

theorem test_defineLine :
    (((after .defineLine (taking 0x01 lineWords)).line 1).state, ((after .defineLine (taking 0x01 lineWords)).line 1).seamIn.offset,
      ((after .defineLine (taking 0x01 lineWords)).line 1).exit.remaining, status (after .defineLine (taking 0x01 lineWords))) =
      (.standby, -100000, 4096, 0x10001234) := by decide +kernel

theorem test_defineLine_min_above_max :
    status (after .defineLine (taking 0x01 ((lineWords.set 18 2000).set 19 1999))) = 0x22001234 := by decide +kernel

/-- The words of a Define Hole Patterns for line 1: 8 holes, unused, 2 holes. -/
def patternWords : List Int :=
  [1, 0, 8, 1, 10000, 3, 4, 5, 6, 7, 9, 0, 0, 0, 0, 0, 0, 0, 0, 1, 2, 70]

theorem witness_DefineHolePatternsReplacesAllThree :
    ((taking 0x02 [4]).Takes 0 0x02 ∧ 4 ≤ ((taking 0x02 [4]).param 0 0).toNat) ∧
    ((taking 0x02 patternWords (inLine .standby)).Takes 0 0x02 ∧
      ((taking 0x02 patternWords (inLine .standby)).param 0 0).toNat = (1 : LineId).val ∧
      ((taking 0x02 patternWords (inLine .standby)).line 1).state = .standby ∧
      PatternGiven ((taking 0x02 patternWords (inLine .standby)).param 0) 0 ⟨.seam, 8, [1, 10000, 3, 4, 5, 6, 7]⟩ ∧
      PatternGiven ((taking 0x02 patternWords (inLine .standby)).param 0) 1 ⟨.seam, 0, []⟩ ∧
      PatternGiven ((taking 0x02 patternWords (inLine .standby)).param 0) 2 ⟨.tag, 2, [70]⟩) ∧
    ((taking 0x02 patternWords).line 1).state ≠ .standby ∧
    2 < 3 ∧ ∀ p, ¬PatternGiven ((taking 0x02 (patternWords.set 20 1) (inLine .standby)).param 0) 2 p := by
  refine ⟨by decide +kernel, by decide +kernel, by decide +kernel, by decide, fun p h => ?_⟩
  have e : ((taking 0x02 (patternWords.set 20 1) (inLine .standby)).param 0 (2 + 9 * 2)).toNat = 1 := by decide +kernel
  rcases h with ⟨h, -⟩ | ⟨h, -⟩ <;> omega

theorem test_defineHolePatterns :
    ((after .defineHolePatterns (taking 0x02 patternWords (inLine .standby))).line 1).patterns =
      #v[⟨.seam, 8, [1, 10000, 3, 4, 5, 6, 7]⟩, ⟨.seam, 0, []⟩, ⟨.tag, 2, [70]⟩] := by decide +kernel

theorem witness_StartAndStopTrackingMoveTheLineState :
    ((taking 0x03 [4]).Takes 0 0x03 ∧ 4 ≤ ((taking 0x03 [4]).param 0 0).toNat) ∧
    ((taking 0x03 [1] (inLine .standby)).Takes 0 0x03 ∧ ((taking 0x03 [1] (inLine .standby)).param 0 0).toNat = (1 : LineId).val ∧
      ((taking 0x03 [1] (inLine .standby)).line 1).state = .standby ∧ ((taking 0x03 [1]).line 1).state ≠ .standby) ∧
    ((taking 0x04 [4]).Takes 0 0x04 ∧ 4 ≤ ((taking 0x04 [4]).param 0 0).toNat) ∧
    ((taking 0x04 [1] (inLine .tracking)).Takes 0 0x04 ∧ ((taking 0x04 [1] (inLine .tracking)).param 0 0).toNat = (1 : LineId).val ∧
      ((taking 0x04 [1] (inLine .tracking)).line 1).state = .tracking ∧ ((taking 0x04 [1]).line 1).state ≠ .tracking) := by
  decide +kernel

theorem test_startTracking :
    (((after .startTracking (taking 0x03 [1] (inLine .standby))).line 1).state,
      (after .startTracking (taking 0x03 [1] (inLine .standby))).track.trackingFlags,
      status (after .startTracking (taking 0x03 [1] (inLine .standby)))) = (.tracking, 0x4, 0x10041234) := by decide +kernel

theorem test_stopTracking_voids :
    ((after .stopTracking (taking 0x04 [1] (pendingShear ⟨true, 5, 7, 2, false⟩))).line 1).shear.pending =
      some ⟨true, 5, 7, 2, true⟩ := by decide +kernel

/-- A table with a LOADING, a THROUGH and a WINDING record of line 1. -/
def three (s : State := .reset) : State :=
  holding [coil 1 .entry .through 0 (some 50), coil 2 .entry .loading 50, coil 3 .exit .winding 7] 4 s

/-- A state with n entries in the backlog. -/
def late (n : Nat) (s : State := .reset) : State :=
  { s with track.backlog := List.replicate n { seq := 1, settledAt := 7, record := coil 1 .exit .settled 0 (some 5) } }

theorem witness_ClearLineSettlesByForceAndEmpties :
    ((taking 0x05 [4]).Takes 0 0x05 ∧ 4 ≤ ((taking 0x05 [4]).param 0 0).toNat) ∧
    ((taking 0x05 [1] (three (withSeam .standby))).Takes 0 0x05 ∧
      ((taking 0x05 [1] (three (withSeam .standby))).param 0 0).toNat = (1 : LineId).val ∧
      ((taking 0x05 [1] (three (withSeam .standby))).line 1).state = .standby ∧
      (taking 0x05 [1] (three (withSeam .standby))).SerialsOk) ∧
    (∀ n ∈ [94, 95, 126, 127, 128], (taking 0x05 [1] (late n (three (withSeam .standby)))).Takes 0 0x05 ∧
      (taking 0x05 [1] (late n (three (withSeam .standby)))).SerialsOk ∧
      (taking 0x05 [1] (late n (three (withSeam .standby)))).track.backlog.length = n) ∧
    ((taking 0x05 [1] (inLine .tracking)).line 1).state ≠ .standby := by decide +kernel

theorem test_clearLine :
    ((after .clearLine (taking 0x05 [1] (three (withSeam .standby)))).track.table.records.map (·.state),
      (after .clearLine (taking 0x05 [1] (three (withSeam .standby)))).track.backlog.map fun e =>
        (e.record.serial, e.record.flags.forced),
      ((after .clearLine (taking 0x05 [1] (three (withSeam .standby)))).line 1).seamQueue) =
      ([.through, .settled, .settled], [(2, true), (3, true)], []) := by decide +kernel

theorem witness_SetClockLoadsTheClock :
    ((taking 0x06 [-1, 0x10000]).Takes 0 0x06 ∧ 0xFFFF < ((taking 0x06 [-1, 0x10000]).param 0 1).toNat) ∧
    ((taking 0x06 [-1, 0xFFFF]).Takes 0 0x06 ∧ ((taking 0x06 [-1, 0xFFFF]).param 0 1).toNat ≤ 0xFFFF) ∧
    State.reset.Ready := by decide +kernel

theorem test_setClock :
    ((after .setClock (taking 0x06 [-1, 0xFFFF] { State.reset with track.clock := 0x500000003 })).track.clock,
      (firstWords (after .setClock (taking 0x06 [-1, 0xFFFF] { State.reset with track.clock := 0x500000003 }))).take 2) =
      (0xFFFFFFFFFFFF, [3, 5]) := by decide +kernel

/-- Line 1 with announcements in both queues. -/
def announced (ns : List Word) (s : State := .reset) : State :=
  s.withLine 1 { s.line 1 with entryQueue := ns, exitQueue := ns }

/-- Eight announcements. -/
def eight : List Word := [1, 2, 3, 4, 5, 6, 7, 8]

theorem witness_AnnouncementsJoinTheTail :
    ((taking 0x10 [4, 9]).Takes 0 0x10 ∧ 4 ≤ ((taking 0x10 [4, 9]).param 0 0).toNat) ∧
    ((taking 0x10 [1, 9] (announced eight)).Takes 0 0x10 ∧
      ((taking 0x10 [1, 9] (announced eight)).param 0 0).toNat = (1 : LineId).val ∧
      (taking 0x10 [1, 9] (announced eight)).param 0 1 ∉ ((taking 0x10 [1, 9] (announced eight)).line 1).entryQueue ∧
      8 ≤ ((taking 0x10 [1, 9] (announced eight)).line 1).entryQueue.length) ∧
    ((taking 0x10 [1, 8] (announced eight)).param 0 1 ∈ ((taking 0x10 [1, 8] (announced eight)).line 1).entryQueue) ∧
    (((taking 0x10 [1, 9] (announced eight.tail)).line 1).entryQueue.length < 8) ∧
    ((taking 0x11 [4, 9]).Takes 0 0x11 ∧ 4 ≤ ((taking 0x11 [4, 9]).param 0 0).toNat) ∧
    ((taking 0x11 [1, 9] (announced eight)).Takes 0 0x11 ∧
      ((taking 0x11 [1, 9] (announced eight)).param 0 0).toNat = (1 : LineId).val ∧
      (taking 0x11 [1, 9] (announced eight)).param 0 1 ∉ ((taking 0x11 [1, 9] (announced eight)).line 1).exitQueue ∧
      8 ≤ ((taking 0x11 [1, 9] (announced eight)).line 1).exitQueue.length) ∧
    ((taking 0x11 [1, 8] (announced eight)).param 0 1 ∈ ((taking 0x11 [1, 8] (announced eight)).line 1).exitQueue) ∧
    (((taking 0x11 [1, 9] (announced eight.tail)).line 1).exitQueue.length < 8) := by decide +kernel

theorem test_announceEntry :
    (((after .announceEntry (taking 0x10 [1, 9] (announced [5]))).line 1).entryQueue,
      (firstWords (after .announceEntry (taking 0x10 [1, 9] (announced [5])))).head?,
      status (after .announceEntry (taking 0x10 [1, 9] (announced [9])))) = ([5, 9], some 2, 0x25001234) := by decide +kernel

theorem test_announceExit :
    (((after .announceExit (taking 0x11 [1, 9] (announced [5]))).line 1).exitQueue,
      status (after .announceExit (taking 0x11 [1, 9] (announced eight)))) = ([5, 9], 0x24001234) := by decide +kernel

theorem witness_WithdrawRemovesFromItsPlace :
    ((taking 0x12 [4, 0, 9]).Takes 0 0x12 ∧ 4 ≤ ((taking 0x12 [4, 0, 9]).param 0 0).toNat ∧
      1 < ((taking 0x12 [1, 2, 9]).param 0 1).toNat) ∧
    ((taking 0x12 [1, 0, 8] (announced eight)).Takes 0 0x12 ∧
      ((taking 0x12 [1, 0, 8] (announced eight)).param 0 0).toNat = (1 : LineId).val ∧
      ((taking 0x12 [1, 0, 8] (announced eight)).param 0 1).toNat = 0 ∧
      ((taking 0x12 [1, 0, 8] (announced eight)).line 1).entryQueue =
        [1, 2, 3, 4, 5, 6, 7] ++ (taking 0x12 [1, 0, 8] (announced eight)).param 0 2 :: [] ∧
      (taking 0x12 [1, 0, 8] (announced eight)).param 0 2 ∉ ([1, 2, 3, 4, 5, 6, 7] : List Word)) ∧
    (((taking 0x12 [1, 1, 1] (announced eight)).param 0 1).toNat = 1 ∧
      ((taking 0x12 [1, 1, 1] (announced eight)).line 1).exitQueue =
        [] ++ (taking 0x12 [1, 1, 1] (announced eight)).param 0 2 :: [2, 3, 4, 5, 6, 7, 8]) ∧
    ((taking 0x12 [1, 0, 9] (announced eight)).param 0 2 ∉ ((taking 0x12 [1, 0, 9] (announced eight)).line 1).entryQueue) ∧
    ((taking 0x12 [1, 1, 9] (announced eight)).param 0 2 ∉ ((taking 0x12 [1, 1, 9] (announced eight)).line 1).exitQueue) := by
  decide +kernel

theorem test_withdraw :
    (((after .withdraw (taking 0x12 [1, 1, 2] (announced [1, 2, 3]))).line 1).exitQueue,
      (firstWords (after .withdraw (taking 0x12 [1, 1, 2] (announced [1, 2, 3])))).head?) = ([1, 3], some 1) := by decide +kernel

/-- Line 1 in TRACKING with the last positions of all three events at 100. -/
def tracked : State :=
  (inLine .tracking).withLine 1 { (inLine .tracking).line 1 with
    lastSeamIn := some 100, lastExitSeam := some 100, lastShear := some 100
    seamInSpacing := 50, seamOutSpacing := 50, shearSpacing := 50 }

theorem passes_none (spacing p : Nat) : Passes none spacing p := fun _ => nofun

theorem witness_InjectMarkerCarriesOutTheEvent :
    ((taking 0x13 [4]).Takes 0 0x13 ∧ 4 ≤ ((taking 0x13 [4]).param 0 0).toNat) ∧
    ((taking 0x13 [1, 0, 5, 0]).line 1).state ≠ .tracking ∧
    ((taking 0x13 [1, 3, 5, 0] (inLine .tracking)).Takes 0 0x13 ∧
      2 < ((taking 0x13 [1, 3, 5, 0] (inLine .tracking)).param 0 1).toNat ∧
      0xFFFF < ((taking 0x13 [1, 0, 5, 0x10000] (inLine .tracking)).param 0 3).toNat) ∧
    (((taking 0x13 [1, 2, -1, 0xFFFF] (inLine .tracking)).line 1).state = .tracking ∧
      ((taking 0x13 [1, 2, -1, 0xFFFF] (inLine .tracking)).param 0 3).toNat ≤ 0xFFFF ∧
      ((taking 0x13 [1, 2, -1, 0xFFFF] (inLine .tracking)).param 0 1).toNat = 2 ∧
      281474976710655 = ((taking 0x13 [1, 2, -1, 0xFFFF] (inLine .tracking)).param 0 2).toNat +
        ((taking 0x13 [1, 2, -1, 0xFFFF] (inLine .tracking)).param 0 3).toNat * 4294967296) ∧
    (∀ p, Passes ((taking 0x13 [1, 0, 5, 0] (inLine .tracking)).line 1).lastSeamIn 1 p) ∧
    (¬Passes ((taking 0x13 [1, 0, 149, 0] tracked).line 1).lastSeamIn
        ((taking 0x13 [1, 0, 149, 0] tracked).line 1).seamInSpacing 149 ∧
      ¬Passes ((taking 0x13 [1, 1, 149, 0] tracked).line 1).lastExitSeam
        ((taking 0x13 [1, 1, 149, 0] tracked).line 1).seamOutSpacing 149 ∧
      ¬Passes ((taking 0x13 [1, 2, 149, 0] tracked).line 1).lastShear
        ((taking 0x13 [1, 2, 149, 0] tracked).line 1).shearSpacing 149) ∧
    Passes ((taking 0x13 [1, 1, 150, 0] tracked).line 1).lastExitSeam
      ((taking 0x13 [1, 1, 150, 0] tracked).line 1).seamOutSpacing 150 := by
  refine ⟨?_, ?_, ?_, ?_, fun _ => passes_none _ _, ⟨?_, ?_, ?_⟩, fun q h => ?_⟩
  case refine_8 => cases h; decide +kernel
  all_goals decide +kernel

theorem test_injectMarker_shear :
    ((after .injectMarker (taking 0x13 [1, 2, 500, 0] (three (inLine .tracking)))).track.table.records.map fun r =>
        (r.serial, r.state)) = [(1, .through), (2, .loading), (3, .settled), (4, .winding)] ∧
      (firstWords (after .injectMarker (taking 0x13 [1, 2, 500, 0] (three (inLine .tracking))))).take 2 = [4, 3] := by
  decide +kernel

/-! ## Directives of the coil table -/

/-- A THROUGH and a WINDING record without identity, a named CUT record with serial 9, and its number in the map. -/
def coils (s : State := .reset) : State :=
  { holding [coil 2 .entry .through 0 (some 50), { coil 7 .exit .winding 7 with source := none },
      { coil 8 .exit .settled 3 (some 5) with identity := none },
      { coil 9 .exit .cut 5 (some 7) with identity := some 9101, segments := [⟨5, 7, 2⟩], tags := [⟨1, 1⟩] }] 10 s with
    track.table.idMap := [(9101, 9)] }

theorem witness_NameRecordGivesAnIdentity :
    ((taking 0x20 [3, 9101] coils).Takes 0 0x20 ∧
      (taking 0x20 [3, 9101] coils).find ((taking 0x20 [3, 9101] coils).param 0 0).toNat = none) ∧
    (∃ r, (taking 0x20 [9, 1] coils).find ((taking 0x20 [9, 1] coils).param 0 0).toNat = some r ∧ r.identity ≠ none) ∧
    (∃ r, (taking 0x20 [2, 9101] coils).find ((taking 0x20 [2, 9101] coils).param 0 0).toNat = some r ∧ r.identity = none ∧
      r.kind = .entry ∧ (taking 0x20 [2, 9101] coils).lookupNumber ((taking 0x20 [2, 9101] coils).param 0 1) = some 9) ∧
    (∃ r, (taking 0x20 [7, 9101] coils).find ((taking 0x20 [7, 9101] coils).param 0 0).toNat = some r ∧ r.identity = none ∧
      r.kind = .exit ∧ r.state ≠ .cut ∧ r.state ≠ .settled) ∧
    (∃ r, (taking 0x20 [8, 9101] coils).find ((taking 0x20 [8, 9101] coils).param 0 0).toNat = some r ∧ r.identity = none ∧
      r.kind = .exit ∧ r.state = .settled ∧
      (taking 0x20 [8, 9101] coils).lookupNumber ((taking 0x20 [8, 9101] coils).param 0 1) = some 9 ∧ r.serial ≤ 9) ∧
    (taking 0x20 [8, 5] coils).lookupNumber ((taking 0x20 [8, 5] coils).param 0 1) = none := by
  refine ⟨by decide +kernel, ⟨_, rfl, ?_⟩, ⟨_, rfl, ?_⟩, ⟨_, rfl, ?_⟩, ⟨_, rfl, ?_⟩, ?_⟩ <;> decide +kernel

theorem test_nameRecord :
    ((after .nameRecord (taking 0x20 [2, 9101] coils)).find 2).map (fun r => (r.identity, r.source, r.flags.renamed)) =
      some (some 9101, some 9, true) ∧
    (after .nameRecord (taking 0x20 [8, 5] coils)).track.table.idMap = [(5, 8), (9101, 9)] := by decide +kernel

/-- An EXIT record with segments of n ENTRY records that are present no more, after one of record 2. -/
def fedBy (n : Nat) : Record :=
  { coil 9 .exit .cut 5 (some 99) with segments := ⟨5, 7, 2⟩ :: (List.range (n - 1)).map fun i => ⟨7, 9, 20 + i⟩ }

theorem witness_ReadRecordAndTraceAnswerFromTheTable :
    ((taking 0x21 [2, 9, 0] coils).Takes 0 0x21 ∧ 1 < ((taking 0x21 [2, 9, 0] coils).param 0 0).toNat ∧
      1 < ((taking 0x21 [0, 9, 2] coils).param 0 2).toNat) ∧
    ((taking 0x21 [0, 3, 1] coils).selected ((taking 0x21 [0, 3, 1] coils).param 0 0) ((taking 0x21 [0, 3, 1] coils).param 0 1) =
      none) ∧
    ((taking 0x21 [1, 9101, 1] coils).Takes 0 0x21 ∧
      (∃ r, (taking 0x21 [1, 9101, 1] coils).selected ((taking 0x21 [1, 9101, 1] coils).param 0 0)
        ((taking 0x21 [1, 9101, 1] coils).param 0 1) = some r) ∧ ((taking 0x21 [1, 9101, 1] coils).param 0 2).toNat = 1 ∧
      ((taking 0x21 [0, 9, 0] coils).param 0 2).toNat = 0) ∧
    ((taking 0x22 [2, 9] coils).Takes 0 0x22 ∧ 1 < ((taking 0x22 [2, 9] coils).param 0 0).toNat) ∧
    ((taking 0x22 [0, 9] coils).Takes 0 0x22 ∧ ((taking 0x22 [0, 9] coils).param 0 0).toNat ≤ 1 ∧
      (taking 0x22 [0, 3] coils).selected ((taking 0x22 [0, 3] coils).param 0 0) ((taking 0x22 [0, 3] coils).param 0 1) = none) ∧
    (∃ r, (taking 0x22 [0, 2] coils).selected ((taking 0x22 [0, 2] coils).param 0 0) ((taking 0x22 [0, 2] coils).param 0 1) = some r ∧
      r.references = []) ∧
    (∀ r, traceOf coils.track.table r =
      { traceOf coils.track.table r with
        listed := (traceOf coils.track.table r).listed, truncated := (traceOf coils.track.table r).truncated }) ∧
    (traceOf coils.track.table (fedBy 12)).truncated = false ∧ (traceOf coils.track.table (fedBy 13)).truncated = true := by
  refine ⟨by decide +kernel, by decide +kernel, ⟨by decide +kernel, ⟨_, rfl⟩, by decide +kernel, by decide +kernel⟩,
    by decide +kernel, by decide +kernel, ⟨_, rfl, by decide +kernel⟩, fun r => rfl, by decide +kernel⟩

theorem test_readRecord_segments :
    firstWords (after .readRecord (taking 0x21 [1, 9101, 1] coils)) = [9, 1, 0, 2, 2, 0, 0, 0] := by decide +kernel

theorem test_trace :
    (firstWords (after .trace (taking 0x22 [0, 9] coils))).take 3 = [9, 1, 2] := by decide +kernel

/-- The directive unit scans for the children of the ENTRY record 2. -/
def scanning (next : Nat) (children : List Child) : State :=
  { coils with
    path.directiveUnit := .scanning 0 2 .entry next children
    path.slots := State.reset.path.slots.set 0 { Slot.reset with state := .running } }

/-- A child as a visit finds it. -/
def child : Child := { serial := 9, number := some 9101, kind := .exit, line := 1 }

theorem witness_DescendScansEveryPlace :
    ((taking 0x23 [3] coils).Takes 0 0x23 ∧ (taking 0x23 [3] coils).find ((taking 0x23 [3] coils).param 0 0).toNat = none) ∧
    ((taking 0x23 [2] coils).Takes 0 0x23 ∧
      ∃ r, (taking 0x23 [2] coils).find ((taking 0x23 [2] coils).param 0 0).toNat = some r) ∧
    (∀ k, ¬State.reset.Takes k 0x23) ∧
    (∀ k target kind place children, State.reset.path.directiveUnit ≠ .scanning k target kind place children) ∧
    ((scanning 3 (List.replicate 24 child)).path.directiveUnit = .scanning 0 2 .entry 3 (List.replicate 24 child) ∧
      (tableGet 3 (scanning 3 []).track.table.places).isSome = true ∧ 24 ≤ (List.replicate 24 child).length) ∧
    ((scanning 8191 [child]).path.directiveUnit = .scanning 0 2 .entry 8191 [child] ∧ 8192 ≤ 8191 + 1 ∧
      tableGet 8191 (scanning 8191 []).track.table.places = none) ∧ 3 + 1 < 8192 := by
  refine ⟨by decide +kernel, ⟨by decide +kernel, _, rfl⟩, fun k h => (nomatch h.2.2.2.1), fun _ _ _ _ _ => nofun,
    ⟨rfl, by decide +kernel, by decide⟩, ⟨rfl, by decide, by decide +kernel⟩, by decide⟩

theorem test_descend :
    (after .descend (taking 0x23 [2] coils)).path.directiveUnit = .scanning 0 2 .entry 0 [] ∧
      status (after .descend (taking 0x23 [3] coils)) = 0x26001234 := by decide +kernel

theorem test_descendScanVisit :
    (after .descendScanVisit (scanning 3 [])).path.directiveUnit = .scanning 0 2 .entry 4 [child] ∧
      firstWords (after .descendScanVisit (scanning 8191 [child])) = [2, 1, 9, 9101, 3, 0, 0, 0] := by decide +kernel

/-! ## A path reset begins -/

/-- Stations 2 and 3 LIVE over a table of line 1, with n entries in the backlog. -/
def liveLine1 (n : Nat) : State :=
  late n ((coils (station (live 5))).withStation 2
    { defn := some twoChannels, chain := [], state := live 5, incarnation := 1, discarded := 0 })

theorem witness_PathResetBegins :
    (State.reset.Ready ∧ State.reset.path.state ≠ .down ∧ ∀ i, (State.reset.station i).live? = none) ∧
    (∀ n ∈ [0, 95, 127, 128], (liveLine1 n).Ready ∧ (liveLine1 n).path.state ≠ .down ∧ (liveLine1 n).SerialsOk ∧
      ((liveLine1 n).track.table.records.filter fun r => decide ((liveLine1 n).SettlesAtReset r)).map
        (fun r => (r.serial, r.station)) = [(2, 2), (9, 3)]) ∧
    (inPath .down).powered = true ∧ (inPath .down).path.state = .down := by decide +kernel

theorem test_pathResetBegin :
    ((after (.pathResetBegin .prstAsserted) .reset).path.state, (after (.pathResetBegin .prstAsserted) .reset).prst,
      (after (.pathResetBegin .supplyLost) .reset).pathPower) = (.down, true, false) := by decide +kernel

theorem test_pathResetBegin_settles :
    ((after (.pathResetBegin .supplyLost) (liveLine1 127)).track.table.records.map (·.state),
      ((after (.pathResetBegin .supplyLost) (liveLine1 127)).track.backlog.drop 127).map (·.record.serial),
      (after (.pathResetBegin .supplyLost) (liveLine1 127)).track.nextSeq) =
      ([.settled, .winding, .settled, .settled], [2], 3) ∧
    ((after (.pathResetBegin .supplyLost) (liveLine1 127)).track.anomalies[0]).map (fun a => (a.code, a.serial)) =
      some (.journalBacklogFull, some 9) := by decide +kernel

/-! ## Directives of the stations -/

/-- The words of a Define Station for the exit side of line 1, every one of them at a limit of its range. -/
def stationWords : List Int :=
  [1, 1, 0xFC000000, 3, 1048576, 10, 0xABCD, 2000, 12, -100000, 100000, 0, 0, 0, 0, 0, 0, 0, 0, 0, 0]

/-- What they define. -/
def wideStation : StationDef :=
  { ringBase := 0x3FC000000, slotCount := 1048576, binLength := 10, tag := 0xABCD, settle := 2000, channels := 12
    offsets := #v[-100000, 100000, 0, 0, 0, 0, 0, 0, 0, 0, 0, 0] }

theorem no_ring (j : Fin 8) : (taking 0x30 stationWords).station j |>.defn.isNone := by revert j; decide +kernel

theorem witness_DefineStationReplacesTheDefinition :
    ((taking 0x30 [4]).Takes 0 0x30 ∧ 4 ≤ ((taking 0x30 [4]).param 0 0).toNat ∧ 1 < ((taking 0x30 [0, 2]).param 0 1).toNat) ∧
    ((taking 0x30 stationWords).Takes 0 0x30 ∧ ((taking 0x30 stationWords).param 0 0).toNat = (1 : LineId).val ∧
      ((taking 0x30 stationWords).param 0 1).toNat ≤ 1 ∧
      (3 : Fin 8).val = 2 * (1 : LineId).val + ((taking 0x30 stationWords).param 0 1).toNat ∧
      ((taking 0x30 stationWords).station 3).state = .off ∧ StationGiven ((taking 0x30 stationWords).param 0) ∧
      (wideStation.ringBase = ((taking 0x30 stationWords).param 0 2).toNat +
          ((taking 0x30 stationWords).param 0 3).toNat * 4294967296 ∧
        wideStation.slotCount = ((taking 0x30 stationWords).param 0 4).toNat ∧
        wideStation.binLength = ((taking 0x30 stationWords).param 0 5).toNat ∧
        wideStation.tag = (taking 0x30 stationWords).param 0 6 ∧
        wideStation.settle = ((taking 0x30 stationWords).param 0 7).toNat ∧
        wideStation.channels = ((taking 0x30 stationWords).param 0 8).toNat ∧
        ∀ c : Fin 12, wideStation.offsets[c] = if c.val < ((taking 0x30 stationWords).param 0 8).toNat then
          ((taking 0x30 stationWords).param 0 (9 + c.val)).toInt else 0) ∧
      ¬(taking 0x30 stationWords).MeetsPart (some 3) wideStation.ringBase (wideStation.slotCount * 64) ∧
      (∀ j, (taking 0x30 stationWords).path.journal = some j →
        ¬SharesMemory wideStation.ringBase (wideStation.slotCount * 64) j.base (j.size * 512))) ∧
    ((station (live 5)).station 3).state ≠ .off ∧ ¬StationGiven ((taking 0x30 [1, 1]).param 0) ∧
    State.reset.MeetsPart (some 3) (0x3FF00000 - 32768 + 64) 32768 ∧
    ∃ j, ({ State.reset with path.journal := some ⟨0x1000000, 16⟩ } : State).path.journal = some j ∧
      SharesMemory (0x1000000 + 8191) 32768 j.base (j.size * 512) := by
  have given : StationGiven ((taking 0x30 stationWords).param 0) := by
    and_intros <;> first | decide +kernel | exact ⟨20, by decide +kernel⟩
  refine ⟨by decide +kernel, ⟨?_, ?_, ?_, ?_, ?_, given, ?_, ?_, fun j h => nomatch h⟩, ?_, ?_, .inl ?_, _, rfl, ?_⟩
  any_goals decide +kernel
  · rintro (h | ⟨j, d, -, hd, -⟩)
    · exact absurd h (by decide +kernel)
    · have := no_ring j; rw [hd] at this; exact nomatch this
  · rintro ⟨-, -, ⟨n, -, -, h⟩, -⟩
    have e : ((taking 0x30 [1, 1]).param 0 4).toNat = 0 := by decide +kernel
    have : 0 < 2 ^ n := Nat.two_pow_pos n
    omega

theorem test_defineStation :
    ((after .defineStation (taking 0x30 stationWords)).station 3).defn = some wideStation ∧
      status (after .defineStation (taking 0x30 (stationWords.set 7 2010))) = 0x22001234 := by decide +kernel

/-- A chain of three terms: over 5 on channel 0, and channel 1 present. -/
def chain : List Term := [.cond .load .gt 0 5, .cond .load .present 1 0, .block .andBlock]

/-- The words of the Define Verdict that gives it to station 3, with a value in every word that is not read. -/
def verdictWords : List Int := [3, 3, 0, 0, 0, 5, 0, 4, 1, 88, 6, 77, 77, 77]

theorem witness_DefineVerdictLoadsACheckedChain :
    (chainCheck chain = none ∧ chain ≠ []) ∧
    ((true = true ↔ ∃ v, some (6 : Word) = some v ∧ (5 : Word).toInt < v.toInt) ∧
      (true = true ↔ ∃ v, some (0xFFFFFFFF : Word) = some v ∧ v.toInt ≤ (0 : Word).toInt) ∧
      (false = true ↔ ∃ v, (none : Option Word) = some v ∧ True)) ∧
    (chainCheck [.block .andBlock] = some (0, 1) ∧
      chainCheck (List.replicate 5 (.cond .load .gt 0 5)) = some (4, 2) ∧
      chainCheck [.cond .loadNot .gt 0 5, .block .orBlock] = some (1, 3) ∧
      chainCheck [.cond .load .gt 0 5, .cond .load .gt 0 5] = some (2, 4)) ∧
    ((taking 0x31 [8]).Takes 0 0x31 ∧ 8 ≤ ((taking 0x31 [8]).param 0 0).toNat ∧ 8 < ((taking 0x31 [0, 9]).param 0 1).toNat) ∧
    ((taking 0x31 verdictWords (station .off)).Takes 0 0x31 ∧
      ((taking 0x31 verdictWords (station .off)).param 0 0).toNat = (3 : Fin 8).val ∧
      ((taking 0x31 verdictWords (station .off)).param 0 1).toNat ≤ 8 ∧
      ((taking 0x31 verdictWords (station .off)).station 3).defn = some twoChannels ∧
      ((taking 0x31 verdictWords (station .off)).station 3).state = .off ∧
      chain.length = ((taking 0x31 verdictWords (station .off)).param 0 1).toNat) ∧
    (∀ j t, chain[j]? = some t →
      TermGiven twoChannels.channels ((taking 0x31 verdictWords (station .off)).param 0 (2 + 4 * j))
        ((taking 0x31 verdictWords (station .off)).param 0 (3 + 4 * j))
        ((taking 0x31 verdictWords (station .off)).param 0 (4 + 4 * j))
        ((taking 0x31 verdictWords (station .off)).param 0 (5 + 4 * j)) t) ∧
    (State.reset.station 3).defn = none ∧
    ∀ t, ¬TermGiven twoChannels.channels 8 0 0 0 t := by
  refine ⟨by decide, ⟨⟨fun _ => ⟨6, rfl, by decide⟩, fun _ => rfl⟩, ⟨fun _ => ⟨_, rfl, by decide⟩, fun _ => rfl⟩,
    nofun, fun ⟨_, h, _⟩ => nomatch h⟩, by decide, by decide +kernel, by decide +kernel, fun j t h => ?_, by decide +kernel,
    fun t h => ?_⟩
  · rcases j with _ | _ | _ | j
    · cases h; and_intros <;> decide +kernel
    · cases h; and_intros <;> decide +kernel
    · cases h; show BitVec.toNat _ = 6; decide +kernel
    · exact nomatch h
  cases t with
  | cond o t c v => obtain ⟨h, -⟩ := h; cases o <;> exact absurd h (by decide)
  | block o => cases o <;> exact absurd (show (8 : Word).toNat = _ from h) (by decide)

theorem test_defineVerdict :
    ((after .defineVerdict (taking 0x31 verdictWords (station .off))).station 3).chain = chain ∧
      firstWords (after .defineVerdict (taking 0x31 [3, 2, 0, 0, 0, 5, 7, 0, 0, 0] (station .off))) = [1, 3, 0, 0, 0, 0, 0, 0] := by
  decide +kernel

theorem test_evalChain :
    evalChain chain { values := (Vector.replicate 12 none).set 0 (some 6) |>.set 1 (some 0x80000000), fill := 2 } = true ∧
      evalChain chain { values := (Vector.replicate 12 none).set 0 (some 5) |>.set 1 (some 0), fill := 2 } = false ∧
      [Term.cond .loadNot .lt 0 0, .cond .load .ge 0 0xFFFFFFFF, .cond .orNot .le 1 0].map
          (fun t => t.apply { values := (Vector.replicate 12 none).set 0 (some 0xFFFFFFFF), fill := 1 } [false]) =
        [[false, false], [true, false], [true]] := by decide

theorem witness_ActivateAndDeactivateMoveTheStation :
    ((taking 0x32 [8]).Takes 0 0x32 ∧ 8 ≤ ((taking 0x32 [8]).param 0 0).toNat ∧ 1 < ((taking 0x32 [0, 2]).param 0 1).toNat) ∧
    ((taking 0x32 [3, 0] (station .off)).Takes 0 0x32 ∧ ((taking 0x32 [3, 0] (station .off)).param 0 0).toNat = (3 : Fin 8).val ∧
      ((taking 0x32 [3, 0] (station .off)).param 0 1).toNat = 0 ∧
      ((taking 0x32 [3, 0] (station .off)).station 3).defn = some twoChannels ∧
      ((taking 0x32 [3, 0] (station .off)).station 3).state = .off ∧ (State.reset.station 3).defn = none) ∧
    (((taking 0x32 [3, 1] (station .off 99)).param 0 1).toNat = 1 ∧
      (taking 0x32 [3, 1] (station .off 99)).reference 3 < twoChannels.settle + twoChannels.binLength ∧
      twoChannels.settle + twoChannels.binLength ≤ (taking 0x32 [3, 1] (station .off 100)).reference 3) ∧
    ((taking 0x33 [8]).Takes 0 0x33 ∧ 8 ≤ ((taking 0x33 [8]).param 0 0).toNat) ∧
    ((taking 0x33 [3]).station 3).state = .off ∧
    ((taking 0x33 [3] (preparing 7)).Takes 0 0x33 ∧ ((taking 0x33 [3] (preparing 7)).param 0 0).toNat = (3 : Fin 8).val ∧
      ((taking 0x33 [3] (preparing 7)).station 3).state = .preparing 7) ∧
    ((taking 0x33 [3] (coils (station (live 5)))).Takes 0 0x33 ∧
      ((taking 0x33 [3] (coils (station (live 5)))).station 3).state = .live ⟨5, 5, [], false⟩ ∧
      (taking 0x33 [3] (coils (station (live 5)))).SerialsOk ∧
      (taking 0x33 [3] (coils (station (live 5)))).track.backlog = []) ∧
    (∀ n ∈ [94, 95, 127, 128], (taking 0x33 [3] (late n (coils (station (live 5))))).Takes 0 0x33 ∧
      (taking 0x33 [3] (late n (coils (station (live 5))))).SerialsOk ∧
      (taking 0x33 [3] (late n (coils (station (live 5))))).track.backlog.length = n ∧
      ((taking 0x33 [3] (late n (coils (station (live 5))))).track.table.records.filter fun r =>
        decide (r.station = 3 ∧ (r.state = .through ∨ r.state = .cut))).map (·.serial) = [9]) := by
  and_intros <;> decide +kernel

theorem test_activateStation :
    ((after .activateStation (taking 0x32 [3, 1] (station .off 100))).station 3).state = live 0 ∧
      (after .activateStation (taking 0x32 [3, 0] (station .off 100))).path.prepQueue = [3] := by decide +kernel

theorem test_deactivateStation :
    ((after .deactivateStation (taking 0x33 [3] (coils (station (live 5))))).track.table.records.map (·.state),
      (after .deactivateStation (taking 0x33 [3] (coils (station (live 5))))).track.backlog.map (·.record.serial),
      (after .deactivateStation (taking 0x33 [3] (coils (station (live 5))))).track.trackingFlags) =
      ([.through, .winding, .settled, .settled], [9], 0x2) ∧
    ((after .deactivateStation (taking 0x33 [3] (late 128 (coils (station (live 5)))))).track.anomalies[0]).map
        (fun a => (a.code, a.serial)) = some (.journalBacklogFull, some 9) := by decide +kernel

/-! ## Directives of the cursors -/

/-- The words of an Open Cursor for record 9, every one of them at a limit of its range. -/
def openWords : List Int := [7, 1, 9101, 3, 1, 1000000000, -1000000, 1024]

theorem witness_OpenAndRefreshMakeACursorResolve :
    ((taking 0x40 [8]).Takes 0 0x40 ∧ 8 ≤ ((taking 0x40 [8]).param 0 0).toNat ∧ 1 < ((taking 0x40 [0, 2]).param 0 1).toNat) ∧
    ((taking 0x40 openWords coils).Takes 0 0x40 ∧ ((taking 0x40 openWords coils).param 0 0).toNat = (7 : Fin 8).val ∧
      ((taking 0x40 openWords coils).param 0 1).toNat ≤ 1 ∧ (taking 0x40 openWords coils).cursor 7 = .closed ∧
      ((taking 0x40 openWords coils).param 0 3).toNat = (3 : LineId).val ∧ ((taking 0x40 openWords coils).param 0 4).toNat ≤ 1 ∧
      ((taking 0x40 openWords coils).param 0 5).toNat ≤ 1000000000 ∧ -1000000 ≤ ((taking 0x40 openWords coils).param 0 6).toInt ∧
      ((taking 0x40 openWords coils).param 0 6).toInt ≤ 1000000 ∧ ((taking 0x40 openWords coils).param 0 6).toInt ≠ 0 ∧
      1 ≤ ((taking 0x40 openWords coils).param 0 7).toNat ∧ ((taking 0x40 openWords coils).param 0 7).toNat ≤ 1024 ∧
      (∃ r, (taking 0x40 openWords coils).selected ((taking 0x40 openWords coils).param 0 1)
        ((taking 0x40 openWords coils).param 0 2) = some r) ∧
      (taking 0x40 openWords).selected ((taking 0x40 openWords).param 0 1) ((taking 0x40 openWords).param 0 2) = none) ∧
    (((taking 0x40 (openWords.set 6 0)).param 0 6).toInt = 0 ∧ 1024 < ((taking 0x40 (openWords.set 7 1025)).param 0 7).toNat) ∧
    ((cursorAt .ready [entryOk] State.reset).cursor 2 ≠ .closed) ∧
    ((taking 0x41 [8]).Takes 0 0x41 ∧ 8 ≤ ((taking 0x41 [8]).param 0 0).toNat) ∧
    ((taking 0x41 [2] (cursorAt .ready [entryOk] State.reset)).Takes 0 0x41 ∧
      (taking 0x41 [2] (cursorAt .ready [entryOk] State.reset)).cursor 2 = .ready ⟨9, 1, .exit, 5, 10, 2⟩ [entryOk] ∧
      (taking 0x41 [2]).cursor 2 = .closed) := by
  and_intros <;> first | decide +kernel | exact ⟨_, rfl⟩

theorem test_openCursor :
    (after .openCursor (taking 0x40 openWords coils)).cursor 7 = .resolving ⟨9, 3, .exit, 1000000000, -1000000, 1024⟩ [] ∧
      (firstWords (after .openCursor (taking 0x40 openWords coils))).take 2 = [9, 1024] := by decide +kernel

theorem test_refreshCursor :
    (after .refreshCursor (taking 0x41 [2] (cursorAt .ready [entryOk] State.reset))).cursor 2 =
      .resolving ⟨9, 1, .exit, 5, 10, 2⟩ [] := by decide +kernel

theorem witness_CloseCursorDropsTheCursor :
    ((taking 0x42 [8]).Takes 0 0x42 ∧ 8 ≤ ((taking 0x42 [8]).param 0 0).toNat) ∧
    ((taking 0x42 [7]).Takes 0 0x42 ∧ ((taking 0x42 [7]).param 0 0).toNat = (7 : Fin 8).val ∧ (taking 0x42 [7]).cursor 7 = .closed) ∧
    ((taking 0x42 [2] (cursorAt .resolving [] State.reset)).cursor 2 = .resolving ⟨9, 1, .exit, 5, 10, 2⟩ []) ∧
    (taking 0x42 [2] (cursorAt .ready [entryOk] State.reset)).cursor 2 = .ready ⟨9, 1, .exit, 5, 10, 2⟩ [entryOk] := by
  decide +kernel

theorem test_closeCursor :
    ((after .closeCursor (taking 0x42 [2] (cursorAt .ready [entryOk] State.reset))).cursor 2,
      (firstWords (after .closeCursor (taking 0x42 [2] (cursorAt .ready [entryOk] State.reset)))).head?) = (.closed, some 2) := by
  decide +kernel

/-! ## Directives of the path -/

/-- The words of a Set Journal whose ring ends at the top of memory. -/
def journalSetting : List Int := [0xFE000000, 3, 65536]

theorem no_station_ring (j : Fin 8) : ((taking 0x50 journalSetting).station j).defn = none := by revert j; decide +kernel

theorem witness_SetJournalReplacesTheSetting :
    ((taking 0x50 [0, 0, 17]).Takes 0 0x50 ∧ ((taking 0x50 [0, 0, 17]).param 0 2).toNat ≠ 0 ∧
      (∀ n, 4 ≤ n → n ≤ 16 → ((taking 0x50 [0, 0, 17]).param 0 2).toNat ≠ 2 ^ n)) ∧
    (((taking 0x50 [0x3FEFE200, 0, 16]).param 0 2).toNat ≠ 0 ∧
      (taking 0x50 [0x3FEFE200, 0, 16]).MeetsPart none 0x3FEFE200 (16 * 512)) ∧
    (0 < ({ State.reset with path.progress := 1 } : State).path.progress) ∧
    (∃ b, .journal b ∈ ({ State.reset with path.waitList := [.journal (full 0 [0])] } : State).path.waitList) ∧
    (((taking 0x50 [0, 0, 0]).param 0 2).toNat = 0 ∧ (taking 0x50 [0, 0, 0]).Takes 0 0x50 ∧
      (taking 0x50 [0, 0, 0]).path.progress = 0 ∧ (∀ b, .journal b ∉ (taking 0x50 [0, 0, 0]).path.waitList)) ∧
    ((taking 0x50 journalSetting).Takes 0 0x50 ∧ ((taking 0x50 journalSetting).param 0 2).toNat ≠ 0 ∧
      (∃ n, 4 ≤ n ∧ n ≤ 16 ∧ ((taking 0x50 journalSetting).param 0 2).toNat = 2 ^ n) ∧
      ((taking 0x50 journalSetting).param 0 1).toNat ≤ 3 ∧ 0x3FE000000 % 512 = 0 ∧
      0x3FE000000 = ((taking 0x50 journalSetting).param 0 0).toNat + ((taking 0x50 journalSetting).param 0 1).toNat * 4294967296 ∧
      0x3FE000000 + ((taking 0x50 journalSetting).param 0 2).toNat * 512 ≤ 17179869184 ∧
      ¬(taking 0x50 journalSetting).MeetsPart none 0x3FE000000 (65536 * 512) ∧
      (taking 0x50 journalSetting).track.backlog = [] ∧ (journalling 0).track.backlog ≠ []) := by
  refine ⟨by decide +kernel, ⟨?_, .inl ?_⟩, ?_, ⟨full 0 [0], List.mem_singleton_self _⟩, ⟨?_, ?_, rfl, fun b h => ?_⟩, ?_, ?_,
    ⟨16, ?_⟩, ?_, ?_, ?_, ?_, ?_, rfl, nofun⟩
  any_goals decide +kernel
  · exact nomatch (show _ ∈ ([] : List Waiter) from h)
  · rintro (h | ⟨j, d, -, hd, -⟩)
    · exact absurd h (by decide +kernel)
    · exact nomatch (no_station_ring j).symm.trans hd

theorem test_setJournal :
    ((after .setJournal (taking 0x50 [0, 0, 0] (journalling 0))).path.journal,
      (firstWords (after .setJournal (taking 0x50 [0, 0, 0] (journalling 0)))).take 2) = (none, [40, 1]) := by decide +kernel

theorem witness_AcknowledgeClearsTheNamedFlags :
    ((taking 0x51 [0x10]).Takes 0 0x51 ∧ (taking 0x51 [0x10]).param 0 0 &&& ~~~0x1F0F ≠ 0) ∧
    ((taking 0x51 [0x1F0F]).Takes 0 0x51 ∧ (taking 0x51 [0x1F0F]).param 0 0 &&& ~~~0x1F0F = 0) ∧ 31 < 32 := by decide +kernel

theorem test_acknowledgeEvents :
    ((after .acknowledgeEvents (taking 0x51 [0x105] { inLine .tracking with
          track.trackingFlags := 0x7, path.pathFlags := 0x900 })).track.trackingFlags,
      (after .acknowledgeEvents (taking 0x51 [0x105] { inLine .tracking with
          track.trackingFlags := 0x7, path.pathFlags := 0x900 })).path.pathFlags,
      (firstWords (after .acknowledgeEvents (taking 0x51 [0x105] { inLine .tracking with
          track.trackingFlags := 0x7, path.pathFlags := 0x900 }))).head?) = (0x6, 0x900, some 0x907) := by decide +kernel

theorem witness_SetRoutingLoadsBothMasks :
    ((taking 0x52 [0x10, 0]).Takes 0 0x52 ∧ (taking 0x52 [0x10, 0]).param 0 0 &&& ~~~0x1F0F ≠ 0 ∧
      (taking 0x52 [0, 0x100]).param 0 1 &&& ~~~0xF ≠ 0) ∧
    ((taking 0x52 [0x1F0F, 0xF]).Takes 0 0x52 ∧ (taking 0x52 [0x1F0F, 0xF]).param 0 0 &&& ~~~0x1F0F = 0 ∧
      (taking 0x52 [0x1F0F, 0xF]).param 0 1 &&& ~~~0xF = 0) ∧
    State.reset.Ready ∧ State.reset.path.state ≠ .down := by decide +kernel

theorem test_setRouting :
    ((after .setRouting (taking 0x52 [0x1F0F, 0xF])).path.alertMask, (after .setRouting (taking 0x52 [0x1F0F, 0xF])).track.trackFaultMask,
      (after .setRouting (taking 0x52 [0x1F0F, 0xF])).alert, (after .setRouting (taking 0x52 [0x1F0F, 0xF])).trackFault) =
      (0x1F0F, 0xF, true, false) := by decide +kernel

theorem witness_SetMirrorPeriodStartsTheCountAgain :
    ((taking 0x53 [1001]).Takes 0 0x53 ∧ 1000 < ((taking 0x53 [1001]).param 0 0).toNat) ∧
    ((taking 0x53 [1000]).Takes 0 0x53 ∧ ((taking 0x53 [1000]).param 0 0).toNat ≤ 1000) ∧
    (0 < ({ State.reset with path.period := 5, path.periodCount := 5 } : State).path.period ∧
      ({ State.reset with path.period := 5, path.periodCount := 5 } : State).path.period ≤
        ({ State.reset with path.period := 5, path.periodCount := 5 } : State).path.periodCount) ∧
    State.reset.path.period = 0 := by decide +kernel

theorem test_setMirrorPeriod :
    ((after .setMirrorPeriod (taking 0x53 [1000] { State.reset with path.period := 5, path.periodCount := 3 })).path.periodCount,
      (firstWords (after .setMirrorPeriod (taking 0x53 [1000] { State.reset with path.period := 5 }))).head?) = (0, some 5) := by
  decide +kernel

theorem test_mirrorPeriodComplete :
    ((after .mirrorPeriodComplete { State.reset with
        path.period := 5, path.periodCount := 5, path.dirty := .replicate 39 false }).path.dirty.toList.take 7) =
      [false, false, true, true, true, true, false] := by decide +kernel

/-! ## The coil table and the seam events -/

/-- A full table: records of serials 1 to 8192 in one state. -/
def fullTable (st : RecordState) : State :=
  { State.reset with
    track.table.places := (List.range' 0 8192).map fun i => (i, coil (i + 1) .exit st i), track.table.nextSerial := 8193 }

theorem tableWf_range (f : Nat → Record) (n k : Nat) : tableWf ((List.range' k n).map fun i => (i, f i)) = true := by
  induction n generalizing k with
  | zero => rfl
  | succ n ih =>
    rw [List.range'_succ, List.map_cons]
    simp only [tableWf, ih (k + 1), Bool.and_true, List.all_eq_true, List.mem_map]
    rintro e ⟨i, hi, rfl⟩
    rw [List.mem_range'_1] at hi
    simp only [decide_eq_true_eq]; omega

theorem fullTable_records (st : RecordState) :
    (fullTable st).track.table.records = (List.range' 0 8192).map fun i => coil (i + 1) .exit st i := by
  show List.map _ (List.map _ _) = _
  rw [List.map_map]; rfl

theorem fullTable_ok (st : RecordState) : (fullTable st).TableOk ∧ (fullTable st).SerialsOk := by
  refine ⟨⟨tableWf_range _ _ _, fun e he => ?_, rfl⟩, ?_, (by decide : (8193 : Nat) ≤ 4294967295), fun r hr => ?_⟩
  · obtain ⟨i, hi, rfl⟩ := List.mem_map.1 (show e ∈ List.map _ _ from he)
    rw [List.mem_range'_1] at hi; show i < 8192; omega
  · rw [fullTable_records, List.map_map]
    refine (List.nodup_range' (s := 0) (n := 8192)).map fun a b h => ?_
    have : a + 1 = b + 1 := h
    omega
  · rw [fullTable_records] at hr
    obtain ⟨i, hi, rfl⟩ := List.mem_map.1 hr
    rw [List.mem_range'_1] at hi
    refine ⟨?_, ?_, .inr ?_⟩
    · show 1 ≤ i + 1; omega
    · show i + 1 ≤ 4294967295; omega
    · show i + 1 < 8193; omega

theorem fullTable_first (st : RecordState) : (0, coil 1 .exit st 0) ∈ (fullTable st).track.table.places :=
  List.mem_map.2 ⟨0, by rw [List.mem_range'_1]; omega, rfl⟩

theorem witness_AllocationReclaimsByTheThreeWays :
    (coils.TableOk ∧ coils.SerialsOk ∧ coils.canAllocate = true ∧ 4 < 8192 ∧ tableGet 4 coils.track.table.places = none ∧
      ∀ j, j < 4 → tableGet j coils.track.table.places ≠ none) ∧
    (({ coils with track.table.nextSerial := 0 } : State).track.table.nextSerial = 0 ∧ (coils.line 1).queue .entry = [] ∧
      (coils (announced [5101])).canAllocate = true ∧ ((coils (announced [5101])).line 1).queue .entry = 5101 :: []) ∧
    (∀ st, st = .settled ∨ st = .cut → ∃ r, (fullTable st).TableOk ∧ (fullTable st).SerialsOk ∧
      (fullTable st).canAllocate = true ∧ (fullTable st).track.table.places.length = 8192 ∧
      (0, r) ∈ (fullTable st).track.table.places ∧ r.state = st ∧
      ∀ r' ∈ (fullTable st).track.table.records, r'.state = st ∧ r.serial ≤ r'.serial) := by
  refine ⟨by decide +kernel, by decide +kernel, fun st hst => ⟨coil 1 .exit st 0, (fullTable_ok st).1, (fullTable_ok st).2, ?_, ?_,
    fullTable_first st, rfl, fun r' hr' => ?_⟩⟩
  · have hm : coil 1 .exit st 0 ∈ (fullTable st).track.table.records := List.mem_map.2 ⟨_, fullTable_first st, rfl⟩
    have hs : ((fullTable st).track.table.nextSerial != 0) = true := rfl
    unfold State.canAllocate
    rw [hs, Bool.true_and, Bool.or_eq_true]
    refine .inr (List.any_eq_true.2 ⟨_, hm, ?_⟩)
    rcases hst with rfl | rfl <;> rfl
  · show (List.map _ _).length = 8192
    rw [List.length_map, List.length_range']
  · rw [fullTable_records] at hr'
    obtain ⟨i, -, rfl⟩ := List.mem_map.1 hr'
    exact ⟨rfl, show 1 ≤ i + 1 by omega⟩

/-- Line 1 before a SEAM_IN: the seam queue full, two announcements, a LOADING record. -/
def fullSeams : State :=
  (three (inLine .tracking)).withLine 1 { (inLine .tracking).line 1 with
    seamQueue := List.replicate 16 ⟨40, 7, 1, some 3⟩, entryQueue := [5101, 5102], through := List.replicate 16 1 }

theorem witness_ASeamInOpensAnEntryRecord :
    ¬Passes (some 100) 50 149 ∧ Passes (fullSeams.line 1).lastSeamIn (fullSeams.line 1).seamInSpacing 100 ∧
    (fullSeams.TableOk ∧ fullSeams.SerialsOk ∧ 3 < 8192 ∧ tableGet 3 fullSeams.track.table.places = none ∧
      (∀ j, j < 3 → tableGet j fullSeams.track.table.places ≠ none) ∧ 4 = fullSeams.track.table.nextSerial ∧
      some (coil 2 .entry .loading 50) =
        fullSeams.track.table.records.find? (fun r => decide (r.line = 1 ∧ r.state = .loading)) ∧
      (fullSeams.line 1).seamQueue = ⟨40, 7, 1, some 3⟩ :: List.replicate 15 ⟨40, 7, 1, some 3⟩ ∧
      15 ≤ (List.replicate 15 (⟨40, 7, 1, some 3⟩ : SeamEntry)).length) ∧
    (({ fullSeams with track.table.nextSerial := 0 } : State).TableOk ∧
      ({ fullSeams with track.table.nextSerial := 0 } : State).SerialsOk ∧
      0 = ({ fullSeams with track.table.nextSerial := 0 } : State).track.table.nextSerial ∧
      ({ three (inLine .tracking) with track.table.nextSerial := 0 } : State).SerialsOk) ∧
    ((three (inLine .tracking)).line 1).entryQueue = [] ∧ ((three (inLine .tracking)).line 1).seamQueue.length < 16 := by
  refine ⟨fun h => absurd (h 100 rfl) (by decide), passes_none _ _, ?_⟩
  decide +kernel

theorem test_capture_seamIn :
    (((fullSeams.capture 1 .seamIn 100 9).track.table.records.map fun r => (r.serial, r.state, r.stop, r.identity)) =
      [(1, .through, some 50, none), (2, .closed, some 100, none), (3, .winding, none, none), (4, .loading, none, some 5101)]) ∧
    ((fullSeams.capture 1 .seamIn 100 9).track.table.records.map (·.flags.suspect)) = [true, false, true, false] := by
  decide +kernel

/-- Line 1 before an exit seam: record 1 exit-open at the tail of a full through list, record 2 CLOSED and next. -/
def betweenSeams : State :=
  (holding [{ coil 1 .entry .closed 0 (some 100) with exitStart := some 1000 }, coil 2 .entry .closed 100 (some 200)] 3
    (inLine .tracking)).withLine 1 { (inLine .tracking).line 1 with
    seamQueue := [⟨100, 7, 2, some 1⟩], through := List.replicate 16 1, elongMin := 990, elongMax := 1100 }

theorem witness_AnExitSeamMovesTheThroughList :
    ¬Passes (some 100) 50 149 ∧ Passes (betweenSeams.line 1).lastExitSeam (betweenSeams.line 1).seamOutSpacing 1090 ∧
    ((inLine .tracking).line 1).seamQueue = [] ∧
    ((betweenSeams.line 1).seamQueue = [⟨100, 7, 2, some 1⟩] ∧ betweenSeams.SerialsOk) ∧
    betweenSeams.ExitOpen 1 { coil 1 .entry .closed 0 (some 100) with exitStart := some 1000 } ∧
    (betweenSeams.find 2 = some (coil 2 .entry .closed 100 (some 200)) ∧ RecordState.closed ≠ .settled ∧
      ¬betweenSeams.ExitOpen 1 (coil 2 .entry .closed 100 (some 200))) ∧
    (∀ r, ¬(inLine .tracking).ExitOpen 1 r) ∧ ((1089 - 1000) * 1000 / (100 - 0) < 990) ∧
    betweenSeams.SettlesAt (coil 1 .entry .closed 0 (some 100)) 100 ∧
    ¬(station (live 5)).SettlesAt (coil 9 .exit .cut 5 (some 601)) 601 ∧
    (¬betweenSeams.TailLeaves 1 ∧ (betweenSeams.line 1).through = 1 :: List.replicate 15 1) := by
  refine ⟨fun h => absurd (h 100 rfl) (by decide), passes_none _ _, rfl, by decide +kernel,
    ⟨1, by decide +kernel⟩, ⟨by decide +kernel, by decide, ?_⟩, ?_, by decide, ?_, ?_, ?_, rfl⟩
  · rintro ⟨n, hn, hf, -, -⟩
    have e : (betweenSeams.line 1).through.getLast? = some 1 := by decide +kernel
    cases (e.symm.trans hn)
    exact absurd hf (by decide +kernel)
  · rintro r ⟨n, hn, -⟩
    exact nomatch (show (none : Option Nat) = some n from hn)
  · intro d h
    have e : (betweenSeams.station (coil 1 .entry .closed 0 (some 100)).station).state = .off := by decide +kernel
    rw [e] at h; exact nomatch h
  · intro h
    exact absurd (h ⟨5, 5, [], false⟩ (by decide +kernel)) (by decide +kernel)
  · rintro ⟨n, hn, h⟩
    have e : (betweenSeams.line 1).through.getLast? = some 1 := by decide +kernel
    cases (e.symm.trans hn)
    exact absurd (h { coil 1 .entry .closed 0 (some 100) with exitStart := some 1000 } (by decide +kernel)).2
      (by decide)

theorem test_exitSeamEvent :
    (((betweenSeams.exitSeamEvent 1 1089).track.table.records.map fun r =>
        (r.exitStart, r.exitEnd, r.elongation, r.state, r.flags.suspect)) =
      [(some 1000, some 1089, some 890, .settled, true), (some 1089, none, none, .closed, false)]) ∧
    (((betweenSeams.exitSeamEvent 1 1089).track.anomalies.toList.take 2).map fun a => a.map (·.code)) =
      [some .elongationImplausible, some .throughOverflow] := by decide +kernel

/-- Line 1 before a SHEAR: record 1 has passed the exit wheel, record 2 is on it, and record 3 is being wound. -/
def windingCoil : State :=
  (holding [{ coil 1 .entry .through 0 (some 100) with exitStart := some 1000, exitEnd := some 1100 },
      { coil 2 .entry .closed 100 (some 200) with exitStart := some 1100 },
      { coil 3 .exit .winding 1010 with identity := some 9101 }] 4 (inLine .tracking)).withLine 1
    { (inLine .tracking).line 1 with through := [1, 2], exitQueue := [9102] }

theorem witness_AShearCutsTheWindingRecord :
    ¬Passes (some 100) 50 149 ∧ Passes (windingCoil.line 1).lastShear (windingCoil.line 1).shearSpacing 1150 ∧
    (windingCoil.TableOk ∧ windingCoil.SerialsOk ∧ 3 < 8192 ∧ tableGet 3 windingCoil.track.table.places = none ∧
      (∀ j, j < 3 → tableGet j windingCoil.track.table.places ≠ none) ∧ 4 = windingCoil.track.table.nextSerial ∧
      some { coil 3 .exit .winding 1010 with identity := some 9101 } =
        windingCoil.track.table.records.find? (fun r => decide (r.line = 1 ∧ r.state = .winding)) ∧
      ({ windingCoil with track.table.nextSerial := 0 } : State).TableOk ∧
      ({ windingCoil with track.table.nextSerial := 0 } : State).SerialsOk) ∧
    (windingCoil.overlapping 1 1010 1150).map (·.serial) = [1, 2] ∧
    (∀ held, windingCoil.lookupNumber 9101 = some held → held < 3) ∧
    (none = (inLine .tracking).track.table.records.find? (fun r => decide (r.line = 1 ∧ r.state = .winding)) ∧
      ((inLine .tracking).line 1).exitQueue = []) := by
  refine ⟨fun h => absurd (h 100 rfl) (by decide), passes_none _ _, by decide +kernel, by decide +kernel, ?_, by decide +kernel⟩
  intro held h
  have e : windingCoil.lookupNumber 9101 = none := by decide +kernel
  exact nomatch e.symm.trans h

theorem test_capture_shear :
    (((windingCoil.capture 1 .shear 1150 9).find 3).map fun r => (r.state, r.stop, r.segments)) =
      some (.settled, some 1150, [⟨1010, 1100, 1⟩, ⟨1100, 1150, 2⟩]) ∧
    ((windingCoil.capture 1 .shear 1150 9).line 1).through = [2] ∧
    (windingCoil.capture 1 .shear 1150 9).track.table.idMap = [(9101, 3)] := by decide +kernel

/-- Line 1 with a SEAM pattern of two holes 70 mm apart and a TAG pattern that begins with it, and the matcher in a state. -/
def matching (m : Matcher) (recovery : Nat := 2000) : State :=
  (inLine .tracking).withLine 1 { (inLine .tracking).line 1 with
    patterns := #v[⟨.seam, 2, [70]⟩, ⟨.tag, 3, [70, 90]⟩, .unused], matcher := m, tolerance := 5, gapLimit := 100
    recoveryLen := recovery }

theorem witness_TheMatcherFollowsTheHoles :
    ([0, 1] : List (Fin 3)) =
        ([0, 1, 2] : List (Fin 3)).filter (fun k => decide ((((matching .idle).line 1).patterns[k]).holes ≠ 0)) ∧
    (((matching (.recovery 500)).line 1).matcher = .recovery 500 ∧ 499 < 500) ∧
    (((matching (.collecting [100] [0, 1])).line 1).matcher = .collecting ([] ++ [100]) [0, 1] ∧
      100 + ((matching (.collecting [100] [0, 1])).line 1).gapLimit < 201 ∧
      200 ≤ 100 + ((matching (.collecting [100] [0, 1])).line 1).gapLimit) ∧
    (∀ k : Fin 3, k ∈ ([0, 1] : List (Fin 3)) ↔ k ∈ ([0, 1] : List (Fin 3)) ∧ ∃ sp : Nat,
      (((matching (.collecting [100] [0, 1])).line 1).patterns[k]).spacings[([] : List Nat).length]? = some sp ∧
        ((175 : Nat) : Int) - (100 : Nat) - ((matching (.collecting [100] [0, 1])).line 1).tolerance ≤ sp ∧
        (sp : Int) ≤ ((175 : Nat) : Int) - (100 : Nat) + ((matching (.collecting [100] [0, 1])).line 1).tolerance) ∧
    ([0, 1] : List (Fin 3)).Sublist [0, 1] ∧ ([0, 1] : List (Fin 3)).Pairwise (· < ·) ∧
    (((matching (.collecting [100] [0, 1])).line 1).patterns[(0 : Fin 3)]).holes = ([] : List Nat).length + 2 ∧
    (((matching (.collecting [100, 170] [1])).line 1).patterns[(1 : Fin 3)]).holes = ([100] : List Nat).length + 2 ∧
    (∀ r ∈ State.reset.track.table.records, False) ∧
    (coils.OpenOk ∧ { coil 7 .exit .winding 7 with source := none } ∈ coils.track.table.records ∧ 7 ≤ 7) ∧
    (coil 9 .exit .cut 5 (some 7) ∈ (holding [coil 9 .exit .cut 5 (some 7)] 10).track.table.records ∧
      (holding [coil 9 .exit .cut 5 (some 7)] 10).OpenOk ∧ 5 ≤ 6 ∧ 6 < 7) := by
  refine ⟨?_, ?_, ?_, fun k => ?_, ?_, ?_, ?_, ?_, ?_, ?_, ?_⟩
  any_goals decide +kernel
  constructor
  · intro h
    refine ⟨h, 70, ?_⟩
    have : k = 0 ∨ k = 1 := by simpa using h
    rcases this with rfl | rfl <;> decide +kernel
  · exact fun h => h.1

theorem test_holeEvent :
    ((matching .idle).holeEvent 1 100 |>.line 1).matcher = .collecting [100] [0, 1] ∧
    ((matching (.collecting [100] [0, 1])).holeEvent 1 176 |>.line 1).matcher = .recovery 2176 ∧
    ((matching (.collecting [100] [0, 1])).holeEvent 1 176 |>.track.anomalies[0]).map (·.code) = some .holeMismatch ∧
    ((matching (.collecting [100] [0, 1])).holeEvent 1 175 |>.track.anomalies[0]).map (·.pos) = some (some 100) := by
  decide +kernel

theorem test_tagEvent :
    ((coils.tagEvent 1 6 2).find 9).map (·.tags) = some [⟨1, 1⟩, ⟨2, 1⟩] ∧
    ((coils.tagEvent 1 9 2).find 7).map (·.tags) = some [⟨2, 2⟩] ∧
    ((coils.tagEvent 1 4 2).track.anomalies[0]).map (·.code) = some .unplacedTag := by decide +kernel

/-! ## Sealing and the lineage walk -/

/-- Station 3 up to bin 5, with bins 6 and 8 due of bins 6, 8 and 9, a record over bins 6 to 8, n bursts queued and a wait
list. -/
def sealing (n : Nat) (waiting : List Waiter := []) : State :=
  let s := holding [coil 1 .exit .cut 590 (some 900)] 2 (station (live 5 [(6, oneValue), (8, oneValue), (9, oneValue)]) 950)
  { s with path.bookkeeping := (bursts n).path.bookkeeping, path.waitList := waiting }

theorem witness_SealingTakesTheDueBinsInOrder :
    ((station (live 5) 700).path.state = .opened ∧ ((station (live 5) 700).station 3).state = .live ⟨5, 5, [], false⟩) ∧
    (((inPath .draining).path.state ≠ .opened) ∧ (⟨5, 5, [], true⟩ : LiveData).paused = true) ∧
    (∀ s ∈ [sealing 0, sealing 62, sealing 63, sealing 64, sealing 0 [.sealing 2]],
      (s.station 3).state = .live ⟨5, 9, [(6, oneValue), (8, oneValue), (9, oneValue)], false⟩ ∧
      (s.station 3).defn = some twoChannels ∧ 0 < twoChannels.binLength ∧ s.path.state = .opened ∧ s.SerialsOk ∧
      (8 : Int) = (if s.reference 3 < twoChannels.settle then (-1 : Int)
        else (((s.reference 3 - twoChannels.settle) / twoChannels.binLength : Nat) : Int) - 1)) ∧
    (tableWf [(6, oneValue), (8, oneValue), (9, oneValue)] = true ∧
      (∀ e ∈ [(6, oneValue), (8, oneValue), (9, oneValue)], (5 : Int) < (e.1 : Int)) ∧
      [(6, oneValue), (8, oneValue)] =
        [(6, oneValue), (8, oneValue), (9, oneValue)].filter (fun e => decide ((e.1 : Int) ≤ 8)) ∧
      [(6, oneValue), (8, oneValue)] = [(6, oneValue)] ++ (8, oneValue) :: []) ∧
    ((sealing 62).path.waitList = [] ∧ (sealing 62).path.bookkeeping.length + 2 ≤ 64) ∧
    ((sealing 63).path.waitList = [] ∧ (sealing 63).path.bookkeeping.length + [(6, oneValue)].length = 64) ∧
    64 ≤ (sealing 64).path.bookkeeping.length ∧ (sealing 0 [.sealing 2]).path.waitList ≠ [] ∧
    ([(6, oneValue)] = [(6, oneValue), (8, oneValue), (9, oneValue)].filter (fun e => decide ((e.1 : Int) ≤ 6)) ∧
      (sealing 63).path.bookkeeping.length + [(6, oneValue)].length ≤ 64) ∧
    ([] : List (Nat × OpenBin)) = ([] : List (Nat × OpenBin)).filter (fun e => decide ((e.1 : Int) ≤ 8)) := by
  decide +kernel

theorem test_seal_tallies :
    (((sealing 62).seal 3).track.table.records.map fun r => (r.state, r.tally)) = [(.settled, ⟨3, 0, 1⟩)] ∧
    (((sealing 63).seal 3).track.table.records.map fun r => (r.state, r.tally)) = [(.cut, ⟨2, 0, 1⟩)] ∧
    (((sealing 63).seal 3).station 3).state =
      .live ⟨7, 9, [(8, oneValue), (9, oneValue)], true⟩ ∧
    ((State.sealBins 3 8 true [(6, oneValue), (8, oneValue), (9, oneValue)] (sealing 62)).station 3).state =
      .live ⟨8, 9, [(9, oneValue)], false⟩ := by decide +kernel

theorem test_seal :
    (((station (live 5 [(6, oneValue)]) 700).seal 3).station 3).state = .live ⟨6, 6, [], false⟩ ∧
    firstWords ((station (live 5 [(6, oneValue)]) 700).seal 3) = [0x77, 0, 0, 0x00080080] ∧
    (((coils (station (live 5 [(6, oneValue)]) 700)).seal 3).find 9).map (·.state) = some .settled := by decide +kernel

/-- EXIT record 9 over ENTRY record 2 of line 1, which fed from EXIT record 4 of line 1's own numbering. -/
def lineage : State :=
  holding [{ coil 2 .entry .through 100 (some 300) with exitStart := some 1000, exitEnd := some 1400, source := some 4 },
    { coil 4 .exit .settled 50 (some 150) with line := 0 },
    { coil 9 .exit .cut 1000 (some 1400) with segments := [⟨1000, 1400, 2⟩] }] 10 (station (live 5))

theorem witness_TheWalkGoesUpstreamHopByHop :
    (lineage.owner 3 1200 = some { coil 9 .exit .cut 1000 (some 1400) with segments := [⟨1000, 1400, 2⟩] } ∧
      lineage.owner 3 1399 ≠ none ∧ lineage.owner 3 1400 = none) ∧
    (lineage.find 5 = none ∧ lineage.find 9 = some { coil 9 .exit .cut 1000 (some 1400) with segments := [⟨1000, 1400, 2⟩] } ∧
      (400 : Int) ≤ 400 ∧ (399 : Int) < 400 ∧ 3 = stationOf 1 .exit ∧
      lineage.walkFrom 1 .exit 8 { coil 9 .exit .cut 1000 (some 1400) with segments := [⟨1000, 1400, 2⟩] } 399 =
        .stopped { coil 9 .exit .cut 1000 (some 1400) with segments := [⟨1000, 1400, 2⟩] } 399 ∧
      lineage.walkFrom 2 .exit 1 { coil 9 .exit .cut 1000 (some 1400) with segments := [⟨1000, 1400, 2⟩] } 399 =
        .ended .depth 2 199 ∧
      (lineage.station 3).state = .live ⟨5, 5, [], false⟩ ∧ (lineage.station 2).live? = none) ∧
    ((coil 9 .exit .cut 1000 (some 1400)).station = stationOf 1 .exit ∧
      (coil 9 .exit .cut 1000 (some 1400)).station ≠ stationOf 0 .exit ∧ (1000 ≤ 1399 ∧ 1399 < 1400) ∧
      (coil 2 .entry .through 100 (some 300)).source = none ∧
      (lineage.find 2).bind (·.source) = some 4 ∧ lineage.find 4 ≠ none ∧
      ((lineage.line 1).reverseOnPass = false)) := by decide +kernel

theorem test_walk :
    lineage.walkFrom 0 .exit 8 { coil 9 .exit .cut 1000 (some 1400) with segments := [⟨1000, 1400, 2⟩] } 399 =
      .stopped { coil 4 .exit .settled 50 (some 150) with line := 0 } 99 ∧
    (lineage.withLine 1 { lineage.line 1 with reverseOnPass := true }).walkFrom 0 .exit 8
        { coil 9 .exit .cut 1000 (some 1400) with segments := [⟨1000, 1400, 2⟩] } 399 =
      .stopped { coil 4 .exit .settled 50 (some 150) with line := 0 } 0 := by decide +kernel

/-! ## Invariants -/

theorem witness_EveryStepKeepsTheBounds :
    (∃ t, step { State.reset with pending := [.timeBaseTick] } = .next t) ∧
      ({ State.reset with pending := [.timeBaseTick] } : State).QueuesOk ∧
      ({ State.reset with pending := [.timeBaseTick] } : State).LinesOk ∧
      ({ State.reset with pending := [.timeBaseTick] } : State).CountersOk ∧
      ({ State.reset with pending := [.timeBaseTick] } : State).FlagsOk := ⟨⟨_, rfl⟩, by decide +kernel⟩

theorem witness_EveryStepKeepsTheBins :
    (∃ t, step { sealing 0 with pending := [.timeBaseTick] } = .next t) ∧
      ({ sealing 0 with pending := [.timeBaseTick] } : State).BinsOk := by
  refine ⟨⟨_, rfl⟩, fun i d h => ?_⟩
  have all : ∀ j : Fin 8, ((sealing 0).station j).live?.all (fun d =>
      tableWf d.bins && d.bins.all fun e => decide (d.sealedBin < (e.1 : Int))) = true := by decide +kernel
  have := all i
  rw [Station.live?_eq.2 (show ((sealing 0).station i).state = .live d from h)] at this
  simpa [List.all_eq_true] using this

theorem witness_EveryStepKeepsTheDefinitions :
    (∃ t, step { sealing 0 with pending := [.timeBaseTick] } = .next t) ∧
      ((sealing 0).station 3).defn = some twoChannels ∧
      ({ sealing 0 with pending := [.timeBaseTick] } : State).DefinitionsOk := by
  refine ⟨⟨_, rfl⟩, by decide +kernel, fun i d h => ?_⟩
  have all : ∀ j : Fin 8, ((sealing 0).station j).defn.all (fun d => decide d.InRange) = true := by decide +kernel
  have := all i
  rw [show ((sealing 0).station i).defn = some d from h] at this
  exact of_decide_eq_true this

theorem witness_EveryStepKeepsTheTable :
    (∃ t, step { three (inLine .tracking) with pending := [.timeBaseTick] } = .next t) ∧
      ({ three (inLine .tracking) with pending := [.timeBaseTick] } : State).TableOk ∧
      ({ three (inLine .tracking) with pending := [.timeBaseTick] } : State).SerialsOk ∧
      ({ three (inLine .tracking) with pending := [.timeBaseTick] } : State).OpenOk := ⟨⟨_, rfl⟩, by decide +kernel⟩

theorem witness_EveryStepKeepsThePathInOrder :
    (∃ t, step (taking 0x06 [5, 0] { State.reset with pending := [.setClock] }) = .next t) ∧
      (taking 0x06 [5, 0] { State.reset with pending := [.setClock] }).ResetOk ∧
      (taking 0x06 [5, 0] { State.reset with pending := [.setClock] }).HoldOk ∧
      (taking 0x06 [5, 0] { State.reset with pending := [.setClock] }).SlotsOk ∧
      (taking 0x06 [5, 0] { State.reset with pending := [.setClock] }).AcceptOk ∧
      ∃ t, step (taking 0x06 [5, 0] { inPath .draining with
          path.inProgress := some (.pWrite (full 0 [1])), pending := [.mSideBurstComplete []] }) = .next t ∧
        t.path.state = .hold ∧ t.path.directiveUnit = .free := by
  refine ⟨⟨_, rfl⟩, by decide +kernel, by decide +kernel, by decide +kernel, fun t rest h => (nomatch h), _, rfl, ?_⟩
  decide +kernel

end Sys2Proof.Tests
end

section
/-! PROOF. Set Clock loads the plant clock, and the next tick raises it by one from there (R15, R14). -/

namespace Sys2Proof.Machine

/-! ## The answer: a 48-bit value as two words (R184) -/

/-- The upper 16 bits of a 48-bit value fill their word alone, so cutting them to 16 bits loses nothing. -/
theorem high16_of_lt {n : Nat} (h : n < 2 ^ 48) : high16 n = BitVec.ofNat 32 (n / 4294967296) := by
  have hfit : n / 4294967296 < 65536 := by omega
  simp [high16, field, Nat.mod_eq_of_lt hfit]

/-- A reading of the plant clock as answer words. -/
theorem words48_time (t : Time) :
    words48 t.toNat = [BitVec.ofNat 32 t.toNat, BitVec.ofNat 32 (t.toNat / 4294967296)] := by
  rw [words48, low32, high16_of_lt t.isLt]

/-! ## What Set Clock does in the slot that is taken (R15) -/

/-- A high word above 16 bits is refused. -/
theorem setClock_refused {w : Nat → Word} (s : State) (h : 0xFFFF < (w 1).toNat) :
    setClock w s = .refused .badParameter [] := if_pos h

/-- Otherwise the clock is loaded with the value of the two words, and the answer is the value replaced. -/
theorem setClock_done {w : Nat → Word} (s : State) (h : (w 1).toNat ≤ 0xFFFF) :
    setClock w s = .done (s.loadClock (BitVec.ofNat 48 ((w 0).toNat + (w 1).toNat * 4294967296)))
      [BitVec.ofNat 32 s.track.clock.toNat, BitVec.ofNat 32 (s.track.clock.toNat / 4294967296)] := by
  rw [← words48_time]
  exact if_neg (Nat.not_lt.2 h)

/-! ## What leaves the clock as it reads -/

/-- The plant clock reads the same in both states. -/
def ClockKept (s t : State) : Prop := t.track.clock = s.track.clock

theorem ClockKept.refl (s : State) : ClockKept s s := rfl

theorem ClockKept.trans {s t u : State} (h : ClockKept s t) (g : ClockKept t u) : ClockKept s u := Eq.trans g h

theorem ClockKept.setLine (s : State) (l : LineId) (ln : Line) : ClockKept s (s.setLine l ln) :=
  (setLine_trackRest s l ln).clock

/-- Seam tracking and the matcher stamp with the clock and never move it. -/
theorem SeamFrame.clockKept {l : LineId} {s t : State} (h : SeamFrame l s t) : ClockKept s t := by
  obtain ⟨⟨_, _, _, _, _, _, _, _, rfl⟩, -⟩ := h
  rfl

/-- A completed change moves its settled level and may hand a capture on (R19 to R22). -/
theorem ClockKept.completeChange (s : State) (l : LineId) (i : MarkerInput) : ClockKept s (s.completeChange l i) := by
  unfold State.completeChange
  dsimp only
  split
  · exact .refl s
  · split
    · exact (ClockKept.setLine s l _).trans (SeamFrame.capture _ l i _ _).clockKept
    · exact .setLine s l _

theorem ClockKept.completeDue (s : State) (l : LineId) (i : MarkerInput) : ClockKept s (s.completeDue l i) := by
  unfold State.completeDue
  split
  · exact .refl s
  · split
    · exact .completeChange s l i
    · exact .refl s

theorem ClockKept.completeAllDue (s : State) : ClockKept s s.completeAllDue :=
  foldl_frame ClockKept.refl ClockKept.trans _ (fun u l =>
    foldl_frame ClockKept.refl ClockKept.trans _ (fun v i => ClockKept.completeDue v l i) allInputs u) allLines s

theorem ClockKept.completePeriod (s : State) : ClockKept s s.completePeriod := by
  unfold State.completePeriod
  split
  · exact foldl_frame ClockKept.refl ClockKept.trans _ (fun _ _ => rfl) allLines { s with path.periodCount := 0 }
  · exact .refl s

theorem ClockKept.tickMarkers (s : State) : ClockKept s s.tickMarkers := by
  rw [State.tickMarkers_eq]
  rfl

theorem ClockKept.tickPeriod (s : State) : ClockKept s s.tickPeriod := by
  unfold State.tickPeriod
  split <;> rfl

/-! ## The tick (R14) -/

/-- Of the parts of a tick only the first moves the clock. -/
theorem State.advanceTime_clock (s : State) : s.advanceTime.track.clock = s.track.clock + 1 :=
  (ClockKept.tickMarkers s.tickClock).trans (.tickPeriod _)

/-- A tick raises the clock by one, whatever completes before and with it. -/
theorem exec_timeBaseTick_clock {s : State} (h : s.Ready) :
    ∃ t, exec .timeBaseTick s = .next t ∧ t.track.clock = s.track.clock + 1 := by
  refine ⟨_, exec_timeBaseTick s h, ?_⟩
  calc s.completePeriod.advanceTime.completeAllDue.track.clock
      = s.completePeriod.advanceTime.track.clock := ClockKept.completeAllDue _
    _ = s.completePeriod.track.clock + 1 := State.advanceTime_clock _
    _ = s.track.clock + 1 := congrArg (· + 1) (ClockKept.completePeriod s)

/-! ## The statement -/

/-- Settles O34: Set Clock's two outcomes through the lemmas for every directive, and the tick by what leaves the clock. -/
theorem setClockLoadsTheClock : Obligations.SetClockLoadsTheClock := by
  refine ⟨fun s k ht => ⟨fun hhigh => ?refused, fun hlow => ?loaded⟩, fun s hs => exec_timeBaseTick_clock hs⟩
  case refused => exact runs_refused rfl ht (setClock_refused _ hhigh)
  case loaded => exact runs_done rfl ht (MarksKept.refl _) (setClock_done (s.beginDirective k) hlow)

end Sys2Proof.Machine
end

section
/-! PROOF. Announce Entry and Announce Exit: judgement in three steps, the append at the tail, and the answer (R38, R169). -/

namespace Sys2Proof.Machine

/-! ## Effects up to dirty marks (R174) -/

/-- The second state is the first with perhaps more dirty marks and no other change. -/
def MarksOnly (e u : State) : Prop := u = { e with path.dirty := u.path.dirty } ∧ MarksKept e.path.dirty u.path.dirty

theorem MarksOnly.refl (s : State) : MarksOnly s s := ⟨rfl, .refl _⟩

theorem MarksOnly.trans {s t u : State} (h : MarksOnly s t) (g : MarksOnly t u) : MarksOnly s u := by
  obtain ⟨ht, hst⟩ := h
  obtain ⟨hu, htu⟩ := g
  refine ⟨?_, hst.trans htu⟩
  rw [ht] at hu
  exact hu

theorem MarksOnly.mark (s : State) (g : Fin 39) : MarksOnly s (s.mark g) := ⟨rfl, .set _ _ g.isLt⟩

theorem MarksOnly.setLine (s : State) (l : LineId) (ln : Line) : MarksOnly (s.withLine l ln) (s.setLine l ln) :=
  setLine_eq s l ln

/-! ## ANNOUNCE_EMPTY as it is judged (R169) -/

/-- A flag raised is a flag set, also where it was set before. -/
theorem MarksOnly.raiseTrack (s : State) (f : TrackFlag) :
    MarksOnly (s.withFlags (s.track.trackingFlags ||| f.bit)) (s.raiseTrack f) := by
  unfold State.raiseTrack
  split
  · exact .mark _ 1
  · next hset =>
    rw [TrackFlag.or_of_set _ f hset]
    exact .refl s

theorem MarksOnly.judgeAnnounce (s : State) : MarksOnly (s.withFlags s.flagsJudged) s.judgeAnnounce := by
  unfold State.judgeAnnounce State.flagsJudged
  split
  · exact .raiseTrack s .announceEmpty
  · exact .refl s

/-- The judgement reads no dirty mark. -/
theorem MarksOnly.withFlagsJudged {e u : State} (h : MarksOnly e u) :
    MarksOnly (e.withFlags e.flagsJudged) (u.withFlags u.flagsJudged) := by
  obtain ⟨hu, hm⟩ := h
  refine ⟨?_, hm⟩
  rw [hu]
  rfl

/-! ## A queue replaced (R36) -/

/-- A change of an entry queue judges ANNOUNCE_EMPTY. -/
theorem MarksOnly.setQueue_entry (s : State) (l : LineId) (q : List Word) {e : State}
    (he : e = s.withLine l { s.line l with entryQueue := q }) :
    MarksOnly (e.withFlags e.flagsJudged) (s.setQueue l .entry q) := by
  subst he
  exact (MarksOnly.setLine s l _).withFlagsJudged.trans (.judgeAnnounce _)

/-- A change of an exit queue judges nothing. -/
theorem MarksOnly.setQueue_exit (s : State) (l : LineId) (q : List Word) :
    MarksOnly (s.withLine l { s.line l with exitQueue := q }) (s.setQueue l .exit q) :=
  .setLine s l _

/-! ## The judgement of an announcement, for either queue (R38) -/

/-- With a line named, the number's presence is judged, then the queue's room; then the number joins the tail. -/
theorem announce_of_line {kind : Kind} {w : Nat → Word} {s : State} {l : LineId} (hl : (w 0).toNat = l.val) :
    announce kind w s =
      if w 1 ∈ (s.line l).queue kind then .refused .duplicate []
      else if 8 ≤ ((s.line l).queue kind).length then .refused .queueFull []
      else .done (s.setQueue l kind ((s.line l).queue kind ++ [w 1])) [wordOf (((s.line l).queue kind).length + 1)] := by
  unfold announce
  rw [lineOf_some hl]
  exact if_congr List.contains_iff_mem rfl rfl

section
variable {i : Instr} {code : BitVec 8} {kind : Kind} {s : State} {k : Fin 16} {l : LineId}

theorem runs_announce_badParameter (hi : directiveOf i = some (code, announce kind)) (ht : s.Takes k code)
    (hbad : 4 ≤ (s.param k 0).toNat) : Runs i s (s.beginDirective k) k (some .badParameter) [] := by
  refine runs_refused hi ht ?_
  unfold announce
  rw [lineOf_none hbad]

theorem runs_announce_duplicate (hi : directiveOf i = some (code, announce kind)) (ht : s.Takes k code)
    (hl : (s.param k 0).toNat = l.val) (hdup : s.param k 1 ∈ (s.line l).queue kind) :
    Runs i s (s.beginDirective k) k (some .duplicate) [] :=
  runs_refused hi ht ((announce_of_line hl).trans (if_pos hdup))

theorem runs_announce_queueFull (hi : directiveOf i = some (code, announce kind)) (ht : s.Takes k code)
    (hl : (s.param k 0).toNat = l.val) (hnew : s.param k 1 ∉ (s.line l).queue kind)
    (hfull : 8 ≤ ((s.line l).queue kind).length) : Runs i s (s.beginDirective k) k (some .queueFull) [] :=
  runs_refused hi ht ((announce_of_line hl).trans ((if_neg hnew).trans (if_pos hfull)))

/-- A new number with room for it is appended; `e` is the state in which it has joined the queue, up to dirty marks. -/
theorem runs_announce_joined (hi : directiveOf i = some (code, announce kind)) (ht : s.Takes k code)
    (hl : (s.param k 0).toNat = l.val) (hnew : s.param k 1 ∉ (s.line l).queue kind)
    (hroom : ((s.line l).queue kind).length < 8) {e : State}
    (he : MarksOnly e ((s.beginDirective k).setQueue l kind ((s.line l).queue kind ++ [s.param k 1]))) :
    Runs i s e k none [wordOf (((s.line l).queue kind).length + 1)] := by
  obtain ⟨heq, hmarks⟩ := he
  exact runs_done_up_to_marks hi ht heq hmarks
    ((announce_of_line hl).trans ((if_neg hnew).trans (if_neg (Nat.not_le.2 hroom))))

end

/-! ## The statement -/

/-- Settles O35: for each of the two rows, the four outcomes of an announcement in the queue that the row names. -/
theorem announcementsJoinTheTail : Obligations.AnnouncementsJoinTheTail := by
  refine fun s k => ⟨fun ht => ?entry, fun ht => ?exit⟩
  case entry =>
    have hi : directiveOf .announceEntry = some (0x10, announce .entry) := rfl
    refine ⟨runs_announce_badParameter hi ht, fun l hl => ⟨?duplicate, ?full, ?joined⟩⟩
    case duplicate => exact runs_announce_duplicate hi ht hl
    case full => exact runs_announce_queueFull hi ht hl
    case joined =>
      intro e hnew hroom he
      exact runs_announce_joined hi ht hl hnew hroom (.setQueue_entry _ l _ he)
  case exit =>
    have hi : directiveOf .announceExit = some (0x11, announce .exit) := rfl
    refine ⟨runs_announce_badParameter hi ht, fun l hl => ⟨?duplicate, ?full, ?joined⟩⟩
    case duplicate => exact runs_announce_duplicate hi ht hl
    case full => exact runs_announce_queueFull hi ht hl
    case joined =>
      intro hnew hroom
      exact runs_announce_joined hi ht hl hnew hroom (.setQueue_exit _ l _)

end Sys2Proof.Machine
end

section
/-! PROOF. Close Cursor: any cursor becomes CLOSED, its group is dirty on a change, and the answer is the state left
(R117). -/

namespace Sys2Proof.Machine

/-! ## Closing a cursor that is held (R113) -/

/-- Putting back the cursor that is held changes nothing, and so marks nothing dirty. -/
theorem setCursor_self (s : State) (c : Fin 8) : s.setCursor c (s.cursor c) = s := by
  have hsame : s.withCursor c (s.cursor c) = s := by
    have hset : s.path.cursors.set c.val (s.cursor c) c.isLt = s.path.cursors := Vector.set_getElem_self c.isLt
    rw [State.withCursor, hset]
  unfold State.setCursor State.markIf
  rw [if_neg (by simp)]
  exact hsame

/-- A cursor's content starts with its state's number, 0 for CLOSED alone, so that leaving any other state is a change. -/
theorem content_ne_closed {x : Cursor} (h : x ≠ .closed) : x.content ≠ Cursor.closed.content := by
  cases x with
  | closed => exact absurd rfl h
  | resolving d table => simp [Cursor.content]
  | ready d table => simp [Cursor.content]

/-- Taking a directive leaves the cursors. -/
theorem beginDirective_cursor (s : State) (k : Fin 16) (c : Fin 8) : (s.beginDirective k).cursor c = s.cursor c := rfl

/-! ## What Close Cursor does in the slot that is taken (R117) -/

/-- A word that names no cursor is refused. -/
theorem closeCursor_refused {w : Nat → Word} (s : State) (h : 8 ≤ (w 0).toNat) :
    closeCursor w s = .refused .badParameter [] := by
  unfold closeCursor
  rw [eightOf_none h]

/-- A cursor is taken in any state, and the answer is that state's number. -/
theorem closeCursor_done {w : Nat → Word} (s : State) {c : Fin 8} (h : (w 0).toNat = c.val) :
    closeCursor w s = .done (s.setCursor c .closed) [wordOf (s.cursor c).content.1] := by
  unfold closeCursor
  rw [eightOf_some h]

/-- Closing a CLOSED cursor changes nothing. -/
theorem closeCursor_of_closed {w : Nat → Word} (s : State) {c : Fin 8} (h : (w 0).toNat = c.val)
    (hc : s.cursor c = .closed) : closeCursor w s = .done s [0] := by
  have hkept : s.setCursor c .closed = s := hc ▸ setCursor_self s c
  rw [closeCursor_done s h, hkept, hc]
  rfl

/-- Closing any other cursor drops it with its definition and table, and marks its group. -/
theorem closeCursor_of_open {w : Nat → Word} (s : State) {c : Fin 8} {x : Cursor} (h : (w 0).toNat = c.val)
    (hx : s.cursor c = x) (hopen : x ≠ .closed) :
    closeCursor w s = .done ((s.withCursor c .closed).mark (cursorGroup c)) [wordOf x.content.1] := by
  subst hx
  rw [closeCursor_done s h, setCursor_ne s c .closed (content_ne_closed hopen)]

/-- The row on a cursor that is not CLOSED, whichever other state it leaves. -/
theorem runs_closeCursor_of_open {s : State} {k : Fin 16} {c : Fin 8} {x : Cursor} (ht : s.Takes k 0x42)
    (hw : (s.param k 0).toNat = c.val) (hx : s.cursor c = x) (hopen : x ≠ .closed) :
    Runs .closeCursor s (((s.beginDirective k).withCursor c .closed).mark (cursorGroup c)) k none
      [wordOf x.content.1] :=
  runs_done rfl ht (.refl _) (closeCursor_of_open _ hw ((beginDirective_cursor s k c).trans hx) hopen)

/-! ## The statement -/

/-- Settles O45, by the state the cursor leaves: only leaving RESOLVING or READY is a change. -/
theorem closeCursorDropsTheCursor : Obligations.CloseCursorDropsTheCursor := by
  refine fun s k ht => ⟨fun hbad => ?refused, fun c hw => ⟨fun hc => ?closed, fun d table hc => ?resolving,
    fun d table hc => ?ready⟩⟩
  case refused => exact runs_refused rfl ht (closeCursor_refused _ hbad)
  case closed => exact runs_done rfl ht (.refl _) (closeCursor_of_closed _ hw ((beginDirective_cursor s k c).trans hc))
  case resolving => exact runs_closeCursor_of_open ht hw hc Cursor.noConfusion
  case ready => exact runs_closeCursor_of_open ht hw hc Cursor.noConfusion

end Sys2Proof.Machine
end

section
/-! PROOF. Set Routing judges its two words and loads both masks; what the masks hold after a cold start and after the
beginning of a path reset; the outputs that follow them (R172, R173). -/

namespace Sys2Proof.Machine

/-! ## What Set Routing does in the slot that is taken (R172) -/

/-- A bit outside the positions that a mask may select, in either word, is refused. -/
theorem setRouting_refused {w : Nat → Word} (s : State)
    (h : w 0 &&& ~~~flagBits ≠ 0 ∨ w 1 &&& ~~~trackingBits ≠ 0) : setRouting w s = .refused .badParameter [] := if_pos h

/-- Otherwise both masks are loaded, with nothing to answer. -/
theorem setRouting_done {w : Nat → Word} (s : State) (ha : w 0 &&& ~~~flagBits = 0) (hf : w 1 &&& ~~~trackingBits = 0) :
    setRouting w s = .done (s.setMasks (w 0) (w 1)) [] :=
  if_neg (not_or.2 ⟨not_not.2 ha, not_not.2 hf⟩)

/-! ## What leaves the masks as they read -/

/-- Both masks read the same in both states. -/
def MasksKept (s t : State) : Prop :=
  t.path.alertMask = s.path.alertMask ∧ t.track.trackFaultMask = s.track.trackFaultMask

/-- Records, the journal backlog and the anomaly log are kept without a mask being touched. -/
theorem TableFrame.masksKept {s t : State} (h : TableFrame s t) : MasksKept s t := by
  obtain ⟨⟨_, _, _, _, _, _, _, rfl⟩, -⟩ := h
  exact ⟨rfl, rfl⟩

/-- The server state monitor enters an anomaly and moves its own mark, no more (R181). -/
theorem MasksKept.monitor (s : State) : MasksKept s s.monitor := by
  unfold State.monitor
  split
  · split
    · exact ⟨rfl, rfl⟩
    · exact (TableFrame.anomaly s .serverStateIllegal none none none).masksKept
  · exact ⟨rfl, rfl⟩

/-! ## The masks at a cold start (R178) -/

theorem State.monitor_presented (s : State) : s.monitor.presented = s.presented := by
  obtain ⟨_, _, h⟩ := State.monitor_eq s
  rw [h]

/-- While nothing is presented, no directive is taken as a path reset ends, so that both masks stay at what the reset
left: the ALERT mask 0, the TRACK_FAULT mask as it stood. -/
theorem State.endIfOver_masks {s : State} (hp : s.presented = []) (ha : s.path.alertMask = 0) (straps : BitVec 4) :
    (s.endIfOver straps).path.alertMask = 0 ∧ (s.endIfOver straps).track.trackFaultMask = s.track.trackFaultMask := by
  unfold State.endIfOver
  split
  · rw [State.endPathReset_of_nil hp]
    exact ⟨rfl, rfl⟩
  · exact ⟨ha, rfl⟩

theorem exec_coldStart_masks (lv : Levels) (s : State) :
    ∃ t, exec (.coldStart lv) s = .next t ∧ t.path.alertMask = 0 ∧ t.track.trackFaultMask = 0 := by
  obtain ⟨halert, hfault⟩ := MasksKept.monitor (s.coldWith lv)
  obtain ⟨hendAlert, hendFault⟩ := State.endIfOver_masks (State.monitor_presented (s.coldWith lv)) halert lv.areaSel
  exact ⟨_, rfl, hendAlert, hendFault.trans hfault⟩

/-! ## The masks as a path reset begins (R179) -/

/-- Outside a path reset its beginning follows the cause (R179). -/
theorem exec_pathResetBegin_of_up {s : State} (hs : s.Ready) (hup : s.path.state ≠ .down) (c : ResetCause) :
    exec (.pathResetBegin c) s = .next (s.beginCause c).beginPathReset := by
  show execPathResetBegin c s = _
  rw [execPathResetBegin, afterTakes_ready hs, if_neg hup]

/-- The path well takes its reset values, and the settle checks that follow reach no mask (R150, R69). -/
theorem State.beginPathReset_masks (s : State) :
    s.beginPathReset.path.alertMask = 0 ∧ s.beginPathReset.track.trackFaultMask = s.track.trackFaultMask :=
  (foldl_frame TableFrame.refl TableFrame.trans _ TableFrame.settleStation _
    { s with path := .reset s.path.areaSel, presented := [] }).masksKept

/-- A cause of a path reset moves a pin or a supply and leaves the tracking well. -/
theorem State.beginCause_track (s : State) (c : ResetCause) : (s.beginCause c).track = s.track := by
  cases c <;> rfl

theorem exec_pathResetBegin_masks {s : State} (hs : s.Ready) (hup : s.path.state ≠ .down) (c : ResetCause) :
    ∃ t, exec (.pathResetBegin c) s = .next t ∧
      t.path.alertMask = 0 ∧ t.track.trackFaultMask = s.track.trackFaultMask := by
  obtain ⟨halert, hfault⟩ := (s.beginCause c).beginPathReset_masks
  rw [State.beginCause_track] at hfault
  exact ⟨_, exec_pathResetBegin_of_up hs hup c, halert, hfault⟩

/-! ## The outputs (R173) -/

theorem State.alert_iff (s : State) :
    s.alert = true ↔ s.path.state ≠ .down ∧ s.flagSet &&& s.path.alertMask ≠ 0 := by
  simp only [State.alert, Bool.and_eq_true, bne_iff_ne]

theorem State.trackFault_iff (s : State) :
    s.trackFault = true ↔ s.track.trackingFlags &&& s.track.trackFaultMask ≠ 0 := bne_iff_ne

/-! ## The statement -/

/-- Settles O48: Set Routing's two outcomes through the lemmas for every directive, the masks' reset values by what leaves
the masks, and the outputs by their definitions. -/
theorem setRoutingLoadsBothMasks : Obligations.SetRoutingLoadsBothMasks := by
  refine ⟨fun s k ht => ⟨fun hbad => ?refused, fun ha hf => ?loaded⟩, exec_coldStart_masks,
    fun c s hs hup => exec_pathResetBegin_masks hs hup c, fun s => ⟨s.alert_iff, s.trackFault_iff⟩⟩
  case refused => exact runs_refused rfl ht (setRouting_refused _ hbad)
  case loaded => exact runs_done rfl ht (MarksKept.refl _) (setRouting_done (s.beginDirective k) ha hf)

end Sys2Proof.Machine
end

section
/-! PROOF. What a step can do, said once: a cold start, a loss of supply, a take, or the effect of a command after the
takes that are due; and what a directive can do to the state it is executed in (chapter 9). -/

namespace Sys2Proof.Machine

/-! ## The commands that wait for the takes that are due (R156) -/

/-- The effect of a command that comes after the takes that are due, on a burst's row that of its well-formed bursts. -/
def effectOf : Instr → Option (State → State)
  | .pathResetBegin c =>
    some fun s => if s.path.state = .down then s.beginCause c else (s.beginCause c).beginPathReset
  | .pathResetEnd c straps => some fun s => (s.endCause c).endIfOver straps
  | .serverStateChange ssa ssb => some fun s => (State.monitor { s with ssa := ssa, ssb := ssb }).decodeLines
  | .encoderPulse l sd => some fun s => if (s.line l).counts then s.countPulse l sd else s
  | .runLevelChange l level => some fun s => s.setLine l { s.line l with run := level }
  | .directionLevelChange l sd forward =>
    some fun s => s.setLine l ((s.line l).setSide sd { (s.line l).side sd with forward := forward })
  | .timeBaseTick => some fun s => s.completePeriod.advanceTime.completeAllDue
  | .markerRawTransition l i => some fun s => s.rawTransition l i
  | .debounceComplete l i => some fun s => s.completeDue l i
  | .passThroughWrite b => some fun s => s.present (.write b)
  | .directiveSlotWrite b => some fun s => s.present (.write b)
  | .goWord b => some fun s => s.present (.write b)
  | .intakeWrite b => some fun s => s.present (.write b)
  | .passThroughRead b => some fun s => s.present (.read b)
  | .apertureRead b => some fun s => s.present (.read b)
  | .apertureReadReturn => some State.returnAperture
  | .readDataReturn => some State.returnPassThrough
  | .mSideGrant => some State.grant
  | .mSideBurstComplete data => some fun s => s.completeBurst data
  | .journalEntryBegin => some State.journalBegin
  | .mirrorGroupWrite => some State.mirrorTurn
  | .mirrorPeriodComplete => some State.completePeriod
  | .resolverTurn => some State.resolverTurn
  | .descendScanVisit => some State.scanVisit
  | _ => none

/-- A well-formed command with an effect has it after the takes that are due (R156). -/
theorem exec_effectOf {c : Instr} {f : State → State} (h : effectOf c = some f) (hw : c.wf = true) (s : State) :
    exec c s = afterTakes f s := by
  cases c <;> simp only [effectOf, reduceCtorEq, Option.some.injEq] at h <;> subst h
  case passThroughWrite | directiveSlotWrite | goWord | intakeWrite | passThroughRead | apertureRead => exact if_pos hw
  all_goals rfl

/-- A command that runs is well formed: a term that is no burst stops the part (log 18). -/
theorem wf_of_exec {c : Instr} {s t : State} (h : exec c s = .next t) : c.wf = true := by
  cases c
  case passThroughWrite b | directiveSlotWrite b | goWord b | intakeWrite b =>
    replace h : presentWrite b s = .next t := h
    unfold presentWrite at h
    split at h
    · assumption
    · exact nomatch h
  case passThroughRead b | apertureRead b =>
    replace h : presentRead b s = .next t := h
    unfold presentRead at h
    split at h
    · assumption
    · exact nomatch h
  all_goals rfl

/-- Every command is a cold start, a loss of standby supply, a row that takes directives, or has an effect of its own. -/
theorem instr_cases (c : Instr) :
    (∃ lv, c = .coldStart lv) ∨ c = .standbyPowerLoss ∨ (∃ code, takesCode c code) ∨ ∃ f, effectOf c = some f := by
  cases c
  case coldStart lv => exact .inl ⟨lv, rfl⟩
  case standbyPowerLoss => exact .inr (.inl rfl)
  case descend => exact .inr (.inr (.inl ⟨0x23, .inr (.inl ⟨rfl, rfl⟩)⟩))
  case unknownCode => exact .inr (.inr (.inl ⟨0, .inr (.inr ⟨rfl, by decide⟩)⟩))
  case pathResetBegin | pathResetEnd | serverStateChange | encoderPulse | runLevelChange | directionLevelChange |
      timeBaseTick | markerRawTransition | debounceComplete | passThroughWrite | directiveSlotWrite | goWord | intakeWrite |
      passThroughRead | apertureRead | apertureReadReturn | readDataReturn | mSideGrant | mSideBurstComplete |
      journalEntryBegin | mirrorGroupWrite | mirrorPeriodComplete | resolverTurn | descendScanVisit =>
    exact .inr (.inr (.inr ⟨_, rfl⟩))
  all_goals exact .inr (.inr (.inl ⟨_, .inl rfl⟩))

theorem exec_descend {s : State} (hp : s.powered = true) : exec .descend s = .next s.takeDescend :=
  congrArg Host.Outcome.next (if_pos hp)

theorem exec_unknownCode {s : State} (hp : s.powered = true) : exec .unknownCode s = .next s.unknownCode :=
  congrArg Host.Outcome.next (if_pos hp)

/-- A row that takes directives takes the one at the head of the FIFO, or leaves the state (R156, log 1). -/
theorem exec_directiveRow {c : Instr} {code : BitVec 8} (h : takesCode c code) {s : State} (hp : s.powered = true) :
    exec c s = .next s ∨ ∃ k, s.headSlot = some k ∧ exec c s = .next (s.takeCode (s.slot k).code.toNat) := by
  cases hk : s.headSlot with
  | none =>
    left
    rcases h with h | ⟨rfl, -⟩ | ⟨rfl, -⟩
    · obtain ⟨⟨code', f⟩, hd, -⟩ := Option.map_eq_some_iff.1 h
      rw [exec_directive hd hp, State.directive, hk]
    · rw [exec_descend hp, State.takeDescend, hk]
    · rw [exec_unknownCode hp, State.unknownCode, hk]
  | some k =>
    by_cases hc : takesCode c (s.slot k).code
    · exact .inr ⟨k, rfl, exec_takesCode hc hp⟩
    · left
      rcases h with h | ⟨rfl, -⟩ | ⟨rfl, -⟩
      · obtain ⟨⟨code', f⟩, hd, -⟩ := Option.map_eq_some_iff.1 h
        have hne : (s.slot k).code ≠ code' := fun he => hc (.inl (by rw [hd, he]; rfl))
        rw [exec_directive hd hp, State.directive, hk]
        exact congrArg Host.Outcome.next (if_neg hne)
      · have hne : (s.slot k).code ≠ 0x23 := fun he => hc (.inr (.inl ⟨rfl, he⟩))
        rw [exec_descend hp, State.takeDescend, hk]
        exact congrArg Host.Outcome.next (if_neg hne)
      · have hin : (s.slot k).code ∈ directiveCodes := by
          by_contra hn
          exact hc (.inr (.inr ⟨rfl, hn⟩))
        rw [exec_unknownCode hp, State.unknownCode, hk]
        exact congrArg Host.Outcome.next (if_pos (List.contains_iff_mem.2 hin))

/-- Without supply no directive is taken (R177). -/
theorem exec_directiveRow_unpowered {c : Instr} {code : BitVec 8} (h : takesCode c code) {s : State}
    (hp : ¬s.powered = true) : exec c s = .next s := by
  rcases h with h | ⟨rfl, -⟩ | ⟨rfl, -⟩
  · cases c <;> simp only [directiveOf, Option.map_none, reduceCtorEq] at h <;>
      exact congrArg Host.Outcome.next (if_neg hp)
  · exact congrArg Host.Outcome.next (if_neg hp)
  · exact congrArg Host.Outcome.next (if_neg hp)

/-- What a command that completes can have done (R156, R177). -/
theorem exec_cases {c : Instr} {s t : State} (h : exec c s = .next t) :
    (∃ lv, c = .coldStart lv ∧ t = (s.coldWith lv).monitor.endIfOver lv.areaSel) ∨
    (c = .standbyPowerLoss ∧ t = s.unpowered) ∨
    t = s ∨
    (∃ k, s.powered = true ∧ s.headSlot = some k ∧ t = s.takeCode (s.slot k).code.toNat) ∨
    ∃ f, effectOf c = some f ∧ s.powered = true ∧ t = f s.takeDue := by
  rcases instr_cases c with ⟨lv, rfl⟩ | rfl | ⟨code, hc⟩ | ⟨f, hf⟩
  · exact .inl ⟨lv, rfl, (Host.Outcome.next.inj h).symm⟩
  · exact .inr (.inl ⟨rfl, (Host.Outcome.next.inj h).symm⟩)
  · by_cases hp : s.powered = true
    · rcases exec_directiveRow hc hp with he | ⟨k, hk, he⟩
      · exact .inr (.inr (.inl (Host.Outcome.next.inj (h.symm.trans he))))
      · exact .inr (.inr (.inr (.inl ⟨k, hp, hk, Host.Outcome.next.inj (h.symm.trans he)⟩)))
    · exact .inr (.inr (.inl (Host.Outcome.next.inj (h.symm.trans (exec_directiveRow_unpowered hc hp)))))
  · rw [exec_effectOf hf (wf_of_exec h)] at h
    have ht := Host.Outcome.next.inj h
    split at ht
    · exact .inr (.inr (.inr (.inr ⟨f, hf, ‹_›, ht.symm⟩)))
    · exact .inr (.inr (.inl ht.symm))

/-! ## What every step keeps -/

/-- A property that a take keeps is kept by takes made one after another (R156). -/
theorem takeUpTo_keeps {P : State → Prop}
    (take : ∀ s k, s.headSlot = some k → P s → P (s.takeCode (s.slot k).code.toNat)) :
    ∀ (n : Nat) (s : State), P s → P (State.takeUpTo n s)
  | 0, _, h => h
  | n + 1, s, h => by
    simp only [State.takeUpTo]
    split
    · exact h
    · rename_i k hk
      exact takeUpTo_keeps take n _ (take s k hk h)

theorem takeDue_keeps {P : State → Prop}
    (take : ∀ s k, s.headSlot = some k → P s → P (s.takeCode (s.slot k).code.toNat)) {s : State} (h : P s) :
    P s.takeDue := takeUpTo_keeps take _ s h

/-- A property that a cold start and a loss of supply establish, and that each take and each effect keeps, is kept by every
step: no step does anything else. -/
theorem step_keeps {P : State → Prop} (queue : ∀ s q, P s → P (s.withPending q))
    (cold : ∀ (s : State) lv, P ((s.coldWith lv).monitor.endIfOver lv.areaSel)) (loss : ∀ s : State, P s.unpowered)
    (take : ∀ s k, s.headSlot = some k → P s → P (s.takeCode (s.slot k).code.toNat))
    (effect : ∀ c f s, effectOf c = some f → s.Ready → P s → P (f s)) {s t : State} (h : step s = .next t) (hs : P s) :
    P t := by
  unfold step at h
  split at h
  · cases h
    exact hs
  · rename_i c rest _
    have hq := queue s rest hs
    generalize s.withPending rest = u at h hq
    rcases exec_cases h with ⟨lv, -, rfl⟩ | ⟨-, rfl⟩ | rfl | ⟨k, -, hk, rfl⟩ | ⟨f, hf, hp, rfl⟩
    · exact cold u lv
    · exact loss u
    · exact hq
    · exact take u k hk hq
    · exact effect c f _ hf ⟨by simpa using hp, u.takeDue_nothingToTake⟩ (takeDue_keeps take hq)

/-! ## What a directive does to the state it is executed in (R157) -/

/-- A record is named (R72). -/
def Record.named (r : Record) (number : Word) : Record := { r with identity := some number, flags.renamed := true }

/-- Line units that agree in their collections, queues and counters (R1, R35, R36). -/
def Line.SameContents (ln ln' : Line) : Prop :=
  ln'.seamQueue = ln.seamQueue ∧ ln'.through = ln.through ∧ ln'.entryQueue = ln.entryQueue ∧
    ln'.exitQueue = ln.exitQueue ∧ ln'.entry.counter = ln.entry.counter ∧ ln'.exit.counter = ln.exit.counter

/-- The effects a directive that is not refused can have, one constructor for each form (chapters 1 to 7, 10). -/
inductive DirectiveEffect : State → State → Prop
  | none (s) : DirectiveEffect s s
  | drawn (s) : DirectiveEffect s s.drawn
  | line (s l ln) (h : (s.line l).SameContents ln) : DirectiveEffect s ((s.setLine l ln).mark (lineGroup l))
  | tracking (s l ln) (h : (s.line l).SameContents ln) :
    DirectiveEffect s ((s.setLine l ln).mark (lineGroup l)).judgeAnnounce
  | cleared (s : State) (l ns) :
    DirectiveEffect s
      ((List.foldl (fun acc n => State.forceSettle acc n) s ns).setLine l
        ((List.foldl (fun acc n => State.forceSettle acc n) s ns).line l).cleared).judgeAnnounce
  | clock (s t) : DirectiveEffect s (s.loadClock t)
  | announced (s l kind n) (hn : n ∉ (s.line l).queue kind) (hl : ((s.line l).queue kind).length < 8) :
    DirectiveEffect s (s.setQueue l kind ((s.line l).queue kind ++ [n]))
  | withdrawn (s l kind n) : DirectiveEffect s (s.setQueue l kind (((s.line l).queue kind).erase n))
  | seamIn (s l p t) : DirectiveEffect s (s.acceptSeamIn l p t).1
  | exitSeam (s l p) : DirectiveEffect s (s.acceptExitSeam l p).1
  | shear (s l p t) : DirectiveEffect s (s.acceptShear l p t).1
  | named (s n number) : DirectiveEffect s (s.modify n fun x => x.named number)
  | namedEntry (s n number) : DirectiveEffect s ((s.modify n fun x => x.named number).sourceLookup n)
  | namedExit (s n number) : DirectiveEffect s ((s.modify n fun x => x.named number).mapWrite number n)
  | defined (s i w) (off : (s.station i).state = .off) (h : stationWordsOk w = true) :
    DirectiveEffect s
      ((s.setStation i { s.station i with defn := some (stationDef w), chain := [] }).mark (stationGroup i))
  | verdict (s i chain) (off : (s.station i).state = .off) :
    DirectiveEffect s (s.setStation i { s.station i with chain := chain })
  | prepare (s i n) (off : (s.station i).state = .off) :
    DirectiveEffect s ((s.setStation i { s.station i with incarnation := n }).beginPreparation i)
  | adopt (s i n) (off : (s.station i).state = .off) :
    DirectiveEffect s ((s.setStation i { s.station i with incarnation := n }).enterLive i)
  | stopPreparing (s i) : DirectiveEffect s (s.stopPreparing i)
  | stopLive (s i) : DirectiveEffect s (s.stopLive i)
  | cursor (s k c) : DirectiveEffect s (s.setCursor k c)
  | refreshed (s k c) : DirectiveEffect s ((s.setCursor k c).mark (cursorGroup k))
  | journal (s j) : DirectiveEffect s (s.setJournal j)
  | acknowledged (s set) : DirectiveEffect s (((s.clearFlags set).rejudge set).mark 1)
  | masks (s a f) (ha : a &&& ~~~flagBits = 0) (hf : f &&& ~~~trackingBits = 0) : DirectiveEffect s (s.setMasks a f)
  | period (s p) : DirectiveEffect s (s.setPeriod p)

/-- What a directive that is done can have done (R157). -/
theorem DirectiveEffect.of_done {i : Instr} {code : BitVec 8} {f : (Nat → Word) → State → DirOutcome}
    (h : directiveOf i = some (code, f)) {w : Nat → Word} {s u : State} {a : List Word} (hf : f w s = .done u a) :
    DirectiveEffect s u := by
  cases i <;> simp only [directiveOf, reduceCtorEq, Option.some.injEq, Prod.mk.injEq] at h <;> obtain ⟨-, rfl⟩ := h
  case defineLine =>
    unfold defineLine at hf
    dsimp only at hf
    repeat' split at hf
    all_goals cases hf
    exact .line _ _ _ ⟨rfl, rfl, rfl, rfl, rfl, rfl⟩
  case defineHolePatterns =>
    unfold defineHolePatterns at hf
    repeat' split at hf
    all_goals cases hf
    exact .line _ _ _ ⟨rfl, rfl, rfl, rfl, rfl, rfl⟩
  case startTracking =>
    unfold startTracking at hf
    repeat' split at hf
    all_goals cases hf
    exact .tracking _ _ _ ⟨rfl, rfl, rfl, rfl, rfl, rfl⟩
  case stopTracking =>
    unfold stopTracking at hf
    repeat' split at hf
    all_goals cases hf
    exact .tracking _ _ _ ⟨rfl, rfl, rfl, rfl, rfl, rfl⟩
  case clearLine =>
    unfold clearLine at hf
    dsimp only at hf
    repeat' split at hf
    all_goals cases hf
    exact .cleared _ _ _
  case setClock =>
    unfold setClock at hf
    split at hf <;> cases hf
    exact .clock _ _
  case announceEntry | announceExit =>
    unfold announce at hf
    dsimp only at hf
    repeat' split at hf
    all_goals cases hf
    exact .announced _ _ _ _ (by simp_all) (Nat.lt_of_not_le ‹_›)
  case withdraw =>
    unfold withdraw at hf
    dsimp only at hf
    repeat' split at hf
    all_goals cases hf
    all_goals exact .withdrawn _ _ _ _
  case injectMarker =>
    unfold injectMarker injected at hf
    dsimp only at hf
    repeat' split at hf
    all_goals cases hf
    · exact .seamIn _ _ _ _
    · exact .exitSeam _ _ _
    · exact .shear _ _ _ _
  case nameRecord =>
    unfold nameRecord at hf
    cases hr : s.find (w 0).toNat with
    | none => rw [hr] at hf; exact nomatch hf
    | some r =>
      rw [hr] at hf
      dsimp only at hf
      split at hf
      · exact nomatch hf
      · split at hf
        · cases hf; exact .namedEntry _ _ _
        · split at hf
          · cases hf; exact .namedExit _ _ _
          · cases hf; exact .named _ _ _
  case readRecord =>
    unfold readRecord at hf
    repeat' split at hf
    all_goals cases hf
    exact .none _
  case trace =>
    unfold trace at hf
    dsimp only at hf
    repeat' split at hf
    all_goals cases hf
    exact .drawn _
  case defineStation =>
    unfold Sys2Proof.Machine.defineStation at hf
    dsimp only at hf
    repeat' split at hf
    all_goals cases hf
    all_goals exact .defined _ _ _ (by simp_all) (by simp_all)
  case defineVerdict =>
    unfold defineVerdict at hf
    dsimp only at hf
    repeat' split at hf
    all_goals cases hf
    exact .verdict _ _ _ (by simp_all)
  case activateStation =>
    unfold activateStation at hf
    dsimp only at hf
    repeat' split at hf
    all_goals cases hf
    · exact .prepare _ _ _ (by simp_all)
    · exact .adopt _ _ _ (by simp_all)
  case deactivateStation =>
    unfold deactivateStation at hf
    repeat' split at hf
    all_goals cases hf
    · exact .stopPreparing _ _
    · exact .stopLive _ _
  case openCursor =>
    unfold openCursor at hf
    dsimp only at hf
    repeat' split at hf
    all_goals cases hf
    all_goals exact .cursor _ _ _
  case refreshCursor =>
    unfold refreshCursor at hf
    repeat' split at hf
    all_goals cases hf
    all_goals exact .refreshed _ _ _
  case closeCursor =>
    unfold closeCursor at hf
    split at hf <;> cases hf
    exact .cursor _ _ _
  case setJournal =>
    unfold Sys2Proof.Machine.setJournal at hf
    dsimp only at hf
    repeat' split at hf
    all_goals cases hf
    all_goals exact .journal _ _
  case acknowledgeEvents =>
    unfold acknowledgeEvents at hf
    split at hf <;> cases hf
    exact .acknowledged _ _
  case setRouting =>
    unfold setRouting at hf
    split at hf
    · cases hf
    · rename_i h
      cases hf
      simp only [not_or, not_not] at h
      exact .masks _ _ _ h.1 h.2
  case setMirrorPeriod =>
    unfold setMirrorPeriod at hf
    split at hf <;> cases hf
    exact .period _ _

/-! ## What a take does (R156 to R158) -/

/-- A directive's code is taken by its own row (9.7 of 09). -/
theorem takeCode_directive {i : Instr} {code : BitVec 8} {f : (Nat → Word) → State → DirOutcome}
    (h : directiveOf i = some (code, f)) (s : State) : s.takeCode code.toNat = s.directive code f := by
  cases i <;> simp only [directiveOf, reduceCtorEq, Option.some.injEq, Prod.mk.injEq] at h <;> obtain ⟨rfl, rfl⟩ := h <;>
    rfl

/-- A code that names no directive is taken by UNKNOWN_CODE (R157). -/
theorem takeCode_unknown {code : BitVec 8} (h : code ∉ directiveCodes) (s : State) :
    s.takeCode code.toNat = s.unknownCode := by
  unfold State.takeCode
  split
  case h_26 => rfl
  all_goals
    rename_i hx
    have hn : code = BitVec.ofNat 8 code.toNat := by simp
    rw [hx] at hn
    subst hn
    exact absurd (by decide) h

/-- A take answers what its directive has left, or starts the scan of a Descend (R76, R156, R157). -/
theorem takeCode_cases {s : State} {k : Fin 16} (h : s.headSlot = some k) :
    (∃ u r a, DirectiveEffect (s.beginDirective k) u ∧ EffectFrame (s.beginDirective k) u ∧
      s.takeCode (s.slot k).code.toNat = u.answerWith k r a) ∨
    ∃ target kind, s.takeCode (s.slot k).code.toNat = (s.beginDirective k).setUnit (.scanning k target kind 0 []) := by
  obtain ⟨i, hi | ⟨rfl, hc⟩ | ⟨rfl, hc⟩⟩ := exists_takesCode (s.slot k).code
  · obtain ⟨⟨code, f⟩, hd, hc⟩ := Option.map_eq_some_iff.1 hi
    simp only at hc
    left
    rw [← hc, takeCode_directive hd]
    unfold State.directive
    rw [h]
    simp only [hc, if_true]
    cases ho : f (s.slot k).word (s.beginDirective k) with
    | refused r a => exact ⟨_, some r, a, .none _, .refl _, rfl⟩
    | done u a => exact ⟨u, none, a, .of_done hd ho, .of_done hd ho, rfl⟩
  · rw [hc]
    show (∃ u r a, _ ∧ _ ∧ s.takeDescend = _) ∨ ∃ target kind, s.takeDescend = _
    unfold State.takeDescend
    rw [h]
    simp only [hc, if_true]
    unfold State.beginDescend
    split
    · exact .inl ⟨_, some .notFound, [], .none _, .refl _, rfl⟩
    · exact .inr ⟨_, _, rfl⟩
  · left
    rw [takeCode_unknown hc]
    unfold State.unknownCode
    rw [h]
    simp only [List.contains_iff_mem, hc, if_false]
    exact ⟨_, some .unknownCode, [], .none _, .refl _, rfl⟩

end Sys2Proof.Machine
end

section
/-! PROOF. What the operations of the coil table leave of its records (R56, R60, R70): an operation that opens no record
keeps the next serial, repeats no serial and opens none of the records it leaves. -/

namespace Sys2Proof.Machine

/-- A LOADING or WINDING record is open: seam tracking still adds to it (R41, R46). -/
def Record.isOpen (r : Record) : Prop := r.state = .loading ∨ r.state = .winding

/-- A table is thinned: records may have left it, what is left keeps its serial, and a record that is open was open in its
line and state before. -/
structure Thins (s t : State) : Prop where
  next : t.track.table.nextSerial = s.track.table.nextSerial
  serials : (t.track.table.records.map (·.serial)).Sublist (s.track.table.records.map (·.serial))
  opens : ∀ r' ∈ t.track.table.records, r'.isOpen →
    ∃ r ∈ s.track.table.records, r.serial = r'.serial ∧ r.line = r'.line ∧ r.state = r'.state

theorem Thins.of_eq {s t : State} (h : t.track.table = s.track.table) : Thins s t :=
  ⟨by rw [h], by rw [h], fun r hr _ => ⟨r, h ▸ hr, rfl, rfl, rfl⟩⟩

theorem Thins.refl (s : State) : Thins s s := .of_eq rfl

theorem Thins.trans {s t u : State} (h : Thins s t) (g : Thins t u) : Thins s u := by
  refine ⟨g.next.trans h.next, g.serials.trans h.serials, fun r'' hr'' ho => ?_⟩
  obtain ⟨r', hr', h1, h2, h3⟩ := g.opens r'' hr'' ho
  obtain ⟨r, hr, g1, g2, g3⟩ := h.opens r' hr' (by unfold Record.isOpen; rw [h3]; exact ho)
  exact ⟨r, hr, g1.trans h1, g2.trans h2, g3.trans h3⟩

/-- Thinning repeats no serial and gives none (R56). -/
theorem Thins.serialsOk {s t : State} (h : Thins s t) (hs : s.SerialsOk) : t.SerialsOk := by
  obtain ⟨hnd, hmax, hall⟩ := hs
  refine ⟨h.serials.nodup hnd, h.next ▸ hmax, fun r' hr' => ?_⟩
  obtain ⟨r, hr, he⟩ := List.mem_map.1 (h.serials.subset (List.mem_map_of_mem hr'))
  rw [h.next, ← he]
  exact hall r hr

/-- In a table without repeated serials a record is known by its serial (R56). -/
theorem eq_of_serial {rs : List Record} (h : (rs.map (·.serial)).Nodup) {r r' : Record} (hr : r ∈ rs) (hr' : r' ∈ rs)
    (he : r.serial = r'.serial) : r = r' := List.inj_on_of_nodup_map h hr hr' he

/-- Thinning opens no second record on a line (R41, R46). -/
theorem Thins.openOk {s t : State} (h : Thins s t) (hs : s.SerialsOk) (ho : s.OpenOk) : t.OpenOk := by
  intro a ha b hb hline hstate hopen
  obtain ⟨x, hx, x1, x2, x3⟩ := h.opens a ha hopen
  obtain ⟨y, hy, y1, y2, y3⟩ := h.opens b hb (by unfold Record.isOpen; rwa [← hstate])
  have hxy : x = y := ho x hx y hy (by rw [x2, y2, hline]) (by rw [x3, y3, hstate]) (by rw [x3]; exact hopen)
  exact eq_of_serial (h.serialsOk hs).1 ha hb (by rw [← x1, ← y1, hxy])

/-! ## Operations that open no record -/

/-- What an operation of the coil table that opens no record can do. -/
def TableStep (s t : State) : Prop := TableFrame s t ∧ Thins s t

theorem TableStep.refl (s : State) : TableStep s s := ⟨.refl s, .refl s⟩

theorem TableStep.trans {s t u : State} (h : TableStep s t) (g : TableStep t u) : TableStep s u :=
  ⟨h.1.trans g.1, h.2.trans g.2⟩

theorem TableStep.mark (s : State) (g : Fin 39) : TableStep s (s.mark g) := ⟨.mark s g, .of_eq rfl⟩

theorem TableStep.markIf (s : State) (c : Bool) (g : Fin 39) : TableStep s (s.markIf c g) :=
  ⟨.markIf s c g, .of_eq (by simp)⟩

theorem TableStep.raiseTrack (s : State) (f : TrackFlag) : TableStep s (s.raiseTrack f) :=
  ⟨.raiseTrack s f, .of_eq (State.raiseTrack_rest s f).1⟩

theorem TableStep.judgeAnnounce (s : State) : TableStep s s.judgeAnnounce :=
  ⟨.judgeAnnounce s, .of_eq (State.judgeAnnounce_rest s).1⟩

theorem TableStep.anomaly (s : State) (c : AnomalyCode) (l : Option LineId) (p n : Option Nat) :
    TableStep s (s.anomaly c l p n) := ⟨.anomaly s c l p n, .of_eq (State.anomaly_rest s c l p n).1⟩

theorem TableStep.mapSet (s : State) (number : Word) (n : Nat) : TableStep s (s.mapSet number n) :=
  ⟨.mapSet s number n, ⟨rfl, List.Sublist.refl _, fun r hr _ => ⟨r, hr, rfl, rfl, rfl⟩⟩⟩

theorem TableStep.mapWrite (s : State) (number : Word) (n : Nat) : TableStep s (s.mapWrite number n) := by
  unfold State.mapWrite
  split
  · exact .mapSet _ _ _
  · split
    · exact .mapSet _ _ _
    · exact .refl s

/-- A change of a record that keeps its serial and line, and leaves it in its state or in none that is open. -/
def Record.Closing (f : Record → Record) : Prop :=
  ∀ r, (f r).serial = r.serial ∧ (f r).line = r.line ∧ ((f r).state = r.state ∨ ¬(f r).isOpen)

theorem TableStep.modify (s : State) (n : Nat) {f : Record → Record} (hf : Record.Closing f) :
    TableStep s (s.modify n f) := by
  have hrec : (s.modify n f).track.table.records =
      s.track.table.records.map fun r => if r.serial = n then f r else r := by
    unfold CoilTable.records
    rw [State.modify_places]
    unfold mapSerial
    simp only [List.map_map]
    rfl
  refine ⟨.modify s n f, rfl, ?_, fun r' hr' ho => ?_⟩
  · rw [hrec, List.map_map]
    refine (List.map_congr_left fun r _ => ?_ : _ = s.track.table.records.map (·.serial)) ▸ List.Sublist.refl _
    show (if r.serial = n then f r else r).serial = r.serial
    split
    · exact (hf r).1
    · rfl
  · rw [hrec] at hr'
    obtain ⟨r, hr, rfl⟩ := List.mem_map.1 hr'
    by_cases hn : r.serial = n
    · rw [if_pos hn] at ho ⊢
      obtain ⟨h1, h2, h3⟩ := hf r
      exact ⟨r, hr, h1.symm, h2.symm, (h3.resolve_right (not_not_intro ho)).symm⟩
    · rw [if_neg hn]
      exact ⟨r, hr, rfl, rfl, rfl⟩

theorem closing_of_state {f : Record → Record} (h : ∀ r, (f r).serial = r.serial ∧ (f r).line = r.line ∧
    (f r).state = r.state) : Record.Closing f := fun r => ⟨(h r).1, (h r).2.1, .inl (h r).2.2⟩

theorem Record.closing_settled : Record.Closing Record.settled := fun _ => ⟨rfl, rfl, .inr (by simp [isOpen, settled])⟩

theorem Record.closing_closeAt (p : Nat) (t : Time) : Record.Closing fun r => r.closeAt p t :=
  fun _ => ⟨rfl, rfl, .inr (by simp [isOpen, closeAt])⟩

theorem Record.closing_endExit (p e : Nat) : Record.Closing fun r => r.endExit p e :=
  fun _ => ⟨rfl, rfl, .inr (by simp [isOpen, endExit])⟩

theorem Record.closing_cutAt (p : Nat) (t : Time) (g : List Segment) (b : Bool) :
    Record.Closing fun r => r.cutAt p t g b := fun _ => ⟨rfl, rfl, .inr (by simp [isOpen, cutAt])⟩

theorem Record.closing_addTally (a b c : Nat) : Record.Closing fun r => r.addTally a b c :=
  closing_of_state fun r => by unfold addTally; split <;> exact ⟨rfl, rfl, rfl⟩

theorem Record.closing_addTag (g : Record → Tag) : Record.Closing fun r => r.addTag (g r) :=
  closing_of_state fun r => by unfold addTag; split <;> exact ⟨rfl, rfl, rfl⟩

theorem Record.closing_force : Record.Closing Record.force := closing_of_state fun _ => ⟨rfl, rfl, rfl⟩

theorem Record.closing_suspect : Record.Closing Record.suspect := closing_of_state fun _ => ⟨rfl, rfl, rfl⟩

theorem Record.closing_withSource (n : Nat) : Record.Closing fun r => r.withSource n :=
  closing_of_state fun _ => ⟨rfl, rfl, rfl⟩

theorem Record.closing_startExit (p : Nat) : Record.Closing fun r => r.startExit p :=
  closing_of_state fun _ => ⟨rfl, rfl, rfl⟩

theorem Record.closing_named (number : Word) : Record.Closing fun r => r.named number :=
  closing_of_state fun _ => ⟨rfl, rfl, rfl⟩

theorem TableStep.joinBacklog (s : State) (r : Record) : TableStep s (s.joinBacklog r) :=
  ⟨.joinBacklog s r, .of_eq (State.joinBacklog_rest s r).1⟩

theorem TableStep.settle (s : State) (n : Nat) : TableStep s (s.settle n) := by
  unfold State.settle
  split
  · exact .refl s
  · exact (((((TableStep.modify _ _ Record.closing_settled).trans (.joinBacklog _ _)).trans (.raiseTrack _ _)).trans
      (.mark _ _)).trans (.markIf _ _ _))

theorem TableStep.forceSettle (s : State) (n : Nat) : TableStep s (s.forceSettle n) :=
  (TableStep.modify _ _ Record.closing_force).trans (.settle _ _)

theorem TableStep.settleCheck (s : State) (n : Nat) : TableStep s (s.settleCheck n) := by
  unfold State.settleCheck
  split
  · exact .refl s
  · split
    · exact .settle s n
    · exact .refl s

theorem TableStep.settleStation (s : State) (i : Fin 8) : TableStep s (s.settleStation i) :=
  foldl_frame TableStep.refl TableStep.trans _ (fun s n => TableStep.settleCheck s n) _ s

theorem TableStep.tally (s : State) (n a b c : Nat) : TableStep s (s.tally n a b c) :=
  .modify _ _ (Record.closing_addTally a b c)

theorem TableStep.tallyRun (s : State) (i : Fin 8) (b lo hi : Nat) : TableStep s (s.tallyRun i b lo hi) := by
  unfold State.tallyRun
  apply foldl_frame TableStep.refl TableStep.trans
  intro u e
  split
  · exact .refl u
  · exact .tally _ _ _ _ _

theorem TableStep.tallyOwner (s : State) (o : Option Record) (v : Bool) : TableStep s (s.tallyOwner o v) := by
  unfold State.tallyOwner
  split
  · exact .refl s
  · exact .tally _ _ _ _ _

theorem TableStep.reclaim (s : State) (n : Nat) : TableStep s (s.reclaim n) := by
  have hsub : (s.track.table.without n).records.Sublist s.track.table.records := List.filter_sublist.map _
  exact ⟨.reclaim s n, rfl, hsub.map _, fun r hr _ => ⟨r, hsub.subset hr, rfl, rfl, rfl⟩⟩

theorem TableStep.makeRoom (s : State) : TableStep s s.makeRoom := by
  unfold State.makeRoom
  split
  · exact .refl s
  · split
    · exact .reclaim _ _
    · split
      · exact ((TableStep.forceSettle _ _).trans (.anomaly _ _ _ _ _)).trans (.reclaim _ _)
      · exact .refl s

theorem TableStep.sourceLookup (s : State) (n : Nat) : TableStep s (s.sourceLookup n) := by
  unfold State.sourceLookup
  split
  · exact .refl s
  · split
    · exact .refl s
    · split
      · exact .refl s
      · exact .modify _ _ (Record.closing_withSource _)

theorem TableStep.suspectOpen (s : State) (n : Nat) : TableStep s (s.suspectOpen n) :=
  .modify _ _ (closing_of_state fun r => by split <;> exact ⟨rfl, rfl, rfl⟩)

theorem TableStep.suspectEntry (s : State) (e : SeamEntry) : TableStep s (s.suspectEntry e) := by
  unfold State.suspectEntry
  split
  · exact .suspectOpen _ _
  · exact (TableStep.suspectOpen _ _).trans (.suspectOpen _ _)

theorem TableStep.closeLoading (s : State) (c : Option Record) (p : Nat) (t : Time) :
    TableStep s (s.closeLoading c p t) := by
  unfold State.closeLoading
  split
  · exact .refl s
  · exact .modify _ _ (Record.closing_closeAt p t)

theorem TableStep.checkElongation (s : State) (l : LineId) (n e p : Nat) :
    TableStep s (s.checkElongation l n e p) := by
  unfold State.checkElongation
  split
  · exact (TableStep.modify _ _ Record.closing_suspect).trans (.anomaly _ _ _ _ _)
  · exact .refl s

theorem TableStep.endExitSpan (s : State) (l : LineId) (r : Record) (p : Nat) : TableStep s (s.endExitSpan l r p) :=
  ((TableStep.modify _ _ (Record.closing_endExit p _)).trans (.checkElongation _ _ _ _ _)).trans (.settleCheck _ _)

theorem TableStep.cutAnomalies (s : State) (l : LineId) (p n : Nat) (codes : List AnomalyCode) :
    TableStep s (s.cutAnomalies l p n codes) :=
  foldl_frame TableStep.refl TableStep.trans _ (fun _ _ => TableStep.anomaly _ _ _ _ _) codes s

theorem TableStep.mapRecord (s : State) (w : Record) : TableStep s (s.mapRecord w) := by
  unfold State.mapRecord
  split
  · exact .refl s
  · exact .mapWrite _ _ _

theorem TableStep.tagEvent (s : State) (l : LineId) (p : Nat) (k : Fin 3) : TableStep s (s.tagEvent l p k) := by
  unfold State.tagEvent
  split
  · exact .anomaly _ _ _ _ _
  · exact .modify _ _ (Record.closing_addTag fun x => ⟨k, p - x.start⟩)

/-! ## Sealing (R96) -/

theorem Thins.setStation (s : State) (i : Fin 8) (st : Station) : Thins s (s.setStation i st) := .of_eq (by simp)

theorem Thins.setLive (s : State) (i : Fin 8) (d : LiveData) : Thins s (s.setLive i d) := .setStation _ _ _

theorem Thins.missingStep (s : State) (i : Fin 8) (n : Int) : Thins s (s.missingStep i n) := by
  unfold State.missingStep
  split
  · exact .refl s
  · split
    · exact .refl s
    · exact ((Thins.setLive _ _ _).trans (TableStep.tallyRun _ _ _ _ _).2).trans (TableStep.settleStation _ _).2

theorem Thins.presentStep (s : State) (i : Fin 8) (f : Bool) : Thins s (s.presentStep i f) := by
  unfold State.presentStep
  dsimp only
  split
  · exact .refl s
  · split
    · exact .refl s
    · refine ((Thins.trans ?_ (.setLive _ _ _)).trans (TableStep.tallyOwner _ _ _).2).trans
        (TableStep.settleStation _ _).2
      exact .of_eq rfl

theorem Thins.pauseSealing (s : State) (i : Fin 8) : Thins s (s.pauseSealing i) := by
  unfold State.pauseSealing
  split
  · exact .refl s
  · exact (Thins.setLive _ _ _).trans (.of_eq rfl)

theorem Thins.sealBins (i : Fin 8) (lim : Int) (f : Bool) (bins : List (Nat × OpenBin)) (s : State) :
    Thins s (State.sealBins i lim f bins s) := by
  induction bins generalizing s with
  | nil => exact .missingStep _ _ _
  | cons e rest ih =>
    simp only [State.sealBins]
    split
    · split
      · exact ((Thins.missingStep _ _ _).trans (.presentStep _ _ _)).trans (ih _)
      · exact (Thins.missingStep _ _ _).trans (.pauseSealing _ _)
    · exact .missingStep _ _ _

theorem Thins.seal (s : State) (i : Fin 8) : Thins s (s.seal i) := by
  unfold State.seal
  split
  · exact .refl s
  · split
    · exact .sealBins _ _ _ _ _
    · exact .refl s

theorem Thins.resumeSealing (s : State) (i : Fin 8) : Thins s (s.resumeSealing i) := by
  unfold State.resumeSealing
  split
  · exact .refl s
  · exact ((Thins.setLive _ _ _).trans (.presentStep _ _ _)).trans (.seal _ _)

end Sys2Proof.Machine
end

section
/-! PROOF. Which bounds each operation of the part keeps: collections, counters, flags, open bins, definitions and the form
of the coil table, operation by operation (R1, R35, R36, R41, R56, R81, R82, R139, R142, R163, R172). -/

namespace Sys2Proof.Machine

/-! ## The bounds, together -/

/-- The collections and queues of a line hold no more than they can, and no number stands twice in a queue (R35, R36). -/
def Line.ListsOk (ln : Line) : Prop :=
  ln.seamQueue.length ≤ 16 ∧ ln.through.length ≤ 16 ∧ ln.entryQueue.length ≤ 8 ∧ ln.entryQueue.Nodup ∧
    ln.exitQueue.length ≤ 8 ∧ ln.exitQueue.Nodup

/-- Both counters of a line lie from 0 to 2^48 − 1 (R1). -/
def Line.CountersOk (ln : Line) : Prop := ln.entry.counter ≤ 281474976710655 ∧ ln.exit.counter ≤ 281474976710655

/-- The coil table in its form: places, serials and open records (R56, R41, R46). -/
def State.CoilsOk (s : State) : Prop := s.TableOk ∧ s.SerialsOk ∧ s.OpenOk

theorem CoilsOk.of_eq {s t : State} (h : t.track.table = s.track.table) (hs : s.CoilsOk) : t.CoilsOk := by
  unfold State.CoilsOk State.TableOk State.SerialsOk State.OpenOk
  rw [h]
  exact hs

/-- Each bound that holds of a state holds of the other. -/
structure Sound (s t : State) : Prop where
  queues : s.QueuesOk → t.QueuesOk
  lines : s.LinesOk → t.LinesOk
  counters : s.CountersOk → t.CountersOk
  flags : s.FlagsOk → t.FlagsOk
  bins : s.BinsOk → t.BinsOk
  defs : s.DefinitionsOk → t.DefinitionsOk
  coils : s.CoilsOk → t.CoilsOk

theorem Sound.refl (s : State) : Sound s s := ⟨id, id, id, id, id, id, id⟩

theorem Sound.trans {s t u : State} (h : Sound s t) (g : Sound t u) : Sound s u :=
  ⟨g.queues ∘ h.queues, g.lines ∘ h.lines, g.counters ∘ h.counters, g.flags ∘ h.flags, g.bins ∘ h.bins, g.defs ∘ h.defs,
    g.coils ∘ h.coils⟩

theorem TableFrame.line {s t : State} (h : TableFrame s t) (l : LineId) : t.line l = s.line l := by
  unfold State.line
  rw [h.rest.2.2]

/-- A change within the coil table's frame, after which the table has its form, keeps every bound. -/
theorem Sound.andThen {r s t : State} (hr : Sound r s) (h : TableFrame s t) (hc : r.CoilsOk → t.CoilsOk) : Sound r t := by
  have hpath := h.rest.1
  refine ⟨fun hq => ?_, fun hl l => ?_, fun hl l => ?_, h.2.flags ∘ hr.flags, fun hs i d hd => ?_, fun hs i d hd => ?_, hc⟩
  · obtain ⟨h1, h2, h3⟩ := hr.queues hq
    exact ⟨h.2.backlog h1, by rw [hpath]; exact h2, by rw [hpath]; exact h3⟩
  · rw [h.line]; exact hr.lines hl l
  · rw [h.line]; exact hr.counters hl l
  · rw [h.station] at hd; exact hr.bins hs i d hd
  · rw [h.station] at hd; exact hr.defs hs i d hd

/-- An operation of the coil table that opens no record keeps every bound. -/
theorem TableStep.sound {s t : State} (h : TableStep s t) : Sound s t :=
  (Sound.refl s).andThen h.1 fun ⟨h1, h2, h3⟩ => ⟨h.1.2.table h1, h.2.serialsOk h2, h.2.openOk h2 h3⟩

/-- A line unit replaced by one that keeps its bounds. -/
theorem Sound.setLine (s : State) (l : LineId) {ln : Line} (hl : (s.line l).ListsOk → ln.ListsOk)
    (hc : (s.line l).CountersOk → ln.CountersOk) : Sound s (s.setLine l ln) := by
  refine ⟨fun h => by simpa [State.QueuesOk] using h, fun h j => ?_, fun h j => ?_,
    fun h => by simpa [State.FlagsOk] using h, fun h i d hd => h i d (by simpa [State.station] using hd),
    fun h i d hd => h i d (by simpa [State.station] using hd), CoilsOk.of_eq (by simp)⟩
  · rw [State.line_setLine]
    split
    · exact hl (h l)
    · exact h j
  · rw [State.line_setLine]
    split
    · exact hc (h l)
    · exact h j

/-- A station replaced, after changes that keep every bound, by one whose bins and definition are within theirs. -/
theorem Sound.andStation {r s : State} (hr : Sound r s) (i : Fin 8) {st : Station}
    (hb : r.BinsOk → ∀ d, st.state = .live d → d.Ok)
    (hd : r.DefinitionsOk → ∀ d, st.defn = some d → d.InRange) : Sound r (s.setStation i st) := by
  refine ⟨fun h => by simpa [State.QueuesOk] using hr.queues h,
    fun h => by simpa [State.LinesOk, State.line] using hr.lines h,
    fun h => by simpa [State.CountersOk, State.line] using hr.counters h,
    fun h => by simpa [State.FlagsOk] using hr.flags h,
    fun h j d hj => ?_, fun h j d hj => ?_, fun h => CoilsOk.of_eq (by simp) (hr.coils h)⟩
  · rw [State.station_setStation] at hj
    split at hj
    · exact hb h d hj
    · exact hr.bins h j d hj
  · rw [State.station_setStation] at hj
    split at hj
    · exact hd h d hj
    · exact hr.defs h j d hj

theorem Sound.setStation (s : State) (i : Fin 8) {st : Station}
    (hb : s.BinsOk → ∀ d, st.state = .live d → d.Ok)
    (hd : s.DefinitionsOk → ∀ d, st.defn = some d → d.InRange) : Sound s (s.setStation i st) :=
  (Sound.refl s).andStation i hb hd

/-- A change outside the collections, lines, stations and the coil table. -/
theorem Sound.of_parts {s t : State} (hq : s.QueuesOk → t.QueuesOk) (hf : s.FlagsOk → t.FlagsOk)
    (hl : t.track.lines = s.track.lines) (hs : t.path.stations = s.path.stations)
    (ht : t.track.table = s.track.table) : Sound s t := by
  have hline : ∀ l, t.line l = s.line l := fun l => by unfold State.line; rw [hl]
  have hst : ∀ i, t.station i = s.station i := fun i => by unfold State.station; rw [hs]
  refine ⟨hq, fun h l => ?_, fun h l => ?_, hf, fun h i => ?_, fun h i => ?_, CoilsOk.of_eq ht⟩
  · rw [hline]; exact h l
  · rw [hline]; exact h l
  · rw [hst]; exact h i
  · rw [hst]; exact h i

/-- A change of the queue's commands or of what else no bound speaks of. -/
theorem Sound.of_eq {s t : State} (hb : t.track.backlog = s.track.backlog) (hk : t.path.bookkeeping = s.path.bookkeeping)
    (hr : t.path.requests = s.path.requests) (h1 : t.track.trackingFlags = s.track.trackingFlags)
    (h2 : t.path.pathFlags = s.path.pathFlags) (h3 : t.path.alertMask = s.path.alertMask)
    (h4 : t.track.trackFaultMask = s.track.trackFaultMask) (hl : t.track.lines = s.track.lines)
    (hs : t.path.stations = s.path.stations) (ht : t.track.table = s.track.table) : Sound s t :=
  .of_parts (fun h => by unfold State.QueuesOk; rw [hb, hk, hr]; exact h)
    (fun h => by unfold State.FlagsOk; rw [h1, h2, h3, h4]; exact h) hl hs ht

theorem Sound.mark (s : State) (g : Fin 39) : Sound s (s.mark g) := (TableStep.mark s g).sound

theorem Sound.anomaly (s : State) (c a b d) : Sound s (s.anomaly c a b d) := (TableStep.anomaly s c a b d).sound

theorem Sound.raisePath (s : State) (f : PathFlag) : Sound s (s.raisePath f) := by
  refine .of_parts (fun h => by simpa [State.QueuesOk] using h) (fun ⟨h1, h2, h3, h4⟩ => ?_) (by simp) (by simp) (by simp)
  refine ⟨by simpa using h1, ?_, by simpa using h3, by simpa using h4⟩
  simpa using or_and_not h2 f.bit_in

/-- Sealing keeps every bound (R96). -/
theorem SealFrame.sound {i : Fin 8} {s t : State} (h : SealFrame i s t) (ht : Thins s t) (hb : s.BinsOk → t.BinsOk) :
    Sound s t := by
  obtain ⟨sts, bk, nid, wl, tb, ns, bl, an, ac, tf, d, he⟩ := h.shape
  have hlines : t.track.lines = s.track.lines := by rw [he]; rfl
  have hline : ∀ l, t.line l = s.line l := fun l => by unfold State.line; rw [hlines]
  refine ⟨fun ⟨h1, h2, h3⟩ => ⟨h.keeps.backlog h1, h.room h2, by rw [h.requests]; exact h3⟩, fun hs l => ?_,
    fun hs l => ?_, h.keeps.flags, hb, State.DefinitionsOk.of_defn h.defn,
    fun ⟨h1, h2, h3⟩ => ⟨h.keeps.table h1, ht.serialsOk h2, ht.openOk h2 h3⟩⟩
  · rw [hline]; exact hs l
  · rw [hline]; exact hs l

theorem Sound.seal (s : State) (i : Fin 8) : Sound s (s.seal i) :=
  (SealFrame.seal s i).sound (.seal s i) fun h => h.seal i

theorem Sound.sealBins (s : State) (i : Fin 8) (lim : Int) (f : Bool) {d : LiveData}
    (hd : (s.station i).state = .live d) : Sound s (State.sealBins i lim f d.bins s) :=
  (SealFrame.sealBins i lim f d.bins s).sound (.sealBins i lim f d.bins s) fun h => h.sealBins hd lim f

theorem Sound.enterLive (s : State) (i : Fin 8) : Sound s (s.enterLive i) :=
  (SealFrame.enterLive s i).sound (.setStation _ _ _) fun h => h.enterLive i

/-- A burst appended to the bookkeeping queue, which has room for it (R142). -/
theorem Sound.append {r s : State} (hr : Sound r s) (h : r.QueuesOk → s.path.bookkeeping.length < 64) (b : WriteBurst) :
    Sound r (s.append b) := by
  have hq : r.QueuesOk → (s.append b).QueuesOk := fun q => by
    obtain ⟨h1, -, h3⟩ := hr.queues q
    refine ⟨h1, ?_, h3⟩
    have hroom := h q
    simp only [State.append_path, List.length_append, List.length_singleton]
    omega
  exact ⟨hq, hr.lines, hr.counters, hr.flags, hr.bins, hr.defs, hr.coils⟩

/-- A present step keeps every bound where its header has a place (R98). -/
theorem Sound.presentStep {r s : State} (hr : Sound r s) (h : r.QueuesOk → s.path.bookkeeping.length < 64) (i : Fin 8)
    (f : Bool) : Sound r (s.presentStep i f) := by
  unfold State.presentStep
  split
  · exact hr
  · rename_i d hd
    have hd := Station.live?_eq.1 hd
    split
    · exact hr
    · rename_i b bin rest hb
      refine (Sound.trans ?_ (TableStep.tallyOwner _ _ _).sound).trans (TableStep.settleStation _ _).sound
      refine (hr.append h _).andStation i (fun hs d' hd' => ?_) fun hs => (hr.append h _).defs hs i
      cases hd'
      exact LiveData.Ok.sealed (hr.bins hs i d hd) hb

/-- A paused station goes on with a place for its header (R100, R143). -/
theorem Sound.resumeSealing {r s : State} (hr : Sound r s) (h : r.QueuesOk → s.path.bookkeeping.length < 64) (i : Fin 8) :
    Sound r (s.resumeSealing i) := by
  unfold State.resumeSealing
  split
  · exact hr
  · rename_i d hd
    have hd := Station.live?_eq.1 hd
    have unpaused : Sound r (s.setLive i { d with paused := false }) :=
      hr.andStation i (fun hs d' hd' => by cases hd'; exact hr.bins hs i d hd) fun hs => hr.defs hs i
    exact (unpaused.presentStep (by simpa [State.setLive] using h) i false).trans (.seal _ i)

theorem Sound.foldl {α : Type} (f : State → α → State) (hf : ∀ s a, Sound s (f s a)) (xs : List α) (s : State) :
    Sound s (xs.foldl f s) := foldl_frame Sound.refl Sound.trans f hf xs s

/-! ## Seam tracking (chapter 3) -/

/-- A change of a line unit that reaches neither its counters nor its announcement queues. -/
theorem Sound.setSeams (s : State) (l : LineId) {q : List SeamEntry}
    (h : (s.line l).seamQueue.length ≤ 16 → q.length ≤ 16) : Sound s (s.setSeams l q) :=
  .setLine s l (fun ⟨h1, h2⟩ => ⟨h h1, h2⟩) id

theorem Sound.setThrough (s : State) (l : LineId) {ns : List Nat}
    (h : (s.line l).through.length ≤ 16 → ns.length ≤ 16) : Sound s (s.setThrough l ns) :=
  .setLine s l (fun ⟨h1, h2, h3⟩ => ⟨h1, h h2, h3⟩) id

theorem Sound.setMatcher (s : State) (l : LineId) (m : Matcher) : Sound s (s.setMatcher l m) := .setLine s l id id

theorem Sound.setLastSeamIn (s : State) (l : LineId) (p : Nat) : Sound s (s.setLastSeamIn l p) := .setLine s l id id

theorem Sound.setLastExitSeam (s : State) (l : LineId) (p : Nat) : Sound s (s.setLastExitSeam l p) := .setLine s l id id

theorem Sound.setLastShear (s : State) (l : LineId) (p : Nat) : Sound s (s.setLastShear l p) := .setLine s l id id

/-- An announcement queue replaced by one that keeps its bounds (R36). -/
theorem Sound.setQueue (s : State) (l : LineId) (k : Kind) {q : List Word}
    (h : ((s.line l).queue k).length ≤ 8 ∧ ((s.line l).queue k).Nodup → q.length ≤ 8 ∧ q.Nodup) :
    Sound s (s.setQueue l k q) := by
  cases k with
  | entry =>
    have entry : Sound s (s.setLine l ((s.line l).setQueue .entry q)) :=
      .setLine s l (fun ⟨h1, h2, h3, h4, h5⟩ => ⟨h1, h2, (h ⟨h3, h4⟩).1, (h ⟨h3, h4⟩).2, h5⟩) id
    exact entry.trans (TableStep.judgeAnnounce _).sound
  | exit =>
    exact .setLine s l (fun ⟨h1, h2, h3, h4, h5⟩ => ⟨h1, h2, h3, h4, h h5⟩) id

theorem Sound.announced (s : State) (k : Kind) (l : LineId) (p n : Nat) :
    Sound s (s.announced k l ((s.line l).queue k) p n) := by
  unfold State.announced
  cases hq : (s.line l).queue k with
  | nil => exact .anomaly _ _ _ _ _
  | cons x rest =>
    refine .setQueue s l k fun ⟨h1, h2⟩ => ?_
    rw [hq] at h1 h2
    simp only [List.length_cons] at h1
    exact ⟨by omega, h2.of_cons⟩

/-! ## A record is opened (R41, R46, R56) -/

/-- Setting a key of a table adds no value but the one set, whose serial is new (R56). -/
theorem serials_tableSet {k : Nat} {v : Record} {t : List (Nat × Record)}
    (h : (t.map (·.2.serial)).Nodup) (hv : v.serial ∉ t.map (·.2.serial)) :
    ((tableSet k v t).map (·.2.serial)).Nodup := by
  induction t with
  | nil => simp [tableSet]
  | cons e rest ih =>
    obtain ⟨j, w⟩ := e
    simp only [List.map_cons, List.nodup_cons, List.mem_cons, not_or] at h hv
    simp only [tableSet]
    split
    · simp only [List.map_cons, List.nodup_cons, List.mem_cons, not_or]
      exact ⟨hv, h⟩
    · split
      · simp only [List.map_cons, List.nodup_cons]
        exact ⟨hv.2, h.2⟩
      · simp only [List.map_cons, List.nodup_cons]
        refine ⟨fun hm => ?_, ih h.2 hv.2⟩
        obtain ⟨e, he, hse⟩ := List.mem_map.1 hm
        rcases mem_tableSet he with rfl | he
        · exact hv.1 hse
        · exact h.1 (hse ▸ List.mem_map_of_mem he)

theorem records_tableSet {k : Nat} {v r : Record} {t : List (Nat × Record)} (h : r ∈ (tableSet k v t).map (·.2)) :
    r = v ∨ r ∈ t.map (·.2) := by
  obtain ⟨e, he, rfl⟩ := List.mem_map.1 h
  rcases mem_tableSet he with rfl | he
  · exact .inl rfl
  · exact .inr (List.mem_map_of_mem he)

/-- A table takes the next serial's record: every serial stays new, from 1 to 4,294,967,295 (R56). -/
theorem adding_serialsOk {u v : State} {mk : Nat → Record} (hmk : ∀ n, (mk n).serial = n) (hu : u.SerialsOk)
    (hn : u.track.table.nextSerial ≠ 0) (hv : v.track.table = u.track.table.adding mk) : v.SerialsOk := by
  obtain ⟨hnd, hmax, hall⟩ := hu
  have fresh : (mk u.track.table.nextSerial).serial ∉ u.track.table.places.map (·.2.serial) := by
    rw [hmk]
    intro hm
    obtain ⟨e, he, hse⟩ := List.mem_map.1 hm
    rcases (hall e.2 (List.mem_map_of_mem he)).2.2 with h0 | hlt
    · exact hn h0
    · omega
  have hnd' : (u.track.table.places.map (·.2.serial)).Nodup := by
    simpa [CoilTable.records, Function.comp_def] using hnd
  have hafter : serialAfter u.track.table.nextSerial = 0 ∨
      serialAfter u.track.table.nextSerial = u.track.table.nextSerial + 1 ∧ u.track.table.nextSerial < 4294967295 := by
    unfold serialAfter max32
    split <;> omega
  unfold State.SerialsOk
  rw [hv]
  refine ⟨?_, ?_, fun r hr => ?_⟩
  · have := serials_tableSet (k := lowestFree 0 u.track.table.places) hnd' fresh
    simpa [CoilTable.records, CoilTable.adding, Function.comp_def] using this
  · show serialAfter _ ≤ _
    omega
  · show _ ∧ _ ∧ (serialAfter _ = 0 ∨ _ < serialAfter _)
    rcases records_tableSet hr with rfl | hr
    · rw [hmk]
      omega
    · have := hall r hr
      omega

/-- A record opened on a line that has none open in its state is the only one (R41, R46). -/
theorem adding_openOk {u v : State} {mk : Nat → Record} (hu : u.OpenOk)
    (hnone : ∀ n, ∀ r ∈ u.track.table.records, r.line = (mk n).line → r.state = (mk n).state → ¬r.isOpen)
    (hv : v.track.table = u.track.table.adding mk) : v.OpenOk := by
  unfold State.OpenOk
  rw [hv]
  intro a ha b hb hline hstate hopen
  rcases records_tableSet ha with rfl | ha <;> rcases records_tableSet hb with rfl | hb
  · rfl
  · exact absurd (by unfold Record.isOpen; rwa [← hstate]) (hnone _ b hb hline.symm hstate.symm)
  · exact absurd hopen (hnone _ a ha hline hstate)
  · exact hu a ha b hb hline hstate hopen

/-- Allocating a record whose line has none open in its state keeps the coil table's form (R41, R46, R56, R61). -/
theorem allocate_coilsOk {s : State} {mk : Nat → Record} (hs : s.CoilsOk) (hc : s.canAllocate = true)
    (hmk : ∀ n, (mk n).serial = n)
    (hnone : ∀ n, ∀ r ∈ s.track.table.records, r.line = (mk n).line → r.state = (mk n).state → ¬r.isOpen) :
    (s.allocate mk).CoilsOk := by
  obtain ⟨htab, hser, hop⟩ := hs
  have hth := (TableStep.makeRoom s).2
  have hnext : s.makeRoom.track.table.nextSerial ≠ 0 := by
    rw [hth.next]
    unfold State.canAllocate at hc
    simp only [Bool.and_eq_true, bne_iff_ne, ne_eq] at hc
    exact hc.1
  refine ⟨(TableFrame.allocate s mk hc).2.table htab, adding_serialsOk hmk (hth.serialsOk hser) hnext rfl,
    adding_openOk (mk := mk) (hth.openOk hser hop) (fun n r hr hl hst ho => ?_) rfl⟩
  obtain ⟨x, hx, -, h2, h3⟩ := hth.opens r hr ho
  exact hnone n x hx (h2.trans hl) (h3.trans hst) (by unfold Record.isOpen; rw [h3]; exact ho)

/-- The state a record of a kind is opened in (R41, R46). -/
def Kind.openState : Kind → RecordState
  | .entry => .loading
  | .exit => .winding

theorem newRecord_state (k : Kind) (l p t i n) : (newRecord k l p t i n).state = k.openState := by cases k <;> rfl

/-- None of a line's records is in a state. -/
def State.NoneIn (s : State) (l : LineId) (st : RecordState) : Prop :=
  ∀ r ∈ s.track.table.records, r.line = l → r.state ≠ st

/-- Opening a record on a line that has none open of its kind keeps every bound (R37, R41, R46). -/
theorem Sound.openRecord {r s : State} {k : Kind} {l : LineId} (h : Sound r s)
    (hnone : r.CoilsOk → s.NoneIn l k.openState) (p : Nat) (t : Time) : Sound r (s.openRecord k l p t).1 := by
  unfold State.openRecord
  split
  · rename_i hc
    have hframe := TableFrame.allocate s (newRecord k l p t ((s.line l).queue k).head?) hc
    have halloc : Sound r (s.allocate (newRecord k l p t ((s.line l).queue k).head?)) := by
      refine h.andThen hframe fun hr => allocate_coilsOk (h.coils hr) hc (fun _ => rfl) fun n x hx hl hst => ?_
      rw [newRecord_state] at hst
      exact absurd hst (hnone hr x hx hl)
    have hann := Sound.announced ((s.allocate (newRecord k l p t ((s.line l).queue k).head?)).mark (lineGroup l)) k l p
      s.track.table.nextSerial
    rw [(hframe.trans (TableFrame.mark _ _)).line] at hann
    exact (halloc.trans (.mark _ _)).trans hann
  · exact h

/-- What thins a table puts no record in an open state. -/
theorem State.NoneIn.thins {s t : State} {l : LineId} {st : RecordState} (h : s.NoneIn l st) (ht : Thins s t)
    (hst : st = .loading ∨ st = .winding) : t.NoneIn l st := by
  intro r' hr' hl he
  obtain ⟨r, hr, -, h2, h3⟩ := ht.opens r' hr' (by unfold Record.isOpen; rwa [he])
  exact h r hr (h2.trans hl) (h3.trans he)

theorem noneIn_of_findOpen {s : State} {l : LineId} {st : RecordState} (h : s.findOpen l st = none) : s.NoneIn l st := by
  rw [findOpen_eq, List.find?_eq_none] at h
  intro r hr hl he
  exact h r hr (by simp [hl, he])

/-- The open record that is found leaves its state: its line has none in it any more (R41, R46). -/
theorem noneIn_modify {s : State} {l : LineId} {st : RecordState} (hst : st = .loading ∨ st = .winding) (hs : s.CoilsOk)
    {r : Record} (hr : s.findOpen l st = some r) {f : Record → Record} (hf : ∀ x, (f x).state ≠ st) :
    (s.modify r.serial f).NoneIn l st := by
  rw [findOpen_eq] at hr
  obtain ⟨hline, hstate⟩ : r.line = l ∧ r.state = st := by simpa using List.find?_some hr
  have hmem := List.mem_of_find?_eq_some hr
  intro x hx hl he
  unfold CoilTable.records at hx
  rw [State.modify_places] at hx
  obtain ⟨e, he', rfl⟩ := List.mem_map.1 hx
  obtain ⟨e0, he0, rfl⟩ := List.mem_map.1 he'
  dsimp only at hl he
  by_cases hn : e0.2.serial = r.serial
  · rw [if_pos hn] at he
    exact hf _ he
  · rw [if_neg hn] at hl he
    have := hs.2.2 e0.2 (List.mem_map_of_mem he0) r hmem (hl.trans hline.symm) (he.trans hstate.symm) (by rwa [he])
    exact hn (by rw [this])

theorem closeLoading_noneIn {s : State} (hs : s.CoilsOk) (l : LineId) (p : Nat) (t : Time) :
    (s.closeLoading (s.findOpen l .loading) p t).NoneIn l .loading := by
  unfold State.closeLoading
  split
  · exact noneIn_of_findOpen ‹_›
  · exact noneIn_modify (.inl rfl) hs ‹_› fun _ => nofun

theorem Sound.pushSeam (s : State) (l : LineId) (e : SeamEntry) : Sound s (s.pushSeam l e) := by
  unfold State.pushSeam
  split
  · exact .setSeams s l fun _ => by simp
  · rename_i old rest hq
    split
    · rename_i hlt
      exact .setSeams s l fun _ => by simpa [Config.seamCap] using hlt
    · have hset : Sound s (s.setSeams l (rest ++ [e])) := .setSeams s l fun h => by rw [hq] at h; simpa using h
      exact (hset.trans (.anomaly _ _ _ _ _)).trans (TableStep.suspectEntry _ _).sound

theorem Sound.enterSeam (s : State) (l : LineId) (p : Nat) (t : Time) (n : Nat) (c : Option Record) :
    Sound s (s.enterSeam l p t n c) :=
  ((((TableStep.sourceLookup _ _).sound.trans (.pushSeam _ _ _)).trans (.setLastSeamIn _ _ _)).trans
    (TableStep.markIf _ _ _).sound)

/-- An accepted SEAM_IN keeps every bound: the line's LOADING record is closed before another opens (R41). -/
theorem Sound.acceptSeamIn (s : State) (l : LineId) (p : Nat) (t : Time) : Sound s (s.acceptSeamIn l p t).1 :=
  ((TableStep.closeLoading s (s.findOpen l .loading) p t).sound.openRecord (k := .entry)
    (fun hs => closeLoading_noneIn hs l p t) p t).trans (.enterSeam _ _ _ _ _ _)

theorem Sound.closeExitOpen (s : State) (l : LineId) (p : Nat) : Sound s (s.closeExitOpen l p).1 := by
  have drop : Sound s (s.setThrough l (s.line l).through.dropLast) :=
    .setThrough s l fun h => by rw [List.length_dropLast]; omega
  unfold State.closeExitOpen
  split
  · exact .refl s
  · split
    · exact drop
    · split
      · exact .refl s
      · split
        · exact drop
        · exact (TableStep.endExitSpan _ _ _ _).sound

theorem Sound.pushThrough (s : State) (l : LineId) (n p : Nat) : Sound s (s.pushThrough l n p) := by
  unfold State.pushThrough
  split
  · exact .setThrough s l fun _ => by simp
  · rename_i old rest hq
    split
    · rename_i hlt
      exact .setThrough s l fun _ => by simpa [Config.seamCap] using hlt
    · have hset : Sound s (s.setThrough l (rest ++ [n])) := .setThrough s l fun h => by rw [hq] at h; simpa using h
      exact hset.trans (.anomaly _ _ _ _ _)

theorem Sound.startExitSpan (s : State) (l : LineId) (n p : Nat) : Sound s (s.startExitSpan l n p).1 := by
  unfold State.startExitSpan
  split
  · exact .refl s
  · split
    · exact .refl s
    · exact (TableStep.modify _ _ (Record.closing_startExit p)).sound.trans (.pushThrough _ _ _ _)

theorem Sound.acceptExitSeam (s : State) (l : LineId) (p : Nat) : Sound s (s.acceptExitSeam l p).1 := by
  unfold State.acceptExitSeam
  split
  · exact (Sound.anomaly _ _ _ _ _).trans (.setLastExitSeam _ _ _)
  · rename_i e rest hq
    have hset : Sound s (s.setSeams l rest) := .setSeams s l fun h => by rw [hq, List.length_cons] at h; omega
    exact ((hset.trans (.closeExitOpen _ _ _)).trans (.startExitSpan _ _ _ _)).trans (.setLastExitSeam _ _ _)

/-- A cut keeps no more of the through list than it held (R47). -/
theorem buildCut_keep (t : CoilTable) (w lo e : Nat) (through : List Nat) :
    (buildCut t w lo e through).keep.length ≤ through.length := by
  have visit : ∀ (ns : List Nat) (c : Cut), (ns.foldl (cutVisit t w lo e) c).keep.length ≤ c.keep.length + ns.length := by
    intro ns
    induction ns with
    | nil => intro c; exact Nat.le_refl _
    | cons n rest ih =>
      intro c
      have one : (cutVisit t w lo e c n).keep.length ≤ c.keep.length + 1 := by
        unfold cutVisit Cut.note
        dsimp only
        repeat' split
        all_goals simp
      have := ih (cutVisit t w lo e c n)
      simp only [List.foldl_cons, List.length_cons]
      omega
  simpa [buildCut] using visit through { segments := [], keep := [], codes := [] }

/-- What a cut does after the record is CUT opens no record (R46 to R48). -/
theorem Thins.cutTail (s : State) (l : LineId) (ns : List Nat) (p n : Nat) (codes : List AnomalyCode) (w : Record) (m : Nat) :
    Thins s ((((s.setThrough l ns).cutAnomalies l p n codes).mapRecord w).settleCheck m) :=
  (((Thins.of_eq (setLine_table _ _ _).1).trans (TableStep.cutAnomalies _ _ _ _ _).2).trans (TableStep.mapRecord _ _).2).trans
    (TableStep.settleCheck _ _).2

theorem Sound.cutRecord (s : State) (l : LineId) (w : Record) (p : Nat) (t : Time) : Sound s (s.cutRecord l w p t) := by
  have hcut := (TableStep.modify s w.serial (Record.closing_cutAt p t
    (buildCut s.track.table w.serial w.start p (s.line l).through).segments
    (!(buildCut s.track.table w.serial w.start p (s.line l).through).codes.isEmpty))).sound
  refine (((hcut.trans (.setThrough _ l fun h => ?_)).trans (TableStep.cutAnomalies _ _ _ _ _).sound).trans
    (TableStep.mapRecord _ _).sound).trans (TableStep.settleCheck _ _).sound
  exact Nat.le_trans (buildCut_keep _ _ _ _ _) h

theorem Sound.cutWinding (s : State) (l : LineId) (c : Option Record) (p : Nat) (t : Time) :
    Sound s (s.cutWinding l c p t) := by
  unfold State.cutWinding
  split
  · exact .refl s
  · exact .cutRecord _ _ _ _ _

theorem cutWinding_noneIn {s : State} (hs : s.CoilsOk) (l : LineId) (p : Nat) (t : Time) :
    (s.cutWinding l (s.findOpen l .winding) p t).NoneIn l .winding := by
  unfold State.cutWinding
  split
  · exact noneIn_of_findOpen ‹_›
  · exact (noneIn_modify (.inr rfl) hs ‹_› fun _ h => nomatch (h : RecordState.cut = .winding)).thins (.cutTail _ _ _ _ _ _ _ _) (.inr rfl)

/-- An accepted SHEAR keeps every bound: the line's WINDING record is cut before another opens (R46). -/
theorem Sound.acceptShear (s : State) (l : LineId) (p : Nat) (t : Time) : Sound s (s.acceptShear l p t).1 :=
  (((Sound.cutWinding s l (s.findOpen l .winding) p t).openRecord (k := .exit)
    (fun hs => cutWinding_noneIn hs l p t) p t).trans (.setLastShear _ _ _)).trans (TableStep.markIf _ _ _).sound

/-! ## Captures, pulses and the time base (chapters 1 and 2) -/

theorem Sound.seamInEvent (s : State) (l : LineId) (p : Nat) (t : Time) : Sound s (s.seamInEvent l p t) := by
  unfold State.seamInEvent
  split
  · exact .acceptSeamIn _ _ _ _
  · exact .anomaly _ _ _ _ _

theorem Sound.exitSeamEvent (s : State) (l : LineId) (p : Nat) : Sound s (s.exitSeamEvent l p) := by
  unfold State.exitSeamEvent
  split
  · exact .acceptExitSeam _ _ _
  · exact .anomaly _ _ _ _ _

theorem Sound.shearEvent (s : State) (l : LineId) (p : Nat) (t : Time) : Sound s (s.shearEvent l p t) := by
  unfold State.shearEvent
  split
  · exact .acceptShear _ _ _ _
  · exact .anomaly _ _ _ _ _

theorem Sound.matchEvent (s : State) (l : LineId) (k : Fin 3) (m : Nat) : Sound s (s.matchEvent l k m) := by
  unfold State.matchEvent
  split
  · exact .exitSeamEvent _ _ _
  · exact (TableStep.tagEvent _ _ _ _).sound

theorem Sound.judgeHole (s : State) (l : LineId) (ps : List Nat) (al : List (Fin 3)) (p : Nat) (d : Int) :
    Sound s (s.judgeHole l ps al p d) := by
  unfold State.judgeHole
  dsimp only
  split
  · exact (Sound.anomaly _ _ _ _ _).trans (.setMatcher _ _ _)
  · split
    · exact .setMatcher _ _ _
    · exact (Sound.setMatcher _ _ _).trans (.matchEvent _ _ _ _)

theorem Sound.holeEvent (s : State) (l : LineId) (p : Nat) : Sound s (s.holeEvent l p) := by
  unfold State.holeEvent
  dsimp only
  split
  · exact .setMatcher _ _ _
  · split
    · exact .setMatcher _ _ _
    · exact .judgeHole _ _ _ _ _ _
  · split
    · exact .refl s
    · exact .setMatcher _ _ _

theorem Sound.capture (s : State) (l : LineId) (i : MarkerInput) (p : Nat) (t : Time) : Sound s (s.capture l i p t) := by
  cases i
  · exact .seamInEvent _ _ _ _
  · exact .holeEvent _ _ _
  · exact .shearEvent _ _ _ _

theorem Sound.matcherMoved (s : State) (l : LineId) (f : Bool) : Sound s (s.matcherMoved l f) := by
  unfold State.matcherMoved
  dsimp only
  split
  · split
    · split
      · exact .setMatcher _ _ _
      · exact .refl s
    · exact .refl s
  · exact .setMatcher _ _ _

/-- A marker input replaced: nothing of its line that is bounded changes (R17). -/
theorem Sound.setMarker (s : State) (l : LineId) (i : MarkerInput) (m : Marker) :
    Sound s (s.setLine l ((s.line l).setMarker i m)) := by cases i <;> exact .setLine s l id id

theorem Sound.completeChange (s : State) (l : LineId) (i : MarkerInput) : Sound s (s.completeChange l i) := by
  unfold State.completeChange
  dsimp only
  split
  · exact .refl s
  · split
    · exact (Sound.setMarker _ _ _ _).trans (.capture _ _ _ _ _)
    · exact .setMarker _ _ _ _

theorem Sound.completeDue (s : State) (l : LineId) (i : MarkerInput) : Sound s (s.completeDue l i) := by
  unfold State.completeDue
  split
  · exact .refl s
  · split
    · exact .completeChange _ _ _
    · exact .refl s

theorem Sound.rawTransition (s : State) (l : LineId) (i : MarkerInput) : Sound s (s.rawTransition l i) := by
  unfold State.rawTransition
  split
  · exact .setMarker _ _ _ _
  · exact (Sound.setMarker _ _ _ _).trans (.completeDue _ _ _)

theorem Sound.completeAllDue (s : State) : Sound s s.completeAllDue :=
  .foldl _ (fun u l => .foldl _ (fun v i => .completeDue v l i) _ u) _ s

theorem Sound.completePeriod (s : State) : Sound s s.completePeriod := by
  unfold State.completePeriod
  split
  · have reset : Sound s { s with path.periodCount := 0 } := .of_eq rfl rfl rfl rfl rfl rfl rfl rfl rfl rfl
    exact reset.trans (.foldl _ (fun u l => .mark u (lineGroup l)) allLines _)
  · exact .refl s

theorem Sound.advanceTime (s : State) : Sound s s.advanceTime := by
  have clock : Sound s s.tickClock := .of_eq rfl rfl rfl rfl rfl rfl rfl rfl rfl rfl
  have markers : Sound s.tickClock s.tickClock.tickMarkers :=
    .foldl (fun acc l => acc.setLine l (acc.line l).tick) (fun u l => Sound.setLine u l id id) allLines _
  refine (clock.trans markers).trans ?_
  show Sound s.tickClock.tickMarkers s.tickClock.tickMarkers.tickPeriod
  generalize s.tickClock.tickMarkers = u
  unfold State.tickPeriod
  split
  · exact .of_eq rfl rfl rfl rfl rfl rfl rfl rfl rfl rfl
  · exact .refl u

/-- A side replaced by one whose counter stays within its range (R1). -/
theorem Sound.setSide (s : State) (l : LineId) (sd : Side) {u : SideUnit}
    (h : ((s.line l).side sd).counter ≤ 281474976710655 → u.counter ≤ 281474976710655) :
    Sound s (s.setLine l ((s.line l).setSide sd u)) := by
  cases sd
  · exact .setLine s l id fun hc => ⟨h hc.1, hc.2⟩
  · exact .setLine s l id fun hc => ⟨hc.1, h hc.2⟩

/-- A step leaves the counter from 0 to 2^48 − 1 (R5). -/
theorem SideUnit.step_counter (u : SideUnit) (h : u.counter ≤ 281474976710655) : u.step.counter ≤ 281474976710655 := by
  unfold SideUnit.step
  split
  · show u.stepped ≤ _
    unfold SideUnit.stepped maxPos
    split <;> omega
  · exact h

theorem Sound.positionChange (s : State) (l : LineId) (sd : Side) (f : Bool) : Sound s (s.positionChange l sd f) := by
  cases sd
  · exact .seal _ _
  · exact (Sound.matcherMoved _ _ _).trans (.seal _ _)

theorem Sound.countPulse (s : State) (l : LineId) (sd : Side) : Sound s (s.countPulse l sd) := by
  have hstep : Sound s (s.setLine l ((s.line l).setSide sd ((s.line l).side sd).step)) :=
    .setSide s l sd (SideUnit.step_counter _)
  unfold State.countPulse
  dsimp only
  split
  · exact .setSide s l sd id
  · split
    · exact hstep.trans (.positionChange _ _ _ _)
    · split
      · exact hstep
      · exact hstep.trans (.anomaly _ _ _ _ _)

end Sys2Proof.Machine
end

section
/-! PROOF. A take keeps every bound: what the directive of each code does, and how its result is placed (chapter 9). -/

namespace Sys2Proof.Machine

/-! ## Takes (chapter 9) -/

/-- A change outside the bounds' fields but for the bookkeeping queue, which stays within its places (R142). -/
theorem TakeFrame.sound {s t : State} (h : TakeFrame s t) (ht : t.track = s.track)
    (hs : t.path.stations = s.path.stations) : Sound s t := by
  have hr := h.port.2.2.2.1
  exact .of_parts (fun ⟨h1, h2, h3⟩ => ⟨h.keeps.backlog h1, h.room h2, by rw [hr]; exact h3⟩) h.keeps.flags (by rw [ht]) hs
    (by rw [ht])

theorem Sound.beginDirective (s : State) (k : Fin 16) : Sound s (s.beginDirective k) :=
  (TakeFrame.begin s k).sound rfl rfl

theorem Sound.answerWith (s : State) (k : Fin 16) (r : Option Reason) (a : List Word) : Sound s (s.answerWith k r a) := by
  have h := Offered.offerAnswer k (resultBursts s.base k a (statusWord (s.slot k).tag r a.length)) s
  have hframe := TakeFrame.answerWith s k r a
  unfold State.answerWith at hframe ⊢
  generalize State.offerAnswer k _ s = t at h hframe ⊢
  exact hframe.sound (by rw [h.part]) (by rw [h.path, unitPath])

theorem Sound.withPrep (s : State) (q : List (Fin 8)) : Sound s { s with path.prepQueue := q } :=
  .of_eq rfl rfl rfl rfl rfl rfl rfl rfl rfl rfl

theorem Sound.withWaits (s : State) (q : List Waiter) : Sound s { s with path.waitList := q } :=
  .of_eq rfl rfl rfl rfl rfl rfl rfl rfl rfl rfl

theorem Sound.setCursor (s : State) (k : Fin 8) (c : Cursor) : Sound s (s.setCursor k c) :=
  .of_eq (by simp) (by simp) (by simp) (by simp) (by simp) (by simp) (by simp) (by simp) (by simp) (by simp)

theorem Sound.setJournal (s : State) (j : Option JournalSetting) : Sound s (s.setJournal j) :=
  .of_eq (by simp) (by simp) (by simp) (by simp) (by simp) (by simp) (by simp) (by simp) (by simp) (by simp)

theorem Sound.setUnit (s : State) (u : UnitState) : Sound s (s.setUnit u) :=
  .of_eq rfl rfl rfl rfl rfl rfl rfl rfl rfl rfl

/-- A station that leaves LIVE, or does not enter it, with its definition as it was (R86, R90). -/
theorem Sound.setNotLive (s : State) (i : Fin 8) {x : StationState} (hx : ∀ d, x ≠ .live d) :
    Sound s (s.setStation i { s.station i with state := x }) :=
  .setStation s i (fun _ d hd => absurd hd (hx d)) fun hs => hs i

theorem Sound.setIncarnation (s : State) (i : Fin 8) (n : Word) :
    Sound s (s.setStation i { s.station i with incarnation := n }) :=
  .setStation s i (fun hs => hs i) fun hs => hs i

theorem Sound.beginPreparation (s : State) (i : Fin 8) : Sound s (s.beginPreparation i) :=
  (Sound.withPrep s _).trans (.setNotLive { s with path.prepQueue := s.path.prepQueue ++ [i] } i (x := .preparing 0) fun _ h => nomatch h)

theorem Sound.stopPreparing (s : State) (i : Fin 8) : Sound s (s.stopPreparing i) :=
  ((Sound.withPrep s _).trans (.setNotLive { s with path.prepQueue := s.path.prepQueue.filter fun j => j != i } i
    (x := .off) fun _ h => nomatch h)).trans
    (.mark _ _)

theorem Sound.stopLive (s : State) (i : Fin 8) : Sound s (s.stopLive i) :=
  (((Sound.withWaits s _).trans
    (.setNotLive { s with path.waitList := s.path.waitList.filter fun w => w != Waiter.sealing i } i
      (x := .off) fun _ h => nomatch h)).trans
      (.mark _ _)).trans (TableStep.settleStation _ _).sound

/-- Flags are cleared: none is set where none stands (R171). -/
theorem Sound.clearFlags (s : State) (set : Word) : Sound s (s.clearFlags set) :=
  .of_parts id (fun ⟨h1, h2, h3, h4⟩ => ⟨and_and_not h1, and_and_not h2, h3, h4⟩) rfl rfl rfl

theorem TableStep.judgeBacklog (s : State) : TableStep s s.judgeBacklog :=
  ⟨.judgeBacklog s, .of_eq (State.judgeBacklog_rest s).1⟩

theorem TableStep.rejudge (s : State) (set : Word) : TableStep s (s.rejudge set) := by
  have h : TableStep s (if set &&& TrackFlag.announceEmpty.bit ≠ 0 then s.judgeAnnounce else s) := by
    split
    · exact .judgeAnnounce s
    · exact .refl s
  unfold State.rejudge
  dsimp only
  split
  · exact h.trans (.judgeBacklog _)
  · exact h

/-- Every line's collections are emptied (R54). -/
theorem Sound.clearLine (s : State) (l : LineId) : Sound s (s.setLine l (s.line l).cleared).judgeAnnounce := by
  have h : Sound s (s.setLine l (s.line l).cleared) :=
    .setLine s l (fun _ => by simp [Line.ListsOk, Line.cleared]) id
  exact h.trans (TableStep.judgeAnnounce _).sound

theorem Sound.setContents (s : State) (l : LineId) {ln : Line} (h : (s.line l).SameContents ln) :
    Sound s (s.setLine l ln) := by
  obtain ⟨h1, h2, h3, h4, h5, h6⟩ := h
  refine .setLine s l (fun hl => ?_) fun hc => ?_
  · unfold Line.ListsOk; rw [h1, h2, h3, h4]; exact hl
  · unfold Line.CountersOk; rw [h5, h6]; exact hc

theorem Sound.drawn (s : State) : Sound s s.drawn := .of_eq rfl rfl rfl rfl rfl rfl rfl rfl rfl rfl

/-- A directive keeps every bound (R157). -/
theorem DirectiveEffect.sound {s t : State} (h : DirectiveEffect s t) : Sound s t := by
  cases h with
  | none => exact .refl s
  | drawn => exact .drawn s
  | line l ln h => exact (Sound.setContents s l h).trans (.mark _ _)
  | tracking l ln h => exact ((Sound.setContents s l h).trans (.mark _ _)).trans (TableStep.judgeAnnounce _).sound
  | cleared l ns =>
    exact (Sound.foldl (fun acc n => State.forceSettle acc n) (fun u n => (TableStep.forceSettle u n).sound) ns s).trans
      (.clearLine _ l)
  | clock t =>
    have hclock : Sound s { s with track.clock := t } := .of_eq rfl rfl rfl rfl rfl rfl rfl rfl rfl rfl
    exact hclock.trans (.mark _ 0)
  | announced l kind n hn hl =>
    refine .setQueue s l kind fun ⟨h1, h2⟩ => ⟨by simp only [List.length_append, List.length_singleton]; omega, ?_⟩
    exact h2.append (List.nodup_singleton n) (by simpa using hn)
  | withdrawn l kind n =>
    exact .setQueue s l kind fun ⟨h1, h2⟩ => ⟨Nat.le_trans List.erase_sublist.length_le h1, h2.erase n⟩
  | seamIn l p t => exact .acceptSeamIn _ _ _ _
  | exitSeam l p => exact .acceptExitSeam _ _ _
  | shear l p t => exact .acceptShear _ _ _ _
  | named n number => exact (TableStep.modify _ _ (Record.closing_named number)).sound
  | namedEntry n number =>
    exact ((TableStep.modify _ _ (Record.closing_named number)).trans (.sourceLookup _ _)).sound
  | namedExit n number => exact ((TableStep.modify _ _ (Record.closing_named number)).trans (.mapWrite _ _ _)).sound
  | defined i w off h =>
    refine (Sound.setStation s i (fun _ d hd => ?_) fun _ d hd => ?_).trans (.mark _ _)
    · rw [off] at hd; exact nomatch hd
    · cases hd; exact stationDef_inRange h
  | verdict i chain off => exact .setStation s i (fun hs => hs i) fun hs => hs i
  | prepare i n off => exact (Sound.setIncarnation s i n).trans (.beginPreparation _ _)
  | adopt i n off => exact (Sound.setIncarnation s i n).trans (.enterLive _ _)
  | stopPreparing i => exact .stopPreparing s i
  | stopLive i => exact .stopLive s i
  | cursor k c => exact .setCursor s k c
  | refreshed k c => exact (Sound.setCursor s k c).trans (.mark _ _)
  | journal j => exact .setJournal s j
  | acknowledged set => exact ((Sound.clearFlags s set).trans (TableStep.rejudge _ _).sound).trans (.mark _ _)
  | masks a f ha hf =>
    exact .of_parts id (fun ⟨h1, h2, _, _⟩ => ⟨h1, h2, ha, hf⟩) rfl rfl rfl
  | period p => exact .of_eq rfl rfl rfl rfl rfl rfl rfl rfl rfl rfl

theorem Sound.takeCode {s : State} {k : Fin 16} (h : s.headSlot = some k) :
    Sound s (s.takeCode (s.slot k).code.toNat) := by
  rcases takeCode_cases h with ⟨u, r, a, hu, -, he⟩ | ⟨target, kind, he⟩
  · rw [he]
    exact ((Sound.beginDirective s k).trans hu.sound).trans (.answerWith _ _ _ _)
  · rw [he]
    exact (Sound.beginDirective s k).trans (.setUnit _ _)

theorem Sound.takeDue (s : State) : Sound s s.takeDue :=
  takeDue_keeps (P := Sound s) (fun _ _ hk h => h.trans (.takeCode hk)) (.refl s)

end Sys2Proof.Machine
end

section
/-! PROOF. What the P-side, the M-side, the engines and the power wells keep, and with it every step: the bounds (R1, R35,
R36, R81, R82, R139, R142, R163, R172) and the form of the coil table (R41, R46, R56). -/

namespace Sys2Proof.Machine

/-! ## The P-side (chapter 8) -/

theorem Sound.setSlot (s : State) (k : Fin 16) (sl : Slot) : Sound s (s.setSlot k sl) :=
  .of_eq rfl rfl rfl rfl rfl rfl rfl rfl rfl rfl

theorem Sound.queueSlot (s : State) (k : Fin 16) (w : Word) : Sound s (s.queueSlot k w) :=
  .of_eq rfl rfl rfl rfl rfl rfl rfl rfl rfl rfl

theorem Sound.goWord (s : State) (k : Fin 16) (x : Lane) : Sound s (s.goWord k x) := by
  unfold State.goWord
  split
  · exact .raisePath _ _
  · split
    · exact .refl s
    · exact .queueSlot _ _ _

theorem Sound.slotWord (s : State) (k : Fin 16) (w : Nat) (x : Lane) : Sound s (s.slotWord k w x) := by
  unfold State.slotWord
  split
  · exact .refl s
  · split
    · exact .goWord _ _ _
    · split
      · exact .raisePath _ _
      · split
        · exact .setSlot _ _ _
        · exact .refl s

theorem Sound.slotWords (k : Fin 16) (w : Nat) (xs : List Lane) (s : State) : Sound s (State.slotWords k w xs s) := by
  induction xs generalizing w s with
  | nil => exact .refl s
  | cons x rest ih => exact (Sound.slotWord s k w x).trans (ih _ _)

theorem Sound.discard (s : State) (i : Fin 8) (f : PathFlag) : Sound s (s.discard i f) := by
  have count : Sound s (s.setStation i { s.station i with discarded := satAdd (s.station i).discarded 1 }) :=
    .setStation s i (fun hs => hs i) fun hs => hs i
  exact count.trans (.raisePath _ _)

/-- The bin that a forced seal frees lies below the one it is freed for, and the sealed bin stays below it (R93, log 12). -/
theorem makePlace_sealedBin {s : State} {i : Fin 8} {d : LiveData} {b : Nat} (hs : s.BinsOk)
    (hd : (s.station i).state = .live d) (hb : d.sealedBin < (b : Int)) (hc : s.canOpen i d b = true) :
    ∀ d', ((s.makePlace i d b).station i).state = .live d' → d'.sealedBin < (b : Int) := by
  intro d' hd'
  unfold State.makePlace at hd'
  split at hd'
  · rw [hd] at hd'
    cases hd'
    exact hb
  · rename_i hno
    split at hd'
    · rw [hd] at hd'
      cases hd'
      exact hb
    · rename_i x hv
      obtain ⟨d'', h1, -, hle⟩ := State.sealBins_ok x true d.bins hd rfl (hs i d hd)
      rw [h1] at hd'
      cases hd'
      have hx := ((canOpen_victim (by simpa using hno) hv).1 hc).1
      omega

/-- A word is recorded in a bin above the sealed bin (R94). -/
theorem Sound.record {r s : State} (hr : Sound r s) {i : Fin 8} {b : Nat} (c : Nat) (v : Word)
    (hb : r.BinsOk → ∀ d, (s.station i).state = .live d → d.sealedBin < (b : Int)) : Sound r (s.record i b c v) := by
  unfold State.record
  split
  · exact hr
  · rename_i d hd
    have hd := Station.live?_eq.1 hd
    refine hr.andStation i (fun h d' hd' => ?_) fun h => hr.defs h i
    cases hd'
    refine ⟨tableWf_tableSet (hr.bins h i d hd).1, fun e he => ?_⟩
    rcases mem_tableSet he with rfl | he
    · exact hb h d hd
    · exact (hr.bins h i d hd).2 e he

theorem Sound.makePlace {s : State} {i : Fin 8} {d : LiveData} (hd : (s.station i).state = .live d) (b : Nat) :
    Sound s (s.makePlace i d b) := by
  unfold State.makePlace
  split
  · exact .refl s
  · split
    · exact .refl s
    · exact .sealBins s i _ _ hd

/-- One word of an intake burst keeps every bound (R91 to R95). -/
theorem Sound.intakeWord (i : Fin 8) (R : Nat) (run : IntakeRun) (w : Nat) (x : Lane) :
    Sound run.state (run.word i R w x).state := by
  unfold IntakeRun.word
  dsimp only
  split
  · exact .refl _
  · split
    · exact .discard _ _ _
    · split
      · exact .discard _ _ _
      · rename_i d hd
        have hd := Station.live?_eq.1 hd
        unfold IntakeRun.channel
        dsimp only
        split
        · exact .discard _ _ _
        · split
          · exact .discard _ _ _
          · rename_i hb
            unfold IntakeRun.place
            split
            · rename_i hc
              exact (Sound.makePlace hd _).record _ _ fun hs => makePlace_sealedBin hs hd (by omega) hc
            · exact .discard _ _ _

theorem Sound.intakeWords (i : Fin 8) (R w : Nat) (xs : List Lane) (run : IntakeRun) :
    Sound run.state (intakeWords i R w xs run).state := by
  induction xs generalizing w run with
  | nil => exact .refl _
  | cons x rest ih => exact (Sound.intakeWord i R run w x).trans (ih _ _)

/-- Requests appended to the memory request queue, which has room for them (R138, R139). -/
theorem Sound.request {r s : State} (hr : Sound r s) {rs : List Request}
    (h : r.QueuesOk → (s.request rs).path.requests.length ≤ 32) : Sound r (s.request rs) := by
  have hout : Sound r s → ∀ q : r.QueuesOk, (s.request rs).QueuesOk := fun hr q =>
    ⟨(hr.queues q).1, (hr.queues q).2.1, h q⟩
  exact ⟨hout hr, hr.lines, hr.counters, hr.flags, hr.bins, hr.defs, hr.coils⟩

theorem Sound.holdPort (s : State) (h : HeldRead) : Sound s (s.holdPort h) :=
  .of_eq rfl rfl rfl rfl rfl rfl rfl rfl rfl rfl

theorem Sound.releasePort (s : State) : Sound s s.releasePort := .of_eq rfl rfl rfl rfl rfl rfl rfl rfl rfl rfl

theorem Sound.returnData (s : State) (ws : List Word) : Sound s (s.returnData ws) :=
  .of_eq rfl rfl rfl rfl rfl rfl rfl rfl rfl rfl

theorem Sound.setPresented (s : State) (ts : List Transaction) : Sound s (s.setPresented ts) :=
  .of_eq rfl rfl rfl rfl rfl rfl rfl rfl rfl rfl

theorem Sound.acceptWriteAt {s : State} (b : WriteBurst) (a : AreaPart)
    (h : s.path.requests.length + writeEntries b.words a ≤ 32) : Sound s (s.acceptWriteAt b a) := by
  have hfit := Nat.le_trans (State.acceptWriteAt_requests s b a) h
  unfold State.acceptWriteAt at hfit ⊢
  split at hfit
  · exact (Sound.slotWords _ _ _ s).request fun _ => hfit
  · exact (Sound.intakeWords _ _ _ _ { state := s, recorded := [] }).request fun _ => hfit
  · exact (Sound.refl s).request fun _ => hfit

theorem Sound.acceptReadAt {s : State} (b : ReadBurst) (a : AreaPart)
    (h : s.path.requests.length + readEntries a ≤ 32) : Sound s (s.acceptReadAt b a) := by
  have hfit := Nat.le_trans (State.acceptReadAt_requests s b a) h
  unfold State.acceptReadAt at hfit ⊢
  split at hfit
  · unfold State.acceptAperture at hfit ⊢
    dsimp only at hfit ⊢
    split at hfit
    · exact .returnData _ _
    · exact .returnData _ _
    · exact ((Sound.refl s).request fun _ => hfit).trans (.holdPort _ _)
  · exact ((Sound.refl s).request fun _ => hfit).trans (.holdPort _ _)

/-- A transaction that the port can accept is accepted within every bound (R135, R138). -/
theorem Sound.accept {s : State} {t : Transaction} (h : s.accepts t = true) : Sound s (s.accept t) := by
  unfold State.accepts at h
  simp only [Bool.and_eq_true, Config.requestCap] at h
  have hfit := of_decide_eq_true h.2
  cases t with
  | write b => exact .acceptWriteAt b _ hfit
  | read b => exact .acceptReadAt b _ hfit

theorem Sound.letInList (ts : List Transaction) (s : State) : Sound s (State.letInList ts s) := by
  induction ts generalizing s with
  | nil => exact .refl s
  | cons t rest ih =>
    simp only [State.letInList]
    split
    · rename_i h
      exact ((Sound.takeDue s).trans (.accept ((State.accepts_takeDue s t).trans h))).trans (ih _)
    · exact .setPresented _ _

theorem Sound.letIn (s : State) : Sound s s.letIn := (Sound.setPresented s []).trans (.letInList _ _)

theorem Sound.present (s : State) (t : Transaction) : Sound s (s.present t) :=
  (Sound.setPresented s []).trans (.letInList _ _)

theorem Sound.returnPassThrough (s : State) : Sound s s.returnPassThrough := by
  unfold State.returnPassThrough
  split
  · exact ((Sound.returnData _ _).trans (.releasePort _)).trans (.letIn _)
  · exact .refl s

theorem Sound.returnAperture (s : State) : Sound s s.returnAperture := by
  unfold State.returnAperture
  split
  · split
    · exact ((Sound.returnData _ _).trans (.releasePort _)).trans (.letIn _)
    · exact .refl s
  · exact .refl s

/-! ## The engines (chapters 4, 7 and 10) -/

theorem Sound.wait (s : State) (w : Waiter) : Sound s (s.wait w) := .withWaits s _

/-- An entry leaves the backlog, or a burst of it has been written (R165). -/
theorem Sound.journalAppended (s : State) : Sound s s.journalAppended := by
  unfold State.journalAppended
  dsimp only
  split
  · exact .of_eq rfl rfl rfl rfl rfl rfl rfl rfl rfl rfl
  · unfold State.entryWritten
    dsimp only
    refine Sound.trans ?_ (TableStep.judgeBacklog _).sound
    refine .of_parts (fun ⟨h1, h2, h3⟩ => ⟨?_, h2, h3⟩) id rfl rfl rfl
    show s.track.backlog.tail.length ≤ 128
    rw [List.length_tail]
    omega

theorem Sound.journalOffer (n : Nat) (s : State) : Sound s (State.journalOffer n s) := by
  induction n generalizing s with
  | zero => exact .refl s
  | succ n ih =>
    simp only [State.journalOffer]
    split
    · split
      · exact .refl s
      · rename_i b _
        split
        · rename_i hc
          have h := ((Sound.refl s).append (fun _ => State.canAppend_lt hc) b).trans (.journalAppended _)
          split
          · exact h.trans (ih _)
          · exact h
        · exact .wait _ _
    · exact .refl s

theorem Sound.journalBegin (s : State) : Sound s s.journalBegin := by
  unfold State.journalBegin
  split
  · exact .journalOffer _ _
  · exact .refl s

theorem Sound.journalResume (s : State) : Sound s s.journalResume := by
  unfold State.journalResume
  split
  · exact .journalOffer _ _
  · exact .refl s

theorem Sound.offer (s : State) (b : WriteBurst) (w : Waiter) : Sound s (s.offer b w) := by
  unfold State.offer
  split
  · exact (Sound.refl s).append (fun _ => State.canAppend_lt ‹_›) b
  · exact .wait _ _

theorem Sound.mirrorTurn (s : State) : Sound s s.mirrorTurn := by
  unfold State.mirrorTurn
  split
  · split
    · exact .refl s
    · rename_i g _
      have take : Sound s (s.takeGroup g) := .of_eq rfl rfl rfl rfl rfl rfl rfl rfl rfl rfl
      exact take.trans (.offer _ _ _)
  · exact .refl s

theorem Sound.turn (s : State) (k : Fin 8) : Sound s (s.turn k) := by
  unfold State.turn
  split
  · dsimp only
    split
    · exact (Sound.setCursor _ _ _).trans (.raisePath _ _)
    · exact .setCursor _ _ _
  · exact .refl s

theorem Sound.resolverTurn (s : State) : Sound s s.resolverTurn := by
  unfold State.resolverTurn
  split
  · exact .refl s
  · rename_i k _
    have look : Sound s { s with path.resolverMark := k } := .of_eq rfl rfl rfl rfl rfl rfl rfl rfl rfl rfl
    exact look.trans (.turn _ _)

theorem Sound.scanVisit (s : State) : Sound s s.scanVisit := by
  unfold State.scanVisit
  split
  · split
    · split
      · exact .answerWith _ _ _ _
      · split
        · exact .answerWith _ _ _ _
        · exact .setUnit _ _
    · split
      · exact .answerWith _ _ _ _
      · exact .setUnit _ _
  · exact .refl s

/-! ## The M-side (8.5 and 8.6 of 08) -/

theorem Sound.offerAnswer (k : Fin 16) (bs : List WriteBurst) (s : State) : Sound s (State.offerAnswer k bs s) := by
  induction bs generalizing s with
  | nil =>
    have idle : Sound s ((s.setSlot k { s.slot k with state := .idle }).mark 0) := (Sound.setSlot _ _ _).trans (.mark _ _)
    exact (idle.trans (.raisePath _ _)).trans (.setUnit _ _)
  | cons b rest ih =>
    simp only [State.offerAnswer]
    split
    · exact ((Sound.refl s).append (fun _ => State.canAppend_lt ‹_›) b).trans (ih _)
    · exact (Sound.setUnit _ _).trans (.wait _ _)

theorem Sound.resumeAnswer (s : State) : Sound s s.resumeAnswer := by
  unfold State.resumeAnswer
  split
  · exact .offerAnswer _ _ _
  · exact .refl s

/-- A freed place of the bookkeeping queue is handed on (R143). -/
theorem Sound.handoff {r s : State} (hr : Sound r s) (h : r.QueuesOk → s.path.bookkeeping.length < 64) :
    Sound r s.handoff := by
  have hun : Sound r s.unwait := hr.trans (.withWaits s _)
  unfold State.handoff
  split
  · exact hr
  · exact hun.resumeSealing h _
  · exact ((hun.append h _).trans (.journalAppended _)).trans (.journalOffer _ _)
  · exact (hun.append h _).trans (.resumeAnswer _)
  · exact (hun.append h _).trans (.mirrorTurn _)

theorem Sound.start (s : State) (m : MBurst) : Sound s (s.start m) := .of_eq rfl rfl rfl rfl rfl rfl rfl rfl rfl rfl

theorem Sound.idleMSide (s : State) : Sound s s.idleMSide := .of_eq rfl rfl rfl rfl rfl rfl rfl rfl rfl rfl

theorem Sound.countGrant (s : State) (c : GrantClass) : Sound s (s.countGrant c) := by
  unfold State.countGrant
  split
  · exact .of_eq rfl rfl rfl rfl rfl rfl rfl rfl rfl rfl
  · exact .refl s

/-- The head of the memory request queue leaves it (R145). -/
theorem Sound.grantP (s : State) : Sound s s.grantP := by
  have head : ∀ {q : Request} {rest : List Request}, s.path.requests = q :: rest →
      Sound s { s with path.requests := rest } := fun hq =>
    .of_parts (fun ⟨h1, h2, h3⟩ => ⟨h1, h2, by rw [hq, List.length_cons] at h3; exact Nat.le_of_succ_le h3⟩) id rfl rfl rfl
  unfold State.grantP
  split
  · exact .refl s
  · exact (head ‹_›).trans (.start _ _)
  · exact (head ‹_›).trans (.start _ _)

/-- The head of the bookkeeping queue leaves it, and its place is handed on (R145, R143). -/
theorem Sound.grantB (s : State) : Sound s s.grantB := by
  unfold State.grantB
  split
  · exact .refl s
  · rename_i e rest hq
    have head : Sound s { s with path.bookkeeping := rest } :=
      .of_parts (fun ⟨h1, h2, h3⟩ => ⟨h1, by rw [hq, List.length_cons] at h2; exact Nat.le_of_succ_le h2, h3⟩) id rfl rfl rfl
    exact (head.trans (.start _ _)).handoff fun ⟨_, h2, _⟩ => by rw [hq, List.length_cons] at h2; exact h2

theorem Sound.fillStep (s : State) (i : Fin 8) : Sound s (s.fillStep i) := by
  unfold State.fillStep
  split
  · rename_i p _
    have step : Sound s (s.setStation i { s.station i with state := .preparing (p + 1) }) :=
      .setNotLive s i fun _ h => nomatch h
    dsimp only
    split
    · exact ((step.trans (.withPrep _ _)).trans (.enterLive _ _)).trans (.raisePath _ _)
    · exact step
  · exact .refl s

theorem Sound.grantF (s : State) : Sound s s.grantF := by
  unfold State.grantF
  split
  · exact .refl s
  · exact (Sound.start _ _).trans (.fillStep _ _)

theorem Sound.grant (s : State) : Sound s s.grant := by
  unfold State.grant
  split
  · exact .refl s
  · rename_i c _
    refine Sound.trans ?_ (.letIn _)
    cases c
    · exact (Sound.countGrant _ _).trans (.grantP _)
    · exact (Sound.countGrant _ _).trans (.grantB _)
    · exact (Sound.countGrant _ _).trans (.grantF _)

theorem Sound.setPath (s : State) (p : PathState) : Sound s (s.setPath p) := .of_eq rfl rfl rfl rfl rfl rfl rfl rfl rfl rfl

theorem Sound.drainCheck (s : State) : Sound s s.drainCheck := by
  unfold State.drainCheck
  split
  · exact .setPath _ _
  · exact .refl s

theorem Sound.completeBurst (s : State) (data : List Word) : Sound s (s.completeBurst data) := by
  unfold State.completeBurst
  split
  · exact .refl s
  · rename_i b _
    split
    · exact .refl s
    · have join : Sound s { s with path.port := s.path.port.map fun (h : HeldRead) => h.receive (data.take b.count) } :=
        .of_eq rfl rfl rfl rfl rfl rfl rfl rfl rfl rfl
      exact (join.trans (.idleMSide _)).trans (.drainCheck _)
  · exact (Sound.idleMSide s).trans (.drainCheck _)

/-! ## The power wells (chapter 11) -/

theorem Sound.setIllegal (s : State) (m : Bool) : Sound s (s.setIllegal m) :=
  .of_eq rfl rfl rfl rfl rfl rfl rfl rfl rfl rfl

theorem Sound.monitor (s : State) : Sound s s.monitor := by
  unfold State.monitor
  split
  · split
    · exact .refl s
    · exact (Sound.anomaly _ _ _ _ _).trans (.setIllegal _ _)
  · exact .setIllegal _ _

theorem Sound.goOn (s : State) : Sound s s.goOn :=
  ((Sound.foldl (fun acc i => acc.seal i) Sound.seal allStations s).trans (.journalResume _)).trans (.letIn _)

theorem Sound.follow (s : State) (sv : ServerState) : Sound s (s.follow sv) := by
  unfold State.follow
  split
  · exact .refl s
  · exact (Sound.setPath _ _).trans (.drainCheck _)
  · exact (Sound.setPath _ _).trans (.goOn _)
  · have all : Sound (s.setPath .opened) (s.setPath .opened).markAll := .of_eq rfl rfl rfl rfl rfl rfl rfl rfl rfl rfl
    exact ((Sound.setPath _ _).trans all).trans (.goOn _)
  · exact .refl s

theorem Sound.decodeLines (s : State) : Sound s s.decodeLines := by
  unfold State.decodeLines
  split
  · have decoded : Sound s { s with path.server := some (decodeServer s.ssa s.ssb) } :=
      .of_eq rfl rfl rfl rfl rfl rfl rfl rfl rfl rfl
    exact decoded.trans (.follow _ _)
  · exact .refl s

theorem no_bits (m : Word) : (0 : Word) &&& m = 0 := BitVec.zero_and

/-- The path well at reset values in some state of the path and the server: nothing in it is out of bounds (R150). -/
theorem Sound.resetWell {s t : State} (straps : BitVec 4) (ps : PathState) (sv : Option ServerState)
    (hp : t.path = { PathWell.reset straps with state := ps, server := sv }) (ht : t.track = s.track) : Sound s t := by
  have hst : ∀ i, t.station i = .reset := fun i => by
    unfold State.station
    rw [hp]
    exact Vector.getElem_replicate ..
  have hline : ∀ l, t.line l = s.line l := fun l => by unfold State.line; rw [ht]
  refine ⟨fun ⟨h1, _, _⟩ => ⟨by rw [ht]; exact h1, by rw [hp]; exact Nat.zero_le _, by rw [hp]; exact Nat.zero_le _⟩,
    fun h l => ?_, fun h l => ?_, fun ⟨h1, _, _, h4⟩ => ?_, fun _ i d hd => ?_, fun _ i d hd => ?_,
    CoilsOk.of_eq (by rw [ht])⟩
  · rw [hline]; exact h l
  · rw [hline]; exact h l
  · unfold State.FlagsOk
    rw [ht, hp]
    exact ⟨h1, no_bits _, no_bits _, h4⟩
  · rw [hst] at hd; exact nomatch hd
  · rw [hst] at hd; exact nomatch hd

theorem Sound.beginPathReset (s : State) : Sound s s.beginPathReset := by
  have reset : Sound s { s with path := .reset s.path.areaSel, presented := [] } :=
    .resetWell s.path.areaSel .down none rfl rfl
  exact reset.trans (.foldl (fun acc i => acc.settleStation i) (fun u i => (TableStep.settleStation u i).sound) _ _)

theorem Sound.beginCause (s : State) (c : ResetCause) : Sound s (s.beginCause c) := by
  cases c <;> exact .of_eq rfl rfl rfl rfl rfl rfl rfl rfl rfl rfl

theorem Sound.endCause (s : State) (c : ResetEnd) : Sound s (s.endCause c) := by
  cases c <;> exact .of_eq rfl rfl rfl rfl rfl rfl rfl rfl rfl rfl

theorem Sound.endIfOver (s : State) (straps : BitVec 4) : Sound s (s.endIfOver straps) := by
  unfold State.endIfOver
  split
  · unfold State.endPathReset
    have reset : Sound s { s with path := { PathWell.reset straps with
        state := pathAfterReset (decodeServer s.ssa s.ssb), server := some (decodeServer s.ssa s.ssb) } } :=
      .resetWell straps _ _ rfl rfl
    exact (reset.trans (.drainCheck _)).trans (.letIn _)
  · exact .refl s

/-- Every command's effect keeps every bound. -/
theorem Sound.effect {c : Instr} {f : State → State} (h : effectOf c = some f) (s : State) : Sound s (f s) := by
  cases c <;> simp only [effectOf, reduceCtorEq, Option.some.injEq] at h <;> subst h
  case pathResetBegin c =>
    dsimp only
    split
    · exact .beginCause _ _
    · exact (Sound.beginCause _ _).trans (.beginPathReset _)
  case pathResetEnd c straps => exact (Sound.endCause _ _).trans (.endIfOver _ _)
  case serverStateChange ssa ssb =>
    have pins : Sound s { s with ssa := ssa, ssb := ssb } := .of_eq rfl rfl rfl rfl rfl rfl rfl rfl rfl rfl
    exact (pins.trans (.monitor _)).trans (.decodeLines _)
  case encoderPulse l sd =>
    dsimp only
    split
    · exact .countPulse _ _ _
    · exact .refl s
  case runLevelChange l level => exact .setLine s l id id
  case directionLevelChange l sd forward => exact .setSide s l sd id
  case timeBaseTick => exact ((Sound.completePeriod s).trans (.advanceTime _)).trans (.completeAllDue _)
  case markerRawTransition l i => exact .rawTransition _ _ _
  case debounceComplete l i => exact .completeDue _ _ _
  case passThroughWrite | directiveSlotWrite | goWord | intakeWrite | passThroughRead | apertureRead => exact .present _ _
  case apertureReadReturn => exact .returnAperture s
  case readDataReturn => exact .returnPassThrough s
  case mSideGrant => exact .grant s
  case mSideBurstComplete data => exact .completeBurst s data
  case journalEntryBegin => exact .journalBegin s
  case mirrorGroupWrite => exact .mirrorTurn s
  case mirrorPeriodComplete => exact .completePeriod s
  case resolverTurn => exact .resolverTurn s
  case descendScanVisit => exact .scanVisit s

/-! ## A cold start and a part without supply (R177, R178) -/

/-- The tracking well at cold-start values and the path well at reset values hold every bound, whatever was before. -/
theorem Sound.cold {s t : State} (lv : Levels) (sel : BitVec 4) (ht : t.track = .cold lv) (hp : t.path = .reset sel) :
    Sound s t := by
  have hst : ∀ i, t.station i = .reset := fun i => by
    unfold State.station
    rw [hp]
    exact Vector.getElem_replicate ..
  have hline : ∀ l, ∃ x, t.line l = .cold x := fun l => by
    unfold State.line
    rw [ht]
    fin_cases l <;> exact ⟨_, rfl⟩
  refine ⟨fun _ => ?_, fun _ l => ?_, fun _ l => ?_, fun _ => ?_, fun _ i d hd => ?_, fun _ i d hd => ?_, fun _ => ?_⟩
  · unfold State.QueuesOk
    rw [ht, hp]
    exact ⟨Nat.zero_le _, Nat.zero_le _, Nat.zero_le _⟩
  · obtain ⟨x, hx⟩ := hline l
    rw [hx]
    simp [Line.cold]
  · obtain ⟨x, hx⟩ := hline l
    rw [hx]
    simp [Line.cold, SideUnit.cold]
  · unfold State.FlagsOk
    rw [ht, hp]
    exact ⟨no_bits _, no_bits _, no_bits _, no_bits _⟩
  · rw [hst] at hd; exact nomatch hd
  · rw [hst] at hd; exact nomatch hd
  · unfold State.CoilsOk State.TableOk State.SerialsOk State.OpenOk
    rw [ht]
    simp [Tracking.cold, CoilTable.records, tableWf]

/-- Every step keeps every bound. -/
theorem step_sound {s t : State} (h : step s = .next t) : Sound s t := by
  refine step_keeps (P := Sound s) (fun u q hu => hu.trans ?_) (fun u lv => ?_) (fun u => ?_)
    (fun u k hk hu => hu.trans (.takeCode hk)) (fun c f u hf _ hu => hu.trans (.effect hf u)) h (.refl s)
  · exact .of_eq rfl rfl rfl rfl rfl rfl rfl rfl rfl rfl
  · have cold : Sound s (u.coldWith lv) := .cold lv 0 rfl rfl
    exact (cold.trans (.monitor _)).trans (.endIfOver _ _)
  · exact .cold Levels.quiet 0 rfl rfl

/-- Settles O57: each operation keeps every bound, and a step is composed of them. -/
theorem everyStepKeepsTheBounds : Obligations.EveryStepKeepsTheBounds := by
  intro s t h
  have hs := step_sound h
  exact ⟨hs.queues, hs.lines, hs.counters, hs.flags, hs.bins, hs.defs⟩

/-- Settles O58: each operation thins the coil table or opens a record where none is open, and a step is composed of them. -/
theorem everyStepKeepsTheTable : Obligations.EveryStepKeepsTheTable := by
  intro s t h
  exact (step_sound h).coils

end Sys2Proof.Machine
end

section
/-! PROOF. The invariants hold in the state after reset: its collections are empty, its stations undefined, its flags clear
(R178). -/

namespace Sys2Proof.Machine

/-- Settles O60: what no invariant reads off an empty collection is read off the reset values of stations and slots. -/
theorem theInvariantsHoldAtReset : Obligations.TheInvariantsHoldAtReset := by
  have hrecords : State.reset.track.table.records = [] := rfl
  have hstation : ∀ i : Fin 8, State.reset.station i = Station.reset := by decide
  have hbins : State.reset.BinsOk := fun i d h => by rw [hstation i] at h; exact nomatch h
  have hdefs : State.reset.DefinitionsOk := fun i d h => by rw [hstation i] at h; exact nomatch h
  have hopen : State.reset.OpenOk := fun r hr => by rw [hrecords] at hr; exact nomatch hr
  exact ⟨by decide, by decide, by decide, by decide, hbins, hdefs, by decide, by decide, hopen, by decide, by decide,
    by decide, nofun⟩

end Sys2Proof.Machine
end

section
/-! PROOF. The memory path in order: what a step leaves of the path state, the request queue, the port, the transactions
presented, the slots, the FIFO and the unit (R135, R148, R155, R156, R177, R179; O59). -/

namespace Sys2Proof.Machine

/-! ## What most operations leave of the memory path -/

/-- What the invariants of the memory path read: the power and the pins, what is presented, and of the path well its state,
base, server state, request queue, port, M-side, slots, FIFO and unit; and the commands that wait. -/
def State.pathCore (s : State) : State :=
  { s with
    returned := [], freeCount := 0, track := .blank
    path := { PathWell.reset s.path.areaSel with
      state := s.path.state, server := s.path.server, requests := s.path.requests, port := s.path.port, inProgress := s.path.inProgress
      slots := s.path.slots, fifo := s.path.fifo, directiveUnit := s.path.directiveUnit } }

/-- An operation that leaves all of it as it is. -/
def PathSame (s t : State) : Prop := t.pathCore = s.pathCore

theorem PathSame.refl (s : State) : PathSame s s := rfl

theorem PathSame.trans {s t u : State} (h : PathSame s t) (g : PathSame t u) : PathSame s u := Eq.trans g h

theorem PathSame.fields {s t : State} (h : PathSame s t) :
    (t.powered = s.powered ∧ t.pathPower = s.pathPower ∧ t.prst = s.prst ∧ t.presented = s.presented) ∧
    (t.path.state = s.path.state ∧ t.path.areaSel = s.path.areaSel ∧ t.path.requests = s.path.requests ∧
      t.path.port = s.path.port ∧ t.path.inProgress = s.path.inProgress) ∧
    t.path.slots = s.path.slots ∧ t.path.fifo = s.path.fifo ∧ t.path.directiveUnit = s.path.directiveUnit :=
  ⟨⟨congrArg (·.powered) h, congrArg (·.pathPower) h, congrArg (·.prst) h, congrArg (·.presented) h⟩,
    ⟨congrArg (·.path.state) h, congrArg (·.path.areaSel) h, congrArg (·.path.requests) h, congrArg (·.path.port) h,
      congrArg (·.path.inProgress) h⟩,
    congrArg (·.path.slots) h, congrArg (·.path.fifo) h, congrArg (·.path.directiveUnit) h⟩

/-- An operation that leaves the commands that wait and AREA_SEL (log 1, R136). -/
def Fixed (s t : State) : Prop := t.pending = s.pending ∧ t.path.areaSel = s.path.areaSel

theorem Fixed.refl (s : State) : Fixed s s := ⟨rfl, rfl⟩

theorem Fixed.trans {s t u : State} (h : Fixed s t) (g : Fixed t u) : Fixed s u := ⟨g.1.trans h.1, g.2.trans h.2⟩

theorem PathSame.fixed {s t : State} (h : PathSame s t) : Fixed s t := ⟨congrArg (·.pending) h, congrArg (·.path.areaSel) h⟩

theorem AdmitFrame.fixed {s t : State} (h : AdmitFrame s t) : Fixed s t :=
  ⟨congrArg (·.pending) h.core, congrArg (·.path.areaSel) h.core⟩

theorem TakeFrame.fixed {s t : State} (h : TakeFrame s t) : Fixed s t := h.admits.fixed

theorem TableFrame.pathSame {s t : State} (h : TableFrame s t) : PathSame s t := by
  obtain ⟨⟨_, _, _, _, _, _, _, rfl⟩, -⟩ := h
  rfl

theorem SeamFrame.pathSame {l : LineId} {s t : State} (h : SeamFrame l s t) : PathSame s t := by
  obtain ⟨⟨_, _, _, _, _, _, _, _, rfl⟩, -⟩ := h
  rfl

theorem SealFrame.pathSame {i : Fin 8} {s t : State} (h : SealFrame i s t) : PathSame s t := by
  obtain ⟨_, _, _, _, _, _, _, _, _, _, _, rfl⟩ := h.shape
  rfl

theorem PathSame.setLine (s : State) (l : LineId) (ln : Line) : PathSame s (s.setLine l ln) := by
  rw [(setLine_eq s l ln).1]
  rfl

theorem PathSame.setStation (s : State) (i : Fin 8) (st : Station) : PathSame s (s.setStation i st) := by
  rw [(setStation_eq s i st).1]
  rfl

theorem PathSame.setCursor (s : State) (k : Fin 8) (c : Cursor) : PathSame s (s.setCursor k c) := by
  rw [(setCursor_eq s k c).1]
  rfl

theorem PathSame.raisePath (s : State) (f : PathFlag) : PathSame s (s.raisePath f) := by
  unfold State.raisePath
  split <;> rfl

theorem PathSame.foldl {α : Type} (f : State → α → State) (hf : ∀ s a, PathSame s (f s a)) (xs : List α) (s : State) :
    PathSame s (xs.foldl f s) := foldl_frame PathSame.refl PathSame.trans f hf xs s

theorem PathSame.completeChange (s : State) (l : LineId) (i : MarkerInput) : PathSame s (s.completeChange l i) := by
  unfold State.completeChange
  dsimp only
  split
  · exact .refl s
  · split
    · exact (PathSame.setLine _ _ _).trans (SeamFrame.capture _ _ _ _ _).pathSame
    · exact .setLine _ _ _

theorem PathSame.completeDue (s : State) (l : LineId) (i : MarkerInput) : PathSame s (s.completeDue l i) := by
  unfold State.completeDue
  split
  · exact .refl s
  · split
    · exact .completeChange _ _ _
    · exact .refl s

theorem PathSame.rawTransition (s : State) (l : LineId) (i : MarkerInput) : PathSame s (s.rawTransition l i) := by
  unfold State.rawTransition
  split
  · exact .setLine _ _ _
  · exact (PathSame.setLine _ _ _).trans (.completeDue _ _ _)

theorem PathSame.completeAllDue (s : State) : PathSame s s.completeAllDue :=
  .foldl _ (fun u l => .foldl _ (fun v i => .completeDue v l i) _ u) _ s

theorem PathSame.completePeriod (s : State) : PathSame s s.completePeriod := by
  unfold State.completePeriod
  split
  · have reset : PathSame s { s with path.periodCount := 0 } := rfl
    exact reset.trans (.foldl _ (fun u l => (TableFrame.mark u (lineGroup l)).pathSame) allLines _)
  · exact .refl s

theorem PathSame.advanceTime (s : State) : PathSame s s.advanceTime := by
  have clock : PathSame s s.tickClock := rfl
  have markers : PathSame s.tickClock s.tickClock.tickMarkers :=
    .foldl (fun acc l => acc.setLine l (acc.line l).tick) (fun u l => PathSame.setLine u l _) allLines _
  refine (clock.trans markers).trans ?_
  show PathSame s.tickClock.tickMarkers s.tickClock.tickMarkers.tickPeriod
  generalize s.tickClock.tickMarkers = u
  unfold State.tickPeriod
  split <;> rfl

theorem PathSame.positionChange (s : State) (l : LineId) (sd : Side) (f : Bool) :
    PathSame s (s.positionChange l sd f) := by
  cases sd
  · exact (SealFrame.seal _ _).pathSame
  · exact (SeamFrame.matcherMoved _ _ _).pathSame.trans (SealFrame.seal _ _).pathSame

theorem PathSame.countPulse (s : State) (l : LineId) (sd : Side) : PathSame s (s.countPulse l sd) := by
  unfold State.countPulse
  dsimp only
  split
  · exact .setLine _ _ _
  · split
    · exact (PathSame.setLine _ _ _).trans (.positionChange _ _ _ _)
    · split
      · exact .setLine _ _ _
      · exact (PathSame.setLine _ _ _).trans (TableFrame.anomaly _ _ _ _ _).pathSame

theorem PathSame.journalAppended (s : State) : PathSame s s.journalAppended := by
  unfold State.journalAppended
  dsimp only
  split
  · rfl
  · exact (TableFrame.judgeBacklog _).pathSame

theorem PathSame.journalOffer (n : Nat) (s : State) : PathSame s (State.journalOffer n s) := by
  induction n generalizing s with
  | zero => exact .refl s
  | succ n ih =>
    simp only [State.journalOffer]
    split
    · split
      · exact .refl s
      · rename_i b _
        have one : PathSame s (s.append b).journalAppended := PathSame.trans (t := s.append b) rfl (.journalAppended _)
        split
        · split
          · exact one.trans (ih _)
          · exact one
        · rfl
    · exact .refl s

theorem PathSame.journalBegin (s : State) : PathSame s s.journalBegin := by
  unfold State.journalBegin
  split
  · exact .journalOffer _ _
  · exact .refl s

theorem PathSame.journalResume (s : State) : PathSame s s.journalResume := by
  unfold State.journalResume
  split
  · exact .journalOffer _ _
  · exact .refl s

theorem PathSame.mirrorTurn (s : State) : PathSame s s.mirrorTurn := by
  unfold State.mirrorTurn
  split
  · split
    · exact .refl s
    · unfold State.offer
      split <;> rfl
  · exact .refl s

theorem PathSame.resolverTurn (s : State) : PathSame s s.resolverTurn := by
  unfold State.resolverTurn
  split
  · exact .refl s
  · rename_i k _
    refine PathSame.trans (t := { s with path.resolverMark := k }) rfl ?_
    unfold State.turn
    split
    · dsimp only
      split
      · exact (PathSame.setCursor _ _ _).trans (.raisePath _ _)
      · exact .setCursor _ _ _
    · exact .refl _

theorem PathSame.presentStep (s : State) (i : Fin 8) (f : Bool) : PathSame s (s.presentStep i f) := by
  unfold State.presentStep
  split
  · exact .refl s
  · split
    · exact .refl s
    · exact (((PathSame.trans (t := s.append _) rfl (.setStation _ _ _)).trans (TableFrame.tallyOwner _ _ _).pathSame).trans
        (TableFrame.settleStation _ _).pathSame)

theorem PathSame.resumeSealing (s : State) (i : Fin 8) : PathSame s (s.resumeSealing i) := by
  unfold State.resumeSealing
  split
  · exact .refl s
  · exact ((PathSame.setStation _ _ _).trans (.presentStep _ _ _)).trans (SealFrame.seal _ _).pathSame

theorem PathSame.monitor (s : State) : PathSame s s.monitor := by
  unfold State.monitor
  split
  · split
    · exact .refl s
    · exact (TableFrame.anomaly _ _ _ _ _).pathSame.trans rfl
  · rfl

/-- A step that reaches none of it keeps every invariant of the memory path. -/
theorem PathSame.slotsOk {s t : State} (h : PathSame s t) (hs : s.SlotsOk) : t.SlotsOk := by
  obtain ⟨-, -, h1, h2, h3⟩ := h.fields
  unfold State.SlotsOk State.slot
  rw [h1, h2, h3]
  exact hs

theorem PathSame.acceptOk {s t : State} (h : PathSame s t) (hs : s.AcceptOk) : t.AcceptOk := by
  obtain ⟨⟨-, -, -, h4⟩, ⟨h5, h6, h7, h8, -⟩, -⟩ := h.fields
  unfold State.AcceptOk State.base
  rw [h4, h5, h6, h7, h8]
  exact hs

/-! ## The slots, the FIFO and the unit (R155, R156) -/

/-- Slot k is in hand: the FIFO holds the QUEUED slots once each, and slot k alone is RUNNING (R156). -/
def State.Holds (s : State) (k : Fin 16) : Prop :=
  s.path.fifo.Nodup ∧ (∀ j : Fin 16, j ∈ s.path.fifo ↔ (s.slot j).state = .queued) ∧
    ∀ j : Fin 16, (s.slot j).state = .running ↔ j = k

/-- The unit has a slot in hand: it is the RUNNING one. -/
theorem State.SlotsOk.holds {s : State} (h : s.SlotsOk) {k : Fin 16} (hk : s.path.directiveUnit.slot? = some k) :
    s.Holds k := by
  obtain ⟨h1, h2, h3⟩ := h
  exact ⟨h1, h2, fun j => by rw [h3, hk, Option.some.injEq]; exact eq_comm⟩

/-- The unit takes slot k in hand. -/
theorem State.Holds.slotsOk {s t : State} {k : Fin 16} (h : s.Holds k) (hs : t.path.slots = s.path.slots)
    (hf : t.path.fifo = s.path.fifo) (hu : t.path.directiveUnit.slot? = some k) : t.SlotsOk := by
  obtain ⟨h1, h2, h3⟩ := h
  unfold State.SlotsOk State.slot
  rw [hs, hf, hu]
  exact ⟨h1, h2, fun j => by rw [Option.some.injEq]; exact (h3 j).trans eq_comm⟩

/-- The slot at the head of the FIFO leaves it and is RUNNING (R156). -/
theorem State.SlotsOk.begin {s : State} {k : Fin 16} (h : s.SlotsOk) (hk : s.headSlot = some k) :
    (s.beginDirective k).Holds k := by
  obtain ⟨h1, h2, h3⟩ := h
  obtain ⟨hfree, -, hhead⟩ := State.headSlot_some.1 hk
  obtain ⟨rest, hfifo⟩ : ∃ rest, s.path.fifo = k :: rest := by
    cases hq : s.path.fifo with
    | nil => rw [hq] at hhead; exact nomatch hhead
    | cons x rest => rw [hq] at hhead; cases hhead; exact ⟨rest, rfl⟩
  have htail : (s.beginDirective k).path.fifo = rest := by
    show s.path.fifo.tail = rest
    rw [hfifo]
    rfl
  have hslot : ∀ j, (s.beginDirective k).slot j = if k = j then { s.slot k with state := .running } else s.slot j :=
    fun j => State.slot_setSlot _ _ _ _
  have hnone : ∀ j, (s.slot j).state ≠ .running := fun j hj => by
    rw [h3, hfree] at hj
    exact nomatch hj
  rw [hfifo, List.nodup_cons] at h1
  unfold State.Holds
  rw [htail]
  refine ⟨h1.2, fun j => ?_, fun j => ?_⟩
  · rw [hslot]
    by_cases hj : k = j
    · subst hj
      simp [h1.1]
    · rw [if_neg hj, ← h2, hfifo, List.mem_cons]
      simp [Ne.symm hj]
  · rw [hslot]
    by_cases hj : k = j
    · simp [hj]
    · rw [if_neg hj]
      exact ⟨fun h => absurd h (hnone j), fun h => absurd h.symm hj⟩

/-- The result of the slot in hand is placed, or waits with the unit holding the rest (R158). -/
theorem State.Holds.offerAnswer {s : State} {k : Fin 16} (h : s.Holds k) (bs : List WriteBurst) :
    (State.offerAnswer k bs s).SlotsOk := by
  obtain ⟨h1, h2, h3⟩ := h
  have hoff := Offered.offerAnswer k bs s
  generalize State.offerAnswer k bs s = t at hoff ⊢
  have hfifo : t.path.fifo = s.path.fifo := by rw [hoff.path, unitPath]
  have hothers := hoff.others
  unfold State.SlotsOk
  rw [hfifo]
  have hk2 : k ∉ s.path.fifo := fun hm => by
    have hq := (h2 k).1 hm
    rw [(h3 k).2 rfl] at hq
    exact nomatch hq
  rcases hoff.result with ⟨-, -, -, hslot, -, hunit⟩ | ⟨⟨_, _, _, -, -, -, hunit, -⟩, hslot, -⟩
  · refine ⟨h1, fun j => ?_, fun j => ?_⟩
    · by_cases hj : j = k
      · rw [hj, hslot]
        simp [hk2]
      · rw [hothers j hj]; exact h2 j
    · rw [hunit]
      by_cases hj : j = k
      · rw [hj, hslot]
        simp [UnitState.slot?]
      · rw [hothers j hj, h3]
        simp [UnitState.slot?, hj]
  · refine ⟨h1, fun j => ?_, fun j => ?_⟩
    · by_cases hj : j = k
      · rw [hj, hslot]; exact h2 k
      · rw [hothers j hj]; exact h2 j
    · rw [hunit]
      have heq : (t.slot j).state = .running ↔ j = k := by
        by_cases hj : j = k
        · rw [hj, hslot]; exact h3 k
        · rw [hothers j hj]; exact h3 j
      rw [heq, UnitState.slot?, Option.some.injEq]
      exact eq_comm

theorem State.SlotsOk.take {s : State} {k : Fin 16} (hk : s.headSlot = some k) (h : s.SlotsOk) :
    (s.takeCode (s.slot k).code.toNat).SlotsOk := by
  have hb := h.begin hk
  rcases takeCode_cases hk with ⟨u, r, a, -, hu, he⟩ | ⟨target, kind, he⟩
  · rw [he]
    have hs : u.path.slots = (s.beginDirective k).path.slots := congrArg (·.path.slots) hu.core
    have hf : u.path.fifo = (s.beginDirective k).path.fifo := congrArg (·.path.fifo) hu.core
    refine State.Holds.offerAnswer ?_ _
    unfold State.Holds State.slot
    rw [hs, hf]
    exact hb
  · rw [he]
    exact hb.slotsOk rfl rfl rfl

theorem State.SlotsOk.takeDue {s : State} (h : s.SlotsOk) : s.takeDue.SlotsOk :=
  takeDue_keeps (P := State.SlotsOk) (fun _ _ hk h => h.take hk) h

theorem State.SlotsOk.scanVisit {s : State} (h : s.SlotsOk) : s.scanVisit.SlotsOk := by
  unfold State.scanVisit
  split
  · rename_i k target kind next children hu
    have hk := h.holds (k := k) (by rw [hu]; rfl)
    split
    · split
      · exact hk.offerAnswer _
      · split
        · exact hk.offerAnswer _
        · exact hk.slotsOk rfl rfl rfl
    · split
      · exact hk.offerAnswer _
      · exact hk.slotsOk rfl rfl rfl
  · exact h

/-- A go word queues an IDLE slot at the tail of the FIFO (R154, R162). -/
theorem State.SlotsOk.queueSlot {s : State} (h : s.SlotsOk) {k : Fin 16} (hk : (s.slot k).state = .idle) (w : Word) :
    (s.queueSlot k w).SlotsOk := by
  obtain ⟨h1, h2, h3⟩ := h
  have hslot : ∀ j, (s.queueSlot k w).slot j =
      if k = j then { s.slot k with state := .queued, code := goCode w, tag := goTag w } else s.slot j :=
    fun j => State.slot_setSlot _ _ _ _
  have hnot : k ∉ s.path.fifo := fun hm => by rw [h2, hk] at hm; exact nomatch hm
  refine ⟨?_, fun j => ?_, fun j => ?_⟩
  · exact h1.append (List.nodup_singleton k) (by simpa using hnot)
  · show j ∈ s.path.fifo ++ [k] ↔ _
    rw [hslot]
    by_cases hj : k = j
    · simp [hj]
    · rw [if_neg hj, List.mem_append, List.mem_singleton, ← h2]
      simp [Ne.symm hj]
  · show _ ↔ s.path.directiveUnit.slot? = _
    rw [hslot, ← h3]
    by_cases hj : k = j
    · subst hj
      simp [hk]
    · rw [if_neg hj]

end Sys2Proof.Machine
end

section
/-! PROOF. The memory path in order, continued: the port, the M-side and the path states (R135, R143, R145, R148, R179;
O59). -/

namespace Sys2Proof.Machine

/-! ## The acceptance of a transaction -/

/-- An operation that leaves what is presented, and keeps the slots in order. -/
def PortKeeps (s t : State) : Prop := t.presented = s.presented ∧ (s.SlotsOk → t.SlotsOk)

theorem PortKeeps.refl (s : State) : PortKeeps s s := ⟨rfl, id⟩

theorem PortKeeps.trans {s t u : State} (h : PortKeeps s t) (g : PortKeeps t u) : PortKeeps s u :=
  ⟨g.1.trans h.1, g.2 ∘ h.2⟩

theorem PathSame.portKeeps {s t : State} (h : PathSame s t) : PortKeeps s t := ⟨h.fields.1.2.2.2, h.slotsOk⟩

/-- Slots that keep their states keep their order. -/
theorem State.SlotsOk.of_states {s t : State} (h : s.SlotsOk) (hs : ∀ j, (t.slot j).state = (s.slot j).state)
    (hf : t.path.fifo = s.path.fifo) (hu : t.path.directiveUnit = s.path.directiveUnit) : t.SlotsOk := by
  unfold State.SlotsOk
  rw [hf, hu]
  simp only [hs]
  exact h

theorem PortKeeps.capturedWord (s : State) (k : Fin 16) (w : Nat) (x : Lane) : PortKeeps s (s.capturedWord k w x) := by
  refine ⟨rfl, fun h => h.of_states (fun j => ?_) rfl rfl⟩
  unfold State.capturedWord
  rw [State.slot_setSlot]
  split
  · rename_i hj
    rw [hj]
  · rfl

theorem Slot.isIdle_iff (sl : Slot) : sl.isIdle = true ↔ sl.state = .idle := by
  unfold Slot.isIdle
  exact beq_iff_eq

theorem PortKeeps.goWord (s : State) (k : Fin 16) (x : Lane) : PortKeeps s (s.goWord k x) := by
  unfold State.goWord
  split
  · exact (PathSame.raisePath _ _).portKeeps
  · rename_i hc
    split
    · exact .refl s
    · have hidle : (s.slot k).isIdle = true := by
        by_contra hn
        exact hc (.inl (by simpa using hn))
      exact ⟨rfl, fun h => h.queueSlot ((Slot.isIdle_iff _).1 hidle) _⟩

theorem PortKeeps.slotWord (s : State) (k : Fin 16) (w : Nat) (x : Lane) : PortKeeps s (s.slotWord k w x) := by
  unfold State.slotWord
  split
  · exact .refl s
  · split
    · exact .goWord s k x
    · split
      · exact (PathSame.raisePath _ _).portKeeps
      · split
        · exact .capturedWord s k w x
        · exact .refl s

theorem PortKeeps.slotWords (k : Fin 16) : ∀ (xs : List Lane) (w : Nat) (s : State), PortKeeps s (State.slotWords k w xs s)
  | [], _, s => .refl s
  | x :: rest, w, s => (PortKeeps.slotWord s k w x).trans (PortKeeps.slotWords k rest (w + 1) _)

theorem PathSame.discard (s : State) (i : Fin 8) (f : PathFlag) : PathSame s (s.discard i f) :=
  (PathSame.setStation _ _ _).trans (.raisePath _ _)

theorem PathSame.makePlace (s : State) (i : Fin 8) (d : LiveData) (b : Nat) : PathSame s (s.makePlace i d b) := by
  unfold State.makePlace
  split
  · exact .refl s
  · split
    · exact .refl s
    · exact (SealFrame.sealBins _ _ _ _ _).pathSame

theorem PathSame.record (s : State) (i : Fin 8) (b c : Nat) (v : Word) : PathSame s (s.record i b c v) := by
  unfold State.record
  split
  · exact .refl s
  · exact (SealFrame.setLive _ _ _).pathSame

theorem PathSame.intakeWord (i : Fin 8) (r : Nat) (run : IntakeRun) (w : Nat) (x : Lane) :
    PathSame run.state (run.word i r w x).state := by
  unfold IntakeRun.word
  dsimp only
  split
  · exact .refl _
  · split
    · exact .discard _ _ _
    · split
      · exact .discard _ _ _
      · unfold IntakeRun.channel
        dsimp only
        split
        · exact .discard _ _ _
        · split
          · exact .discard _ _ _
          · unfold IntakeRun.place
            split
            · exact (PathSame.makePlace _ _ _ _).trans (.record _ _ _ _ _)
            · exact .discard _ _ _

theorem PathSame.intakeWords (i : Fin 8) (r : Nat) :
    ∀ (xs : List Lane) (w : Nat) (run : IntakeRun), PathSame run.state (intakeWords i r w xs run).state
  | [], _, run => .refl run.state
  | x :: rest, w, run => (PathSame.intakeWord i r run w x).trans (PathSame.intakeWords i r rest (w + 1) _)

theorem PortKeeps.request (s : State) (rs : List Request) : PortKeeps s (s.request rs) := ⟨rfl, id⟩

theorem PortKeeps.holdPort (s : State) (h : HeldRead) : PortKeeps s (s.holdPort h) := ⟨rfl, id⟩

theorem PortKeeps.returnData (s : State) (ws : List Word) : PortKeeps s (s.returnData ws) := ⟨rfl, id⟩

theorem PortKeeps.acceptWriteAt (s : State) (b : WriteBurst) (a : AreaPart) : PortKeeps s (s.acceptWriteAt b a) := by
  unfold State.acceptWriteAt
  split
  · exact (PortKeeps.slotWords _ _ _ s).trans (.request _ _)
  · exact (PathSame.intakeWords _ _ _ _ { state := s, recorded := [] }).portKeeps.trans (.request _ _)
  · exact .request _ _

theorem PortKeeps.acceptAperture (s : State) (k : Fin 8) (p f c : Nat) : PortKeeps s (s.acceptAperture k p f c) := by
  unfold State.acceptAperture
  split
  · exact .returnData _ _
  · exact .returnData _ _
  · exact (PortKeeps.request _ _).trans (.holdPort _ _)

theorem PortKeeps.acceptReadAt (s : State) (b : ReadBurst) (a : AreaPart) : PortKeeps s (s.acceptReadAt b a) := by
  unfold State.acceptReadAt
  split
  · exact .acceptAperture _ _ _ _ _
  · exact (PortKeeps.request _ _).trans (.holdPort _ _)

theorem PortKeeps.accept (s : State) : ∀ t : Transaction, PortKeeps s (s.accept t)
  | .write b => .acceptWriteAt s b _
  | .read b => .acceptReadAt s b _

theorem PortKeeps.takeDue (s : State) : PortKeeps s s.takeDue :=
  ⟨congrArg (·.presented) (TakeFrame.takeDue s).core, State.SlotsOk.takeDue⟩

/-! ## What is offered to the port (R135) -/

theorem State.accepts_iff {s : State} {t : Transaction} :
    s.accepts t = true ↔ s.path.state = .opened ∧ s.path.port = none ∧
      s.path.requests.length + entriesNeeded s.base t ≤ 32 := by
  unfold State.accepts
  simp only [Bool.and_eq_true, beq_iff_eq, Option.isNone_iff_eq_none, decide_eq_true_eq, and_assoc]
  rfl

theorem letInList_slotsOk : ∀ (ts : List Transaction) (s : State), s.SlotsOk → (State.letInList ts s).SlotsOk
  | [], _, h => h
  | t :: rest, s, h => by
    simp only [State.letInList]
    split
    · exact letInList_slotsOk rest _ (((PortKeeps.takeDue s).trans (.accept _ t)).2 h)
    · exact h

/-- What stays presented behind what has been accepted could not be accepted (R135). -/
theorem letInList_acceptOk : ∀ (ts : List Transaction) (s : State), s.presented = [] → (State.letInList ts s).AcceptOk
  | [], s, h => fun _ _ ht => by rw [State.letInList, h] at ht; exact nomatch ht
  | t :: rest, s, h => by
    simp only [State.letInList]
    split
    · exact letInList_acceptOk rest _ ((((PortKeeps.takeDue s).trans (.accept _ t)).1).trans h)
    · rename_i hc
      rintro t' rest' ht
      obtain ⟨rfl, -⟩ := List.cons.inj ht
      rw [State.accepts_iff] at hc
      show s.path.state ≠ .opened ∨ s.path.port ≠ none ∨ 32 < s.path.requests.length + entriesNeeded s.base t
      by_cases h1 : s.path.state = .opened
      · by_cases h2 : s.path.port = none
        · exact .inr (.inr (Nat.lt_of_not_le fun h3 => hc ⟨h1, h2, h3⟩))
        · exact .inr (.inl h2)
      · exact .inl h1

/-- Outside OPEN nothing that is presented is accepted (R135). -/
theorem State.letInList_of_not_opened {s : State} (h : s.path.state ≠ .opened) :
    ∀ ts : List Transaction, s.presented = [] → State.letInList ts s = s.setPresented ts
  | [], hp => (State.setPresented_self hp).symm
  | _ :: _, _ => if_neg fun hc => h (State.accepts_iff.1 hc).1

theorem State.letIn_of_not_opened {s : State} (h : s.path.state ≠ .opened) : s.letIn = s := by
  unfold State.letIn
  rw [State.letInList_of_not_opened (s := s.setPresented []) h _ rfl]
  rfl

/-! ## What each command does to the order of the memory path -/

/-- The second state is as much in order as the first, and a path that enters HOLD leaves no directive that could have been
taken (O59). -/
structure Ordered (s t : State) : Prop where
  reset : s.ResetOk → t.ResetOk
  hold : s.HoldOk → t.HoldOk
  slots : s.SlotsOk → t.SlotsOk
  accept : s.AcceptOk → t.AcceptOk
  enters : s.path.state ≠ .hold → t.path.state = .hold → t.path.directiveUnit = .free → t.path.fifo = []

theorem PathSame.ordered {s t : State} (h : PathSame s t) : Ordered s t := by
  obtain ⟨⟨h1, h2, h3, -⟩, ⟨h4, -, h5, -, h6⟩, -⟩ := h.fields
  refine ⟨?_, ?_, h.slotsOk, h.acceptOk, fun hn hh => absurd (h4.symm.trans hh) hn⟩
  · unfold State.ResetOk
    rw [h1, h2, h3, h4]
    exact id
  · unfold State.HoldOk
    rw [h4, h5, h6]
    exact id

theorem Ordered.of_pathSame {s t u : State} (h : PathSame s t) (g : Ordered t u) : Ordered s u := by
  have hs := h.fields.2.1.1
  exact ⟨g.reset ∘ h.ordered.reset, g.hold ∘ h.ordered.hold, g.slots ∘ h.slotsOk, g.accept ∘ h.acceptOk,
    fun hn => g.enters (by rw [hs]; exact hn)⟩

/-- A take leaves the order of the memory path, and its state (R156). -/
theorem TakeFrame.ordered {s t : State} (h : TakeFrame s t) (hs : s.SlotsOk → t.SlotsOk) : Ordered s t := by
  obtain ⟨h1, h2, h3, h4, h5, -⟩ := h.port
  obtain ⟨-, h6, h7, -⟩ := h.admits.power
  have h8 : t.path.inProgress = s.path.inProgress := congrArg (·.path.inProgress) h.core
  have h9 : t.presented = s.presented := congrArg (·.presented) h.core
  refine ⟨?_, ?_, hs, ?_, fun hn hh => absurd (h2.symm.trans hh) hn⟩
  · unfold State.ResetOk
    rw [h1, h2, h6, h7]
    exact id
  · unfold State.HoldOk
    rw [h2, h4, h8]
    exact id
  · unfold State.AcceptOk State.base
    rw [h9, h2, h3, h4, h5]
    exact id

theorem Ordered.takeCode {s : State} {k : Fin 16} (hk : s.headSlot = some k) :
    Ordered s (s.takeCode (s.slot k).code.toNat) := (TakeFrame.takeCode hk).1.ordered fun h => h.take hk

theorem Ordered.after_takeDue {s t : State} (h : Ordered s.takeDue t) : Ordered s t := by
  have g : Ordered s s.takeDue := (TakeFrame.takeDue s).ordered State.SlotsOk.takeDue
  have hs : s.takeDue.path.state = s.path.state := (TakeFrame.takeDue s).port.2.1
  exact ⟨h.reset ∘ g.reset, h.hold ∘ g.hold, h.slots ∘ g.slots, h.accept ∘ g.accept,
    fun hn => h.enters (by rw [hs]; exact hn)⟩

theorem AdmitFrame.inProgress {s t : State} (h : AdmitFrame s t) : t.path.inProgress = s.path.inProgress :=
  congrArg (·.path.inProgress) h.core

/-- What is presented is accepted at the end of an effect (R135). -/
theorem Ordered.letInList {s u : State} (ts : List Transaction)
    (hp : u.powered = s.powered ∧ u.pathPower = s.pathPower ∧ u.prst = s.prst) (hn : u.presented = [])
    (hd : u.path.state = .down ↔ s.path.state = .down) (hh : u.path.state = .hold → s.path.state = .hold)
    (hold : s.HoldOk → u.HoldOk) (slots : s.SlotsOk → u.SlotsOk) : Ordered s (State.letInList ts u) := by
  have adm := AdmitFrame.letInList ts u
  obtain ⟨h1, h2, h3, h4⟩ := adm.power
  obtain ⟨p1, p2, p3⟩ := hp
  refine ⟨?_, fun h => ?_, fun h => letInList_slotsOk ts u (slots h), fun _ => letInList_acceptOk ts u hn,
    fun hne hhold => absurd (hh (h4.symm.trans hhold)) hne⟩
  · unfold State.ResetOk
    rw [h1, h2, h3, h4, p1, p2, p3, hd]
    exact id
  · unfold State.HoldOk
    rw [h4, adm.inProgress]
    intro hho
    rw [(State.letInList_requests ts u).2 (by rw [hho]; decide)]
    exact hold h hho

end Sys2Proof.Machine
end

section
/-! PROOF. The memory path in order, concluded: the effect of each command, and EveryStepKeepsThePathInOrder (O59). -/

namespace Sys2Proof.Machine

/-! ## Grants and read returns (R140, R143, R145) -/

/-- An operation that leaves the path state, the request queue, the supplies and what is presented, and keeps the slots in
order. -/
structure MidKeeps (s t : State) : Prop where
  power : t.powered = s.powered ∧ t.pathPower = s.pathPower ∧ t.prst = s.prst
  state : t.path.state = s.path.state
  slots : s.SlotsOk → t.SlotsOk
  fixed : Fixed s t

theorem MidKeeps.refl (s : State) : MidKeeps s s := ⟨⟨rfl, rfl, rfl⟩, rfl, id, rfl, rfl⟩

theorem MidKeeps.trans {s t u : State} (h : MidKeeps s t) (g : MidKeeps t u) : MidKeeps s u := by
  obtain ⟨a, b, c⟩ := h.power
  obtain ⟨d, e, f⟩ := g.power
  exact ⟨⟨d.trans a, e.trans b, f.trans c⟩, g.state.trans h.state, g.slots ∘ h.slots, h.fixed.trans g.fixed⟩

theorem PathSame.mid {s t : State} (h : PathSame s t) : MidKeeps s t :=
  ⟨⟨h.fields.1.1, h.fields.1.2.1, h.fields.1.2.2.1⟩, h.fields.2.1.1, h.slotsOk, h.fixed⟩

/-- The unit goes on with the result of the slot in hand (R143, R158). -/
theorem MidKeeps.resumeAnswer (s : State) : MidKeeps s s.resumeAnswer := by
  unfold State.resumeAnswer
  split
  · rename_i k rest hu
    have hoff := Offered.offerAnswer k rest s
    refine ⟨⟨congrArg (·.powered) hoff.part, congrArg (·.pathPower) hoff.part, congrArg (·.prst) hoff.part⟩, ?_,
      fun h => (h.holds (k := k) (by rw [hu]; rfl)).offerAnswer rest, congrArg (·.pending) hoff.part, ?_⟩
    · rw [hoff.path, unitPath]
    · rw [hoff.path, unitPath]
  · exact .refl s

theorem MidKeeps.handoff (s : State) : MidKeeps s s.handoff := by
  have leave : MidKeeps s s.unwait := ⟨⟨rfl, rfl, rfl⟩, rfl, id, rfl, rfl⟩
  have place : ∀ b, MidKeeps s (s.unwait.append b) := fun b => ⟨⟨rfl, rfl, rfl⟩, rfl, id, rfl, rfl⟩
  unfold State.handoff
  split
  · exact .refl s
  · exact leave.trans (PathSame.resumeSealing _ _).mid
  · exact ((place _).trans (PathSame.journalAppended _).mid).trans (PathSame.journalOffer _ _).mid
  · exact (place _).trans (.resumeAnswer _)
  · exact (place _).trans (PathSame.mirrorTurn _).mid

theorem PathSame.finishPreparation (s : State) (i : Fin 8) : PathSame s (s.finishPreparation i) := by
  have leave : PathSame s { s with path.prepQueue := s.path.prepQueue.tail } := rfl
  exact (leave.trans (SealFrame.enterLive _ _).pathSame).trans (.raisePath _ _)

theorem PathSame.fillStep (s : State) (i : Fin 8) : PathSame s (s.fillStep i) := by
  unfold State.fillStep
  split
  · dsimp only
    split
    · exact (PathSame.setStation _ _ _).trans (.finishPreparation _ _)
    · exact .setStation _ _ _
  · exact .refl s

theorem MidKeeps.grantTo (s : State) (c : GrantClass) : MidKeeps s (s.grantTo c) := by
  have count : ∀ c, MidKeeps s (s.countGrant c) := fun c => by
    unfold State.countGrant
    split
    · exact ⟨⟨rfl, rfl, rfl⟩, rfl, id, rfl, rfl⟩
    · exact .refl s
  cases c with
  | p =>
    refine (count .p).trans ?_
    show MidKeeps _ (s.countGrant .p).grantP
    unfold State.grantP
    split
    · exact .refl _
    · exact ⟨⟨rfl, rfl, rfl⟩, rfl, id, rfl, rfl⟩
    · exact ⟨⟨rfl, rfl, rfl⟩, rfl, id, rfl, rfl⟩
  | b =>
    refine (count .b).trans ?_
    show MidKeeps _ (s.countGrant .b).grantB
    unfold State.grantB
    split
    · exact .refl _
    · refine MidKeeps.trans ?_ (.handoff _)
      exact ⟨⟨rfl, rfl, rfl⟩, rfl, id, rfl, rfl⟩
  | f =>
    refine (count .f).trans ?_
    show MidKeeps _ (s.countGrant .f).grantF
    unfold State.grantF
    split
    · exact .refl _
    · refine MidKeeps.trans ?_ (PathSame.fillStep _ _).mid
      exact ⟨⟨rfl, rfl, rfl⟩, rfl, id, rfl, rfl⟩

/-- What is presented is accepted after an effect that leaves the path state (R135). -/
theorem Ordered.letIn_after {s u : State} (h : MidKeeps s u) (hold : s.HoldOk → u.HoldOk) : Ordered s u.letIn :=
  Ordered.letInList (u := u.setPresented []) u.presented h.power rfl (by rw [← h.state]; rfl)
    (fun hh => h.state.symm.trans hh) hold h.slots

theorem Ordered.grant (s : State) : Ordered s s.grant := by
  unfold State.grant
  split
  · exact (PathSame.refl s).ordered
  · rename_i c hc
    have mid := MidKeeps.grantTo s c
    refine .letIn_after mid fun _ hh => ?_
    have hs : s.path.state = .hold := mid.state.symm.trans hh
    unfold State.grantClass at hc
    simp only [hs, ite_self, reduceCtorEq] at hc

theorem Ordered.returnPassThrough (s : State) : Ordered s s.returnPassThrough := by
  unfold State.returnPassThrough
  split
  · exact .letIn_after ⟨⟨rfl, rfl, rfl⟩, rfl, id, rfl, rfl⟩ id
  · exact (PathSame.refl s).ordered

theorem Ordered.returnAperture (s : State) : Ordered s s.returnAperture := by
  unfold State.returnAperture
  split
  · split
    · exact .letIn_after ⟨⟨rfl, rfl, rfl⟩, rfl, id, rfl, rfl⟩ id
    · exact (PathSame.refl s).ordered
  · exact (PathSame.refl s).ordered

theorem Ordered.present (s : State) (t : Transaction) : Ordered s (s.present t) :=
  Ordered.letInList (u := s.setPresented []) _ ⟨rfl, rfl, rfl⟩ rfl Iff.rfl id id id

/-! ## Completion, the drain and the path states (R144, R148) -/

/-- The drain is judged after an effect that leaves the supplies, the slots, the FIFO and the unit, in a path that was OPEN or
DRAINING, with nothing to take, or that stays where it was (R148, R156). -/
theorem Ordered.drain {s u : State} (hn : s.NothingToTake)
    (hp : u.powered = s.powered ∧ u.pathPower = s.pathPower ∧ u.prst = s.prst)
    (hst : u.path.state = s.path.state ∨ s.path.state = .opened ∧ u.path.state = .draining)
    (hq : u.path.slots = s.path.slots ∧ u.path.fifo = s.path.fifo ∧ u.path.directiveUnit = s.path.directiveUnit)
    (hold : s.HoldOk → u.HoldOk) (accept : s.AcceptOk → u.AcceptOk) : Ordered s u.drainCheck := by
  obtain ⟨p1, p2, p3⟩ := hp
  obtain ⟨q1, q2, q3⟩ := hq
  have slots : s.SlotsOk → u.SlotsOk := by
    unfold State.SlotsOk State.slot
    rw [q1, q2, q3]
    exact id
  have hdown : u.path.state = .down ↔ s.path.state = .down := by
    rcases hst with h | ⟨h, g⟩
    · rw [h]
    · rw [h, g]
      decide
  unfold State.drainCheck
  split
  · rename_i hc
    obtain ⟨hu, hreq, hprog⟩ := hc
    have hs : s.path.state = .opened ∨ s.path.state = .draining :=
      hst.elim (fun h => .inr (h.symm.trans hu)) fun h => .inl h.1
    refine ⟨fun h hpow => ?_, fun _ _ => ⟨hreq, hprog⟩, slots, fun _ _ _ _ => .inl (by decide : PathState.hold ≠ .opened),
      fun _ _ hfree => ?_⟩
    · have hd := h (p1.symm.trans hpow)
      show PathState.hold = .down ↔ u.pathPower = false ∨ u.prst = true
      rw [p2, p3, ← hd]
      rcases hs with h | h <;> rw [h] <;> decide
    · show u.path.fifo = []
      rw [q2]
      by_contra hne
      have := hn (q3.symm.trans hfree) hne
      rcases hs with h | h
      · exact this.1 h
      · exact this.2 h
  · refine ⟨?_, hold, slots, accept, fun hne hh => ?_⟩
    · unfold State.ResetOk
      rw [p1, p2, p3, hdown]
      exact id
    · rcases hst with h | ⟨-, h⟩
      · exact absurd (h.symm.trans hh) hne
      · rw [h] at hh
        exact nomatch hh

theorem Ordered.completeBurst {s : State} (hn : s.NothingToTake) (data : List Word) : Ordered s (s.completeBurst data) := by
  have done : ∀ p : Option HeldRead, (p = none ↔ s.path.port = none) →
      Ordered s (State.drainCheck { s with path.port := p, path.inProgress := none }) := fun p hp =>
    .drain hn ⟨rfl, rfl, rfl⟩ (.inl rfl) ⟨rfl, rfl, rfl⟩ (fun h hh => ⟨(h hh).1, rfl⟩) fun h t rest ht =>
      (h t rest ht).imp_right (Or.imp_left (mt hp.1))
  unfold State.completeBurst
  split
  · exact (PathSame.refl s).ordered
  · split
    · exact (PathSame.refl s).ordered
    · exact done _ Option.map_eq_none_iff
  · exact done s.path.port Iff.rfl

theorem Ordered.goOn {s u : State} (hp : u.powered = s.powered ∧ u.pathPower = s.pathPower ∧ u.prst = s.prst)
    (hs : s.path.state ≠ .down) (hu : u.path.state = .opened) (slots : s.SlotsOk → u.SlotsOk) : Ordered s u.goOn := by
  have same : PathSame u (allStations.foldl (fun acc i => acc.seal i) u).journalResume :=
    (PathSame.foldl _ (fun v i => (SealFrame.seal v i).pathSame) _ u).trans (.journalResume _)
  unfold State.goOn
  generalize (allStations.foldl (fun acc i => acc.seal i) u).journalResume = v at same ⊢
  have hv : v.path.state = .opened := same.fields.2.1.1.trans hu
  obtain ⟨p1, p2, p3⟩ := hp
  obtain ⟨q1, q2, q3⟩ := same.mid.power
  refine Ordered.letInList (u := v.setPresented []) v.presented ⟨q1.trans p1, q2.trans p2, q3.trans p3⟩ rfl ?_
    (fun hh => ?_) (fun _ hh => ?_) fun h => same.slotsOk (slots h)
  · show v.path.state = .down ↔ s.path.state = .down
    rw [hv]
    exact ⟨fun h => (nomatch h), fun h => absurd h hs⟩
  · exact nomatch hv.symm.trans hh
  · exact nomatch hv.symm.trans hh

theorem Ordered.follow {s : State} (hn : s.NothingToTake) (sv : ServerState) : Ordered s (s.follow sv) := by
  unfold State.follow
  split
  · exact (PathSame.refl s).ordered
  · rename_i _ _ ho _
    exact .drain hn ⟨rfl, rfl, rfl⟩ (.inr ⟨ho, rfl⟩) ⟨rfl, rfl, rfl⟩ (fun _ hh => nomatch hh)
      fun _ _ _ _ => .inl (by decide : PathState.draining ≠ .opened)
  · rename_i hd
    exact .goOn ⟨rfl, rfl, rfl⟩ (by rw [hd]; decide) rfl id
  · rename_i hd
    exact .goOn ⟨rfl, rfl, rfl⟩ (by rw [hd]; decide) rfl id
  · exact (PathSame.refl s).ordered

theorem PathSame.nothingToTake {s t : State} (h : PathSame s t) (hn : s.NothingToTake) : t.NothingToTake := by
  obtain ⟨-, ⟨h1, -⟩, -, h2, h3⟩ := h.fields
  unfold State.NothingToTake
  rw [h1, h2, h3]
  exact hn

theorem Ordered.decodeLines {s : State} (hn : s.NothingToTake) : Ordered s s.decodeLines := by
  unfold State.decodeLines
  split
  · have key := Ordered.follow (s := { s with path.server := some (decodeServer s.ssa s.ssb) }) hn
      (decodeServer s.ssa s.ssb)
    exact ⟨key.reset, key.hold, key.slots, key.accept, key.enters⟩
  · exact (PathSame.refl s).ordered

theorem Ordered.serverStateChange {s : State} (hn : s.NothingToTake) (ssa ssb : Bool) :
    Ordered s (State.monitor { s with ssa := ssa, ssb := ssb }).decodeLines := by
  have same : PathSame { s with ssa := ssa, ssb := ssb } (State.monitor { s with ssa := ssa, ssb := ssb }) := .monitor _
  have key := Ordered.of_pathSame same (.decodeLines (same.nothingToTake hn))
  exact ⟨key.reset, key.hold, key.slots, key.accept, key.enters⟩

/-! ## Path reset (R179, R150) -/

/-- A path well whose queues, port, slots, FIFO and unit stand at their reset values, with nothing in progress. -/
def PathWell.Empty (p : PathWell) : Prop :=
  p.requests = [] ∧ p.inProgress = none ∧ p.slots = .replicate 16 .reset ∧ p.fifo = [] ∧ p.directiveUnit = .free

theorem PathWell.Empty.slotsOk {s : State} (h : s.path.Empty) : s.SlotsOk := by
  obtain ⟨-, -, hs, hf, hu⟩ := h
  have idle : ∀ j, (s.slot j).state = .idle := fun j => by
    unfold State.slot
    rw [hs]
    fin_cases j <;> rfl
  unfold State.SlotsOk
  rw [hf, hu]
  simp only [idle, UnitState.slot?, reduceCtorEq, List.not_mem_nil, implies_true, and_true]
  exact List.nodup_nil

/-- A path well at its reset values in DOWN is in order. -/
theorem Ordered.of_down {s t : State} (h : t.path.Empty) (hd : t.path.state = .down) (hr : s.ResetOk → t.ResetOk) :
    Ordered s t :=
  ⟨hr, fun _ hh => (nomatch hd.symm.trans hh), fun _ => h.slotsOk, fun _ _ _ _ => .inl (by rw [hd]; decide),
    fun _ hh => (nomatch hd.symm.trans hh)⟩

/-- A path well at its reset values is in order once what is presented has been offered (R179, R135). -/
theorem Ordered.of_empty {s v : State} (empty : v.path.Empty) (hr : s.ResetOk → v.letIn.ResetOk) : Ordered s v.letIn := by
  by_cases ho : v.path.state = .opened
  · have hst : v.letIn.path.state ≠ .hold := by
      rw [(AdmitFrame.letIn v).power.2.2.2, ho]
      decide
    exact ⟨hr, fun _ hh => absurd hh hst, fun _ => letInList_slotsOk _ _ empty.slotsOk,
      fun _ => letInList_acceptOk _ _ rfl, fun _ hh => absurd hh hst⟩
  · rw [State.letIn_of_not_opened ho] at hr ⊢
    exact ⟨hr, fun _ _ => ⟨empty.1, empty.2.1⟩, fun _ => empty.slotsOk, fun _ _ _ _ => .inl ho,
      fun _ _ _ => empty.2.2.2.1⟩

/-- The end of a path reset leaves the memory path in order (R179). -/
theorem Ordered.endPathReset {s u : State} (straps : BitVec 4) (hr : s.ResetOk → (u.endPathReset straps).ResetOk) :
    Ordered s (u.endPathReset straps) := by
  rw [State.endPathReset_eq] at hr ⊢
  exact .of_empty ⟨rfl, rfl, rfl, rfl, rfl⟩ hr

theorem Ordered.pathResetBegin (s : State) (c : ResetCause) :
    Ordered s (if s.path.state = .down then s.beginCause c else (s.beginCause c).beginPathReset) := by
  split
  · rename_i hd
    cases c <;>
      exact ⟨fun _ _ => ⟨fun _ => by simp [State.beginCause], fun _ => hd⟩, id, id, id,
        fun _ hh => (nomatch hd.symm.trans hh)⟩
  · have same := PathSame.foldl (fun acc i => acc.settleStation i) (fun u i => (TableFrame.settleStation u i).pathSame)
      (allStations.filter fun i => ((s.beginCause c).station i).live?.isSome)
      { s.beginCause c with path := .reset (s.beginCause c).path.areaSel, presented := [] }
    obtain ⟨⟨-, h2, h3, -⟩, ⟨h4, -, h5, -, h6⟩, h7, h8, h9⟩ := same.fields
    refine .of_down ⟨h5, h6, h7, h8, h9⟩ h4 fun _ _ => ⟨fun _ => ?_, fun _ => h4⟩
    cases c
    · exact .inr h3
    · exact .inl h2

theorem Ordered.pathResetEnd (s : State) (c : ResetEnd) (straps : BitVec 4) :
    Ordered s ((s.endCause c).endIfOver straps) := by
  have hr : s.powered = true → s.ResetOk → ((s.endCause c).endIfOver straps).ResetOk := fun hp h =>
    State.endIfOver_resetOk (fun hc => by
      cases c <;> exact (h hp).2 (hc.imp (by simp [State.endCause]) (by simp [State.endCause]))) straps
  have hp := ((s.endCause c).endIfOver_power straps).1
  have hr' : s.ResetOk → ((s.endCause c).endIfOver straps).ResetOk := fun h hpow => by
    have : s.powered = true := by
      rw [hp] at hpow
      cases c <;> exact hpow
    exact hr this h hpow
  by_cases ho : (s.endCause c).resetOver = true
  · rw [State.endIfOver, if_pos ho] at hr' ⊢
    exact .endPathReset straps hr'
  · rw [State.endIfOver, if_neg ho] at hr' ⊢
    cases c <;> exact ⟨hr', id, id, id, fun hne hh => absurd hh hne⟩

theorem Ordered.coldStart (s u : State) (lv : Levels) : Ordered s ((u.coldWith lv).monitor.endIfOver lv.areaSel) := by
  obtain ⟨t, ht, hr⟩ := execColdStart_resetOk lv u
  cases Host.Outcome.next.inj ht
  by_cases ho : (u.coldWith lv).monitor.resetOver = true
  · rw [State.endIfOver, if_pos ho] at hr ⊢
    exact .endPathReset _ fun _ => hr
  · rw [State.endIfOver, if_neg ho] at hr ⊢
    obtain ⟨_, ⟨h4, -, h5, -, h6⟩, h7, h8, h9⟩ := (PathSame.monitor (u.coldWith lv)).fields
    exact .of_down ⟨h5, h6, h7, h8, h9⟩ h4 fun _ => hr

theorem Ordered.unpowered (s u : State) : Ordered s u.unpowered :=
  .of_down ⟨rfl, rfl, rfl, rfl, rfl⟩ rfl fun _ hp => nomatch hp

/-! ## Every command -/

theorem TakeFrame.scanVisit (s : State) : TakeFrame s s.scanVisit := by
  have visit : ∀ u, TakeFrame s (s.setUnit u) := fun u =>
    ⟨rfl, Keeps.of_eq rfl rfl rfl rfl rfl rfl (MarksKept.refl _), id⟩
  unfold State.scanVisit
  split
  · split
    · split
      · exact .answerWith _ _ _ _
      · split
        · exact .answerWith _ _ _ _
        · exact visit _
    · split
      · exact .answerWith _ _ _ _
      · exact visit _
  · exact .refl s

theorem Ordered.scanVisit (s : State) : Ordered s s.scanVisit := (TakeFrame.scanVisit s).ordered State.SlotsOk.scanVisit

theorem Ordered.effect {c : Instr} {f : State → State} (h : effectOf c = some f) {s : State} (hs : s.Ready) :
    Ordered s (f s) := by
  have hn := hs.2
  cases c <;> simp only [effectOf, reduceCtorEq, Option.some.injEq] at h <;> subst h
  case pathResetBegin c => exact .pathResetBegin s c
  case pathResetEnd c straps => exact .pathResetEnd s c straps
  case serverStateChange a b => exact .serverStateChange hn a b
  case encoderPulse l sd =>
    dsimp only
    split
    · exact (PathSame.countPulse s l sd).ordered
    · exact (PathSame.refl s).ordered
  case runLevelChange | directionLevelChange => exact (PathSame.setLine _ _ _).ordered
  case timeBaseTick =>
    exact (((PathSame.completePeriod s).trans (.advanceTime _)).trans (.completeAllDue _)).ordered
  case markerRawTransition l i => exact (PathSame.rawTransition s l i).ordered
  case debounceComplete l i => exact (PathSame.completeDue s l i).ordered
  case passThroughWrite | directiveSlotWrite | goWord | intakeWrite | passThroughRead | apertureRead => exact .present s _
  case apertureReadReturn => exact .returnAperture s
  case readDataReturn => exact .returnPassThrough s
  case mSideGrant => exact .grant s
  case mSideBurstComplete data => exact .completeBurst hn data
  case journalEntryBegin => exact (PathSame.journalBegin s).ordered
  case mirrorGroupWrite => exact (PathSame.mirrorTurn s).ordered
  case mirrorPeriodComplete => exact (PathSame.completePeriod s).ordered
  case resolverTurn => exact (PathSame.resolverTurn s).ordered
  case descendScanVisit => exact .scanVisit s

theorem Ordered.exec {c : Instr} {s t : State} (h : exec c s = .next t) : Ordered s t := by
  rcases exec_cases h with ⟨lv, -, rfl⟩ | ⟨-, rfl⟩ | rfl | ⟨k, -, hk, rfl⟩ | ⟨f, hf, hp, rfl⟩
  · exact .coldStart s s lv
  · exact .unpowered s s
  · exact (PathSame.refl _).ordered
  · exact .takeCode hk
  · exact .after_takeDue (.effect hf ⟨by simpa using hp, s.takeDue_nothingToTake⟩)

/-- Settles O59: every command leaves the memory path in order, by what the takes before it and its own effect leave. -/
theorem everyStepKeepsThePathInOrder : Obligations.EveryStepKeepsThePathInOrder := by
  unfold Obligations.EveryStepKeepsThePathInOrder
  intro s t h
  unfold step at h
  split at h
  · cases h
    exact ⟨id, id, id, id, fun hn hh => absurd hh hn⟩
  · have key := Ordered.exec h
    exact ⟨key.reset, key.hold, key.slots, key.accept, key.enters⟩

end Sys2Proof.Machine
end

section
/-! PROOF. A step runs the command at the front of the queue; a well-formed command completes and leaves the commands behind
it (log 1); the straps are sampled at the end of a path reset alone (R136; O1, O2, O14). -/

namespace Sys2Proof.Machine

/-- Settles O1, by the step's definition. -/
theorem stepRunsTheFrontCommand : Obligations.StepRunsTheFrontCommand := by
  unfold Obligations.StepRunsTheFrontCommand
  refine ⟨fun c rest s h => ?_, fun s h => ?_⟩
  · unfold step
    rw [h]
    rfl
  · unfold step
    rw [h]

/-! ## What no effect reaches: the commands that wait, and, but for the end of a path reset, AREA_SEL -/

theorem Fixed.letIn (s : State) : Fixed s s.letIn := (AdmitFrame.letIn s).fixed

theorem Fixed.grant (s : State) : Fixed s s.grant := by
  unfold State.grant
  split
  · exact .refl s
  · exact (MidKeeps.grantTo s _).fixed.trans (.letIn _)

theorem Fixed.returnPassThrough (s : State) : Fixed s s.returnPassThrough := by
  unfold State.returnPassThrough
  split
  · exact Fixed.trans (t := (s.returnData _).releasePort) ⟨rfl, rfl⟩ (.letIn _)
  · exact .refl s

theorem Fixed.returnAperture (s : State) : Fixed s s.returnAperture := by
  unfold State.returnAperture
  split
  · split
    · exact Fixed.trans (t := (s.returnData _).releasePort) ⟨rfl, rfl⟩ (.letIn _)
    · exact .refl s
  · exact .refl s

theorem Fixed.drainCheck (s : State) : Fixed s s.drainCheck := by
  unfold State.drainCheck
  split
  · exact ⟨rfl, rfl⟩
  · exact .refl s

theorem Fixed.completeBurst (s : State) (data : List Word) : Fixed s (s.completeBurst data) := by
  unfold State.completeBurst
  split
  · exact .refl s
  · split
    · exact .refl s
    · exact Fixed.trans ⟨rfl, rfl⟩ (.drainCheck _)
  · exact Fixed.trans (t := s.idleMSide) ⟨rfl, rfl⟩ (.drainCheck _)

theorem Fixed.goOn (s : State) : Fixed s s.goOn :=
  ((PathSame.foldl _ (fun v i => (SealFrame.seal v i).pathSame) _ s).trans (.journalResume _)).fixed.trans (.letIn _)

theorem Fixed.follow (s : State) (sv : ServerState) : Fixed s (s.follow sv) := by
  unfold State.follow
  split
  · exact .refl s
  · exact Fixed.trans (t := s.setPath .draining) ⟨rfl, rfl⟩ (.drainCheck _)
  · exact Fixed.trans (t := s.setPath .opened) ⟨rfl, rfl⟩ (.goOn _)
  · exact Fixed.trans (t := (s.setPath .opened).markAll) ⟨rfl, rfl⟩ (.goOn _)
  · exact .refl s

theorem Fixed.serverStateChange (s : State) (ssa ssb : Bool) :
    Fixed s (State.monitor { s with ssa := ssa, ssb := ssb }).decodeLines := by
  have pins : Fixed s (State.monitor { s with ssa := ssa, ssb := ssb }) :=
    Fixed.trans (t := { s with ssa := ssa, ssb := ssb }) ⟨rfl, rfl⟩ (PathSame.monitor _).fixed
  refine pins.trans ?_
  generalize State.monitor { s with ssa := ssa, ssb := ssb } = u
  unfold State.decodeLines
  split
  · exact Fixed.trans (t := { u with path.server := _ }) ⟨rfl, rfl⟩ (.follow _ _)
  · exact .refl u

theorem Fixed.pathResetBegin (s : State) (c : ResetCause) :
    Fixed s (if s.path.state = .down then s.beginCause c else (s.beginCause c).beginPathReset) := by
  have cause : Fixed s (s.beginCause c) := by cases c <;> exact ⟨rfl, rfl⟩
  split
  · exact cause
  · refine cause.trans (Fixed.trans ?_
      (PathSame.foldl _ (fun u i => (TableFrame.settleStation u i).pathSame) _ _).fixed)
    exact ⟨rfl, rfl⟩

theorem State.endIfOver_pending (s : State) (straps : BitVec 4) : (s.endIfOver straps).pending = s.pending := by
  unfold State.endIfOver
  split
  · rw [State.endPathReset_eq]
    exact (Fixed.letIn _).1
  · rfl

/-- No effect but that of the end of a path reset reaches AREA_SEL, and none the commands that wait. -/
theorem effect_fixed {c : Instr} {f : State → State} (h : effectOf c = some f) (s : State) :
    (f s).pending = s.pending ∧ ((∀ e straps, c ≠ .pathResetEnd e straps) → (f s).path.areaSel = s.path.areaSel) := by
  by_cases he : ∃ e straps, c = .pathResetEnd e straps
  · obtain ⟨e, straps, rfl⟩ := he
    refine ⟨?_, fun hne => absurd rfl (hne e straps)⟩
    cases h
    exact ((s.endCause e).endIfOver_pending straps).trans (by cases e <;> rfl)
  · have key : Fixed s (f s) := by
      cases c <;> simp only [effectOf, reduceCtorEq, Option.some.injEq] at h <;> subst h
      case pathResetEnd e straps => exact absurd ⟨e, straps, rfl⟩ he
      case pathResetBegin c => exact .pathResetBegin s c
      case serverStateChange a b => exact .serverStateChange s a b
      case encoderPulse l sd =>
        dsimp only
        split
        · exact (PathSame.countPulse s l sd).fixed
        · exact .refl s
      case runLevelChange | directionLevelChange => exact (PathSame.setLine _ _ _).fixed
      case timeBaseTick =>
        exact (((PathSame.completePeriod s).trans (.advanceTime _)).trans (.completeAllDue _)).fixed
      case markerRawTransition l i => exact (PathSame.rawTransition s l i).fixed
      case debounceComplete l i => exact (PathSame.completeDue s l i).fixed
      case passThroughWrite | directiveSlotWrite | goWord | intakeWrite | passThroughRead | apertureRead =>
        exact (AdmitFrame.present s _).fixed
      case apertureReadReturn => exact .returnAperture s
      case readDataReturn => exact .returnPassThrough s
      case mSideGrant => exact .grant s
      case mSideBurstComplete data => exact .completeBurst s data
      case journalEntryBegin => exact (PathSame.journalBegin s).fixed
      case mirrorGroupWrite => exact (PathSame.mirrorTurn s).fixed
      case mirrorPeriodComplete => exact (PathSame.completePeriod s).fixed
      case resolverTurn => exact (PathSame.resolverTurn s).fixed
      case descendScanVisit => exact (TakeFrame.scanVisit s).fixed
    exact ⟨key.1, fun _ => key.2⟩

/-- What a command that completes leaves of the commands that wait, and of AREA_SEL (log 1, R136). -/
theorem exec_fixed {c : Instr} {s t : State} (h : exec c s = .next t) :
    t.pending = s.pending ∧ ((∀ lv, c ≠ .coldStart lv) → c ≠ .standbyPowerLoss →
      (∀ e straps, c ≠ .pathResetEnd e straps) → t.path.areaSel = s.path.areaSel) := by
  rcases exec_cases h with ⟨lv, rfl, rfl⟩ | ⟨rfl, rfl⟩ | rfl | ⟨k, -, hk, rfl⟩ | ⟨f, hf, -, rfl⟩
  · refine ⟨?_, fun hc => absurd rfl (hc lv)⟩
    rw [State.endIfOver_pending]
    exact (PathSame.monitor (s.coldWith lv)).fixed.1
  · exact ⟨rfl, fun _ hl => absurd rfl hl⟩
  · exact ⟨rfl, fun _ _ _ => rfl⟩
  · have key := (TakeFrame.takeCode hk).1.fixed
    exact ⟨key.1, fun _ _ _ => key.2⟩
  · have due := (TakeFrame.takeDue s).fixed
    have key := effect_fixed hf s.takeDue
    exact ⟨key.1.trans due.1, fun _ _ he => (key.2 he).trans due.2⟩

/-- A well-formed command completes (log 1). -/
theorem exec_completes {c : Instr} (hw : c.wf = true) (s : State) : ∃ t, exec c s = .next t := by
  rcases instr_cases c with ⟨lv, rfl⟩ | rfl | ⟨code, hc⟩ | ⟨f, hf⟩
  · exact ⟨_, rfl⟩
  · exact ⟨_, rfl⟩
  · by_cases hp : s.powered = true
    · rcases exec_directiveRow hc hp with he | ⟨k, -, he⟩
      · exact ⟨_, he⟩
      · exact ⟨_, he⟩
    · exact ⟨_, exec_directiveRow_unpowered hc hp⟩
  · exact ⟨_, exec_effectOf hf hw s⟩

theorem presentWrite_malformed {b : WriteBurst} (h : b.wf = false) (s : State) :
    presentWrite b s = .fault .malformedBurst := if_neg (by rw [h]; decide)

theorem presentRead_malformed {b : ReadBurst} (h : b.wf = false) (s : State) :
    presentRead b s = .fault .malformedBurst := if_neg (by rw [h]; decide)

/-- Settles O2: a well-formed command completes, and no command reaches the queue. -/
theorem commandsCompleteAndLeaveTheQueueAlone : Obligations.CommandsCompleteAndLeaveTheQueueAlone := by
  unfold Obligations.CommandsCompleteAndLeaveTheQueueAlone
  refine ⟨fun c s hw => ?_, fun b s h => ?_, fun b s h => ?_⟩
  · obtain ⟨t, ht⟩ := exec_completes hw s
    exact ⟨t, ht, (exec_fixed ht).1⟩
  · have key := presentWrite_malformed h s
    exact ⟨key, key, key, key⟩
  · have key := presentRead_malformed h s
    exact ⟨key, key⟩

/-- Settles O14: the decoder's lemmas say where each part stands, and no command but the end of a path reset samples the
straps. -/
theorem theReservedAreaStandsWhereAreaSelPutsIt : Obligations.TheReservedAreaStandsWhereAreaSelPutsIt := by
  unfold Obligations.TheReservedAreaStandsWhereAreaSelPutsIt
  exact ⟨fun s => areaBase_eq s.path.areaSel, fun _ _ => decodeArea_inside, fun _ _ => decodeArea_outside,
    fun k _ _ => partOf_slot k, fun _ => partOf_status, fun i _ _ => partOf_intake i, fun _ => partOf_plain,
    fun k _ _ _ => partOf_aperture k, fun _ _ _ h => (exec_fixed h).2⟩

end Sys2Proof.Machine
end

section
/-! PROOF. The supplies and the server lines: what a cold start leaves, a part without supply, the end of a path reset, and
the decoded server state (R177 to R181; O3, O4, O6, O7). -/

namespace Sys2Proof.Machine

/-! ## Without supply (R177) -/

theorem not_powered {s : State} (h : s.powered = false) : ¬s.powered = true := by
  rw [h]
  decide

theorem afterTakes_unpowered (f : State → State) {s : State} (h : s.powered = false) : afterTakes f s = .next s :=
  congrArg Host.Outcome.next (if_neg (not_powered h))

/-- A command but a cold start and a loss of supply leaves a part without supply as it is (R177, log 4). -/
theorem exec_unpowered {c : Instr} (hw : c.wf = true) (hc : ∀ lv, c ≠ .coldStart lv) (hl : c ≠ .standbyPowerLoss)
    {s : State} (h : s.powered = false) : exec c s = .next s := by
  rcases instr_cases c with ⟨lv, rfl⟩ | rfl | ⟨code, hcode⟩ | ⟨f, hf⟩
  · exact absurd rfl (hc lv)
  · exact absurd rfl hl
  · exact exec_directiveRow_unpowered hcode (not_powered h)
  · rw [exec_effectOf hf hw, afterTakes_unpowered f h]

/-- Settles O4: no row but a cold start's acts without supply, and a loss of supply leaves the part without it. -/
theorem withoutSupplyThePartDoesNothing : Obligations.WithoutSupplyThePartDoesNothing := by
  unfold Obligations.WithoutSupplyThePartDoesNothing
  exact ⟨fun c s hp hw hc hl => exec_unpowered hw hc hl hp,
    fun s => ⟨s.unpowered, rfl, rfl, rfl, rfl, rfl, rfl, rfl, rfl⟩⟩

/-! ## A cold start (R178) -/

/-- The tracking well a cold start leaves: at its cold-start values, but for SERVER_STATE_ILLEGAL where the server lines read
the illegal combination (R178, R181). -/
def coldTrack (lv : Levels) : Tracking :=
  if lv.ssa = true ∧ lv.ssb = false then
    { Tracking.cold lv with
      illegalMark := true, anomalyCount := 1, trackingFlags := 0x1
      anomalies := (Vector.replicate 32 none).set 0 (some
        { number := 0, time := 0, code := .serverStateIllegal, line := none, pos := none, serial := none }) }
  else Tracking.cold lv

theorem coldWith_monitor (s : State) (lv : Levels) :
    (s.coldWith lv).monitor = { s.coldWith lv with track := coldTrack lv } := by
  have marked : ∀ i : Nat, ∀ h : i < 39, (Vector.replicate 39 true).set i true h = .replicate 39 true := fun i h => by
    ext
    simp
  obtain ⟨lines, ssa, ssb, prst, supply, area⟩ := lv
  cases ssa <;> cases ssb
  case true.false =>
    unfold State.monitor State.anomaly coldTrack
    simp [State.coldWith, Tracking.cold, PathWell.reset, State.setIllegal, State.raiseTrack, State.mark, marked,
      TrackFlag.bit]
  all_goals rfl

/-- The path well a cold start leaves (R178, R179). -/
def coldPath (lv : Levels) : PathWell :=
  if bringsPathUp lv then
    { PathWell.reset lv.areaSel with
      state := if lv.ssa = true ∧ lv.ssb = true then .opened else .hold
      server := some (decodeServer lv.ssa lv.ssb) }
  else .reset 0

theorem exec_coldStart (lv : Levels) (s : State) :
    exec (.coldStart lv) s = .next { s.coldWith lv with track := coldTrack lv, path := coldPath lv } := by
  show Host.Outcome.next ((s.coldWith lv).monitor.endIfOver lv.areaSel) = _
  congr 1
  rw [coldWith_monitor, coldPath]
  split
  · rename_i h
    rw [State.endIfOver, if_pos (State.resetOver_iff.2 ⟨rfl, h⟩), State.endPathReset_of_nil rfl]
    rfl
  · rename_i h
    rw [State.endIfOver_of_not fun hc => h hc.2]
    rfl

theorem coldTrack_eq (lv : Levels) : coldTrack lv =
    { Tracking.cold lv with
      illegalMark := (coldTrack lv).illegalMark, anomalyCount := (coldTrack lv).anomalyCount
      trackingFlags := (coldTrack lv).trackingFlags, anomalies := (coldTrack lv).anomalies } := by
  unfold coldTrack
  split <;> rfl

theorem coldTrack_lines (lv : Levels) (l : LineId) : (coldTrack lv).lines[l] = Line.cold lv.lines[l] := by
  rw [coldTrack_eq]
  fin_cases l <;> rfl

theorem coldTrack_log (lv : Levels) :
    if lv.ssa = true ∧ lv.ssb = false then
      (coldTrack lv).illegalMark = true ∧ (coldTrack lv).anomalyCount = 1 ∧ (coldTrack lv).trackingFlags = 0x1 ∧
        (coldTrack lv).anomalies = (Vector.replicate 32 none).set 0 (some
          { number := 0, time := 0, code := .serverStateIllegal, line := none, pos := none, serial := none })
    else
      (coldTrack lv).illegalMark = false ∧ (coldTrack lv).anomalyCount = 0 ∧ (coldTrack lv).trackingFlags = 0 ∧
        (coldTrack lv).anomalies = .replicate 32 none := by
  unfold coldTrack
  split <;> exact ⟨rfl, rfl, rfl, rfl⟩

theorem coldPath_eq (lv : Levels) : coldPath lv =
    { PathWell.reset (if bringsPathUp lv then lv.areaSel else 0) with
      state := if bringsPathUp lv then (if lv.ssa = true ∧ lv.ssb = true then .opened else .hold) else .down
      server := if bringsPathUp lv then some (decodeServer lv.ssa lv.ssb) else none } := by
  unfold coldPath
  split <;> rfl

/-- Settles O3: a cold start leaves the cold-start values, and at the quiet levels State.reset. -/
theorem coldStartGivesColdStartValues : Obligations.ColdStartGivesColdStartValues := by
  unfold Obligations.ColdStartGivesColdStartValues
  refine ⟨fun lv s => ⟨_, exec_coldStart lv s, rfl, rfl, rfl, rfl, rfl, fun l => ?_, ?_, ?_, ?_, ?_, ?_, ?_, ?_, ?_, rfl, rfl,
    rfl, rfl, ?_⟩, fun s => ?_⟩
  · exact coldTrack_lines lv l
  · exact congrArg (·.clock) (coldTrack_eq lv)
  · exact congrArg (·.table) (coldTrack_eq lv)
  · exact congrArg (·.backlog) (coldTrack_eq lv)
  · exact congrArg (·.nextSeq) (coldTrack_eq lv)
  · exact congrArg (·.trackFaultMask) (coldTrack_eq lv)
  · show ((coldTrack lv).trackingFlags &&& (coldTrack lv).trackFaultMask != 0) = false
    rw [show (coldTrack lv).trackFaultMask = 0 from congrArg (·.trackFaultMask) (coldTrack_eq lv)]
    simp
  · exact coldPath_eq lv
  · show ((coldPath lv).state != .down && _ &&& (coldPath lv).alertMask != 0) = false
    rw [show (coldPath lv).alertMask = 0 from congrArg (·.alertMask) (coldPath_eq lv)]
    simp
  · exact coldTrack_log lv
  · rw [exec_coldStart]
    rfl

/-! ## The end of a path reset (R179) -/

theorem exec_pathResetEnd {s : State} (h : s.Ready) (c : ResetEnd) (straps : BitVec 4) :
    exec (.pathResetEnd c straps) s = .next ((s.endCause c).endIfOver straps) :=
  afterTakes_ready (f := fun s => (s.endCause c).endIfOver straps) h

/-- In DOWN no take is due (R156). -/
theorem State.Ready.of_down {s : State} (hp : s.powered = true) (hd : s.path.state = .down) : s.Ready :=
  ⟨hp, fun _ _ => by rw [hd]; decide⟩

/-- The path reset ends where the moved pin leaves neither condition failing (R179). -/
theorem endIfOver_endCause {s : State} {c : ResetEnd} (hd : s.path.state = .down)
    (hp : c = .supplyReturned ∨ s.pathPower = true) (hr : c = .prstNegated ∨ s.prst = false) (straps : BitVec 4) :
    (s.endCause c).endIfOver straps = State.letIn { s with
      prst := false, pathPower := true
      path := { PathWell.reset straps with
        state := (if s.ssa = true ∧ s.ssb = true then .opened else .hold)
        server := some (decodeServer s.ssa s.ssb) } } := by
  have moved : s.endCause c = { s with prst := false, pathPower := true } := by
    obtain ⟨_, _, _, _, _, _, _, _, _, _, _⟩ := s
    cases c
    · obtain rfl := hp.resolve_left (by decide)
      rfl
    · obtain rfl := hr.resolve_left (by decide)
      rfl
  have ended : (s.endCause c).resetOver = true := State.resetOver_iff.2 (by rw [moved]; exact ⟨hd, rfl, rfl⟩)
  rw [State.endIfOver, if_pos ended, moved, State.endPathReset_eq]

/-- What acceptance leaves of the path well: its state, AREA_SEL and the server state. -/
theorem AdmitFrame.server {s t : State} (h : AdmitFrame s t) : t.path.server = s.path.server :=
  congrArg (·.path.server) h.core

/-- Settles O6: the path reset ends where both conditions hold, and else the pin alone moves. -/
theorem pathResetEnds : Obligations.PathResetEnds := by
  unfold Obligations.PathResetEnds
  refine ⟨fun c straps s hp hd h1 h2 => ?_, fun straps s hs => ⟨fun h => ?_, fun h => ?_⟩⟩
  · have key := exec_pathResetEnd (.of_down hp hd) c straps
    rw [endIfOver_endCause hd h1 h2] at key
    refine ⟨⟨_, key, ?_, ?_, ?_⟩, fun u hu => ?_⟩
    · exact (Fixed.letIn _).2
    · exact (AdmitFrame.letIn _).power.2.2.2
    · exact (AdmitFrame.letIn _).server
    · subst hu
      exact ⟨key, fun hn => key.trans (congrArg Host.Outcome.next (State.letIn_of_nil hn))⟩
  · rw [exec_pathResetEnd hs]
    refine congrArg Host.Outcome.next (State.endIfOver_of_not (s := s.endCause .prstNegated) ?_ straps)
    rintro ⟨hd, hp, -⟩
    exact h.elim (fun h => h hd) fun h => absurd (h.symm.trans hp) (by decide)
  · rw [exec_pathResetEnd hs]
    refine congrArg Host.Outcome.next (State.endIfOver_of_not (s := s.endCause .supplyReturned) ?_ straps)
    rintro ⟨hd, -, hr⟩
    exact h.elim (fun h => h hd) fun h => absurd (h.symm.trans hr) (by decide)

end Sys2Proof.Machine
end

section
/-! PROOF. The server lines are decoded, and the illegal combination enters its anomaly once (R180, R181; O7). -/

namespace Sys2Proof.Machine

/-! ## What leaves the illegal-state mark -/

/-- An operation that leaves the illegal-state mark (R181). -/
def IllegalKept (s t : State) : Prop := t.track.illegalMark = s.track.illegalMark

theorem IllegalKept.refl (s : State) : IllegalKept s s := rfl

theorem IllegalKept.trans {s t u : State} (h : IllegalKept s t) (g : IllegalKept t u) : IllegalKept s u := Eq.trans g h

theorem SealFrame.illegalKept {i : Fin 8} {s t : State} (h : SealFrame i s t) : IllegalKept s t := by
  obtain ⟨_, _, _, _, _, _, _, _, _, _, _, rfl⟩ := h.shape
  rfl

theorem TableFrame.illegalKept {s t : State} (h : TableFrame s t) : IllegalKept s t := (h.sealing (i := 0)).illegalKept

theorem SeamFrame.illegalKept {l : LineId} {s t : State} (h : SeamFrame l s t) : IllegalKept s t := by
  obtain ⟨⟨_, _, _, _, _, _, _, _, rfl⟩, -⟩ := h
  rfl

theorem PortFrame.illegalKept {s t : State} (h : PortFrame s t) : IllegalKept s t := by
  have key := congrArg (fun x : State => x.track.illegalMark) h.core
  exact key

theorem IllegalKept.of_track {s t : State} (h : t.track = s.track) : IllegalKept s t :=
  congrArg (fun x : Tracking => x.illegalMark) h

theorem IllegalKept.setLine (s : State) (l : LineId) (ln : Line) : IllegalKept s (s.setLine l ln) := by
  unfold IllegalKept
  rw [State.setLine_track]

theorem IllegalKept.setStation (s : State) (i : Fin 8) (st : Station) : IllegalKept s (s.setStation i st) :=
  .of_track (State.setStation_track s i st)

theorem IllegalKept.foldl {α : Type} (f : State → α → State) (hf : ∀ s a, IllegalKept s (f s a)) (xs : List α) (s : State) :
    IllegalKept s (xs.foldl f s) := foldl_frame IllegalKept.refl IllegalKept.trans f hf xs s

/-- No directive reaches the illegal-state mark (R157). -/
theorem DirectiveEffect.illegalKept {s t : State} (h : DirectiveEffect s t) : IllegalKept s t := by
  cases h with
  | none => exact .refl s
  | drawn => exact .refl s
  | line l ln h => exact .setLine s l ln
  | tracking l ln h => exact (IllegalKept.setLine s l ln).trans (TableFrame.judgeAnnounce ((s.setLine l ln).mark _)).illegalKept
  | cleared l ns =>
    exact ((IllegalKept.foldl (fun acc n => State.forceSettle acc n) (fun u n => (TableFrame.forceSettle u n).illegalKept)
      ns s).trans (.setLine _ _ _)).trans (TableFrame.judgeAnnounce _).illegalKept
  | clock t => exact .refl s
  | announced l kind n hn hl => exact (SeamFrame.setQueue _ _ _ _).illegalKept
  | withdrawn l kind n => exact (SeamFrame.setQueue _ _ _ _).illegalKept
  | seamIn l p t => exact (SeamFrame.acceptSeamIn _ _ _ _).illegalKept
  | exitSeam l p => exact (SeamFrame.acceptExitSeam _ _ _).illegalKept
  | shear l p t => exact (SeamFrame.acceptShear _ _ _ _).illegalKept
  | named n number => exact (TableFrame.modify _ _ _).illegalKept
  | namedEntry n number => exact ((TableFrame.modify _ _ _).trans (.sourceLookup _ _)).illegalKept
  | namedExit n number => exact ((TableFrame.modify _ _ _).trans (.mapWrite _ _ _)).illegalKept
  | defined i w off h => exact .setStation s i _
  | verdict i chain off => exact .setStation s i _
  | prepare i n off =>
    exact (IllegalKept.setStation s i _).trans
      (.of_track (State.setStation_track { s.setStation i _ with path.prepQueue := _ } i _))
  | adopt i n off => exact (IllegalKept.setStation s i _).trans (SealFrame.enterLive _ _).illegalKept
  | stopPreparing i => exact .setStation { s with path.prepQueue := _ } i _
  | stopLive i =>
    exact (IllegalKept.setStation { s with path.waitList := s.path.waitList.filter fun w => w != Waiter.sealing i } i
      { s.station i with state := .off }).trans
      (TableFrame.settleStation (State.mark _ (stationGroup i)) i).illegalKept
  | cursor k c => exact .of_track (State.setCursor_track s k c)
  | refreshed k c => exact .of_track (State.setCursor_track s k c)
  | journal j => exact .of_track (State.setJournal_track s j)
  | acknowledged set => exact IllegalKept.trans (t := s.clearFlags set) rfl (TableStep.rejudge _ set).1.illegalKept
  | masks a f ha hf => exact .refl s
  | period p => exact .refl s

theorem IllegalKept.answerWith (s : State) (k : Fin 16) (r : Option Reason) (a : List Word) :
    IllegalKept s (s.answerWith k r a) := by
  have h := Offered.offerAnswer k (resultBursts s.base k a (statusWord (s.slot k).tag r a.length)) s
  exact .of_track (congrArg (·.track) h.part)

theorem IllegalKept.takeCode {s : State} {k : Fin 16} (h : s.headSlot = some k) :
    IllegalKept s (s.takeCode (s.slot k).code.toNat) := by
  rcases takeCode_cases h with ⟨u, r, a, hu, -, he⟩ | ⟨target, kind, he⟩
  · rw [he]
    exact IllegalKept.trans (t := s.beginDirective k) rfl (hu.illegalKept.trans (.answerWith _ _ _ _))
  · rw [he]
    rfl

theorem IllegalKept.takeDue (s : State) : IllegalKept s s.takeDue :=
  takeDue_keeps (P := IllegalKept s) (fun _ _ hk h => h.trans (.takeCode hk)) (.refl s)

theorem IllegalKept.letInList : ∀ (ts : List Transaction) (s : State), IllegalKept s (State.letInList ts s)
  | [], s => .refl s
  | t :: rest, s => by
    simp only [State.letInList]
    split
    · exact ((IllegalKept.takeDue s).trans (PortFrame.accept _ t).illegalKept).trans (.letInList rest _)
    · exact .refl s

theorem IllegalKept.journalAppended (s : State) : IllegalKept s s.journalAppended := by
  unfold State.journalAppended
  dsimp only
  split
  · rfl
  · exact (TableFrame.judgeBacklog _).illegalKept

theorem IllegalKept.journalOffer (n : Nat) (s : State) : IllegalKept s (State.journalOffer n s) := by
  induction n generalizing s with
  | zero => exact .refl s
  | succ n ih =>
    simp only [State.journalOffer]
    split
    · split
      · exact .refl s
      · rename_i b _
        have one : IllegalKept s (s.append b).journalAppended :=
          IllegalKept.trans (t := s.append b) rfl (.journalAppended _)
        split
        · split
          · exact one.trans (ih _)
          · exact one
        · rfl
    · exact .refl s

theorem IllegalKept.journalResume (s : State) : IllegalKept s s.journalResume := by
  unfold State.journalResume
  split
  · exact .journalOffer _ _
  · exact .refl s

theorem IllegalKept.goOn (s : State) : IllegalKept s s.goOn := by
  have sealed : IllegalKept s (allStations.foldl (fun acc i => acc.seal i) s) :=
    .foldl _ (fun u i => (SealFrame.seal u i).illegalKept) _ s
  unfold State.goOn
  generalize allStations.foldl (fun acc i => acc.seal i) s = u at sealed ⊢
  have resumed := IllegalKept.journalResume u
  generalize u.journalResume = v at resumed ⊢
  have letIn : IllegalKept v v.letIn := IllegalKept.letInList v.presented (v.setPresented [])
  exact (sealed.trans resumed).trans letIn

theorem IllegalKept.drainCheck (s : State) : IllegalKept s s.drainCheck := by
  unfold State.drainCheck
  split <;> rfl

theorem IllegalKept.follow (s : State) (sv : ServerState) : IllegalKept s (s.follow sv) := by
  unfold State.follow
  split
  · exact .refl s
  · exact IllegalKept.trans (t := s.setPath .draining) rfl (.drainCheck _)
  · exact IllegalKept.trans (t := s.setPath .opened) rfl (.goOn _)
  · exact IllegalKept.trans (t := (s.setPath .opened).markAll) rfl (.goOn _)
  · exact .refl s

/-! ## What the path state's following leaves: the pins and the decoded state, and off RUN the tracking well -/

/-- An operation that leaves the server pins and the decoded server state (R180). -/
def PinsKept (s t : State) : Prop := t.ssa = s.ssa ∧ t.ssb = s.ssb ∧ t.path.server = s.path.server

theorem PinsKept.trans {s t u : State} (h : PinsKept s t) (g : PinsKept t u) : PinsKept s u :=
  ⟨g.1.trans h.1, g.2.1.trans h.2.1, g.2.2.trans h.2.2⟩

theorem PathSame.pinsKept {s t : State} (h : PathSame s t) : PinsKept s t :=
  ⟨congrArg (·.ssa) h, congrArg (·.ssb) h, congrArg (·.path.server) h⟩

theorem AdmitFrame.pinsKept {s t : State} (h : AdmitFrame s t) : PinsKept s t :=
  ⟨congrArg (·.ssa) h.core, congrArg (·.ssb) h.core, congrArg (·.path.server) h.core⟩

theorem PinsKept.goOn (s : State) : PinsKept s s.goOn := by
  have same : PathSame s (allStations.foldl (fun acc i => acc.seal i) s).journalResume :=
    (PathSame.foldl _ (fun v i => (SealFrame.seal v i).pathSame) _ s).trans (.journalResume _)
  unfold State.goOn
  generalize (allStations.foldl (fun acc i => acc.seal i) s).journalResume = v at same ⊢
  exact same.pinsKept.trans (AdmitFrame.letIn v).pinsKept

theorem PinsKept.follow (s : State) (sv : ServerState) : PinsKept s (s.follow sv) := by
  unfold State.follow
  split
  · exact ⟨rfl, rfl, rfl⟩
  · unfold State.drainCheck
    split <;> exact ⟨rfl, rfl, rfl⟩
  · exact PinsKept.trans (t := s.setPath .opened) ⟨rfl, rfl, rfl⟩ (.goOn _)
  · exact PinsKept.trans (t := (s.setPath .opened).markAll) ⟨rfl, rfl, rfl⟩ (.goOn _)
  · exact ⟨rfl, rfl, rfl⟩

theorem State.drainCheck_track (s : State) : s.drainCheck.track = s.track := by
  unfold State.drainCheck
  split
  · rw [State.setPath_track]
  · rfl

theorem State.follow_track {sv : ServerState} (h : sv ≠ .run) (s : State) : (s.follow sv).track = s.track := by
  unfold State.follow
  split
  · rfl
  · rw [State.drainCheck_track, State.setPath_track]
  · exact absurd rfl h
  · exact absurd rfl h
  · rfl

/-! ## The monitor (R181) -/

theorem State.monitor_legal {s : State} (h : (s.ssa && !s.ssb) = false) : s.monitor = s.setIllegal false := by
  unfold State.monitor
  rw [h]
  rfl

theorem State.monitor_marked {s : State} (h : (s.ssa && !s.ssb) = true) (hm : s.track.illegalMark = true) :
    s.monitor = s := by
  unfold State.monitor
  rw [h, hm]
  rfl

theorem State.monitor_enters {s : State} (h : (s.ssa && !s.ssb) = true) (hm : s.track.illegalMark = false) :
    s.monitor = (s.anomaly .serverStateIllegal none none none).setIllegal true := by
  unfold State.monitor
  rw [h, hm]
  rfl

theorem State.monitor_illegalMark (s : State) : s.monitor.track.illegalMark = (s.ssa && !s.ssb) := by
  cases h : (s.ssa && !s.ssb)
  · rw [State.monitor_legal h]
    rfl
  · cases hm : s.track.illegalMark
    · rw [State.monitor_enters h hm]
      rfl
    · rw [State.monitor_marked h hm, hm]

/-- The state with other levels at the server pins. -/
abbrev State.withPins (s : State) (ssa ssb : Bool) : State := { s with ssa := ssa, ssb := ssb }

theorem exec_serverStateChange {s : State} (h : s.Ready) (ssa ssb : Bool) :
    exec (.serverStateChange ssa ssb) s = .next (s.withPins ssa ssb).monitor.decodeLines :=
  afterTakes_ready (f := fun s => (s.withPins ssa ssb).monitor.decodeLines) h

theorem State.decodeLines_powered {s : State} (h : s.pathPower = true) :
    s.decodeLines = { s with path.server := some (decodeServer s.ssa s.ssb) }.follow (decodeServer s.ssa s.ssb) := if_pos h

theorem State.decodeLines_unpowered {s : State} (h : s.pathPower = false) : s.decodeLines = s :=
  if_neg (by rw [h]; decide)

theorem State.decodeLines_illegalMark (s : State) : s.decodeLines.track.illegalMark = s.track.illegalMark := by
  cases h : s.pathPower
  · rw [State.decodeLines_unpowered h]
  · rw [State.decodeLines_powered h]
    exact IllegalKept.follow _ _

/-- Off RUN the decoded state moves no block of the tracking well (R148). -/
theorem State.decodeLines_track {s : State} (h : decodeServer s.ssa s.ssb ≠ .run) : s.decodeLines.track = s.track := by
  cases hp : s.pathPower
  · rw [State.decodeLines_unpowered hp]
  · rw [State.decodeLines_powered hp]
    exact State.follow_track h _

theorem decodeServer_eq (ssa ssb : Bool) : decodeServer ssa ssb =
    if ssa = true ∧ ssb = true then .run else if ssa = false ∧ ssb = false then .off else .holdRequest := by
  cases ssa <;> cases ssb <;> rfl

/-- What the monitor leaves of the supplies, the pins and the server state. -/
theorem State.monitor_pins (s : State) :
    s.monitor.pathPower = s.pathPower ∧ s.monitor.ssa = s.ssa ∧ s.monitor.ssb = s.ssb ∧
      s.monitor.path.server = s.path.server := by
  obtain ⟨_, _, h⟩ := State.monitor_eq s
  rw [h]
  exact ⟨rfl, rfl, rfl, rfl⟩

theorem State.monitor_enters_track {s : State} (h : (s.ssa && !s.ssb) = true) (hm : s.track.illegalMark = false) :
    s.monitor.track = { s.track with
      illegalMark := true
      anomalies := s.track.anomalies.set (s.track.anomalyCount.toNat % 32)
        (some { number := s.track.anomalyCount, time := s.track.clock, code := .serverStateIllegal
                line := none, pos := none, serial := none }) (Nat.mod_lt _ (by decide))
      anomalyCount := s.track.anomalyCount + 1
      trackingFlags := s.track.trackingFlags ||| 0x1 } := by
  rw [State.monitor_enters h hm]
  unfold State.setIllegal
  rw [State.anomaly_track, (State.anomaly_rest s _ _ _ _).2.2.2.1]

/-- Settles O7: the lines are decoded while the path well is powered, and the mark follows the illegal combination, which
enters its anomaly once. -/
theorem serverLinesAreDecoded : Obligations.ServerLinesAreDecoded := by
  unfold Obligations.ServerLinesAreDecoded
  refine ⟨fun ssa ssb s hs => ⟨_, exec_serverStateChange hs ssa ssb, ?_⟩,
    fun ssa ssb s hs => ⟨_, exec_serverStateChange hs ssa ssb, ?_⟩⟩
  · obtain ⟨hp, ha, hb, hsv⟩ := State.monitor_pins (s.withPins ssa ssb)
    generalize (s.withPins ssa ssb).monitor = m at hp ha hb hsv ⊢
    cases hpow : s.pathPower
    · rw [State.decodeLines_unpowered (hp.trans hpow)]
      exact ⟨ha, hb, hsv⟩
    · rw [State.decodeLines_powered (hp.trans hpow)]
      obtain ⟨h1, h2, h3⟩ := PinsKept.follow
        { m with path.server := some (decodeServer m.ssa m.ssb) } (decodeServer m.ssa m.ssb)
      refine ⟨h1.trans ha, h2.trans hb, h3.trans ?_⟩
      show some (decodeServer m.ssa m.ssb) = _
      rw [show m.ssa = ssa from ha, show m.ssb = ssb from hb, decodeServer_eq]
      cases ssa <;> cases ssb <;> rfl
  · obtain ⟨-, ha, hb, -⟩ := State.monitor_pins (s.withPins ssa ssb)
    refine ⟨?_, ?_, ?_⟩
    · rw [State.decodeLines_illegalMark, State.monitor_illegalMark]
    · rintro rfl rfl hm
      rw [State.decodeLines_track (by rw [ha, hb]; exact (by decide : decodeServer true false ≠ .run)), State.monitor_marked (s := s.withPins true false) rfl hm]
    · rintro rfl rfl hm
      rw [State.decodeLines_track (by rw [ha, hb]; exact (by decide : decodeServer true false ≠ .run)), State.monitor_enters_track (s := s.withPins true false) rfl hm]

end Sys2Proof.Machine
end

section
/-! PROOF. What a path reset settles: the records of the stations that were LIVE, one after another in the journal, the log
and the flags (R179, R150, R69, R70, R163; O5). -/

namespace Sys2Proof.Machine

/-! ## A list of records settled one after another (R70, R163) -/

/-- A record is changed and then settled: settling by force sets FORCED first (R71), an ordinary settling changes nothing
first. -/
def State.settleAs (g : Record → Record) (s : State) (n : Nat) : State := (s.modify n g).settle n

theorem modify_id (s : State) (n : Nat) : s.modify n id = s := by
  have same : mapSerial n id s.track.table.places = s.track.table.places := by
    unfold mapSerial
    simp
  rw [State.modify_eq, same]

theorem settleAs_id (s : State) (n : Nat) : s.settleAs id n = s.settle n := by
  unfold State.settleAs
  rw [modify_id]

/-- The change that comes before a settling leaves a record's serial and line. -/
abbrev Record.Stays (g : Record → Record) : Prop := ∀ r, (g r).serial = r.serial ∧ (g r).line = r.line

theorem stays_id : Record.Stays id := fun _ => ⟨rfl, rfl⟩

/-- The records of a list are changed and settled, in its order. -/
def State.settleAll (g : Record → Record) (s : State) (rs : List Record) : State :=
  rs.foldl (fun a r => a.settleAs g r.serial) s

/-- The anomalies of settlings that found the backlog full (R163). -/
def State.backlogFull (s : State) (rs : List Record) : State :=
  rs.foldl (fun a r => a.anomaly .journalBacklogFull (some r.line) none (some r.serial)) s

/-- The flags that settlings raise: RECORD_SETTLED, BACKLOG_HIGH and ANOMALY. -/
def settleFlags (settled high full : Bool) : Word :=
  (if settled then 0x2 else 0) ||| ((if high then 0x8 else 0) ||| if full then 0x1 else 0)

theorem settleFlags_or : ∀ a b c a' b' c' : Bool,
    settleFlags a b c ||| settleFlags a' b' c' = settleFlags (a || a') (b || b') (c || c') := by
  decide

/-- Two states whose anomaly logs and clocks agree. -/
def LogSame (s t : State) : Prop :=
  t.track.anomalies = s.track.anomalies ∧ t.track.anomalyCount = s.track.anomalyCount ∧ t.track.clock = s.track.clock

theorem anomaly_clock (s : State) (c : AnomalyCode) (l : Option LineId) (p n : Option Nat) :
    (s.anomaly c l p n).track.clock = s.track.clock := by
  rw [State.anomaly_track]

theorem LogSame.anomaly {s t : State} (h : LogSame s t) (c : AnomalyCode) (l : Option LineId) (p n : Option Nat) :
    LogSame (s.anomaly c l p n) (t.anomaly c l p n) := by
  obtain ⟨h1, h2, h3⟩ := h
  refine ⟨?_, ?_, ?_⟩
  · rw [(State.anomaly_rest t c l p n).2.2.2.1, (State.anomaly_rest s c l p n).2.2.2.1, h1, h3]
    congr 1
    · rw [h2]
    · rw [h2]
  · rw [(State.anomaly_rest t c l p n).2.2.2.2, (State.anomaly_rest s c l p n).2.2.2.2, h2]
  · rw [anomaly_clock, anomaly_clock, h3]

theorem LogSame.backlogFull (rs : List Record) : ∀ {s t : State}, LogSame s t → LogSame (s.backlogFull rs) (t.backlogFull rs) := by
  induction rs with
  | nil => exact fun h => h
  | cons r rest ih => exact fun h => ih (h.anomaly _ _ _ _)

theorem find_modify_of {g : Record → Record} (hg : Record.Stays g) {s : State} {r : Record}
    (h : s.find r.serial = some r) : (s.modify r.serial g).find r.serial = some (g r) :=
  State.find_modify_self h g fun x => (hg x).1

theorem modify_logSame (s : State) (n : Nat) (g : Record → Record) : LogSame s (s.modify n g) := by
  rw [State.modify_eq]
  exact ⟨rfl, rfl, rfl⟩

theorem modify_backlog (s : State) (n : Nat) (g : Record → Record) :
    (s.modify n g).track.backlog = s.track.backlog ∧ (s.modify n g).track.nextSeq = s.track.nextSeq ∧
      (s.modify n g).track.clock = s.track.clock ∧ (s.modify n g).track.trackingFlags = s.track.trackingFlags := by
  rw [State.modify_eq]
  exact ⟨rfl, rfl, rfl, rfl⟩

/-- A settling's log: as it was while there is room, else with the anomaly (R163). -/
theorem settle_logSame {g : Record → Record} (hg : Record.Stays g) {s : State} {r : Record}
    (h : s.find r.serial = some r) :
    LogSame (s.backlogFull ([r].drop (128 - s.track.backlog.length))) (s.settleAs g r.serial) := by
  have ht := State.settle_track (find_modify_of hg h)
  have hm := modify_logSame s r.serial g
  have hb := (modify_backlog s r.serial g).1
  rw [hb] at ht
  unfold State.settleAs
  have hc : ((s.modify r.serial g).settle r.serial).track.clock = s.track.clock := by rw [ht, hm.2.2]
  by_cases hl : s.track.backlog.length < 128
  · rw [List.drop_eq_nil_of_le (by simp only [List.length_singleton]; omega)]
    refine ⟨?_, ?_, hc⟩
    · exact ((congrArg (·.anomalies) ht).trans (if_pos hl)).trans hm.1
    · exact ((congrArg (·.anomalyCount) ht).trans (if_pos hl)).trans hm.2.1
  · rw [Nat.sub_eq_zero_of_le (by omega), List.drop_zero]
    have ha := hm.anomaly .journalBacklogFull (some r.line) none (some r.serial)
    rw [(hg r).1, (hg r).2] at ht
    refine ⟨?_, ?_, ?_⟩
    · exact ((congrArg (·.anomalies) ht).trans (if_neg hl)).trans ha.1
    · refine ((congrArg (·.anomalyCount) ht).trans (if_neg hl)).trans ?_
      exact (congrArg (· + 1) hm.2.1).trans
        (State.anomaly_rest s .journalBacklogFull (some r.line) none (some r.serial)).2.2.2.2.symm
    · rw [hc]
      exact (anomaly_clock s _ _ _ _).symm

theorem backlogFull_flags (s : State) (rs : List Record) :
    (s.backlogFull rs).track.trackingFlags = s.track.trackingFlags ||| settleFlags false false (decide (rs ≠ [])) := by
  induction rs generalizing s with
  | nil => exact (BitVec.or_zero).symm
  | cons r rest ih =>
    show ((s.anomaly _ _ _ _).backlogFull rest).track.trackingFlags = _
    rw [ih, State.anomaly_track]
    show s.track.trackingFlags ||| settleFlags false false true ||| _ = _
    rw [BitVec.or_assoc, settleFlags_or]
    simp

/-- The records of a list stand in the table under their serials, each serial once. -/
def State.Present (s : State) (rs : List Record) : Prop :=
  (rs.map (·.serial)).Nodup ∧ ∀ r ∈ rs, s.find r.serial = some r

section
variable {g : Record → Record} (hg : Record.Stays g)
include hg

theorem find_settle_ne {s : State} {n m : Nat} {r : Record} (h : s.find n = some r) (hm : m ≠ n) :
    (s.settleAs g n).find m = s.find m := by
  have hf := State.find_modify_self h g fun x => (hg x).1
  have first := State.find_modify_ne s hm g fun x => (hg x).1
  have second := State.find_modify_ne (s.modify n g) hm Record.settled fun _ => rfl
  refine Eq.trans ?_ (second.trans first)
  show (State.settle _ n).track.table.find m = (State.modify _ n Record.settled).track.table.find m
  rw [(State.settle_rest hf).1, State.modify_eq (s.modify n g)]

theorem State.Present.tail {s : State} {r : Record} {rest : List Record} (h : s.Present (r :: rest)) :
    (s.settleAs g r.serial).Present rest := by
  obtain ⟨hnd, hf⟩ := h
  obtain ⟨hr, hnd⟩ := List.nodup_cons.1 hnd
  refine ⟨hnd, fun x hx => ?_⟩
  have hne : x.serial ≠ r.serial := fun he => hr (List.mem_map.2 ⟨x, hx, he⟩)
  rw [find_settle_ne hg (hf r List.mem_cons_self) hne]
  exact hf x (List.mem_cons_of_mem r hx)

end

/-- The journal entries settlings make while there is room, numbered on from n. -/
def settledEntries (n : Nat) (time : Time) (rs : List Record) : List JournalEntry :=
  rs.mapIdx fun j r => { seq := n + j, settledAt := time, record := r.settled }

theorem settledEntries_cons (n : Nat) (time : Time) (r : Record) (rest : List Record) :
    settledEntries n time (r :: rest) =
      { seq := n, settledAt := time, record := r.settled } :: settledEntries (n + 1) time rest := by
  unfold settledEntries
  rw [List.mapIdx_cons]
  congr 1
  apply List.mapIdx_eq_mapIdx_iff.2
  intro i _
  rw [Nat.add_right_comm, Nat.add_assoc]

theorem drop_ne_nil_iff {α : Type} (n : Nat) (xs : List α) : xs.drop n ≠ [] ↔ n < xs.length := by
  rw [ne_eq, List.drop_eq_nil_iff, Nat.not_le]

section
variable {g : Record → Record} (hg : Record.Stays g)
include hg

/-- What a settling leaves of the table, the next number and the backlog (R70). -/
theorem settleAs_rest {s : State} {n : Nat} {r : Record} (h : s.find n = some r) :
    (s.settleAs g n).track.table =
        { s.track.table with places := mapSerial n (fun r => (g r).settled) s.track.table.places } ∧
      (s.settleAs g n).track.nextSeq = s.track.nextSeq + 1 ∧
      (s.settleAs g n).track.backlog = (if s.track.backlog.length < 128 then
        s.track.backlog ++ [{ seq := s.track.nextSeq, settledAt := s.track.clock, record := (g r).settled }]
       else s.track.backlog) := by
  obtain ⟨h1, h2, h3⟩ := State.settle_rest (State.find_modify_self h g fun x => (hg x).1)
  refine ⟨?_, h2, h3⟩
  show (State.settle _ n).track.table = _
  rw [h1, State.modify_eq]
  refine congrArg (fun p => { s.track.table with places := p }) ?_
  unfold mapSerial
  rw [List.map_map]
  refine List.map_congr_left fun e _ => ?_
  by_cases hx : e.2.serial = n
  · simp [hx, (hg e.2).1]
  · simp [hx]

theorem settle_backlog_length {s : State} {r : Record} (h : s.find r.serial = some r) :
    128 - (s.settleAs g r.serial).track.backlog.length = 128 - s.track.backlog.length - 1 := by
  rw [(settleAs_rest hg h).2.2]
  split
  · rw [List.length_append, List.length_singleton]
    omega
  · omega

theorem settle_flags {s : State} {r : Record} (h : s.find r.serial = some r) :
    (s.settleAs g r.serial).track.trackingFlags = s.track.trackingFlags |||
      settleFlags true (decide (s.track.backlog.length < 128 ∧ 95 ≤ s.track.backlog.length))
        (decide (128 ≤ s.track.backlog.length)) := by
  obtain ⟨hb, -, -, hf⟩ := modify_backlog s r.serial g
  unfold State.settleAs
  rw [State.settle_track (find_modify_of hg h), hb, hf]
  show s.track.trackingFlags ||| 0x2 ||| _ = _
  rw [BitVec.or_assoc]
  congr 1
  by_cases hl : s.track.backlog.length < 128
  · by_cases hh : 95 ≤ s.track.backlog.length
    · simp [settleFlags, hl, hh, Nat.not_le.2 hl]
    · simp [settleFlags, hl, hh, Nat.not_le.2 hl]
  · simp [settleFlags, hl, Nat.not_lt.1 hl]

/-- The table and the next number after a list of records has been settled (R70). -/
theorem settleAll_table {s : State} {rs : List Record} (h : s.Present rs) :
    (s.settleAll g rs).track.table = { s.track.table with
      places := settledList (rs.map (·.serial)) (fun r => (g r).settled) s.track.table.places } ∧
    (s.settleAll g rs).track.nextSeq = s.track.nextSeq + rs.length := by
  obtain ⟨h1, h2, -⟩ := settle_list (step := State.settleAs g) (f := fun r => (g r).settled) (fun r => (hg r).1)
    (rs.map (·.serial)) s h.1
    (fun n hn => by
      obtain ⟨r, hr, rfl⟩ := List.mem_map.1 hn
      exact ⟨r, h.2 r hr⟩)
    (fun u n r _ hu _ => settleAs_rest hg hu)
  rw [List.foldl_map] at h1 h2
  rw [List.length_map] at h2
  exact ⟨h1, h2⟩

/-- What settling a list of records leaves of the backlog, the log and the flags (R70, R163). -/
theorem settleAll_track (rs : List Record) : ∀ {s : State}, s.Present rs →
    (s.settleAll g rs).track.backlog = s.track.backlog ++
      settledEntries s.track.nextSeq s.track.clock ((rs.take (128 - s.track.backlog.length)).map g) ∧
    LogSame (s.backlogFull (rs.drop (128 - s.track.backlog.length))) (s.settleAll g rs) ∧
    (s.settleAll g rs).track.trackingFlags = s.track.trackingFlags |||
      settleFlags (decide (rs ≠ [])) (decide (rs ≠ [] ∧ s.track.backlog.length < 128 ∧ 96 ≤ s.track.backlog.length + rs.length))
        (decide (rs.drop (128 - s.track.backlog.length) ≠ [])) := by
  induction rs with
  | nil =>
    intro s _
    refine ⟨?_, ⟨?_, ?_, ?_⟩, ?_⟩
    · simp [State.settleAll, settledEntries]
    all_goals simp [State.settleAll, State.backlogFull, settleFlags]
  | cons r rest ih =>
    intro s h
    have hr := h.2 r List.mem_cons_self
    obtain ⟨-, t2, t3⟩ := settleAs_rest hg hr
    obtain ⟨i3, i4, i5⟩ := ih (h.tail hg)
    have hlen := settle_backlog_length hg hr
    have hlog := settle_logSame hg hr
    have hclock : (s.settleAs g r.serial).track.clock = s.track.clock := by
      unfold State.settleAs
      rw [State.settle_track (find_modify_of hg hr), (modify_backlog s r.serial g).2.2.1]
    show ((s.settleAs g r.serial).settleAll g rest).track.backlog = _ ∧
      LogSame _ ((s.settleAs g r.serial).settleAll g rest) ∧
      ((s.settleAs g r.serial).settleAll g rest).track.trackingFlags = _
    refine ⟨?_, ?_, ?_⟩
    · rw [i3, t2, t3, hclock]
      by_cases hl : s.track.backlog.length < 128
      · obtain ⟨m, hm⟩ : ∃ m, 128 - s.track.backlog.length = m + 1 := ⟨127 - s.track.backlog.length, by omega⟩
        rw [if_pos hl, hm, List.take_succ_cons, List.map_cons, settledEntries_cons, List.append_assoc, List.length_append,
          List.length_singleton, List.singleton_append, show 128 - (s.track.backlog.length + 1) = m by omega]
      · rw [if_neg hl, Nat.sub_eq_zero_of_le (by omega)]
        rfl
    · rw [hlen] at i4
      have first := hlog.backlogFull (rest.drop (128 - s.track.backlog.length - 1))
      have both : s.backlogFull ((r :: rest).drop (128 - s.track.backlog.length)) =
          (s.backlogFull ([r].drop (128 - s.track.backlog.length))).backlogFull
            (rest.drop (128 - s.track.backlog.length - 1)) := by
        unfold State.backlogFull
        rw [← List.foldl_append, ← List.singleton_append, List.drop_append, List.length_singleton]
      rw [both]
      exact ⟨i4.1.trans first.1, i4.2.1.trans first.2.1, i4.2.2.trans first.2.2⟩
    · rw [i5, settle_flags hg hr, BitVec.or_assoc, settleFlags_or]
      congr 2
      · have hl' : (s.settleAs g r.serial).track.backlog.length =
            if s.track.backlog.length < 128 then s.track.backlog.length + 1 else s.track.backlog.length := by
          rw [t3]
          split
          · simp
          · rfl
        rw [hl', ← Bool.decide_or, decide_eq_decide, ← List.length_pos_iff, ← List.length_pos_iff, List.length_cons]
        split <;> omega
      · rw [hlen, ← Bool.decide_or, decide_eq_decide, drop_ne_nil_iff, drop_ne_nil_iff, List.length_cons]
        omega

end

/-! ## The settle checks of stations that are not LIVE (R69) -/

/-- A record of station i that its settle check settles once the station is not LIVE (R68). -/
abbrev Record.DueAt (i : Fin 8) (r : Record) : Prop := r.station = i ∧ (r.state = .through ∨ r.state = .cut)

/-- The records that a test chooses, in increasing serial order (R69, R54). -/
def State.inOrder (s : State) (p : Record → Bool) : List Record :=
  (sortAsc ((s.track.table.records.filter p).map (·.serial))).filterMap s.find

/-- The records of station i that are THROUGH or CUT, in increasing serial order (R69). -/
def State.dueAt (s : State) (i : Fin 8) : List Record := s.inOrder fun r => decide (r.DueAt i)

/-- No two records have one serial (R56). -/
abbrev State.SerialsNodup (s : State) : Prop := (s.track.table.records.map (·.serial)).Nodup

theorem find_of_mem {s : State} (h : s.SerialsNodup) {r : Record} (hr : r ∈ s.track.table.records) :
    s.find r.serial = some r := CoilTable.find_of_mem h hr

theorem mem_of_find {s : State} {n : Nat} {r : Record} (h : s.find n = some r) : r ∈ s.track.table.records :=
  (CoilTable.find_some h).2

/-- The serials of the records of a list, each found under its own, in the list's order. -/
theorem filterMap_find_serials {s : State} : ∀ {ns : List Nat}, (∀ n ∈ ns, ∃ r, s.find n = some r) →
    (ns.filterMap s.find).map (·.serial) = ns
  | [], _ => rfl
  | n :: rest, h => by
    obtain ⟨r, hr⟩ := h n List.mem_cons_self
    rw [List.filterMap_cons_some hr, List.map_cons, (CoilTable.find_some hr).1,
      filterMap_find_serials fun m hm => h m (List.mem_cons_of_mem n hm)]

theorem mem_chosenSerials {s : State} {p : Record → Bool} {n : Nat} :
    n ∈ sortAsc ((s.track.table.records.filter p).map (·.serial)) ↔
      ∃ r ∈ s.track.table.records, p r = true ∧ r.serial = n := by
  rw [(sortAsc_perm _).mem_iff, List.mem_map]
  simp only [List.mem_filter, and_assoc]

section
variable {s : State} (h : s.SerialsNodup) (p : Record → Bool)
include h

theorem inOrder_serials :
    (s.inOrder p).map (·.serial) = sortAsc ((s.track.table.records.filter p).map (·.serial)) := by
  refine filterMap_find_serials fun n hn => ?_
  obtain ⟨r, hr, -, rfl⟩ := mem_chosenSerials.1 hn
  exact ⟨r, find_of_mem h hr⟩

theorem mem_inOrder {r : Record} : r ∈ s.inOrder p ↔ r ∈ s.track.table.records ∧ p r = true := by
  unfold State.inOrder
  rw [List.mem_filterMap]
  constructor
  · rintro ⟨n, hn, hf⟩
    obtain ⟨x, hx, hd, rfl⟩ := mem_chosenSerials.1 hn
    rw [find_of_mem h hx] at hf
    cases hf
    exact ⟨hx, hd⟩
  · rintro ⟨hr, hd⟩
    exact ⟨r.serial, mem_chosenSerials.2 ⟨r, hr, hd, rfl⟩, find_of_mem h hr⟩

theorem inOrder_serials_nodup : ((s.inOrder p).map (·.serial)).Nodup := by
  rw [inOrder_serials h, (sortAsc_perm _).nodup_iff]
  exact h.sublist (List.Sublist.map _ List.filter_sublist)

theorem inOrder_pairwise : (s.inOrder p).Pairwise fun a b => a.serial < b.serial := by
  have hle := sortAsc_sorted ((s.track.table.records.filter p).map (·.serial))
  rw [← inOrder_serials h] at hle
  have hlt := hle.imp_of_mem (S := fun a b => a ≤ b) fun _ _ hab => hab
  exact List.pairwise_map.1 (List.Pairwise.imp₂ (fun a b hab hne => Nat.lt_of_le_of_ne hab hne) hlt
    (inOrder_serials_nodup h p))

theorem inOrder_perm : (s.inOrder p).Perm (s.track.table.records.filter p) := by
  refine (List.perm_ext_iff_of_nodup (List.Nodup.of_map _ (inOrder_serials_nodup h p))
    ((List.Nodup.of_map _ h).filter _)).2 fun r => ?_
  rw [mem_inOrder h, List.mem_filter]

theorem inOrder_present : s.Present (s.inOrder p) :=
  ⟨inOrder_serials_nodup h p, fun _ hr => find_of_mem h ((mem_inOrder h p).1 hr).1⟩

end

theorem mem_dueSerials {s : State} {i : Fin 8} {n : Nat} :
    n ∈ sortAsc ((s.track.table.records.filter fun r => decide (r.DueAt i)).map (·.serial)) ↔
      ∃ r ∈ s.track.table.records, r.DueAt i ∧ r.serial = n := by
  simp only [mem_chosenSerials, decide_eq_true_eq]

theorem dueAt_serials {s : State} (h : s.SerialsNodup) (i : Fin 8) : (s.dueAt i).map (·.serial) =
    sortAsc ((s.track.table.records.filter fun r => decide (r.DueAt i)).map (·.serial)) := inOrder_serials h _

theorem dueAt_present {s : State} (h : s.SerialsNodup) (i : Fin 8) : s.Present (s.dueAt i) := inOrder_present h _

theorem mem_dueAt {s : State} (h : s.SerialsNodup) {i : Fin 8} {r : Record} :
    r ∈ s.dueAt i ↔ r ∈ s.track.table.records ∧ r.DueAt i :=
  (mem_inOrder h _).trans (and_congr_right fun _ => decide_eq_true_iff)

/-- No station is LIVE. -/
abbrev State.NoneLive (s : State) : Prop := ∀ i, (s.station i).live? = none

theorem TableFrame.noneLive {s t : State} (h : TableFrame s t) (hs : s.NoneLive) : t.NoneLive := fun i => by
  rw [h.station]
  exact hs i

/-- The settle checks of THROUGH and CUT records of a station that is not LIVE settle each of them (R68). -/
theorem settleChecks_settleAll {i : Fin 8} (rs : List Record) : ∀ {s : State}, (s.station i).live? = none → s.Present rs →
    (∀ r ∈ rs, r.DueAt i) → rs.foldl (fun a r => a.settleCheck r.serial) s = s.settleAll id rs := by
  induction rs with
  | nil => exact fun _ _ _ => rfl
  | cons r rest ih =>
    intro s hoff h hst
    have hr := h.2 r List.mem_cons_self
    have hm : s.meetsSettle r = true := by
      obtain ⟨hi, hdue⟩ := hst r List.mem_cons_self
      unfold State.meetsSettle
      rw [hi, hoff]
      rcases hdue with hd | hd <;> rw [hd] <;> rfl
    have htail := h.tail stays_id
    show rest.foldl _ (s.settleCheck r.serial) = (s.settleAs id r.serial).settleAll id rest
    rw [State.settleCheck_settles hr hm]
    rw [settleAs_id] at htail ⊢
    refine ih ?_ htail fun x hx => hst x (List.mem_cons_of_mem r hx)
    rw [(TableFrame.settle s r.serial).station]
    exact hoff

theorem settleStation_settleAll {s : State} {i : Fin 8} (hoff : (s.station i).live? = none) (h : s.SerialsNodup) :
    s.settleStation i = s.settleAll id (s.dueAt i) := by
  have hp : (fun r : Record => decide (r.station = i) && (r.state == .through || r.state == .cut)) =
      fun r => decide (r.DueAt i) := by
    funext r
    rw [Bool.eq_iff_iff]
    simp only [Bool.and_eq_true, Bool.or_eq_true, beq_iff_eq, decide_eq_true_eq]
  unfold State.settleStation
  rw [hp, ← inOrder_serials h, List.foldl_map]
  exact settleChecks_settleAll _ hoff (inOrder_present h _) fun r hr => ((mem_dueAt h).1 hr).2

/-! ## The stations in rising number (R179, log 6) -/

/-- The settling of one list of records leaves what another names (R56). -/
theorem find_settleAll {s : State} {rs : List Record} (h : s.Present rs) {n : Nat} (hn : n ∉ rs.map (·.serial)) :
    (s.settleAll id rs).find n = s.find n := by
  have ht := (settleAll_table stays_id h).1
  show (s.settleAll id rs).track.table.find n = s.track.table.find n
  rw [ht]
  have key := CoilTable.find_map s.track.table
    (fun r => if r.serial ∈ rs.map (·.serial) then r.settled else r) (fun r => by split <;> rfl) n
  refine key.trans ?_
  cases hf : s.track.table.find n with
  | none => rfl
  | some r =>
    have hser := (CoilTable.find_some hf).1
    exact congrArg some (if_neg (by rw [hser]; exact hn))

theorem settleAll_records {s : State} {rs : List Record} (h : s.Present rs) :
    (s.settleAll id rs).track.table.records =
      s.track.table.records.map fun r => if r.serial ∈ rs.map (·.serial) then r.settled else r := by
  unfold CoilTable.records
  rw [(settleAll_table stays_id h).1]
  unfold settledList
  rw [List.map_map, List.map_map]
  rfl

theorem settleAll_serialsNodup {s : State} {rs : List Record} (h : s.Present rs) (hs : s.SerialsNodup) :
    (s.settleAll id rs).SerialsNodup := by
  unfold State.SerialsNodup
  rw [settleAll_records h, List.map_map]
  have : ((·.serial) ∘ fun r : Record => if r.serial ∈ rs.map (·.serial) then r.settled else r) = (·.serial) := by
    funext r
    simp only [Function.comp_apply]
    split <;> rfl
  rw [this]
  exact hs

/-- The records of another station are due as before. -/
theorem dueAt_settleAll {s : State} (hs : s.SerialsNodup) {i j : Fin 8} (hij : i ≠ j) :
    (s.settleAll id (s.dueAt i)).dueAt j = s.dueAt j := by
  have hp := dueAt_present hs i
  have station : ∀ r ∈ s.track.table.records, r.serial ∈ (s.dueAt i).map (·.serial) → r.station = i := by
    intro r hr hm
    rw [dueAt_serials hs, mem_dueSerials] at hm
    obtain ⟨x, hx, hd, he⟩ := hm
    have hf := find_of_mem hs hx
    rw [he, find_of_mem hs hr] at hf
    cases hf
    exact hd.1
  have serials : ((s.settleAll id (s.dueAt i)).track.table.records.filter fun r => decide (r.DueAt j)).map (·.serial) =
      (s.track.table.records.filter fun r => decide (r.DueAt j)).map (·.serial) := by
    rw [settleAll_records hp, List.filter_map, List.map_map]
    have hfilter : (s.track.table.records.filter ((fun r => decide (r.DueAt j)) ∘
        fun r => if r.serial ∈ (s.dueAt i).map (·.serial) then r.settled else r)) =
        s.track.table.records.filter fun r => decide (r.DueAt j) := by
      refine List.filter_congr fun r hr => ?_
      simp only [Function.comp_apply]
      split
      · rename_i hm
        have hne : r.station ≠ j := fun h => hij ((station r hr hm).symm.trans h)
        exact decide_eq_decide.2 ⟨fun h => absurd h.1 hne, fun h => absurd h.1 hne⟩
      · rfl
    rw [hfilter]
    refine List.map_congr_left fun r _ => ?_
    simp only [Function.comp_apply]
    split <;> rfl
  unfold State.dueAt State.inOrder at serials ⊢
  rw [serials]
  refine List.filterMap_congr fun n hn => ?_
  obtain ⟨r, hr, hd, rfl⟩ := mem_dueSerials.1 hn
  exact find_settleAll hp fun hm => hij ((station r hr hm).symm.trans hd.1)

theorem settleStations_settleAll : ∀ (is : List (Fin 8)) {s : State}, is.Nodup → s.NoneLive → s.SerialsNodup →
    is.foldl (fun a i => a.settleStation i) s = s.settleAll id (is.flatMap s.dueAt)
  | [], _, _, _, _ => rfl
  | i :: rest, s, hnd, hoff, hs => by
    obtain ⟨hi, hnd⟩ := List.nodup_cons.1 hnd
    have hp := dueAt_present hs i
    rw [List.foldl_cons, settleStation_settleAll (hoff i) hs, settleStations_settleAll rest hnd ?_
      (settleAll_serialsNodup hp hs), List.flatMap_cons]
    · have same : rest.flatMap (s.settleAll id (s.dueAt i)).dueAt = rest.flatMap s.dueAt :=
        List.flatMap_congr fun j hj => dueAt_settleAll hs fun h => hi (h ▸ hj)
      rw [same]
      exact (List.foldl_append).symm
    · exact (foldl_frame TableFrame.refl TableFrame.trans (fun a (r : Record) => a.settleAs id r.serial)
        (fun a r => (settleAs_id a r.serial).symm ▸ TableFrame.settle a r.serial) _ s).noneLive hoff

theorem flatMap_dueAt_present {s : State} (hs : s.SerialsNodup) {is : List (Fin 8)} (hnd : is.Nodup) :
    s.Present (is.flatMap s.dueAt) := by
  refine ⟨?_, fun r hr => ?_⟩
  · rw [List.map_flatMap, List.nodup_flatMap]
    refine ⟨fun i _ => inOrder_serials_nodup hs _, hnd.imp fun {i j} hij => ?_⟩
    rw [Function.onFun, List.disjoint_left]
    intro n hi hj
    rw [dueAt_serials hs, mem_dueSerials] at hi hj
    obtain ⟨x, hx, hdx, rfl⟩ := hi
    obtain ⟨y, hy, hdy, he⟩ := hj
    have hf := find_of_mem hs hx
    rw [← he, find_of_mem hs hy] at hf
    cases hf
    exact hij (hdx.1.symm.trans hdy.1)
  · obtain ⟨i, -, hi⟩ := List.mem_flatMap.1 hr
    exact find_of_mem hs ((mem_dueAt hs).1 hi).1

end Sys2Proof.Machine
end

section
/-! PROOF. A path reset begins (R179, R150; O5). -/

namespace Sys2Proof.Machine

/-- The state a path reset begins in, before the settle checks: the path well at its reset values, in DOWN (R179, R150). -/
def State.pathLost (s : State) (c : ResetCause) : State :=
  { s with
    path := .reset s.path.areaSel, presented := []
    prst := s.prst || c == .prstAsserted, pathPower := s.pathPower && c == .prstAsserted }

theorem pathLost_noneLive (s : State) (c : ResetCause) : (s.pathLost c).NoneLive := fun i => by
  fin_cases i <;> rfl

/-- The stations that were LIVE, in rising number. -/
def State.liveStations (s : State) : List (Fin 8) := allStations.filter fun i => (s.station i).live?.isSome

theorem beginPathReset_eq (s : State) (c : ResetCause) :
    (s.beginCause c).beginPathReset = s.liveStations.foldl (fun a i => a.settleStation i) (s.pathLost c) := by
  have lost : s.pathLost c = { s.beginCause c with path := .reset (s.beginCause c).path.areaSel, presented := [] } := by
    obtain ⟨_, _, _, _, _, _, _, _, _, _, _⟩ := s
    cases c <;> simp [State.pathLost, State.beginCause]
  have stations : ∀ i, (s.beginCause c).station i = s.station i := by cases c <;> exact fun _ => rfl
  unfold State.beginPathReset State.liveStations
  simp only [stations]
  rw [lost]

/-- The settle checks of a path reset reach the tracking well alone: every mark of a reset path well is set already. -/
theorem beginPathReset_shape (s : State) (c : ResetCause) :
    ∃ tb ns bl an ac tf, (s.beginCause c).beginPathReset =
      { s.pathLost c with track := { s.track with
          table := tb, nextSeq := ns, backlog := bl, anomalies := an, anomalyCount := ac, trackingFlags := tf } } := by
  rw [beginPathReset_eq]
  obtain ⟨⟨tb, ns, bl, an, ac, tf, d, h⟩, hk⟩ :=
    foldl_frame TableFrame.refl TableFrame.trans (fun a (i : Fin 8) => a.settleStation i)
      (fun a i => TableFrame.settleStation a i) s.liveStations (s.pathLost c)
  have hm := hk.marks
  rw [h] at hm ⊢
  have hd : d = .replicate 39 true := by
    ext j hj
    have := hm ⟨j, hj⟩ (by simp [State.pathLost, PathWell.reset])
    exact this.trans (by simp)
  subst hd
  exact ⟨tb, ns, bl, an, ac, tf, rfl⟩

/-- The records that a path reset settles: those of station i, if it is LIVE (R69). -/
def State.settledAtReset (s : State) (i : Fin 8) : List Record :=
  if (s.station i).live?.isSome then s.dueAt i else []

theorem flatMap_filter_eq {α β : Type} (p : α → Bool) (f : α → List β) :
    ∀ xs : List α, (xs.filter p).flatMap f = xs.flatMap fun x => if p x then f x else []
  | [] => rfl
  | x :: rest => by
    rw [List.filter_cons, List.flatMap_cons, ← flatMap_filter_eq p f rest]
    split
    · rw [List.flatMap_cons]
    · rfl

theorem liveStations_flatMap (s : State) : s.liveStations.flatMap s.dueAt =
    s.settledAtReset 0 ++ s.settledAtReset 1 ++ s.settledAtReset 2 ++ s.settledAtReset 3 ++ s.settledAtReset 4 ++
      s.settledAtReset 5 ++ s.settledAtReset 6 ++ s.settledAtReset 7 := by
  unfold State.liveStations
  rw [flatMap_filter_eq]
  show allStations.flatMap s.settledAtReset = _
  simp [allStations]

theorem mem_settledAtReset {s : State} (h : s.SerialsNodup) {r : Record} :
    r ∈ s.liveStations.flatMap s.dueAt ↔ r ∈ s.track.table.records ∧ s.SettlesAtReset r := by
  unfold State.liveStations
  simp only [List.mem_flatMap, List.mem_filter, mem_dueAt h, Record.DueAt, mem_allStations, true_and]
  constructor
  · rintro ⟨i, hl, hr, rfl, hst⟩
    exact ⟨hr, hl, hst⟩
  · rintro ⟨hr, hl, hst⟩
    exact ⟨_, hl, hr, rfl, hst⟩

theorem settledAtReset_perm {s : State} (h : s.SerialsNodup) (i : Fin 8) :
    (s.settledAtReset i).Pairwise (fun a b => a.serial < b.serial) ∧
      (s.settledAtReset i).Perm (s.track.table.records.filter fun r => decide (r.station = i ∧ s.SettlesAtReset r)) := by
  unfold State.settledAtReset
  split
  · rename_i hl
    refine ⟨inOrder_pairwise h _, (inOrder_perm h _).trans (.of_eq (List.filter_congr fun r _ => decide_eq_decide.2 ?_))⟩
    exact ⟨fun ⟨hs, hst⟩ => ⟨hs, (hs ▸ hl), hst⟩, fun ⟨hs, h⟩ => ⟨hs, h.2⟩⟩
  · rename_i hl
    refine ⟨List.Pairwise.nil, .of_eq (List.filter_eq_nil_iff.2 fun r _ => ?_).symm⟩
    rw [decide_eq_true_eq]
    rintro ⟨hs, hlive, -⟩
    rw [hs] at hlive
    exact hl hlive

/-- The places after the settling of a list of records: those it names are SETTLED (R70). -/
theorem settledList_reset {s : State} (h : s.SerialsNodup) {all : List Record}
    (hall : ∀ r, r ∈ all ↔ r ∈ s.track.table.records ∧ s.SettlesAtReset r) :
    settledList (all.map (·.serial)) Record.settled s.track.table.places =
      s.track.table.places.map fun e =>
        if s.SettlesAtReset e.2 then (e.1, { e.2 with state := .settled }) else e := by
  unfold settledList
  refine List.map_congr_left fun e he => ?_
  have hr : e.2 ∈ s.track.table.records := List.mem_map.2 ⟨e, he, rfl⟩
  have hiff : e.2.serial ∈ all.map (·.serial) ↔ s.SettlesAtReset e.2 := by
    rw [List.mem_map]
    constructor
    · rintro ⟨x, hx, hser⟩
      obtain ⟨hxr, hs⟩ := (hall x).1 hx
      have hf := find_of_mem h hxr
      rw [hser, find_of_mem h hr] at hf
      cases hf
      exact hs
    · exact fun hs => ⟨e.2, (hall _).2 ⟨hr, hs⟩, rfl⟩
  by_cases hs : s.SettlesAtReset e.2
  · rw [if_pos (hiff.2 hs), if_pos hs]
    rfl
  · rw [if_neg (mt hiff.1 hs), if_neg hs]

/-- The flags of the settlings, written out one by one. -/
theorem settleFlags_split (w : Word) (a b c : Prop) [Decidable a] [Decidable b] [Decidable c] :
    w ||| settleFlags (decide ¬a) (decide b) (decide c) =
      (w ||| settleFlags false false (decide c)) ||| (if a then 0 else 0x2) ||| (if b then 0x8 else 0) := by
  have ha : (if a then (0 : Word) else 0x2) = settleFlags (decide ¬a) false false := by
    by_cases h : a <;> simp [settleFlags, h]
  have hb : (if b then (0x8 : Word) else 0) = settleFlags false (decide b) false := by
    by_cases h : b <;> simp [settleFlags, h]
  rw [ha, hb, BitVec.or_assoc, BitVec.or_assoc, settleFlags_or, settleFlags_or]
  simp

/-- Settles O5: the reset loses the path well and settles the records of the stations that were LIVE; in DOWN it is
extended. -/
theorem pathResetBegins : Obligations.PathResetBegins := by
  unfold Obligations.PathResetBegins
  refine ⟨fun c s hs hup => ⟨_, exec_pathResetBegin_of_up hs hup c, ?_, ?_, fun hser => ?_⟩, fun s hp hd => ?_⟩
  · obtain ⟨_, _, _, _, _, _, h⟩ := beginPathReset_shape s c
    rw [h]
    rfl
  · intro hoff
    have none : s.liveStations = [] := List.filter_eq_nil_iff.2 fun i _ => by rw [hoff i]; decide
    rw [beginPathReset_eq, none]
    rfl
  · have hnd : s.SerialsNodup := hser.1
    have hnl := pathLost_noneLive s c
    refine ⟨s.settledAtReset, s.liveStations.flatMap s.dueAt, settledAtReset_perm hnd, liveStations_flatMap s, ?_⟩
    have hstations : s.liveStations.Nodup := List.Nodup.filter _ (by decide)
    have hpres : (s.pathLost c).Present (s.liveStations.flatMap s.dueAt) :=
      flatMap_dueAt_present (s := s.pathLost c) hnd hstations
    have hall := fun r => mem_settledAtReset (r := r) hnd
    have heq : (s.beginCause c).beginPathReset = (s.pathLost c).settleAll id (s.liveStations.flatMap s.dueAt) :=
      (beginPathReset_eq s c).trans (settleStations_settleAll (s := s.pathLost c) _ hstations hnl hnd)
    generalize s.liveStations.flatMap s.dueAt = all at hpres hall heq ⊢
    rintro full rfl
    obtain ⟨t1, t2⟩ := settleAll_table stays_id hpres
    obtain ⟨t3, t4, t5⟩ := settleAll_track stays_id all hpres
    rw [List.map_id] at t3
    have same : LogSame s (s.pathLost c) := ⟨rfl, rfl, rfl⟩
    have hlog := same.backlogFull (all.drop (128 - s.track.backlog.length))
    obtain ⟨tb, ns, bl, an, ac, tf, hshape⟩ := beginPathReset_shape s c
    rw [hshape] at heq
    rw [hshape]
    rw [← heq] at t1 t2 t3 t4 t5
    obtain ⟨l1, l2, -⟩ := t4
    have hflags := t5.trans (settleFlags_split _ (all = []) _ _)
    rw [← backlogFull_flags] at hflags
    have hfull := (backlogFull_flags (s.pathLost c) (all.drop (128 - s.track.backlog.length))).trans
      (backlogFull_flags s (all.drop (128 - s.track.backlog.length))).symm
    refine Tracking.mk.injEq .. ▸ ⟨rfl, rfl, t1.trans ?_, t2, t3, l1.trans hlog.1, l2.trans hlog.2.1, hflags.trans ?_, rfl, rfl⟩
    · exact congrArg (fun p => { s.track.table with places := p }) (settledList_reset hnd hall)
    · exact congrArg₂ (· ||| ·) (congrArg₂ (· ||| ·) hfull rfl) rfl
  · have key := fun c => afterTakes_ready
      (f := fun s => if s.path.state = .down then s.beginCause c else (s.beginCause c).beginPathReset)
      (State.Ready.of_down hp hd)
    simp only [hd, if_true] at key
    exact ⟨key .prstAsserted, key .supplyLost⟩

end Sys2Proof.Machine
end

section
/-! PROOF. The journal writer: 16 bursts, blocks 1 to 15 and then 0, while the bookkeeping queue takes them (R143, R164,
R165). -/

namespace Sys2Proof.Machine

/-- The bursts of an entry, in the order they are written (R165, R186). -/
def journalBursts (j : JournalSetting) (e : JournalEntry) : List WriteBurst :=
  ([1, 2, 3, 4, 5, 6, 7, 8, 9, 10, 11, 12, 13, 14, 15, 0] : List Nat).map fun n =>
    { addr := j.base + 512 * (e.seq % j.size) + 32 * n
      words := (((journalWords e).drop (8 * n)).take 8).map fun w => { data := w, en := 0xF } }

/-- The writer has an entry to write in a path that is OPEN. -/
structure State.Writes (s : State) (j : JournalSetting) (e : JournalEntry) (rest : List JournalEntry) : Prop where
  opened : s.path.state = .opened
  setting : s.path.journal = some j
  backlog : s.track.backlog = e :: rest

theorem journalBlock_order : ∀ p : Fin 16,
    ([1, 2, 3, 4, 5, 6, 7, 8, 9, 10, 11, 12, 13, 14, 15, 0] : List Nat)[p.val]? = some (journalBlock p.val) := by
  decide

theorem State.Writes.next {s : State} {j : JournalSetting} {e : JournalEntry} {rest : List JournalEntry}
    (h : s.Writes j e rest) (hp : s.path.progress < 16) : s.nextJournalBurst = (journalBursts j e)[s.path.progress]? := by
  unfold State.nextJournalBurst journalBursts
  rw [h.setting, h.backlog, List.getElem?_map, journalBlock_order ⟨s.path.progress, hp⟩]
  rfl

theorem journalBursts_length (j : JournalSetting) (e : JournalEntry) : (journalBursts j e).length = 16 := by
  simp [journalBursts]

theorem State.Writes.next_some {s : State} {j : JournalSetting} {e : JournalEntry} {rest : List JournalEntry}
    (h : s.Writes j e rest) (hp : s.path.progress < 16) :
    ∃ b, s.nextJournalBurst = some b ∧ (journalBursts j e).drop s.path.progress =
      b :: (journalBursts j e).drop (s.path.progress + 1) := by
  have hl : s.path.progress < (journalBursts j e).length := by rw [journalBursts_length]; exact hp
  exact ⟨_, (h.next hp).trans (List.getElem?_eq_getElem hl), List.drop_eq_getElem_cons hl⟩

/-- A burst that is appended raises the progress (R165). -/
theorem journalAppended_of_lt {s : State} (h : s.path.progress < 15) : s.journalAppended =
    { s with
      path.progress := s.path.progress + 1
      path.dirty := s.path.dirty.set journalGroup.val true journalGroup.isLt } := by
  unfold State.journalAppended
  dsimp only
  rw [if_pos h]
  rfl

theorem judgeBacklog_eq (s : State) : ∃ d, MarksKept s.path.dirty d ∧ s.judgeBacklog = { s with
    track.trackingFlags :=
      if 96 ≤ s.track.backlog.length then s.track.trackingFlags ||| 0x8 else s.track.trackingFlags
    path.dirty := d } := by
  unfold State.judgeBacklog State.backlogHigh Config.backlogHigh
  by_cases h : 96 ≤ s.track.backlog.length
  · obtain ⟨hu, hm⟩ := MarksOnly.raiseTrack s .backlogHigh
    refine ⟨_, hm, ?_⟩
    rw [if_pos (decide_eq_true h), if_pos h]
    exact hu
  · refine ⟨_, MarksKept.refl _, ?_⟩
    rw [if_neg (by simpa using h), if_neg h]

/-- The sixteenth burst ends the entry (R165, R169). -/
theorem journalAppended_last {s : State} {e : JournalEntry} {rest : List JournalEntry} (h : ¬s.path.progress < 15)
    (hb : s.track.backlog = e :: rest) : ∃ d : Vector Bool 39, d[journalGroup] = true ∧ s.journalAppended = { s with
      track.backlog := rest
      track.trackingFlags := if 96 ≤ rest.length then s.track.trackingFlags ||| 0x8 else s.track.trackingFlags
      path.journalHead := e.seq, path.progress := 0, path.dirty := d } := by
  unfold State.journalAppended State.entryWritten
  dsimp only
  rw [if_neg h]
  simp only [State.mark_track, hb, List.tail_cons]
  obtain ⟨d, hd, he⟩ := judgeBacklog_eq { (s.mark journalGroup) with
    track := { s.track with backlog := rest }, path.journalHead := e.seq, path.progress := 0 }
  refine ⟨d, hd journalGroup ?_, he⟩
  show (s.path.dirty.set journalGroup.val true journalGroup.isLt)[journalGroup.val] = true
  rw [Vector.getElem_set_self]

/-- The writer's offer of one burst that finds a place (R143). -/
theorem journalOffer_append {s : State} {b : WriteBurst} (ho : s.path.state = .opened) (hb : s.nextJournalBurst = some b)
    (hc : s.canAppend = true) (fuel : Nat) : State.journalOffer (fuel + 1) s =
      if s.path.progress < 15 then State.journalOffer fuel (s.append b).journalAppended
      else (s.append b).journalAppended := by
  simp only [State.journalOffer, ho, hb, hc, if_true]

/-- A burst that finds no place waits (R143). -/
theorem journalOffer_wait {s : State} {b : WriteBurst} (ho : s.path.state = .opened) (hb : s.nextJournalBurst = some b)
    (hc : s.canAppend = false) (fuel : Nat) : State.journalOffer (fuel + 1) s = s.wait (.journal b) := by
  simp only [State.journalOffer, ho, hb, hc, if_true, Bool.false_eq_true, if_false]

section
variable {j : JournalSetting} {e : JournalEntry} {rest : List JournalEntry}

/-- A burst of the entry appended, the writer still writes it. -/
theorem State.Writes.appended {s : State} (h : s.Writes j e rest) (hp : s.path.progress < 15) (b : WriteBurst) :
    (s.append b).journalAppended.Writes j e rest := by
  rw [journalAppended_of_lt (s := s.append b) hp]
  exact ⟨h.opened, h.setting, h.backlog⟩

/-- With a place for every burst that is left, the entry is written whole: n + 1 bursts are left (R165). -/
theorem journalOffer_written (n : Nat) : ∀ (fuel : Nat) (s : State), s.Writes j e rest → s.path.waitList = [] →
    s.path.progress + n = 15 → s.path.bookkeeping.length + (n + 1) ≤ 64 → n < fuel →
    ∃ (bk : List Bookkeeping) (id : Nat) (d : Vector Bool 39), State.journalOffer fuel s = { s with
        track.backlog := rest
        track.trackingFlags := if 96 ≤ rest.length then s.track.trackingFlags ||| 0x8 else s.track.trackingFlags
        path.bookkeeping := bk, path.nextId := id, path.journalHead := e.seq, path.progress := 0, path.dirty := d } ∧
      bk.map (·.burst) = s.path.bookkeeping.map (·.burst) ++ (journalBursts j e).drop s.path.progress ∧
      d[journalGroup] = true := by
  induction n with
  | zero =>
    intro fuel s h hw hp hk hf
    obtain ⟨fuel, rfl⟩ : ∃ m, fuel = m + 1 := ⟨fuel - 1, by omega⟩
    obtain ⟨b, hb, hd⟩ := h.next_some (by omega)
    have hlast : ¬s.path.progress < 15 := by omega
    rw [journalOffer_append h.opened hb (canAppend_true hw (by omega)), if_neg hlast]
    obtain ⟨d, hg, he⟩ := journalAppended_last (s := s.append b) hlast h.backlog
    refine ⟨_, _, d, he, ?_, hg⟩
    rw [hd, List.drop_eq_nil_of_le (by rw [journalBursts_length]; omega)]
    simp
  | succ n ih =>
    intro fuel s h hw hp hk hf
    obtain ⟨fuel, rfl⟩ : ∃ m, fuel = m + 1 := ⟨fuel - 1, by omega⟩
    obtain ⟨b, hb, hd⟩ := h.next_some (by omega)
    have hlt : s.path.progress < 15 := by omega
    rw [journalOffer_append h.opened hb (canAppend_true hw (by omega)), if_pos hlt]
    have hwr := h.appended hlt b
    rw [journalAppended_of_lt (s := s.append b) hlt] at hwr ⊢
    obtain ⟨bk, id, d, he, hbk, hg⟩ := ih fuel _ hwr hw (by show s.path.progress + 1 + n = 15; omega)
      (by show (s.path.bookkeeping ++ [_]).length + (n + 1) ≤ 64; rw [List.length_append, List.length_singleton]; omega)
      (by omega)
    refine ⟨bk, id, d, he, hbk.trans ?_, hg⟩
    show (s.path.bookkeeping ++ [_]).map Bookkeeping.burst ++ (journalBursts j e).drop (s.path.progress + 1) = _
    rw [hd]
    simp

/-- With places for n bursts, fewer than are left, the next one waits (R143, R165). -/
theorem journalOffer_waits (n : Nat) : ∀ (fuel : Nat) (s : State) (b : WriteBurst), s.Writes j e rest →
    s.path.waitList = [] → s.path.bookkeeping.length + n = 64 → (journalBursts j e)[s.path.progress + n]? = some b →
    n < fuel →
    ∃ (bk : List Bookkeeping) (id : Nat) (d : Vector Bool 39), State.journalOffer fuel s = { s with
        path.bookkeeping := bk, path.nextId := id, path.progress := s.path.progress + n
        path.waitList := [.journal b], path.dirty := d } ∧
      bk.map (·.burst) = s.path.bookkeeping.map (·.burst) ++ ((journalBursts j e).drop s.path.progress).take n := by
  have bound : ∀ {m : Nat} {b : WriteBurst}, (journalBursts j e)[m]? = some b → m < 16 := fun h => by
    rw [← journalBursts_length j e]
    exact (List.getElem?_eq_some_iff.1 h).1
  induction n with
  | zero =>
    intro fuel s b h hw hk hb hf
    obtain ⟨fuel, rfl⟩ : ∃ m, fuel = m + 1 := ⟨fuel - 1, by omega⟩
    have hnext := (h.next (bound hb)).trans hb
    rw [journalOffer_wait h.opened hnext (canAppend_false (.inr (by omega)))]
    refine ⟨s.path.bookkeeping, s.path.nextId, s.path.dirty, ?_, (List.append_nil _).symm⟩
    unfold State.wait
    rw [hw]
    rfl
  | succ n ih =>
    intro fuel s b h hw hk hb hf
    obtain ⟨fuel, rfl⟩ : ∃ m, fuel = m + 1 := ⟨fuel - 1, by omega⟩
    have hlt : s.path.progress < 15 := by have := bound hb; omega
    obtain ⟨b', hb', hd⟩ := h.next_some (by omega)
    rw [journalOffer_append h.opened hb' (canAppend_true hw (by omega)), if_pos hlt]
    have hwr := h.appended hlt b'
    rw [journalAppended_of_lt (s := s.append b') hlt] at hwr ⊢
    have hpos : s.path.progress + 1 + n = s.path.progress + (n + 1) := by omega
    obtain ⟨bk, id, d, he, hbk⟩ := ih fuel _ b hwr hw
      (by show (s.path.bookkeeping ++ [_]).length + n = 64; rw [List.length_append, List.length_singleton]; omega)
      (by show (journalBursts j e)[s.path.progress + 1 + n]? = some b; rw [hpos]; exact hb) (by omega)
    refine ⟨bk, id, d, he.trans ?_, hbk.trans ?_⟩
    · show { s with path := _ } = _
      rw [← hpos]
      rfl
    · show (s.path.bookkeeping ++ [_]).map Bookkeeping.burst ++ ((journalBursts j e).drop (s.path.progress + 1)).take n = _
      rw [hd, List.take_succ_cons]
      simp

end

/-! ## The writer begins and goes on -/

/-- With nothing to write, or outside OPEN, the writer offers nothing (R165). -/
theorem journalOffer_nothing {s : State}
    (h : s.path.journal = none ∨ s.track.backlog = [] ∨ s.path.state ≠ .opened) : ∀ n, State.journalOffer n s = s
  | 0 => rfl
  | n + 1 => by
    by_cases ho : s.path.state = .opened
    · have hn : s.nextJournalBurst = none := by
        unfold State.nextJournalBurst
        rcases h with h | h | h
        · rw [h]
        · rw [h]
          split
          · exact (by simp_all)
          · rfl
        · exact absurd ho h
      simp only [State.journalOffer, ho, hn, if_true]
    · exact if_neg ho

theorem journalWaits_false {s : State} (h : ∀ b, .journal b ∉ s.path.waitList) : s.journalWaits = false := by
  rw [Bool.eq_false_iff, ne_eq, journalWaits_iff]
  rintro ⟨b, hb⟩
  exact h b hb

theorem exec_journalEntryBegin {s : State} (h : s.Ready) : exec .journalEntryBegin s = .next s.journalBegin :=
  afterTakes_ready (f := fun s => s.journalBegin) h

theorem journalBegin_of {s : State} (hp : s.path.progress = 0) (hw : ∀ b, .journal b ∉ s.path.waitList) :
    s.journalBegin = State.journalOffer 16 s := if_pos ⟨hp, journalWaits_false hw⟩

theorem journalResume_of {s : State} (hp : 0 < s.path.progress) (hw : ∀ b, .journal b ∉ s.path.waitList) :
    s.journalResume = State.journalOffer 16 s := if_pos ⟨hp, journalWaits_false hw⟩

/-- Settles O26: the writer begins the entry at the backlog head. -/
theorem journalEntriesAreWrittenBlock0Last : Obligations.JournalEntriesAreWrittenBlock0Last := by
  unfold Obligations.JournalEntriesAreWrittenBlock0Last
  refine fun s hs => ⟨fun h => ?_, fun j e rest hj hb ho hp hw bursts hbursts => ?_⟩
  · rw [exec_journalEntryBegin hs]
    congr 1
    unfold State.journalBegin
    split
    · rename_i hc
      refine journalOffer_nothing ?_ 16
      rcases h with h | h | h | h | h
      · exact .inl h
      · exact .inr (.inl h)
      · exact .inr (.inr h)
      · exact absurd hc.1 (by omega)
      · exact absurd ((journalWaits_iff s).2 h) (by rw [hc.2]; decide)
    · rfl
  · have hwr : s.Writes j e rest := ⟨ho, hj, hb⟩
    replace hbursts : bursts = journalBursts j e := hbursts
    subst hbursts
    rw [exec_journalEntryBegin hs, journalBegin_of hp hw]
    refine ⟨fun hwl hk => ?_, fun n b hwl hk hn => ?_, fun b hwl hn => ?_⟩
    · obtain ⟨bk, id, d, he, hbk, hg⟩ := journalOffer_written 15 16 s hwr hwl (by omega) hk (by omega)
      rw [hp, List.drop_zero] at hbk
      refine ⟨_, rfl, ?_, ?_, ?_, ?_⟩
      · rw [he]
        exact hbk
      · rw [he]
      · rw [he, ← hp]
      · rw [he]
        exact hg
    · obtain ⟨bk, id, d, he, hbk⟩ := journalOffer_waits n 16 s b hwr hwl hk (by rw [hp, Nat.zero_add]; exact hn) (by
        have := (List.getElem?_eq_some_iff.1 hn).1
        rw [journalBursts_length] at this
        exact this)
      rw [hp, List.drop_zero] at hbk
      refine ⟨_, rfl, ?_, ?_, ?_⟩
      · rw [he]
      · rw [he]
        exact hbk
      · rw [he, hp, Nat.zero_add]
    · have hnext : s.nextJournalBurst = some b := (hwr.next (by omega)).trans (by rw [hp]; exact hn)
      rw [journalOffer_wait ho hnext (canAppend_false (.inl hwl)) 15]
      rfl

end Sys2Proof.Machine
end

section
/-! PROOF. The path state follows the decoded server state, and what the return to OPEN sets going (R148, R149, R96, R165,
R135; O8). -/

namespace Sys2Proof.Machine

/-! ## Marks on the return to OPEN -/

theorem entryWritten_marks (s : State) : MarksKept s.path.dirty s.entryWritten.path.dirty := by
  unfold State.entryWritten
  dsimp only
  generalize hu : ({ s with track.backlog := s.track.backlog.tail, path.journalHead := _, path.progress := 0 } : State) = u
  have key := (TableFrame.judgeBacklog u).2.marks
  subst hu
  exact key

theorem journalAppended_marks (s : State) : MarksKept s.path.dirty s.journalAppended.path.dirty := by
  have marked : MarksKept s.path.dirty (s.mark journalGroup).path.dirty := MarksKept.set _ journalGroup.val journalGroup.isLt
  unfold State.journalAppended
  dsimp only
  split
  · exact marked
  · exact marked.trans (entryWritten_marks _)

theorem journalOffer_marks (n : Nat) (s : State) : MarksKept s.path.dirty (State.journalOffer n s).path.dirty := by
  induction n generalizing s with
  | zero => exact MarksKept.refl _
  | succ n ih =>
    simp only [State.journalOffer]
    split
    · split
      · exact MarksKept.refl _
      · rename_i b _
        have one : MarksKept s.path.dirty (s.append b).journalAppended.path.dirty := journalAppended_marks (s.append b)
        split
        · split
          · exact one.trans (ih _)
          · exact one
        · exact MarksKept.refl _
    · exact MarksKept.refl _

theorem journalResume_marks (s : State) : MarksKept s.path.dirty s.journalResume.path.dirty := by
  unfold State.journalResume
  split
  · exact journalOffer_marks _ _
  · exact MarksKept.refl _

theorem goOn_marks (s : State) : MarksKept s.path.dirty s.goOn.path.dirty := by
  have sealed : ∀ (is : List (Fin 8)) (u : State),
      MarksKept u.path.dirty (is.foldl (fun acc i => acc.seal i) u).path.dirty := by
    intro is
    induction is with
    | nil => exact fun u => MarksKept.refl _
    | cons i rest ih => exact fun u => (SealFrame.seal u i).keeps.marks.trans (ih _)
  unfold State.goOn
  have first := sealed allStations s
  generalize allStations.foldl (fun acc i => acc.seal i) s = u at first ⊢
  have second := journalResume_marks u
  generalize u.journalResume = v at second ⊢
  exact (first.trans second).trans (AdmitFrame.letIn v).keeps.marks

theorem goOn_state (s : State) : s.goOn.path.state = s.path.state := by
  have same : PathSame s (allStations.foldl (fun acc i => acc.seal i) s).journalResume :=
    (PathSame.foldl _ (fun v i => (SealFrame.seal v i).pathSame) _ s).trans (.journalResume _)
  unfold State.goOn
  generalize (allStations.foldl (fun acc i => acc.seal i) s).journalResume = v at same ⊢
  exact (AdmitFrame.letIn v).power.2.2.2.trans same.mid.state

/-! ## The rows of the table of R148 -/

theorem follow_down {s : State} (h : s.path.state = .down) (sv : ServerState) : s.follow sv = s := by
  unfold State.follow
  rw [h]

theorem follow_opened_run {s : State} (h : s.path.state = .opened) : s.follow .run = s := by
  unfold State.follow
  rw [h]

theorem follow_opened_off {s : State} (h : s.path.state = .opened) {sv : ServerState} (hsv : sv ≠ .run) :
    s.follow sv = (s.setPath .draining).drainCheck := by
  unfold State.follow
  rw [h]
  cases sv
  case run => exact absurd rfl hsv
  all_goals rfl

theorem follow_draining_run {s : State} (h : s.path.state = .draining) : s.follow .run = (s.setPath .opened).goOn := by
  unfold State.follow
  rw [h]

theorem follow_hold_run {s : State} (h : s.path.state = .hold) :
    s.follow .run = ((s.setPath .opened).markAll).goOn := by
  unfold State.follow
  rw [h]

theorem follow_stays {s : State} (h : s.path.state = .draining ∨ s.path.state = .hold) {sv : ServerState}
    (hsv : sv ≠ .run) : s.follow sv = s := by
  unfold State.follow
  rcases h with h | h <;> rw [h] <;> cases sv
  case inl.run | inr.run => exact absurd rfl hsv
  all_goals rfl

/-- A drain that has been ordered: into HOLD at once where nothing is queued or in progress (R148, R149). -/
theorem drainOrdered_eq (s : State) : ∃ d : Vector Bool 39, d[(0 : Fin 39)] = true ∧
    (s.setPath .draining).drainCheck = { s with
      path.state := if s.path.requests = [] ∧ s.path.inProgress = none then .hold else .draining
      path.dirty := d } := by
  have marked : ∀ v : Vector Bool 39, (v.set 0 true)[(0 : Fin 39)] = true := fun v => Vector.getElem_set_self _
  by_cases h : s.path.requests = [] ∧ s.path.inProgress = none
  · refine ⟨_, marked (s.path.dirty.set 0 true), ?_⟩
    rw [State.drainCheck, if_pos ⟨rfl, h⟩, if_pos h]
    rfl
  · refine ⟨_, marked s.path.dirty, ?_⟩
    rw [State.drainCheck, if_neg fun hc => h hc.2, if_neg h]
    rfl

/-- What a change of the server lines does where the path well is powered (R180, R181). -/
theorem serverStateChange_eq {s : State} (hp : s.pathPower = true) (ssa ssb : Bool) : ∃ tr d,
    (s.withPins ssa ssb).monitor.decodeLines =
      State.follow { s with
        ssa := ssa, ssb := ssb, track := tr, path.dirty := d, path.server := some (decodeServer ssa ssb) }
        (decodeServer ssa ssb) := by
  obtain ⟨tr, d, h⟩ := State.monitor_eq (s.withPins ssa ssb)
  refine ⟨tr, d, ?_⟩
  have hpow : (s.withPins ssa ssb).monitor.pathPower = true := (State.monitor_pins _).1.trans hp
  rw [State.decodeLines_powered hpow, h]

theorem decodeServer_run {ssa ssb : Bool} (h : ssa = true ∧ ssb = true) : decodeServer ssa ssb = .run := by
  obtain ⟨rfl, rfl⟩ := h
  rfl

theorem decodeServer_ne_run {ssa ssb : Bool} (h : ¬(ssa = true ∧ ssb = true)) : decodeServer ssa ssb ≠ .run := by
  revert h
  cases ssa <;> cases ssb <;> decide

/-- The rows of the table of R148 for a change of the server lines. -/
theorem serverStateChange_rows (ssa ssb : Bool) {s : State} (hp : s.pathPower = true) :
    ∀ t, t = (s.withPins ssa ssb).monitor.decodeLines →
      (s.path.state = .down → t.path.state = .down) ∧
      (s.path.state ≠ .down → ssa = true ∧ ssb = true → t.path.state = .opened) ∧
      (s.path.state = .hold → ssa = true ∧ ssb = true → ∀ g : Fin 39, t.path.dirty[g] = true) ∧
      (s.path.state = .opened → ¬(ssa = true ∧ ssb = true) →
        t.path.state = (if s.path.requests = [] ∧ s.path.inProgress = none then .hold else .draining) ∧
        t.path.requests = s.path.requests ∧ t.path.bookkeeping = s.path.bookkeeping ∧
        t.path.dirty[(0 : Fin 39)] = true) ∧
      (s.path.state = .draining ∨ s.path.state = .hold → ¬(ssa = true ∧ ssb = true) →
        t.path = { s.path with
          server := t.path.server, dirty := t.path.dirty } ∧ t.presented = s.presented) := by
  obtain ⟨tr, d, h⟩ := serverStateChange_eq hp ssa ssb
  rw [h]
  generalize hv : ({ s with
    ssa := ssa, ssb := ssb, track := tr, path.dirty := d, path.server := some (decodeServer ssa ssb) } : State) = v
  have hstate : v.path.state = s.path.state := by subst hv; rfl
  rintro t rfl
  refine ⟨fun hs => ?_, fun hs hr => ?_, fun hs hr g => ?_, fun hs hr => ?_, fun hs hr => ?_⟩
  · rw [follow_down (hstate.trans hs), hstate, hs]
  · rw [decodeServer_run hr]
    cases hst : s.path.state with
    | opened => rw [follow_opened_run (hstate.trans hst), hstate, hst]
    | draining => rw [follow_draining_run (hstate.trans hst), goOn_state, State.setPath_path]
    | hold => rw [follow_hold_run (hstate.trans hst), goOn_state, State.markAll_path, State.setPath_path]
    | down => exact absurd hst hs
  · rw [decodeServer_run hr, follow_hold_run (hstate.trans hs)]
    refine goOn_marks _ g ?_
    rw [State.markAll_path]
    exact Vector.getElem_replicate _
  · rw [follow_opened_off (hstate.trans hs) (decodeServer_ne_run hr)]
    obtain ⟨d', hd, he⟩ := drainOrdered_eq v
    rw [he]
    subst hv
    exact ⟨rfl, rfl, rfl, hd⟩
  · rw [follow_stays (by rw [hstate]; exact hs) (decodeServer_ne_run hr)]
    subst hv
    exact ⟨rfl, rfl⟩

/-! ## The acceptance of what is presented, head first (R135) -/

theorem letIn_withheld {s : State} {t : Transaction} {rest : List Transaction} (hp : s.presented = t :: rest)
    (h : s.path.state ≠ .opened ∨ s.path.port ≠ none ∨ 32 < s.path.requests.length + entriesNeeded s.base t) :
    s.letIn = s := by
  unfold State.letIn
  rw [hp]
  have hacc : (s.setPresented []).accepts t = false := accepts_false (s := s.setPresented []) h
  simp only [State.letInList, hacc, Bool.false_eq_true, if_false]
  unfold State.setPresented
  rw [← hp]

/-- The pass-through row of a transaction (R137). -/
def passThrough : Transaction → Instr
  | .write b => .passThroughWrite b
  | .read b => .passThroughRead b

/-- A transaction presented alone, when its conditions hold, does what its acceptance does after the takes that are due
(R135, R156). -/
theorem exec_accepts {s x : State} {t : Transaction} (hp : s.powered = true) (hn : s.presented = [])
    (ha : s.accepts t = true)
    (hx : exec (passThrough t) s = .next x) : x = s.takeDue.accept t := by
  have key : afterTakes (fun s => s.present t) s = .next x := by
    cases t with
    | write b =>
      have hx : presentWrite b s = .next x := hx
      unfold presentWrite at hx
      split at hx
      · exact hx
      · exact nomatch hx
    | read b =>
      have hx : presentRead b s = .next x := hx
      unfold presentRead at hx
      split at hx
      · exact hx
      · exact nomatch hx
  have hpres : s.takeDue.presented = [] := (PortKeeps.takeDue s).1.trans hn
  have hdue : afterTakes (fun s => s.present t) s = .next (s.takeDue.present t) := congrArg Host.Outcome.next (if_pos hp)
  rw [State.present_accepted hpres s.takeDue_nothingToTake ((State.accepts_takeDue s t).trans ha)] at hdue
  exact Host.Outcome.next.inj (key.symm.trans hdue)

theorem letIn_accepts {s x : State} {t : Transaction} {rest : List Transaction} (hpow : s.powered = true)
    (hp : s.presented = t :: rest) (ho : s.path.state = .opened) (hport : s.path.port = none)
    (hroom : s.path.requests.length + entriesNeeded s.base t ≤ 32)
    (hx : exec (passThrough t) (s.setPresented []) = .next x) :
    s.letIn = State.letIn { x with presented := rest } := by
  have hacc : (s.setPresented []).accepts t = true := State.accepts_iff.2 ⟨ho, hport, hroom⟩
  have hx' := exec_accepts (s := s.setPresented []) hpow rfl hacc hx
  have hpx : x.presented = [] := by
    rw [hx']
    exact ((PortKeeps.takeDue _).trans (PortKeeps.accept _ t)).1
  have hleft : s.letIn = State.letInList rest x := by
    unfold State.letIn
    rw [hp, hx']
    simp only [State.letInList, hacc, if_true]
  have hright : State.letIn { x with presented := rest } = State.letInList rest (x.setPresented []) := rfl
  rw [hleft, hright, State.setPresented_self hpx]

/-- The return to OPEN: the monitor finds RUN, the path enters OPEN, from HOLD with every mark set, and goes on (R148). -/
theorem returnToOpen_eq {s : State} (hp : s.pathPower = true) (hst : s.path.state = .draining ∨ s.path.state = .hold) :
    (s.withPins true true).monitor.decodeLines = State.goOn { s with
      ssa := true, ssb := true, track.illegalMark := false, path.state := .opened, path.server := some .run
      path.dirty := if s.path.state = .hold then .replicate 39 true else s.path.dirty.set 0 true } := by
  have hpow : (s.withPins true true).monitor.pathPower = true := (State.monitor_pins _).1.trans hp
  rw [State.decodeLines_powered hpow, State.monitor_legal (s := s.withPins true true) rfl]
  rcases hst with hst | hst
  · rw [if_neg (by rw [hst]; decide)]
    exact follow_draining_run (s := { (s.withPins true true).setIllegal false with path.server := some .run }) hst
  · rw [if_pos hst]
    exact follow_hold_run (s := { (s.withPins true true).setIllegal false with path.server := some .run }) hst

/-- Settles O8: the rows of R148's table, and what the return to OPEN sets going, in the order of its parts. -/
theorem pathStateFollowsTheServer : Obligations.PathStateFollowsTheServer := by
  unfold Obligations.PathStateFollowsTheServer
  refine ⟨fun ssa ssb s hs hp => ⟨_, exec_serverStateChange hs ssa ssb, serverStateChange_rows ssa ssb hp _ rfl⟩,
    fun s v hs hp hst hv => ?_, fun s h => ?_, fun s ho hp1 hp2 hw j e rest hj hb bursts hbursts => ?_,
    fun s => State.letIn_of_nil, fun s x t rest hpow hp => ⟨letIn_withheld hp, fun ho hport hroom hx => letIn_accepts hpow hp ho hport hroom ?_⟩⟩
  · rw [exec_serverStateChange hs]
    refine congrArg Host.Outcome.next ?_
    rw [returnToOpen_eq hp hst, State.goOn, hv]
    rfl
  · unfold State.journalResume
    split
    · rename_i hc
      refine journalOffer_nothing ?_ 16
      rcases h with h | h | h | h
      · exact absurd hc.1 (by omega)
      · exact absurd ((journalWaits_iff s).2 h) (by rw [hc.2]; decide)
      · exact .inl h
      · exact .inr (.inl h)
    · rfl
  · have hwr : s.Writes j e rest := ⟨ho, hj, hb⟩
    replace hbursts : bursts = (journalBursts j e).drop s.path.progress := by
      rw [hbursts, journalBursts, List.map_drop]
    have hlen : bursts.length = 16 - s.path.progress := by rw [hbursts, List.length_drop, journalBursts_length]
    rw [journalResume_of hp1 hw]
    refine ⟨fun hwl hk => ?_, fun n b hwl hk hn => ?_, fun b hwl hn => ?_⟩
    · obtain ⟨bk, id, d, he, hbk, -⟩ := journalOffer_written (15 - s.path.progress) 16 s hwr hwl (by omega)
        (by rw [hlen] at hk; omega) (by omega)
      refine ⟨_, rfl, ?_, ?_⟩
      · rw [he, hbursts]
        exact hbk
      · rw [he]
    · have hlt := (List.getElem?_eq_some_iff.1 hn).1
      rw [hbursts, List.getElem?_drop] at hn
      obtain ⟨bk, id, d, he, hbk⟩ := journalOffer_waits n 16 s b hwr hwl hk hn (by omega)
      refine ⟨_, rfl, ?_, ?_⟩
      · rw [he, hbursts]
        exact hbk
      · rw [he]
    · rw [hbursts, List.getElem?_drop, Nat.add_zero] at hn
      rw [journalOffer_wait ho ((hwr.next hp2).trans hn) (canAppend_false (.inl hwl)) 15]
      rfl
  · cases t <;> exact hx

end Sys2Proof.Machine
end

section
/-! PROOF. What reaches the line units and the time base: pulses, steps, ticks and marker transitions (R2 to R6, R14, R18 to
R22, R176; O9 to O13). -/

namespace Sys2Proof.Machine

/-! ## Pulses and levels (R2, R3, R4) -/

/-- A line's mirror group shows nothing of its sides. -/
theorem Line.content_setSide (ln : Line) (sd : Side) (u : SideUnit) : (ln.setSide sd u).content = ln.content := by
  cases sd <;> rfl

theorem State.setLine_setSide (s : State) (l : LineId) (sd : Side) (u : SideUnit) :
    s.setLine l ((s.line l).setSide sd u) = s.withLine l ((s.line l).setSide sd u) :=
  State.setLine_same _ _ _ (Line.content_setSide _ _ _).symm

theorem Line.counts_iff (ln : Line) :
    ln.counts = true ↔ ln.state ≠ .unconfigured ∧ (ln.gated = false ∨ ln.run = true) := by
  unfold Line.counts
  simp

theorem exec_encoderPulse {s : State} (h : s.Ready) (l : LineId) (sd : Side) :
    exec (.encoderPulse l sd) s = .next (if (s.line l).counts then s.countPulse l sd else s) :=
  afterTakes_ready (f := fun s => if (s.line l).counts then s.countPulse l sd else s) h

theorem exec_encoderPulse_counted {s : State} (h : s.Ready) {l : LineId} (hc : (s.line l).state ≠ .unconfigured)
    (hg : (s.line l).gated = false ∨ (s.line l).run = true) (sd : Side) :
    exec (.encoderPulse l sd) s = .next (s.countPulse l sd) := by
  rw [exec_encoderPulse h, if_pos ((Line.counts_iff _).2 ⟨hc, hg⟩)]

/-- Settles O9: a pulse is counted or ignored by state and gate, and a level's change is the level's alone. -/
theorem pulsesAreCountedOrIgnored : Obligations.PulsesAreCountedOrIgnored := by
  unfold Obligations.PulsesAreCountedOrIgnored
  refine ⟨fun l sd s hs => ⟨fun h => ?_, fun hc hg hr => ?_⟩, fun l sd level s hs => ⟨?_, ?_⟩⟩
  · rw [exec_encoderPulse hs, if_neg]
    rw [Line.counts_iff]
    rintro ⟨hc, hg⟩
    rcases h with h | ⟨h1, h2⟩
    · exact hc h
    · rw [h1, h2] at hg
      exact hg.elim (by decide) (by decide)
  · rw [exec_encoderPulse_counted hs hc hg, State.countPulse, if_pos hr, State.setLine_setSide]
  · have key := afterTakes_ready (f := fun s => s.setLine l { s.line l with run := level }) hs
    exact key.trans (congrArg Host.Outcome.next (State.setLine_same s l { s.line l with run := level } rfl))
  · have key := afterTakes_ready
      (f := fun s => s.setLine l ((s.line l).setSide sd { (s.line l).side sd with forward := level })) hs
    rw [State.setLine_setSide] at key
    exact key

/-! ## Steps (R2, R4, R5, R6) -/

/-- The matcher returned to IDLE: the line's group is marked where it was not IDLE (R27). -/
theorem setMatcher_idle (s : State) (l : LineId) : s.setMatcher l .idle =
    { s.withLine l { s.line l with matcher := .idle } with
      path.dirty := if Matcher.idle = (s.line l).matcher then s.path.dirty
        else s.path.dirty.set (lineGroup l).val true (lineGroup l).isLt } := by
  unfold State.setMatcher Line.withMatcher
  cases hm : (s.line l).matcher with
  | idle =>
    rw [if_pos rfl]
    exact State.setLine_same _ _ _ (by unfold Line.content; rw [hm])
  | collecting ps al =>
    have hne : ((s.line l).content != ({ s.line l with matcher := Matcher.idle } : Line).content) = true := by
      rw [bne_iff_ne]
      intro h
      have := congrArg (·.matcher) h
      simp [Line.content, hm, Matcher.code] at this
    unfold State.setLine
    rw [hne, if_neg (by simp)]
    rfl
  | recovery e =>
    have hne : ((s.line l).content != ({ s.line l with matcher := Matcher.idle } : Line).content) = true := by
      rw [bne_iff_ne]
      intro h
      have := congrArg (·.matcher) h
      simp [Line.content, hm, Matcher.code] at this
    unfold State.setLine
    rw [hne, if_neg (by simp)]
    rfl

/-- The matcher a move of the exit counter leaves (R32, R33). -/
def Line.movedMatcher (ln : Line) (forward : Bool) : Matcher :=
  if forward then
    match ln.matcher with
    | .recovery e => if ln.holeReached e then .idle else .recovery e
    | m => m
  else .idle

theorem withLine_self (s : State) (l : LineId) : s.withLine l (s.line l) = s := by
  unfold State.withLine State.line
  simp

/-- A move of the exit counter returns the matcher to IDLE, or leaves it (R32, R33). -/
theorem matcherMoved_cases (s : State) (l : LineId) (forward : Bool) :
    ((s.line l).movedMatcher forward = .idle ∧ s.matcherMoved l forward = s.setMatcher l .idle) ∨
      ((s.line l).movedMatcher forward = (s.line l).matcher ∧ s.matcherMoved l forward = s) := by
  cases forward
  · exact .inl ⟨rfl, rfl⟩
  · unfold State.matcherMoved Line.movedMatcher
    simp only [if_true]
    cases hm : (s.line l).matcher with
    | idle => exact .inr ⟨rfl, rfl⟩
    | collecting ps al => exact .inr ⟨rfl, rfl⟩
    | recovery e =>
      by_cases h : (s.line l).holeReached e = true
      · exact .inl ⟨if_pos h, if_pos h⟩
      · exact .inr ⟨if_neg h, if_neg h⟩

theorem matcherMoved_eq (s : State) (l : LineId) (forward : Bool) : s.matcherMoved l forward =
    { s.withLine l { s.line l with matcher := (s.line l).movedMatcher forward } with
      path.dirty := if (s.line l).movedMatcher forward = (s.line l).matcher then s.path.dirty
        else s.path.dirty.set (lineGroup l).val true (lineGroup l).isLt } := by
  rcases matcherMoved_cases s l forward with ⟨hm, he⟩ | ⟨hm, he⟩
  · rw [he, hm, setMatcher_idle]
  · rw [he, hm, if_pos rfl]
    exact (withLine_self s l).symm

theorem canStep_iff (u : SideUnit) : u.canStep = true ↔
    u.forward = true ∧ u.counter < 281474976710655 ∨ u.forward = false ∧ 0 < u.counter := by
  unfold SideUnit.canStep maxPos
  cases u.forward <;> simp

/-- Settles O10: the step moves the counter, the matcher takes an exit step, and the station's sealing starts. -/
theorem aStepMovesTheCounter : Obligations.AStepMovesTheCounter := by
  unfold Obligations.AStepMovesTheCounter
  intro l sd s hs hc hg hr hcan v m u hv hentry hback hforward hu
  have hstep : ((s.line l).side sd).step = v := by
    unfold SideUnit.step
    rw [if_pos ((canStep_iff _).2 hcan), hv]
    rfl
  have hfwd : ((s.line l).side sd).forward = v.forward := by rw [hv]
  rw [exec_encoderPulse_counted hs hc hg, State.countPulse, if_neg (by omega)]
  dsimp only
  rw [if_pos ((canStep_iff _).2 hcan), hstep, State.setLine_setSide, hfwd]
  clear hv
  cases sd with
  | entry =>
    obtain rfl := hentry rfl
    rw [if_pos rfl] at hu
    rw [hu]
    rfl
  | exit =>
    have hm : ({ s.line l with exit := v } : Line).movedMatcher v.forward = m := by
      unfold Line.movedMatcher
      cases hf : v.forward
      · exact (hback rfl hf).symm
      · obtain ⟨hend, hstay⟩ := hforward rfl hf
        simp only [if_true]
        cases hmat : (s.line l).matcher with
        | idle => exact ((hstay fun e he => nomatch hmat.symm.trans he).trans hmat).symm
        | collecting ps al => exact ((hstay fun e he => nomatch hmat.symm.trans he).trans hmat).symm
        | recovery e =>
          dsimp only
          by_cases hreach : (e : Int) ≤ (v.counter : Int) - (s.line l).hole.offset
          · exact (if_pos (decide_eq_true hreach)).trans (hend e hmat hreach).symm
          · refine (if_neg (by simpa [Line.holeReached] using hreach)).trans ((hstay fun e' he => ?_).trans hmat).symm
            rw [hmat] at he
            cases he
            omega
    have hline : (s.withLine l ((s.line l).setSide .exit v)).line l = { s.line l with exit := v } := by
      unfold State.line State.withLine
      simp [Line.setSide]
    show Host.Outcome.next (((s.withLine l ((s.line l).setSide .exit v)).matcherMoved l v.forward).seal _) = _
    rw [matcherMoved_eq, hline, hm, hu]
    unfold State.withLine
    simp [Line.setSide]

/-- Settles O11: a refused step reloads the divider, and enters its anomaly where the mark was clear. -/
theorem aStepAtALimitIsRefused : Obligations.AStepAtALimitIsRefused := by
  unfold Obligations.AStepAtALimitIsRefused
  intro l sd s hs hc hg hr hlim
  have hstuck : ((s.line l).side sd).canStep = false := by
    rw [Bool.eq_false_iff, ne_eq, canStep_iff]
    rcases hlim with ⟨h1, h2⟩ | ⟨h1, h2⟩
    · rintro (⟨-, h⟩ | ⟨h, -⟩)
      · omega
      · exact nomatch h1.symm.trans h
    · rintro (⟨h, -⟩ | ⟨-, h⟩)
      · exact nomatch h1.symm.trans h
      · omega
  have hstep : ((s.line l).side sd).step =
      { (s.line l).side sd with remaining := ((s.line l).side sd).reload, limitMark := true } :=
    if_neg (by rw [hstuck]; decide)
  have key := exec_encoderPulse_counted hs hc hg sd
  rw [State.countPulse, if_neg (by omega)] at key
  dsimp only at key
  rw [hstuck, hstep, State.setLine_setSide] at key
  refine ⟨fun hm => ?_, fun hm => ?_⟩
  · rw [hm] at key
    refine key.trans (congrArg (fun u => Host.Outcome.next (s.withLine l ((s.line l).setSide sd u))) ?_)
    rw [← hm]
  · rw [hm] at key
    exact key

/-! ## The tick (R14, R19, R176) -/

theorem completePeriod_eq (s : State) : s.completePeriod = { s with
    path.periodCount := if 0 < s.path.period ∧ s.path.period ≤ s.path.periodCount then 0 else s.path.periodCount
    path.dirty := if 0 < s.path.period ∧ s.path.period ≤ s.path.periodCount then
        (((s.path.dirty.set 2 true).set 3 true).set 4 true).set 5 true
      else s.path.dirty } := by
  have marks : ∀ u : State, allLines.foldl (fun acc l => acc.mark (lineGroup l)) u = { u with
      path.dirty := (((u.path.dirty.set 2 true).set 3 true).set 4 true).set 5 true } := fun u => by
    simp only [allLines, List.foldl_cons, List.foldl_nil, State.mark, lineGroup]
    rfl
  unfold State.completePeriod State.periodDue
  by_cases h : 0 < s.path.period ∧ s.path.period ≤ s.path.periodCount
  · rw [if_pos (by simpa using h), if_pos h, if_pos h, marks]
  · rw [if_neg (by simpa using h), if_neg h, if_neg h]

theorem tickPeriod_eq (s : State) : s.tickPeriod = { s with
    path.periodCount := s.path.periodCount + if 0 < s.path.period ∧ s.path.state ≠ .down then 1 else 0 } := by
  unfold State.tickPeriod
  by_cases h : 0 < s.path.period ∧ s.path.state ≠ .down
  · rw [if_pos h, if_pos h]
  · rw [if_neg h, if_neg h]
    rfl

theorem advanceTime_eq (s : State) : s.advanceTime = { s with
    track.clock := s.track.clock + 1
    track.lines := s.track.lines.map Line.tick
    path.periodCount := s.path.periodCount + if 0 < s.path.period ∧ s.path.state ≠ .down then 1 else 0 } := by
  unfold State.advanceTime
  rw [tickPeriod_eq, State.tickMarkers_eq]
  rfl

/-- With no change due, nothing completes (R19). -/
theorem completeAllDue_none {s : State} (h : ∀ l i c, ((s.line l).marker i).pending = some c → c.remaining ≠ 0) :
    s.completeAllDue = s := by
  have inputs : ∀ l, allInputs.foldl (fun acc i => acc.completeDue l i) s = s := fun l => by
    simp only [allInputs, List.foldl_cons, List.foldl_nil, State.completeDue_none (h l _)]
  unfold State.completeAllDue
  simp only [allLines, List.foldl_cons, List.foldl_nil, inputs]

theorem tick_pending (s : State) (lines : Vector Line 4) (l : LineId) (i : MarkerInput)
    (h : s.track.lines = lines.map Line.tick) :
    ((s.line l).marker i).pending = (lines[l].marker i).pending.map fun c => { c with remaining := c.remaining - 1 } := by
  have hl : s.line l = lines[l].tick := by
    unfold State.line
    rw [h]
    exact Vector.getElem_map _ _
  rw [hl]
  cases i <;> rfl

/-- Settles O12: the clock, the pending changes and the period count advance, and what is due completes. -/
theorem aTickAdvancesTime : Obligations.ATickAdvancesTime := by
  unfold Obligations.ATickAdvancesTime
  refine ⟨fun s u hs hu => ?_, fun l i s hs => exec_debounceComplete s l i hs⟩
  have hadv : s.completePeriod.advanceTime = u := by
    rw [advanceTime_eq, completePeriod_eq, hu]
    rfl
  have key := exec_timeBaseTick s hs
  rw [hadv] at key
  refine ⟨key, fun h => ?_⟩
  rw [key, completeAllDue_none]
  intro l i c hc
  rw [tick_pending u s.track.lines l i (by rw [hu]; rfl)] at hc
  obtain ⟨c', hc', rfl⟩ := Option.map_eq_some_iff.1 hc
  have := h l i c' hc'
  show c'.remaining - 1 ≠ 0
  omega

/-! ## Marker inputs (R18 to R22) -/

theorem Line.change_eq (ln : Line) (i : MarkerInput) (clock : Time) : ln.change i clock =
    { level := !(ln.marker i).settled
      value := (match i with | .seamIn => ln.entry.counter | _ => ln.exit.counter)
      time := clock, remaining := (ln.marker i).debounce
      void := !(match i with | .seamIn => ln.entry.forward | _ => ln.exit.forward) } := by
  cases i <;> rfl

theorem line_withLine (s : State) (l : LineId) (ln : Line) : (s.withLine l ln).line l = ln := by
  unfold State.line State.withLine
  simp

theorem line_withLine_ne (s : State) {l j : LineId} (ln : Line) (h : j ≠ l) : (s.withLine l ln).line j = s.line j := by
  unfold State.line State.withLine
  have hne : l.val ≠ j.val := fun hv => h (Fin.ext hv.symm)
  simp [Vector.getElem_set_ne, hne]

/-- A change that completes moves the settled level, and is captured where it is an edge the line takes (R19 to R22). -/
theorem completeChange_eq {s : State} {l : LineId} {i : MarkerInput} {c : Pending}
    (h : ((s.line l).marker i).pending = some c) : s.completeChange l i =
      (fun u : State => if c.void = false ∧ ((s.line l).marker i).edge.admits c.level ∧ (s.line l).state = .tracking ∧
          0 ≤ (c.value : Int) - ((s.line l).marker i).offset ∧ (c.value : Int) - ((s.line l).marker i).offset ≤ maxPos then
        u.capture l i ((c.value : Int) - ((s.line l).marker i).offset).toNat c.time else u)
      (s.withLine l ((s.line l).setMarker i { (s.line l).marker i with settled := c.level, pending := none })) := by
  unfold State.completeChange
  dsimp only
  rw [h]
  dsimp only
  rw [State.setLine_same _ _ _ (Line.content_setMarker _ _ _).symm]

theorem completeChange_discarded {s : State} {l : LineId} {i : MarkerInput} {c : Pending}
    (h : ((s.line l).marker i).pending = some c)
    (hc : c.void = true ∨ ((s.line l).marker i).edge.admits c.level = false ∨ (s.line l).state ≠ .tracking ∨
      (c.value : Int) - ((s.line l).marker i).offset < 0 ∨
      281474976710655 < (c.value : Int) - ((s.line l).marker i).offset) :
    s.completeChange l i =
      s.withLine l ((s.line l).setMarker i { (s.line l).marker i with settled := c.level, pending := none }) := by
  rw [completeChange_eq h]
  refine if_neg ?_
  rintro ⟨h1, h2, h3, h4, h5⟩
  unfold maxPos at h5
  rcases hc with hc | hc | hc | hc | hc
  · exact nomatch h1.symm.trans hc
  · exact nomatch h2.symm.trans hc
  · exact hc h3
  · omega
  · omega

theorem completeChange_captured {s : State} {l : LineId} {i : MarkerInput} {c : Pending}
    (h : ((s.line l).marker i).pending = some c) {p : Nat} (hp : (p : Int) = (c.value : Int) - ((s.line l).marker i).offset)
    (hle : p ≤ 281474976710655) (hv : c.void = false) (ha : ((s.line l).marker i).edge.admits c.level = true)
    (ht : (s.line l).state = .tracking) : s.completeChange l i =
      (s.withLine l ((s.line l).setMarker i
        { (s.line l).marker i with settled := c.level, pending := none })).capture l i p c.time := by
  rw [completeChange_eq h, ← hp]
  refine if_pos ⟨hv, ha, ht, by omega, ?_⟩
  unfold maxPos
  omega

/-- Whatever a completing change does, its input shows the settled level with the change gone, and the other lines stay
(R19). -/
theorem completeChange_lines {s : State} {l : LineId} {i : MarkerInput} {c : Pending}
    (h : ((s.line l).marker i).pending = some c) :
    ((s.completeChange l i).line l).marker i = { (s.line l).marker i with settled := c.level, pending := none } ∧
      ∀ j, j ≠ l → (s.completeChange l i).line j = s.line j := by
  have wiring : ∀ {ln ln' : Line}, ln'.wiring = ln.wiring → ln'.marker i = ln.marker i := fun {ln ln'} hw => by
    have e : ∀ x : Line, x.wiring.marker i = x.marker i := fun x => by cases i <;> rfl
    rw [← e, hw, e]
  rw [completeChange_eq h]
  dsimp only
  split
  · obtain ⟨-, -, hw, hj⟩ := SeamFrame.capture
      (s.withLine l ((s.line l).setMarker i { (s.line l).marker i with settled := c.level, pending := none }))
      l i ((c.value : Int) - ((s.line l).marker i).offset).toNat c.time
    refine ⟨?_, fun j hne => ?_⟩
    · rw [wiring hw, line_withLine, Line.marker_setMarker]
    · rw [hj j hne, line_withLine_ne s _ hne]
  · refine ⟨?_, fun j hne => ?_⟩
    · rw [line_withLine, Line.marker_setMarker]
    · rw [line_withLine_ne s _ hne]

/-- Settles O13: a raw transition starts or drops a change, and a change that is due completes. -/
theorem markerInputsDebounceTheirTransitions : Obligations.MarkerInputsDebounceTheirTransitions := by
  unfold Obligations.MarkerInputsDebounceTheirTransitions
  refine ⟨fun l i s w hs hw => ?_, fun l i c s hs hc hr => ?_⟩
  · have hstart : s.setPending l i (some ((s.line l).change i s.track.clock)) = w := by
      rw [State.setPending_eq, Line.change_eq]
      exact hw.symm
    have hline : (w.line l).marker i = { (s.line l).marker i with pending := some ((s.line l).change i s.track.clock) } := by
      rw [← hstart, State.setPending_eq, line_withLine, Line.marker_setMarker]
    have hready : w.Ready := by
      rw [hw]
      exact hs
    refine ⟨fun hn hd => ?_, fun hn hd => ?_, fun c hc => ?_, fun h => ?_⟩
    · rw [exec_markerRawTransition s l i hs, State.rawTransition_start hn, hstart, State.completeDue_none]
      intro c hc
      rw [hline] at hc
      cases hc
      exact hd
    · rw [exec_markerRawTransition s l i hs, State.rawTransition_start hn, hstart, exec_debounceComplete w l i hready]
    · rw [exec_markerRawTransition s l i hs, State.rawTransition_drop hc, State.setPending_eq]
    · rw [exec_debounceComplete s l i hs, State.completeDue_none h]
  · rw [exec_debounceComplete s l i hs, State.completeDue_due hc hr]
    obtain ⟨h1, h2⟩ := completeChange_lines hc
    exact ⟨_, rfl, h1, h2, completeChange_discarded hc, fun p hp hle hv ha ht => completeChange_captured hc hp hle hv ha ht⟩

end Sys2Proof.Machine
end

section
/-! PROOF. What an accepted P-side transaction becomes: withheld, forwarded, taken into a directive slot, returned (R135, R137,
R140, R153, R154; O15 to O18, O22). -/

namespace Sys2Proof.Machine

/-! ## Withheld or forwarded (R135, R137) -/

/-- Settles O15: a transaction without room stays presented. -/
theorem transactionsAreWithheldWithoutRoom : Obligations.TransactionsAreWithheldWithoutRoom := by
  unfold Obligations.TransactionsAreWithheldWithoutRoom
  refine ⟨fun base w r => ⟨entries_write base w, entries_read base r⟩, fun s hr hp => ⟨fun b hb h c hc => ?_,
    fun b hb h c hc => ?_⟩⟩
  · rw [exec_asWrite hc hb hr, State.present_withheld hp hr.2 (accepts_false h)]
  · rw [exec_asRead hc hb hr, State.present_withheld hp hr.2 (accepts_false h)]

theorem exec_asWrite_accepted {c : Instr} {b : WriteBurst} (hc : c ∈ asWrite b) (hb : b.wf = true) {s : State}
    (hr : s.PortReady) (hl : s.path.requests.length + entriesNeeded s.base (.write b) ≤ 32) :
    exec c s = .next (s.acceptWriteAt b (decodeArea s.base b.addr)) := by
  rw [exec_asWrite hc hb hr.1, State.present_accepted hr.2.2.2 hr.1.2 (accepts_true hr hl)]
  rfl

theorem exec_asRead_accepted {c : Instr} {b : ReadBurst} (hc : c ∈ asRead b) (hb : b.wf = true) {s : State}
    (hr : s.PortReady) (hl : s.path.requests.length + entriesNeeded s.base (.read b) ≤ 32) :
    exec c s = .next (s.acceptReadAt b (decodeArea s.base b.addr)) := by
  rw [exec_asRead hc hb hr.1, State.present_accepted hr.2.2.2 hr.1.2 (accepts_true hr hl)]
  rfl

theorem acceptWriteAt_forwarded {s : State} {b : WriteBurst} (hs : ¬(s.base ≤ b.addr ∧ b.addr < s.base + 0x2000))
    (hi : ¬(s.base + 0x4000 ≤ b.addr ∧ b.addr < s.base + 0x4200)) :
    s.acceptWriteAt b (decodeArea s.base b.addr) = s.withRequest (.write b) := by
  rcases decodeArea_cases s.base b.addr with ⟨k, w, -, g⟩ | ⟨i, w, -, g⟩ | ⟨k, i, w, h, -⟩ | ⟨h | h | h, -⟩
  · exact absurd g hs
  · exact absurd g hi
  all_goals rw [h]; rfl

theorem acceptReadAt_forwarded {s : State} {b : ReadBurst} (ha : ¬(s.base + 0x10000 ≤ b.addr ∧ b.addr < s.base + 0x90000)) :
    s.acceptReadAt b (decodeArea s.base b.addr) = { s with
      path.requests := s.path.requests ++ [.read b (s.path.bookkeeping.map (·.id))]
      path.port := some (.passThrough b none) } := by
  rcases decodeArea_cases s.base b.addr with ⟨k, w, h, -⟩ | ⟨i, w, h, -⟩ | ⟨k, i, w, -, g⟩ | ⟨h | h | h, -⟩
  case inr.inr.inl => exact absurd g ha
  all_goals rw [h]; rfl

/-- Settles O16: what no block of the part takes goes to memory as it is. -/
theorem otherBurstsAreForwardedUnchanged : Obligations.OtherBurstsAreForwardedUnchanged := by
  unfold Obligations.OtherBurstsAreForwardedUnchanged
  refine fun s hr hl => ⟨fun b hb hs hi c hc => ?_, fun b hb ha c hc => ?_⟩
  · rw [exec_asWrite_accepted hc hb hr (by rw [entries_write, if_neg hi]; omega), acceptWriteAt_forwarded hs hi]
  · rw [exec_asRead_accepted hc hb hr (by rw [entries_read, if_neg ha]; omega), acceptReadAt_forwarded ha]

/-! ## Directive slots (R153, R154) -/

/-- A burst of parameter words ends inside them: a burst does not cross a block of eight words. -/
theorem parameter_words_end {s : State} {b : WriteBurst} (hb : b.wf = true) {k : Fin 16} {w : Nat}
    (ha : b.addr = s.base + 512 * k.val + 4 * w) (hw : w < 48) : w + b.words.length ≤ 48 := by
  obtain ⟨-, -, -, h⟩ := wf_write hb
  have := base_mod s
  omega

/-- Settles O17: parameter bytes are captured in an IDLE slot; a busy slot refuses them with ACCESS_FAULT. -/
theorem parameterWritesAreCapturedInAnIdleSlot : Obligations.ParameterWritesAreCapturedInAnIdleSlot := by
  unfold Obligations.ParameterWritesAreCapturedInAnIdleSlot
  refine ⟨mergeBytes_bit, fun b k w s hb hr hl hw ha => ⟨fun hi hw c hc => ?_, fun hi h48 hlen c hc => ?_,
    fun hi hen c hc => ?_, fun hi hen c hc => ?_⟩⟩
  all_goals rw [exec_slotWrite hc hb hr hl k (by omega) ha]
  · obtain ⟨h1, h2, h3, h4⟩ := slotWords_idle k b.words w s hi (parameter_words_end hb ha hw)
    refine ⟨_, rfl, ?_, h2, h3, h4⟩
    conv_lhs => rw [h1]
  · rw [slotWords_answer k b.words w s hi h48 hlen]
  · rw [(slotWords_busy k b.words w s hi).1 hen]
  · rw [(slotWords_busy k b.words w s hi).2 hen]

/-- A burst that reaches the go word of an IDLE slot is its go word: the words before it change nothing. -/
theorem slotWords_goWord {k : Fin 16} {s : State} (hi : (s.slot k).state = .idle) {xs : List Lane} {x : Lane} {w : Nat}
    (h48 : 48 ≤ w) (hlen : w + xs.length = 128) (hx : xs.getLast? = some x) :
    State.slotWords k w xs s = s.slotWord k 127 x := by
  obtain ⟨front, rfl⟩ := List.getLast?_eq_some_iff.1 hx
  rw [List.length_append, List.length_singleton] at hlen
  rw [slotWords_append, slotWords_answer k front w s hi h48 (by omega), show w + front.length = 127 by omega]
  rfl

theorem slotWord_go (s : State) (k : Fin 16) (x : Lane) :
    s.slotWord k 127 x = if x.en = 0 then s else s.goWord k x := by
  unfold State.slotWord
  rw [if_pos (rfl : (127 : Nat) = 127)]

theorem goWord_partial {s : State} {k : Fin 16} {x : Lane} (he : x.en ≠ 0xF) :
    s.goWord k x = s.withPathFlag 0x800 := by
  unfold State.goWord
  rw [if_pos (.inr he), raisePath_access]

theorem goWord_full {s : State} {k : Fin 16} {x : Lane} (hi : (s.slot k).state = .idle) (he : x.en = 0xF) :
    s.goWord k x = if goCode x.data = 0 then s else s.queueSlot k x.data := by
  unfold State.goWord Slot.isIdle
  rw [hi, if_neg (by rintro (h | h); exacts [absurd h (by decide), h he])]

theorem goCode_eq_zero_iff (w : Word) : goCode w = 0 ↔ w.toNat % 256 = 0 := by
  rw [← BitVec.toNat_inj]
  simp [goCode]

theorem goCode_eq (w : Word) : goCode w = BitVec.ofNat 8 w.toNat := by
  unfold goCode
  exact (BitVec.ofNat_toNat 8 w).symm

theorem goTag_eq (w : Word) : goTag w = BitVec.ofNat 16 (w.toNat / 65536) := by
  unfold goTag
  apply BitVec.eq_of_toNat_eq
  simp [BitVec.toNat_ushiftRight, Nat.shiftRight_eq_div_pow]

theorem queueSlot_eq (s : State) (k : Fin 16) (w : Word) : s.queueSlot k w = { s with
    path.fifo := s.path.fifo ++ [k]
    path.slots := s.path.slots.set k.val
      { s.slot k with
        state := .queued, code := BitVec.ofNat 8 w.toNat, tag := BitVec.ofNat 16 (w.toNat / 65536) } k.isLt
    path.dirty := s.path.dirty.set 0 true } := by
  rw [← goCode_eq, ← goTag_eq]
  rfl

/-- Settles O18: the go word of an IDLE slot submits its directive, or nothing, or sets ACCESS_FAULT. -/
theorem theGoWordQueuesAnIdleSlot : Obligations.TheGoWordQueuesAnIdleSlot := by
  unfold Obligations.TheGoWordQueuesAnIdleSlot
  intro b x k w s hb hr hl hlen ha hx hi
  have h1 := wf_write hb
  have h48 : 48 ≤ w := by omega
  have run : ∀ c ∈ asWrite b, exec c s = .next ((if x.en = 0 then s else s.goWord k x).withRequest (.write b)) := by
    intro c hc
    rw [exec_slotWrite hc hb hr hl k (by omega) ha, slotWords_goWord hi h48 hlen hx, slotWord_go]
  refine ⟨fun he hcode c hc => ?_, fun he hcode c hc => ?_, fun he hne c hc => ?_, fun he c hc => ?_⟩
  all_goals rw [run c hc]
  · rw [if_neg (by rw [he]; decide), goWord_full hi he, if_neg (by rwa [goCode_eq_zero_iff]), queueSlot_eq]
  · rw [if_neg (by rw [he]; decide), goWord_full hi he, if_pos ((goCode_eq_zero_iff _).2 hcode)]
  · rw [if_neg hne, goWord_partial he]
  · rw [if_pos he]

/-! ## Returned data (R132, R140) -/

theorem returnPassThrough_of {s : State} {b : ReadBurst} {ws : List Word}
    (h : s.path.port = some (.passThrough b (some ws))) :
    s.returnPassThrough = ((s.returnData ws).releasePort).letIn := by
  unfold State.returnPassThrough
  rw [h]

theorem returnPassThrough_idle {s : State} (h : ∀ b ws, s.path.port ≠ some (.passThrough b (some ws))) :
    s.returnPassThrough = s := by
  unfold State.returnPassThrough
  split
  · exact absurd ‹_› (h _ _)
  · rfl

theorem returnAperture_of {s : State} {h : ApertureHold} (hp : s.path.port = some (.aperture h))
    (hg : h.got.length = h.reads) : s.returnAperture = ((s.returnData h.answer).releasePort).letIn := by
  unfold State.returnAperture
  rw [hp]
  exact if_pos hg

theorem returnAperture_idle {s : State} (h : ∀ a, s.path.port = some (.aperture a) → a.got.length ≠ a.reads) :
    s.returnAperture = s := by
  unfold State.returnAperture
  split
  · rw [if_neg (h _ ‹_›)]
  · rfl

theorem answer_gap {h : ApertureHold}
    (hg : h.slotWord 0 ≠ h.tag ∨ (h.slotWord 2).toNat + (h.slotWord 3).toNat % 128 * 4294967296 ≠ h.bin / 512) :
    h.answer = pointWords h.first h.count (playbackHeader .gap false 0 0 h.ancestor h.pos h.target) fun _ => 0x80000000 := by
  unfold ApertureHold.answer
  exact if_pos hg

theorem answer_ok {h : ApertureHold} (ht : h.slotWord 0 = h.tag)
    (hb : (h.slotWord 2).toNat + (h.slotWord 3).toNat % 128 * 4294967296 = h.bin / 512) :
    h.answer = pointWords h.first h.count
      (playbackHeader .ok ((h.slotWord 3).getLsbD 27) ((h.slotWord 3).toNat / 128 % 4096)
        ((h.slotWord 3).toNat / 524288 % 256) h.ancestor h.pos h.target)
      fun ch => if ((h.slotWord 3).toNat / 128 % 4096).testBit ch then h.slotWord (4 + ch) else 0x80000000 := by
  unfold ApertureHold.answer
  exact if_neg (not_or.2 ⟨not_not.2 ht, not_not.2 hb⟩)

/-- Settles O22: returned data releases the port, and what waits is then let in. -/
theorem readsReturnAndReleaseThePort : Obligations.ReadsReturnAndReleaseThePort := by
  unfold Obligations.ReadsReturnAndReleaseThePort
  intro s hs
  have pass : exec .readDataReturn s = .next s.returnPassThrough :=
    afterTakes_ready (f := fun s => s.returnPassThrough) hs
  have aperture : exec .apertureReadReturn s = .next s.returnAperture :=
    afterTakes_ready (f := fun s => s.returnAperture) hs
  refine ⟨fun b ws hp => ?_, fun h => ?_, fun h hp hg => ⟨fun hgap => ?_, fun ht hb => ?_⟩, fun h => ?_⟩
  · rw [pass, returnPassThrough_of hp]
    rfl
  · rw [pass, returnPassThrough_idle h]
  · rw [aperture, returnAperture_of hp hg, answer_gap hgap]
    rfl
  · rw [aperture, returnAperture_of hp hg, answer_ok ht hb]
    rfl
  · rw [aperture, returnAperture_idle h]

end Sys2Proof.Machine
end

section
/-! PROOF. The run of a station's sealing taken apart: the present bins with a place for their header, then the missing run up
to the limit, or the pause (R96, R100). -/

namespace Sys2Proof.Machine

/-! ## Sorted tables -/

/-- A table splits at a number: the places up to it, then those above it. -/
theorem tableWf_split {α : Type} (n : Int) : ∀ {t : List (Nat × α)}, tableWf t = true →
    t = (t.filter fun e => decide ((e.1 : Int) ≤ n)) ++ t.filter fun e => decide (n < (e.1 : Int))
  | [], _ => rfl
  | (k, v) :: rest, h => by
    obtain ⟨hk, hr⟩ := tableWf_cons.1 h
    by_cases hkn : (k : Int) ≤ n
    · rw [List.filter_cons_of_pos (by simpa using hkn), List.filter_cons_of_neg (by simpa using hkn), List.cons_append,
        ← tableWf_split n hr]
    · have none : (rest.filter fun e => decide ((e.1 : Int) ≤ n)) = [] :=
        List.filter_eq_nil_iff.2 fun e he => by have := hk e he; simp only [decide_eq_true_eq]; omega
      have all : (rest.filter fun e => decide (n < (e.1 : Int))) = rest :=
        List.filter_eq_self.2 fun e he => by have := hk e he; simp only [decide_eq_true_eq]; omega
      rw [List.filter_cons_of_neg (by simpa using hkn), List.filter_cons_of_pos (by simpa using hkn), none, all]
      rfl

/-! ## One step of the run -/

/-- An open bin with a place for its header is sealed, after the run of missing bins below it (R96). -/
def State.sealOne (i : Fin 8) (forced : Bool) (s : State) (e : Nat × OpenBin) : State :=
  (s.missingStep i ((e.1 : Int) - 1)).presentStep i forced

theorem missingStep_rest (s : State) (i : Fin 8) (n : Int) :
    (s.missingStep i n).path.bookkeeping = s.path.bookkeeping ∧ (s.missingStep i n).path.waitList = s.path.waitList ∧
      (s.missingStep i n).path.nextId = s.path.nextId := by
  unfold State.missingStep
  split
  · exact ⟨rfl, rfl, rfl⟩
  · split
    · exact ⟨rfl, rfl, rfl⟩
    · obtain ⟨⟨_, _, _, _, _, _, _, h⟩, -⟩ := (TableFrame.tallyRun (s.setLive i _) i _ _ _).trans
        (TableFrame.settleStation _ i)
      rw [h]
      unfold State.setLive
      simp [State.withTable]

/-- A present step at a LIVE station with an open bin, up to the tables it tallies and settles in. -/
theorem presentStep_frame {s : State} {i : Fin 8} {d : LiveData} {b : Nat} {bin : OpenBin} {rest : List (Nat × OpenBin)}
    (f : Bool) (h : (s.station i).state = .live d) (hb : d.bins = (b, bin) :: rest) :
    TableFrame ((s.append ((s.station i).sealHeader (s.owner i (b * (s.station i).d.binLength)) b bin
      (evalChain (s.station i).chain bin) f)).setLive i (d.sealed b)) (s.presentStep i f) := by
  unfold State.presentStep
  rw [Station.live?_eq.2 h]
  dsimp only
  rw [hb]
  exact (TableFrame.tallyOwner _ _ _).trans (TableFrame.settleStation _ _)

theorem presentStep_rest (s : State) (i : Fin 8) (f : Bool) :
    (s.presentStep i f).path.bookkeeping.length ≤ s.path.bookkeeping.length + 1 ∧
      (s.presentStep i f).path.waitList = s.path.waitList := by
  cases hl : (s.station i).live? with
  | none =>
    unfold State.presentStep
    rw [hl]
    exact ⟨Nat.le_succ _, rfl⟩
  | some d =>
    cases hb : d.bins with
    | nil =>
      unfold State.presentStep
      rw [hl]
      dsimp only
      rw [hb]
      exact ⟨Nat.le_succ _, rfl⟩
    | cons e rest =>
      obtain ⟨⟨_, _, _, _, _, _, _, h⟩, -⟩ := presentStep_frame f (Station.live?_eq.1 hl) hb
      rw [h]
      unfold State.setLive
      simp [State.withTable, State.append]

theorem sealOne_rest (i : Fin 8) (f : Bool) (s : State) (e : Nat × OpenBin) :
    (s.sealOne i f e).path.bookkeeping.length ≤ s.path.bookkeeping.length + 1 ∧
      (s.sealOne i f e).path.waitList = s.path.waitList := by
  obtain ⟨h1, h2, -⟩ := missingStep_rest s i ((e.1 : Int) - 1)
  obtain ⟨g1, g2⟩ := presentStep_rest (s.missingStep i ((e.1 : Int) - 1)) i f
  rw [h1] at g1
  exact ⟨g1, g2.trans h2⟩

theorem canAppend_iff (s : State) : s.canAppend = true ↔ s.path.waitList = [] ∧ s.path.bookkeeping.length < 64 := by
  unfold State.canAppend Config.bookkeepingCap
  rw [Bool.and_eq_true, decide_eq_true_eq, List.isEmpty_iff, and_comm]

/-! ## The run -/

/-- The bins with a place for their header are sealed one after another. -/
theorem sealBins_front (i : Fin 8) (lim : Int) (f : Bool) (rest : List (Nat × OpenBin)) :
    ∀ (front : List (Nat × OpenBin)) (s : State), (∀ e ∈ front, (e.1 : Int) ≤ lim) →
      (front = [] ∨ s.path.waitList = [] ∧ s.path.bookkeeping.length + front.length ≤ 64) →
      State.sealBins i lim f (front ++ rest) s = State.sealBins i lim f rest (front.foldl (State.sealOne i f) s)
  | [], _, _, _ => rfl
  | (b, bin) :: front, s, hle, hroom => by
    obtain ⟨hw, hk⟩ := hroom.resolve_left (List.cons_ne_nil _ _)
    rw [List.length_cons] at hk
    obtain ⟨h1, h2, -⟩ := missingStep_rest s i ((b : Int) - 1)
    have can : (s.missingStep i ((b : Int) - 1)).canAppend = true := by
      rw [canAppend_iff, h1, h2]
      exact ⟨hw, by omega⟩
    obtain ⟨g1, g2⟩ := sealOne_rest i f s (b, bin)
    have next := sealBins_front i lim f rest front (s.sealOne i f (b, bin))
      (fun e he => hle e (List.mem_cons_of_mem _ he)) (.inr ⟨g2.trans hw, by omega⟩)
    rw [List.cons_append, State.sealBins, if_pos (hle _ List.mem_cons_self)]
    dsimp only
    rw [if_pos can]
    exact next

/-- No due bin is left: the run of missing bins up to the limit. -/
theorem sealBins_last {i : Fin 8} {lim : Int} {f : Bool} {rest : List (Nat × OpenBin)} (h : ∀ e ∈ rest, lim < (e.1 : Int))
    (s : State) : State.sealBins i lim f rest s = s.missingStep i lim := by
  cases rest with
  | nil => rfl
  | cons e rest =>
    have := h e List.mem_cons_self
    rw [State.sealBins, if_neg (by omega)]

/-- A due bin with no place for its header: the station pauses below it (R100). -/
theorem sealBins_pause {i : Fin 8} {lim : Int} {f : Bool} {b : Nat} {bin : OpenBin} {rest : List (Nat × OpenBin)} {s : State}
    (h : (b : Int) ≤ lim) (hn : s.canAppend = false) :
    State.sealBins i lim f ((b, bin) :: rest) s = (s.missingStep i ((b : Int) - 1)).pauseSealing i := by
  obtain ⟨h1, h2, -⟩ := missingStep_rest s i ((b : Int) - 1)
  have same : (s.missingStep i ((b : Int) - 1)).canAppend = s.canAppend := by
    unfold State.canAppend
    rw [h1, h2]
  rw [State.sealBins, if_pos h]
  dsimp only
  rw [same, hn]
  rfl

/-! ## The station along the run -/

/-- The sealed bin once the bins of a list are sealed in order. -/
def sealedTo (S : Int) (front : List (Nat × OpenBin)) : Int := front.foldl (fun _ e => (e.1 : Int)) S

theorem sealOne_station {s : State} {i : Fin 8} {d : LiveData} {e : Nat × OpenBin} {rest : List (Nat × OpenBin)} (f : Bool)
    (h : (s.station i).state = .live d) (hb : d.bins = e :: rest) :
    ((s.sealOne i f e).station i).state = .live { d with sealedBin := e.1, bins := rest } := by
  have h1 := State.missingStep_station ((e.1 : Int) - 1) h
  refine (State.presentStep_station f h1 hb).trans ?_
  unfold LiveData.sealed
  rw [hb]
  rfl

theorem sealFront_station {i : Fin 8} (f : Bool) (rest : List (Nat × OpenBin)) :
    ∀ (front : List (Nat × OpenBin)) {s : State} {d : LiveData}, (s.station i).state = .live d → d.bins = front ++ rest →
      ((front.foldl (State.sealOne i f) s).station i).state =
        .live { d with sealedBin := sealedTo d.sealedBin front, bins := rest }
  | [], s, d, h, hb => h.trans (congrArg StationState.live (by rw [← show d.bins = rest from hb]; rfl))
  | e :: front, s, d, h, hb => sealFront_station f rest front (sealOne_station f h hb) rfl

/-- The sealed bin is the last of the list, above all others of it. -/
theorem sealedTo_bounds {front : List (Nat × OpenBin)} {S : Int} (hw : tableWf front = true)
    (hS : ∀ e ∈ front, S < (e.1 : Int)) :
    S ≤ sealedTo S front ∧ (∀ e ∈ front, (e.1 : Int) ≤ sealedTo S front) ∧
      (sealedTo S front = S ∨ ∃ e ∈ front, (e.1 : Int) = sealedTo S front) := by
  induction front generalizing S with
  | nil => exact ⟨Int.le_refl _, nofun, .inl rfl⟩
  | cons e rest ih =>
    obtain ⟨he, hr⟩ := tableWf_cons.1 hw
    have hlt := hS e List.mem_cons_self
    obtain ⟨h1, h2, h3⟩ := ih hr (S := (e.1 : Int)) fun x hx => by exact_mod_cast he x hx
    have same : sealedTo S (e :: rest) = sealedTo e.1 rest := rfl
    rw [same]
    refine ⟨by omega, fun x hx => ?_, .inr ?_⟩
    · rcases List.mem_cons.1 hx with rfl | hx
      · exact h1
      · exact h2 x hx
    · rcases h3 with h3 | ⟨x, hx, h3⟩
      · exact ⟨e, List.mem_cons_self, h3.symm⟩
      · exact ⟨x, List.mem_cons_of_mem _ hx, h3⟩

theorem tableWf_append {α : Type} : ∀ {xs ys : List (Nat × α)}, tableWf (xs ++ ys) = true →
    tableWf xs = true ∧ tableWf ys = true ∧ ∀ x ∈ xs, ∀ y ∈ ys, x.1 < y.1
  | [], _, h => ⟨rfl, h, nofun⟩
  | (k, v) :: rest, ys, h => by
    obtain ⟨hk, hr⟩ := tableWf_cons.1 h
    obtain ⟨h1, h2, h3⟩ := tableWf_append hr
    refine ⟨tableWf_cons.2 ⟨fun e he => hk e (List.mem_append_left _ he), h1⟩, h2, fun x hx y hy => ?_⟩
    rcases List.mem_cons.1 hx with rfl | hx
    · exact hk y (List.mem_append_right _ hy)
    · exact h3 x hx y hy

/-- Sealing a LIVE station's bins keeps it LIVE. -/
theorem sealBins_live {i : Fin 8} (lim : Int) (f : Bool) (bins : List (Nat × OpenBin)) :
    ∀ {s : State} {d : LiveData}, (s.station i).state = .live d → d.bins = bins →
      ∃ d', ((State.sealBins i lim f bins s).station i).state = .live d' := by
  induction bins with
  | nil => exact fun h _ => ⟨_, State.missingStep_station lim h⟩
  | cons e rest ih =>
    intro s d h hb
    simp only [State.sealBins]
    split
    · split
      · exact ih (sealOne_station f h hb) rfl
      · exact ⟨_, State.pauseSealing_station (State.missingStep_station _ h)⟩
    · exact ⟨_, State.missingStep_station lim h⟩

/-- A sealing that finds a place for every due bin: they leave the table and S becomes the limit, if it was below (R96). -/
theorem sealBins_whole_station {s : State} {i : Fin 8} {d : LiveData} (lim : Int) (f : Bool)
    (h : (s.station i).state = .live d) (hok : d.Ok) (hw : s.path.waitList = [])
    (hroom : s.path.bookkeeping.length + (d.bins.filter fun e => decide ((e.1 : Int) ≤ lim)).length ≤ 64) :
    ((State.sealBins i lim f d.bins s).station i).state =
      .live { d with sealedBin := max d.sealedBin lim, bins := d.bins.filter fun e => decide (lim < (e.1 : Int)) } := by
  have split := tableWf_split lim hok.1
  have due : ∀ e ∈ d.bins.filter fun e => decide ((e.1 : Int) ≤ lim), e ∈ d.bins ∧ (e.1 : Int) ≤ lim := fun e he => by
    rw [List.mem_filter, decide_eq_true_eq] at he
    exact he
  have above : ∀ e ∈ d.bins.filter fun e => decide (lim < (e.1 : Int)), lim < (e.1 : Int) := fun e he => by
    rw [List.mem_filter, decide_eq_true_eq] at he
    exact he.2
  have hwf := tableWf_filter (fun e => decide ((e.1 : Int) ≤ lim)) hok.1
  generalize d.bins.filter (fun e => decide ((e.1 : Int) ≤ lim)) = front at *
  generalize d.bins.filter (fun e => decide (lim < (e.1 : Int))) = rest at *
  obtain ⟨b1, -, b3⟩ := sealedTo_bounds hwf fun e he => hok.2 e (due e he).1
  have top : max (sealedTo d.sealedBin front) lim = max d.sealedBin lim := by
    rcases b3 with b3 | ⟨e, he, b3⟩
    · rw [b3]
    · have := (due e he).2
      omega
  conv_lhs => rw [split, sealBins_front i lim f rest front s (fun e he => (due e he).2) (.inr ⟨hw, hroom⟩), sealBins_last above]
  rw [State.missingStep_station lim (sealFront_station f rest front h split)]
  dsimp only
  rw [top]

end Sys2Proof.Machine
end

section
/-! PROOF. Intake bursts word by word and aperture points in their order (R91 to R95, R128 to R131; O19 to O21). -/

namespace Sys2Proof.Machine

/-! ## An intake burst (R91, R94) -/

theorem intakeWords_foldl (i : Fin 8) (reference : Nat) : ∀ (w : Nat) (words : List Lane) (run : IntakeRun),
    intakeWords i reference w words run = (words.zipIdx w).foldl (fun r x => r.word i reference x.2 x.1) run
  | _, [], _ => rfl
  | w, x :: rest, run => intakeWords_foldl i reference (w + 1) rest (run.word i reference w x)

theorem recordedBins_foldl : ∀ (recorded : List Recorded) (seen : List Nat), recordedBins recorded seen =
    recorded.foldl (fun seen r => if r.bin ∈ seen then seen else seen ++ [r.bin]) seen
  | [], _ => rfl
  | r :: rest, seen => by
    rw [recordedBins, recordedBins_foldl rest, List.foldl_cons]
    simp only [List.contains_iff_mem]

/-- The write that forwards the words of one bin, written out (R94). -/
theorem forwardedWrite_eq (d : StationDef) (recorded : List Recorded) (w bin : Nat) : forwardedWrite d recorded w bin =
    .write
      { addr := d.ringBase + 64 * (bin % d.slotCount) + 32 * (w / 8)
        words := ([0, 1, 2, 3, 4, 5, 6, 7] : List Nat).map fun j =>
          match recorded.find? fun r => r.bin == bin && r.word == w / 8 * 8 + j with
          | some r => { data := r.value, en := 0xF }
          | none => { data := 0, en := 0 } } := by
  unfold forwardedWrite blockBurst
  refine congrArg (fun ls => Request.write { addr := _, words := ls }) (List.map_congr_left fun j _ => ?_)
  dsimp only
  cases recorded.find? fun r => r.bin == bin && r.word == w / 8 * 8 + j <;> rfl

theorem decodeArea_intake (s : State) (i : Fin 8) {w : Nat} (hw : w < 16) :
    decodeArea s.base (s.base + 0x4000 + 64 * i.val + 4 * w) = .intake i w := by
  have hi := i.isLt
  rw [show s.base + 0x4000 + 64 * i.val + 4 * w = s.base + (0x4000 + 64 * i.val + 4 * w + 0) by omega,
    decodeArea_inside (by omega), partOf_intake i hw (by omega)]

/-- Settles O19: the words of an intake burst are judged in order and its recorded words forwarded bin by bin. -/
theorem intakeBurstsAreTakenApart : Obligations.IntakeBurstsAreTakenApart := by
  unfold Obligations.IntakeBurstsAreTakenApart
  refine ⟨fun i R w words run => intakeWords_foldl i R w words run, fun r => recordedBins_foldl r [],
    fun b i w s hb hr hl hw ha c hc => ⟨_, rfl, ?_, ?_⟩⟩
  · exact (IntakeRun.goes_words i (s.reference i) w b.words { state := s, recorded := [] }).requests
  · have hi := i.isLt
    have hroom : s.path.requests.length + entriesNeeded s.base (.write b) ≤ 32 := by
      rw [entries_write, if_pos (by omega)]
      exact hl
    rw [exec_asWrite_accepted hc hb hr hroom, ha, decodeArea_intake s i hw]
    have hreq := (IntakeRun.goes_words i (s.reference i) w b.words { state := s, recorded := [] }).requests
    show Host.Outcome.next (State.request _ _) = _
    unfold State.request
    rw [hreq, List.map_congr_left fun bin _ => forwardedWrite_eq _ _ _ bin] <;> rfl

/-! ## Intake words (R91 to R95) -/

theorem word_none {i : Fin 8} {R w : Nat} {run : IntakeRun} {x : Lane} (h : x.en = 0) : run.word i R w x = run := by
  unfold IntakeRun.word
  exact if_pos h

theorem word_refused {i : Fin 8} {R w : Nat} {run : IntakeRun} {x : Lane} (h : x.en ≠ 0)
    (hr : x.en ≠ 0xF ∨ w < 4 ∨ (run.state.station i).state = .off ∨ (run.state.station i).d.channels ≤ w - 4) :
    run.word i R w x = { run with state := run.state.discard i .accessFault } := by
  unfold IntakeRun.word
  exact (if_neg h).trans (if_pos hr)

/-- A whole word of a defined channel of a station that is not OFF: judged by the station's state. -/
theorem word_whole {i : Fin 8} {R w : Nat} {run : IntakeRun} {x : Lane} (he : x.en = 0xF) (h4 : 4 ≤ w)
    (hoff : (run.state.station i).state ≠ .off) (hc : w - 4 < (run.state.station i).d.channels) :
    run.word i R w x =
      match (run.state.station i).live? with
      | none => { run with state := run.state.discard i .intakeLoss }
      | some d => run.channel i d R w x.data := by
  unfold IntakeRun.word
  refine (if_neg (by rw [he]; decide)).trans ((if_neg ?_).trans rfl)
  rintro (h | h | h | h)
  · exact h he
  · omega
  · exact hoff h
  · omega

theorem word_preparing {i : Fin 8} {R w p : Nat} {run : IntakeRun} {x : Lane} (he : x.en = 0xF) (h4 : 4 ≤ w)
    (hc : w - 4 < (run.state.station i).d.channels) (hp : (run.state.station i).state = .preparing p) :
    run.word i R w x = { run with state := run.state.discard i .intakeLoss } := by
  rw [word_whole he h4 (by rw [hp]; nofun) hc]
  unfold Station.live?
  rw [hp]

theorem word_live {i : Fin 8} {R w : Nat} {run : IntakeRun} {x : Lane} {d : LiveData} (he : x.en = 0xF) (h4 : 4 ≤ w)
    (hc : w - 4 < (run.state.station i).d.channels) (hl : (run.state.station i).state = .live d) :
    run.word i R w x = run.channel i d R w x.data := by
  rw [word_whole he h4 (by rw [hl]; nofun) hc, Station.live?_eq.2 hl]

theorem channel_outOfRange {i : Fin 8} {R w : Nat} {run : IntakeRun} {d : LiveData} {v : Word}
    (h : (R : Int) - run.state.channelOffset i w < 0 ∨ 281474976710655 < (R : Int) - run.state.channelOffset i w) :
    run.channel i d R w v = { run with state := run.state.discard i .intakeLoss } := by
  unfold IntakeRun.channel
  exact if_pos h

theorem channel_late {i : Fin 8} {R w b : Nat} {run : IntakeRun} {d : LiveData} {v : Word}
    (hf : run.state.Files i R w d b)
    (h : (b : Int) ≤ d.sealedBin ∨ (b : Int) ≤ d.highest - (run.state.station i).d.slotCount) :
    run.channel i d R w v = { run with state := run.state.discard i .intakeLoss } := by
  obtain ⟨-, -, -, p, hp, hmax, rfl⟩ := hf
  have hx : (R : Int) - ((run.state.station i).d.offsets[w - 4]?).getD 0 = p := hp.symm
  unfold IntakeRun.channel
  dsimp only
  rw [hx, if_neg (by unfold maxPos; omega), Int.toNat_natCast, if_pos h]

/-! ## The victim (R93) -/

theorem find?_le_of_tableWf {α : Type} {p : Nat × α → Bool} : ∀ {t : List (Nat × α)} {e : Nat × α}, tableWf t = true →
    t.find? p = some e → ∀ x ∈ t, p x = true → e.1 ≤ x.1
  | a :: rest, e, hw, hf, x, hx, hp => by
    obtain ⟨ha, hr⟩ := tableWf_cons.1 hw
    rw [List.find?_cons] at hf
    split at hf
    · cases hf
      rcases List.mem_cons.1 hx with rfl | hx
      · exact Nat.le_refl _
      · exact Nat.le_of_lt (ha x hx)
    · rename_i hpa
      rcases List.mem_cons.1 hx with rfl | hx
      · rw [hp] at hpa
        cases hpa
      · exact find?_le_of_tableWf hr hf x hx hp

theorem victim_none {d : LiveData} {slots b : Nat} (h : ∀ e ∈ d.bins, e.1 % slots ≠ b % slots) (hl : d.bins.length < 256) :
    d.victim slots b = none := by
  have none : (d.bins.find? fun e => e.1 % slots == b % slots) = none :=
    List.find?_eq_none.2 fun e he => by simpa using h e he
  unfold LiveData.victim
  rw [none]
  exact if_neg (Nat.not_le.2 hl)

theorem victim_some {d : LiveData} {slots b X : Nat} (hw : tableWf d.bins = true) (hX : ∃ bin, (X, bin) ∈ d.bins)
    (h : X % slots = b % slots ∧ (∀ e ∈ d.bins, e.1 % slots = b % slots → X ≤ e.1) ∨
      (∀ e ∈ d.bins, e.1 % slots ≠ b % slots) ∧ 256 ≤ d.bins.length ∧ ∀ e ∈ d.bins, X ≤ e.1) :
    d.victim slots b = some X := by
  obtain ⟨bin, hX⟩ := hX
  unfold LiveData.victim
  rcases h with ⟨hs, hmin⟩ | ⟨hne, hl, hmin⟩
  · cases hf : d.bins.find? fun e => e.1 % slots == b % slots with
    | none => exact absurd hs (by simpa using List.find?_eq_none.1 hf _ hX)
    | some e =>
      have h1 := find?_le_of_tableWf hw hf (X, bin) hX (by simpa using hs)
      have h2 := hmin e (List.mem_of_find?_eq_some hf) (by simpa using List.find?_some hf)
      exact congrArg some (Nat.le_antisymm h1 h2)
  · have none : (d.bins.find? fun e => e.1 % slots == b % slots) = none :=
      List.find?_eq_none.2 fun e he => by simpa using hne e he
    rw [none]
    refine (if_pos hl).trans ?_
    cases hb : d.bins with
    | nil => rw [hb] at hX; cases hX
    | cons e rest =>
      rw [hb] at hw hX hmin
      have h2 := hmin e List.mem_cons_self
      have h1 : e.1 ≤ X := by
        rcases List.mem_cons.1 hX with rfl | hX
        · exact Nat.le_refl _
        · exact Nat.le_of_lt ((tableWf_cons.1 hw).1 _ hX)
      exact congrArg some (Nat.le_antisymm h1 h2)

/-! ## A place for a bin (R93) -/

theorem place_discarded {i : Fin 8} {run : IntakeRun} {d : LiveData} {b w : Nat} {v : Word}
    (h : ¬run.state.canOpen i d b = true) :
    run.place i d b w v = { run with state := run.state.discard i .intakeLoss } := by
  unfold IntakeRun.place
  exact if_neg h

theorem place_recorded {i : Fin 8} {run : IntakeRun} {d : LiveData} {b w : Nat} {v : Word}
    (h : run.state.canOpen i d b = true) : run.place i d b w v =
      { state := (run.state.makePlace i d b).record i b (w - 4) v
        recorded := run.recorded ++ [{ bin := b, word := w, value := v }] } := by
  unfold IntakeRun.place
  exact if_pos h

/-- A bin that is open, or needs no victim, has its place. -/
theorem open_without_victim {s : State} {i : Fin 8} {d : LiveData} {b : Nat}
    (h : (tableGet b d.bins).isSome = true ∨ d.victim (s.station i).d.slotCount b = none) :
    s.canOpen i d b = true ∧ s.makePlace i d b = s := by
  unfold State.canOpen State.makePlace
  cases hg : (tableGet b d.bins).isSome with
  | true => exact ⟨rfl, rfl⟩
  | false =>
    rw [hg] at h
    rw [h.resolve_left (by decide)]
    exact ⟨rfl, rfl⟩

theorem makePlace_victim {s : State} {i : Fin 8} {d : LiveData} {b X : Nat} (h : (tableGet b d.bins).isSome = false)
    (hv : d.victim (s.station i).d.slotCount b = some X) : s.makePlace i d b = State.sealBins i X true d.bins s := by
  unfold State.makePlace
  rw [h, hv]
  rfl

/-- The forced seal up to a victim, with no producer waiting: S is the victim and the bins up to it are gone (R93). -/
theorem forcedSeal_station {s : State} {i : Fin 8} {d : LiveData} {X : Nat} (h : (s.station i).state = .live d)
    (hw : tableWf d.bins = true) (hX : ∃ bin, (X, bin) ∈ d.bins)
    (hroom : (d.bins.filter fun e => decide (e.1 ≤ X)).length ≤ 64 - s.path.bookkeeping.length)
    (hwait : s.path.waitList = []) (hS : ∀ e ∈ d.bins, d.sealedBin < (e.1 : Int)) :
    ((State.sealBins i X true d.bins s).station i).state =
      .live { d with sealedBin := X, bins := d.bins.filter fun e => decide (X < e.1) } := by
  obtain ⟨bin, hX⟩ := hX
  have upTo : (d.bins.filter fun e => decide ((e.1 : Int) ≤ (X : Int))) = d.bins.filter fun e => decide (e.1 ≤ X) :=
    List.filter_congr fun e _ => by simp only [Nat.cast_le]
  have pos : 0 < (d.bins.filter fun e => decide (e.1 ≤ X)).length :=
    List.length_pos_of_mem (List.mem_filter.2 ⟨hX, by simp⟩)
  have key := sealBins_whole_station (X : Int) true h ⟨hw, hS⟩ hwait (by rw [upTo]; omega)
  have top : max d.sealedBin (X : Int) = X := by have := hS _ hX; dsimp only at this; omega
  rw [key, top]
  simp only [Nat.cast_lt]

/-- Settles O20: each intake word is passed over, discarded with its cause, or recorded in its bin. -/
theorem intakeWordsAreRecordedOrDiscarded : Obligations.IntakeWordsAreRecordedOrDiscarded := by
  unfold Obligations.IntakeWordsAreRecordedOrDiscarded
  refine ⟨fun i R run w x => ⟨word_none, fun hne hr => ⟨_, word_refused hne hr, discard_discards _ i .accessFault⟩,
    fun p he h4 hc hp => ⟨_, word_preparing he h4 hc hp, discard_discards _ i .intakeLoss⟩,
    fun d he h4 hc hl h => ⟨_, (word_live he h4 hc hl).trans (channel_outOfRange h), discard_discards _ i .intakeLoss⟩,
    fun d b he hf h => ⟨_, (word_live he hf.2.1 hf.2.2.1 hf.1).trans (channel_late hf h),
      discard_discards _ i .intakeLoss⟩⟩, ?_⟩
  intro i R run w x d b he hf hS hH
  have hlive := hf.1
  have hplace := word_place he hf hS hH
  rw [hplace]
  refine ⟨fun hopen => ?_, fun X slots hslots hw hget hX hvict => ⟨fun hno => ?_, fun hlt hroom => ?_⟩⟩
  · obtain ⟨can, same⟩ := open_without_victim (s := run.state) (i := i)
      (hopen.imp_right fun h => victim_none h.1 h.2)
    rw [place_recorded can, same]
    exact ⟨_, rfl, record_records _ i d b (w - 4) x.data hlive⟩
  all_goals
    subst hslots
    have hv := victim_some hw hX hvict
    have can := canOpen_victim (s := run.state) (i := i) hget hv
  · refine ⟨_, place_discarded ?_, discard_discards _ i .intakeLoss⟩
    rw [can]
    rintro ⟨h1, h2⟩
    rcases hno with h | h
    · omega
    · exact absurd h (Nat.not_lt.2 h2)
  · have hcan := can.2 ⟨hlt, hroom⟩
    obtain ⟨d', hd'⟩ := sealBins_live (X : Int) true d.bins hlive rfl
    rw [place_recorded hcan, makePlace_victim hget hv]
    refine ⟨_, d', _, rfl, hd', rfl, record_records _ i d' b (w - 4) x.data hd', fun hwait hbins => ?_⟩
    have key := forcedSeal_station hlive hw hX hroom hwait hbins
    rw [hd'] at key
    exact StationState.live.inj key

/-! ## Aperture points (R128 to R131) -/

theorem judgeResolved_status {s : State} {d : CursorDef} {r : Resolved} (h : r.status ≠ .ok) (x : Int) :
    s.judgeResolved d r x = .answer r.status r.ancestor r.pos x := by
  unfold State.judgeResolved
  cases hr : r.status with
  | ok => exact absurd hr h
  | _ => rfl

theorem judgeResolved_changed {s : State} {d : CursorDef} {r : Resolved} (h : r.status = .ok)
    (hc : (s.station (stationOf d.line d.side)).live? = none ∨
      r.incarnation ≠ some (s.station (stationOf d.line d.side)).incarnation) (x : Int) :
    s.judgeResolved d r x = .answer .stationChanged r.ancestor r.pos x := by
  unfold State.judgeResolved
  dsimp only
  rw [h]
  cases r.bin with
  | none => rfl
  | some b =>
    cases hl : (s.station (stationOf d.line d.side)).live? with
    | none => rfl
    | some lv =>
      exact if_pos ((hl ▸ hc).resolve_left nofun)

/-- The judgement of a point whose bin belongs to the LIVE station it was resolved at (R128 cases 6 to 8). -/
theorem judgeResolved_live {s : State} {d : CursorDef} {r : Resolved} {bin : Nat} {lv : LiveData} (h : r.status = .ok)
    (hb : r.bin = some bin) (hl : (s.station (stationOf d.line d.side)).state = .live lv)
    (hi : r.incarnation = some (s.station (stationOf d.line d.side)).incarnation) (x : Int) :
    s.judgeResolved d r x =
      if (bin : Int) ≤ lv.highest - (s.station (stationOf d.line d.side)).d.slotCount then
        .answer .expired r.ancestor r.pos x
      else if lv.sealedBin < (bin : Int) then .unsealed (tableGet bin lv.bins) r.ancestor r.pos x
      else .memory (s.station (stationOf d.line d.side)).d bin r.ancestor r.pos x := by
  unfold State.judgeResolved
  dsimp only
  rw [h, hb, Station.live?_eq.2 hl]
  exact if_neg (not_not.2 hi)

theorem unsealedWords_eq (first count : Nat) (bin : Option OpenBin) (a p : Nat) (x : Int) :
    unsealedWords first count bin a p x = pointWords first count
      (playbackHeader .unsealed false ((bin.map (·.presence)).getD 0) ((bin.map (·.fill)).getD 0) a p x)
      fun ch => (bin.bind fun o => o.channel ch).getD 0x80000000 := by
  cases bin <;> rfl

theorem slotReads_eq (base w n : Nat) : slotReads base w n =
    if w + n ≤ 8 then [{ addr := base, count := if w + n < 4 then 4 else w + n }]
    else [{ addr := base, count := 4 }, { addr := base + 4 * w, count := n }] := by
  unfold slotReads
  have : max (w + n) 4 = if w + n < 4 then 4 else w + n := by split <;> omega
  rw [this]

theorem acceptAperture_unsealed {s : State} {k : Fin 8} {i w n : Nat} {bin : Option OpenBin} {a p : Nat} {x : Int}
    (h : s.judgePoint k i = .unsealed bin a p x) :
    s.acceptAperture k i w n = s.returnData (unsealedWords w n bin a p x) := by
  unfold State.acceptAperture
  rw [h]

theorem acceptAperture_memory {s : State} {k : Fin 8} {i w n : Nat} {d : StationDef} {b a p : Nat} {x : Int}
    (h : s.judgePoint k i = .memory d b a p x) :
    s.acceptAperture k i w n =
      (s.request ((slotReads (d.ringBase + 64 * (b % d.slotCount)) w n).map fun r => .read r s.bookkeepingMark)).holdPort
        (.aperture
          { first := w, count := n, bin := b, tag := d.tag, ancestor := a, pos := p, target := x
            reads := (slotReads (d.ringBase + 64 * (b % d.slotCount)) w n).length, got := [] }) := by
  unfold State.acceptAperture
  rw [h]

theorem judgePoint_closed {s : State} {k : Fin 8} (h : s.cursor k = .closed) (i : Nat) :
    s.judgePoint k i = .answer .cursorClosed 0 0 0 := by
  unfold State.judgePoint
  rw [h]

theorem judgePoint_resolved {s : State} {k : Fin 8} {d : CursorDef} {table : List Resolved} {i : Nat} {r : Resolved}
    (h : s.cursor k = .resolving d table ∨ s.cursor k = .ready d table) (hi : i < d.count) (hr : table[i]? = some r) :
    s.judgePoint k i = s.judgeResolved d r ((d.x0 : Int) + i * d.stepLen) := by
  rw [judgePoint_of h, if_neg (by omega), hr]
  rfl

theorem Station.d_of_defn {st : Station} {sd : StationDef} (h : st.defn = some sd) : st.d = sd := by
  unfold Station.d
  rw [h]
  rfl

/-- Settles O21: the cases before memory are answered at acceptance, in their order; the last goes to memory. -/
theorem aperturePointsAreJudgedInOrder : Obligations.AperturePointsAreJudgedInOrder := by
  unfold Obligations.AperturePointsAreJudgedInOrder
  refine ⟨fun b k i w s hb hr hl hi hw ha => ?_,
    fun b k i w bin s d table r lv sd hb hr hl hi hw ha hcur hlt hget hok hbin hlive hdefn hinc hexp hseal c hc => ?_⟩
  · have run : ∀ c ∈ asRead b, exec c s = .next (s.acceptAperture k i w b.count) := fun c hc =>
      exec_apertureRead hc hb hr hl k hi hw ha
    have answered : ∀ {st a p x}, s.judgePoint k i = .answer st a p x →
        ∀ c ∈ asRead b, exec c s = .next (s.withAnswer w b.count st a p x) := fun h c hc => by
      rw [run c hc, answer_of h]
    refine ⟨fun hcl => answered (judgePoint_closed hcl i), fun d table hcur => ⟨fun hcount => answered ?_,
      fun hlt hlen => answered ?_, fun r hlt hget => ?_⟩⟩
    · rw [judgePoint_of hcur, if_pos hcount]
    · rw [judgePoint_of hcur, if_neg (by omega), List.getElem?_eq_none hlen]
      rfl
    · have judged := judgePoint_resolved hcur hlt hget
      refine ⟨fun hne => answered (judged.trans (judgeResolved_status hne _)),
        fun hok hch => answered (judged.trans (judgeResolved_changed hok hch _)),
        fun bin lv hok hbin hlive hinc => ⟨fun hexp => answered (judged.trans ?_), fun hexp hseal c hc => ?_⟩⟩
      all_goals have live := judgeResolved_live hok hbin hlive hinc ((d.x0 : Int) + i * d.stepLen)
      · rw [live, if_pos hexp]
      · rw [if_neg (by omega), if_pos hseal] at live
        rw [run c hc, acceptAperture_unsealed (judged.trans live), unsealedWords_eq]
        rfl
  · have live := judgeResolved_live hok hbin hlive hinc ((d.x0 : Int) + i * d.stepLen)
    rw [Station.d_of_defn hdefn, if_neg (by omega), if_neg (by omega)] at live
    refine ⟨_, rfl, ?_⟩
    rw [exec_apertureRead hc hb hr hl k hi hw ha,
      acceptAperture_memory ((judgePoint_resolved hcur hlt hget).trans live), slotReads_eq]
    rfl

end Sys2Proof.Machine
end

section
/-! PROOF. What the arbiter chooses and what completes a burst; the turns of the mirror and of the resolver (R118, R119, R144
to R148, R175; O23, O25, O27, O28). -/

namespace Sys2Proof.Machine

/-! ## What the classes offer (R145, R147, R88) -/

theorem heldBack_iff (s : State) : s.heldBack = true ↔
    ∃ r mark rest, s.path.requests = .read r mark :: rest ∧ ∃ e ∈ s.path.bookkeeping, e.id ∈ mark ∧
      ∃ j x, e.burst.words[j]? = some x ∧ x.en ≠ 0 ∧ r.addr ≤ e.burst.addr + 4 * j ∧
        e.burst.addr + 4 * j < r.addr + 4 * r.count := by
  have depends : ∀ r mark, s.depends r mark = true ↔ ∃ e ∈ s.path.bookkeeping, e.id ∈ mark ∧
      ∃ j x, e.burst.words[j]? = some x ∧ x.en ≠ 0 ∧ r.addr ≤ e.burst.addr + 4 * j ∧
        e.burst.addr + 4 * j < r.addr + 4 * r.count := fun r mark => by
    unfold State.depends
    simp only [List.any_eq_true, Bool.and_eq_true, List.contains_iff_mem, sharesByte_iff]
  unfold State.heldBack
  cases hq : s.path.requests with
  | nil => simp
  | cons q rest =>
    cases q with
    | write b => simp
    | read r mark => simp [depends]

theorem fOffers_iff (s : State) : s.fOffers = true ↔
    s.path.state = .opened ∧ ∃ i q p, s.path.prepQueue = i :: q ∧ (s.station i).state = .preparing p := by
  unfold State.fOffers State.fillWrite
  by_cases ho : s.path.state = .opened
  · rw [if_pos ho]
    cases hq : s.path.prepQueue with
    | nil => simp
    | cons i q => cases hs : (s.station i).state <;> simp [ho, hs]
  · rw [if_neg ho]
    simp [ho]

theorem pReady_iff (s : State) : s.pReady = true ↔ s.path.requests ≠ [] ∧ s.heldBack = false := by
  unfold State.pReady
  simp

theorem requests_of_heldBack {s : State} (h : s.heldBack = true) : s.path.requests ≠ [] := by
  obtain ⟨r, mark, rest, hq, -⟩ := (heldBack_iff s).1 h
  rw [hq]
  exact List.cons_ne_nil _ _

/-! ## The choice (R144 to R147) -/

theorem grantClass_opened {s : State} (hi : s.path.inProgress = none) (ho : s.path.state = .opened) : s.grantClass =
    if s.fOffers = true ∧ 32 ≤ s.path.fCount then some .f
    else if s.bOffers = true ∧ 8 ≤ s.path.bCount then some .b
    else if s.pReady = true then some .p
    else if s.bOffers = true then some .b
    else if s.fOffers = true then some .f
    else none := by
  unfold State.grantClass
  rw [hi, ho]
  rfl

theorem grantClass_draining {s : State} (hi : s.path.inProgress = none) (hd : s.path.state = .draining) : s.grantClass =
    if s.pReady = true then some .p else if s.heldBack = true then some .b else none := by
  unfold State.grantClass
  rw [hi, hd]
  rfl

theorem grantClass_none {s : State} (h : s.path.inProgress ≠ none ∨ s.path.state = .hold ∨ s.path.state = .down) :
    s.grantClass = none := by
  unfold State.grantClass
  split
  · rfl
  · rename_i hi
    rcases h with h | h | h
    · exact absurd (Option.ne_none_iff_isSome.1 h) hi
    all_goals rw [h]

/-- Settles O23: the class the next grant goes to. -/
theorem theArbiterChoosesTheClass : Obligations.TheArbiterChoosesTheClass := by
  unfold Obligations.TheArbiterChoosesTheClass
  intro s
  refine ⟨heldBack_iff s, fOffers_iff s, grantClass_none, fun hi ho => ?_, fun hi hd => ?_, fun hr hn => ?_⟩
  · rw [grantClass_opened hi ho]
    refine ⟨fun hf hc => if_pos ⟨hf, hc⟩, fun hf => ?_⟩
    have notDueF : ¬(s.fOffers = true ∧ 32 ≤ s.path.fCount) := by
      rintro ⟨h1, h2⟩
      rcases hf with h | h
      · rw [h1] at h; cases h
      · omega
    rw [if_neg notDueF]
    refine ⟨fun hb hc => if_pos ⟨(bOffers_iff s).2 hb, hc⟩, fun hb => ?_⟩
    have notDueB : ¬(s.bOffers = true ∧ 8 ≤ s.path.bCount) := by
      rintro ⟨h1, h2⟩
      rcases hb with h | h
      · exact (bOffers_iff s).1 h1 h
      · omega
    rw [if_neg notDueB]
    refine ⟨fun hq hh => if_pos ((pReady_iff s).2 ⟨hq, hh⟩), fun hp => ?_⟩
    have notReady : ¬s.pReady = true := by
      rw [pReady_iff]
      rintro ⟨h1, h2⟩
      rcases hp with h | h
      · exact h1 h
      · rw [h2] at h; cases h
    rw [if_neg notReady]
    exact ⟨fun hb => if_pos ((bOffers_iff s).2 hb), fun hb => if_neg fun h => (bOffers_iff s).1 h hb⟩
  · rw [grantClass_draining hi hd]
    refine ⟨fun hh => ?_, fun hh => ?_⟩
    · rw [if_neg (by rw [pReady_iff, hh]; rintro ⟨-, h⟩; cases h), if_pos hh]
    · by_cases hq : s.path.requests = []
      · rw [if_neg (by rw [pReady_iff]; exact fun h => h.1 hq), if_neg (by rw [hh]; decide), if_pos hq]
      · rw [if_pos ((pReady_iff s).2 ⟨hq, hh⟩), if_neg hq]
  · have key : exec .mSideGrant s = .next s.grant := afterTakes_ready (f := fun s => s.grant) hr
    rw [key]
    unfold State.grant
    rw [hn]

/-! ## A burst completes (R144, R148) -/

/-- The M-side falls idle, and a DRAINING path with nothing left goes to HOLD (R148). -/
theorem idleMSide_drainCheck (s : State) : s.idleMSide.drainCheck = { s with
    path.inProgress := none
    path.state := if s.path.state = .draining ∧ s.path.requests = [] then .hold else s.path.state
    path.dirty := if s.path.state = .draining ∧ s.path.requests = [] then s.path.dirty.set 0 true else s.path.dirty } := by
  unfold State.drainCheck State.idleMSide
  by_cases h : s.path.state = .draining ∧ s.path.requests = []
  · rw [if_pos ⟨h.1, h.2, rfl⟩, if_pos h, if_pos h]
    rfl
  · rw [if_neg fun hd => h ⟨hd.1, hd.2.1⟩, if_neg h, if_neg h]

/-- The data of a completed read, in the read held at the port (R139, R140). -/
def State.withReceived (s : State) (ws : List Word) : State :=
  { s with path.port := s.path.port.map fun (h : HeldRead) => h.receive ws }

theorem completeBurst_read {s : State} {b : ReadBurst} (h : s.path.inProgress = some (.pRead b)) (data : List Word) :
    s.completeBurst data =
      if data.length < b.count then s else (s.withReceived (data.take b.count)).idleMSide.drainCheck := by
  unfold State.completeBurst
  rw [h]
  rfl

theorem completeBurst_write {s : State} {b : WriteBurst} (h : s.path.inProgress = some (.pWrite b) ∨
    s.path.inProgress = some (.bWrite b) ∨ s.path.inProgress = some (.fWrite b)) (data : List Word) :
    s.completeBurst data = s.idleMSide.drainCheck := by
  unfold State.completeBurst
  rcases h with h | h | h <;> rw [h]

/-- Settles O25: the burst in progress completes, once memory has returned all its data. -/
theorem burstsComplete : Obligations.BurstsComplete := by
  unfold Obligations.BurstsComplete
  intro data s hs
  have run : exec (.mSideBurstComplete data) s = .next (s.completeBurst data) :=
    afterTakes_ready (f := fun s => s.completeBurst data) hs
  rw [run]
  refine ⟨fun h => ?_, fun b h hl => ?_, fun b h hl => ?_, fun b h => ?_⟩
  · unfold State.completeBurst
    rw [h]
  · rw [completeBurst_read h, if_pos hl]
  · rw [completeBurst_read h, if_neg (by omega), idleMSide_drainCheck]
    refine ⟨_, rfl, rfl, fun hp => ?_, fun r o hp => ?_, fun a hp => ?_⟩
    all_goals
      show s.path.port.map _ = _
      rw [hp]
      rfl
  · rw [completeBurst_write h, idleMSide_drainCheck]

/-! ## The mirror (R175) -/

theorem mirrorWaits_false {s : State} (h : ∀ b, .mirror b ∉ s.path.waitList) : s.mirrorWaits = false := by
  rw [Bool.eq_false_iff, ne_eq, mirrorWaits_iff]
  rintro ⟨b, hb⟩
  exact h b hb

theorem mirrorTurn_idle {s : State} (h : s.path.state ≠ .opened ∨ (∃ b, .mirror b ∈ s.path.waitList) ∨
    ∀ g : Fin 39, s.path.dirty[g] = false) : s.mirrorTurn = s := by
  unfold State.mirrorTurn
  split
  · rename_i hc
    rcases h with h | h | h
    · exact absurd hc.1 h
    · rw [(mirrorWaits_iff s).2 h] at hc
      cases hc.2
    · rw [firstDirty_none _ h]
  · rfl

theorem mirrorTurn_some {s : State} {g : Fin 39} (ho : s.path.state = .opened) (hw : ∀ b, .mirror b ∉ s.path.waitList)
    (hf : firstDirty s.path.dirty 39 s.path.rotation = some g) :
    s.mirrorTurn = (s.takeGroup g).offer (s.groupBurst g) (.mirror (s.groupBurst g)) := by
  unfold State.mirrorTurn
  rw [if_pos ⟨ho, mirrorWaits_false hw⟩, hf]

theorem exec_mirrorGroupWrite {s : State} (h : s.Ready) : exec .mirrorGroupWrite s = .next s.mirrorTurn :=
  afterTakes_ready (f := fun s => s.mirrorTurn) h

/-- Settles O27: the mirror writes the next dirty group of its rotation. -/
theorem theMirrorWritesTheNextDirtyGroup : Obligations.TheMirrorWritesTheNextDirtyGroup := by
  unfold Obligations.TheMirrorWritesTheNextDirtyGroup
  refine fun s hs => ⟨fun h => ?_, fun g n ho hw hn hg hd hall b u hb hu => ?_⟩
  · rw [exec_mirrorGroupWrite hs, mirrorTurn_idle h]
  · subst hu
    have turn := mirrorTurn_some ho hw (firstDirty_some s.path.dirty 39 n s.path.rotation g hn hg hd hall)
    replace hb : s.groupBurst g = b := hb.symm
    rw [exec_mirrorGroupWrite hs, turn, hb]
    unfold State.offer
    refine ⟨fun hwl hk => ?_, fun h => ?_⟩
    · rw [if_pos (canAppend_true (s := s.takeGroup g) hwl hk)]
      rfl
    · rw [canAppend_false (s := s.takeGroup g) h]
      rfl

/-! ## The resolver (R118, R119) -/

theorem setCursor_changed {s : State} {k : Fin 8} {c : Cursor} (h : (s.cursor k).content ≠ c.content) :
    s.setCursor k c = { s with
      path.cursors := s.path.cursors.set k.val c k.isLt
      path.dirty := s.path.dirty.set (cursorGroup k).val true (cursorGroup k).isLt } := by
  unfold State.setCursor State.markIf
  rw [if_pos (by simpa using h)]
  rfl

theorem isResolving_iff (c : Cursor) : c.isResolving = true ↔ ∃ d table, c = .resolving d table := by
  cases c <;> simp [Cursor.isResolving]

/-- Raising a path flag sets it, with G1 dirty if it was clear (R170). -/
theorem raisePath_eq (s : State) (f : PathFlag) : s.raisePath f = { s with
    path.pathFlags := s.path.pathFlags ||| f.bit
    path.dirty := if s.path.pathFlags &&& f.bit = 0 then s.path.dirty.set 1 true else s.path.dirty } := by
  unfold State.raisePath
  split
  · rfl
  · rename_i h
    rw [PathFlag.or_of_set _ _ h]

/-- A turn on a RESOLVING cursor resolves its next point (R118). -/
theorem turn_resolving {s : State} {k : Fin 8} {d : CursorDef} {table : List Resolved}
    (h : s.cursor k = .resolving d table) : s.turn k =
      if d.count ≤ table.length + 1 then
        (s.setCursor k (.ready d (table ++ [s.resolve d ((d.x0 : Int) + table.length * d.stepLen)]))).raisePath .cursorReady
      else s.setCursor k (.resolving d (table ++ [s.resolve d ((d.x0 : Int) + table.length * d.stepLen)])) := by
  unfold State.turn
  rw [h]
  dsimp only
  rw [List.length_append, List.length_singleton]
  rfl

/-- Settles O28: the resolver serves the RESOLVING cursors in turn. -/
theorem theResolverServesTheCursorsInTurn : Obligations.TheResolverServesTheCursorsInTurn := by
  unfold Obligations.TheResolverServesTheCursorsInTurn
  intro s hs
  have run : exec .resolverTurn s = .next s.resolverTurn := afterTakes_ready (f := fun s => s.resolverTurn) hs
  rw [run]
  have resolving : ∀ j, (∀ d table, s.cursor j ≠ .resolving d table) → (s.cursor j).isResolving = false := fun j h => by
    rw [Bool.eq_false_iff, ne_eq, isResolving_iff]
    rintro ⟨d, table, he⟩
    exact h d table he
  refine ⟨fun h => ?_, fun k n d table hn hk hc hall r hr => ?_⟩
  · have none : ((resolverOrder s.path.resolverMark).find? fun k => (s.cursor k).isResolving) = none :=
      List.find?_eq_none.2 fun j _ => by rw [resolving j (h j)]; decide
    unfold State.resolverTurn
    rw [none]
  · have found := find_resolverOrder k s.path.resolverMark n (fun k => (s.cursor k).isResolving) hn hk
      ((isResolving_iff _).2 ⟨d, table, hc⟩) fun j m hm hj => resolving j (hall j m hm hj)
    have turn : s.resolverTurn = State.turn { s with path.resolverMark := k } k := by
      unfold State.resolverTurn
      rw [found]
    have hcur : State.cursor { s with path.resolverMark := k } k = .resolving d table := hc
    rw [turn, turn_resolving hcur, resolve_mark, ← hr]
    have changed : ∀ c : Cursor, c.content.2.2 = table.length + 1 →
        (State.cursor { s with path.resolverMark := k } k).content ≠ c.content := fun c h he => by
      rw [hcur] at he
      have := congrArg (fun x => x.2.2) he
      simp only [Cursor.content] at this h
      omega
    have grown : (table ++ [r]).length = table.length + 1 := List.length_append
    refine ⟨fun hlt => ?_, fun hle => ?_⟩
    · rw [if_neg (by omega), setCursor_changed (changed (.resolving d (table ++ [r])) grown)]
    · rw [if_pos hle, setCursor_changed (changed (.ready d (table ++ [r])) grown), raisePath_eq]
      refine ⟨_, rfl, rfl, ?_⟩
      refine (MarksKept.ite (MarksKept.set _ _ (by decide)) (MarksKept.refl _)) (cursorGroup k) ?_
      exact Vector.getElem_set_self ..

end Sys2Proof.Machine
end

section
/-! PROOF. Grants: the counts, the head of each queue, the last fill write of a ring, and the place that a B grant frees
(R88, R89, R143, R145, R146, R158, R165; O24). -/

namespace Sys2Proof.Machine

/-! ## The counts and the queues (R145, R146) -/

theorem countGrant_eq (s : State) (c : GrantClass) : s.countGrant c = { s with
    path.bCount := if s.path.state = .opened then bCountAfter c s.bOffers s.path.bCount else s.path.bCount
    path.fCount := if s.path.state = .opened then fCountAfter c s.fOffers s.path.fCount else s.path.fCount } := by
  unfold State.countGrant
  by_cases h : s.path.state = .opened
  · rw [if_pos h, if_pos h, if_pos h]
  · rw [if_neg h, if_neg h, if_neg h]

theorem bCountAfter_p (s : State) (n : Nat) :
    bCountAfter .p s.bOffers n = if s.path.bookkeeping = [] then 0 else n + 1 := by
  unfold bCountAfter State.bOffers
  cases s.path.bookkeeping <;> rfl

/-- The M-side burst of a request (R145). -/
def Request.burst : Request → MBurst
  | .write b => .pWrite b
  | .read b _ => .pRead b

theorem grantP_of {s : State} {q : Request} {rest : List Request} (hq : s.path.requests = q :: rest) :
    s.grantP = { s with
      path.requests := rest
      path.inProgress := some q.burst } := by
  unfold State.grantP
  rw [hq]
  cases q <;> rfl

theorem grantTo_p {s : State} {q : Request} {rest : List Request} (hq : s.path.requests = q :: rest) :
    s.grantTo .p = { s with
      path.requests := rest
      path.inProgress := some q.burst
      path.bCount :=
        if s.path.state = .opened then (if s.path.bookkeeping = [] then 0 else s.path.bCount + 1) else s.path.bCount
      path.fCount :=
        if s.path.state = .opened then (if s.fOffers then s.path.fCount + 1 else 0) else s.path.fCount } := by
  have counted : (s.countGrant .p).path.requests = q :: rest := by rw [countGrant_eq]; exact hq
  show (s.countGrant .p).grantP = _
  rw [grantP_of counted, countGrant_eq, ← bCountAfter_p]
  rfl

theorem grantB_of {s : State} {e : Bookkeeping} {rest : List Bookkeeping} (hq : s.path.bookkeeping = e :: rest) :
    s.grantB =
      State.handoff { s with path.bookkeeping := rest, path.inProgress := some (.bWrite e.burst) } := by
  unfold State.grantB
  rw [hq]
  rfl

/-- The state after a B grant, before the freed place is handed on (R145, R146). -/
def State.grantedB (s : State) (e : Bookkeeping) (rest : List Bookkeeping) : State :=
  { s with
    path.bookkeeping := rest, path.inProgress := some (.bWrite e.burst)
    path.bCount := if s.path.state = .opened then 0 else s.path.bCount
    path.fCount := if s.path.state = .opened then (if s.fOffers then s.path.fCount + 1 else 0) else s.path.fCount }

theorem grantTo_b {s : State} {e : Bookkeeping} {rest : List Bookkeeping} (hq : s.path.bookkeeping = e :: rest) :
    s.grantTo .b = (s.grantedB e rest).handoff := by
  have counted : (s.countGrant .b).path.bookkeeping = e :: rest := by rw [countGrant_eq]; exact hq
  show (s.countGrant .b).grantB = _
  rw [grantB_of counted, countGrant_eq]
  rfl

/-! ## Fill writes (R88, R89) -/

theorem setStation_same {s : State} {i : Fin 8} {st : Station} (h : (s.station i).content = st.content) :
    s.setStation i st = s.withStation i st := by
  unfold State.setStation State.markIf
  rw [if_neg (by simpa using h)]

theorem setStation_changed {s : State} {i : Fin 8} {st : Station} (h : (s.station i).content ≠ st.content) :
    s.setStation i st = { s with
      path.stations := s.path.stations.set i.val st i.isLt
      path.dirty := s.path.dirty.set (stationGroup i).val true (stationGroup i).isLt } := by
  unfold State.setStation State.markIf
  rw [if_pos (by simpa using h)]
  rfl

/-- The progress of a preparation is not shown in the station's mirror group. -/
theorem content_preparing {st : Station} {p : Nat} (h : st.state = .preparing p) (q : Nat) :
    st.content = Station.content { st with state := .preparing q } := by
  unfold Station.content
  rw [h]

/-- A fill write of a ring raises its progress; the last one completes the preparation (R88, R89). -/
theorem fillStep_of {s : State} {i : Fin 8} {p : Nat} (h : (s.station i).state = .preparing p) : s.fillStep i =
    if (s.station i).d.slotCount ≤ p + 1 then
      (s.withStation i { s.station i with state := .preparing (p + 1) }).finishPreparation i
    else s.withStation i { s.station i with state := .preparing (p + 1) } := by
  unfold State.fillStep
  rw [h]
  dsimp only
  rw [setStation_same (content_preparing h (p + 1))]

theorem station_withStation (s : State) (i : Fin 8) (st : Station) : (s.withStation i st).station i = st := by
  unfold State.station State.withStation
  simp

theorem station_withStation_ne (s : State) {i j : Fin 8} (st : Station) (h : j ≠ i) :
    (s.withStation i st).station j = s.station j := by
  unfold State.station State.withStation
  simp only [Fin.getElem_fin, Vector.getElem_set, Fin.val_inj]
  rw [if_neg (Ne.symm h)]

/-- The station whose preparation is complete enters LIVE (R87, R89). -/
theorem finishPreparation_eq {s : State} {i : Fin 8} {p : Nat} (h : (s.station i).state = .preparing p) :
    ∃ d : Vector Bool 39, d[stationGroup i] = true ∧ s.finishPreparation i = { s.withStation i { s.station i with
        state := .live
          { sealedBin := highestDue (s.station i).d (s.reference i), highest := highestDue (s.station i).d (s.reference i)
            bins := [], paused := false } } with
      path.prepQueue := s.path.prepQueue.tail, path.pathFlags := s.path.pathFlags ||| 0x400, path.dirty := d } := by
  unfold State.finishPreparation State.enterLive State.setLive
  rw [setStation_changed (s := { s with path.prepQueue := s.path.prepQueue.tail }), raisePath_eq]
  · refine ⟨_, ?_, rfl⟩
    refine (MarksKept.ite (MarksKept.set _ _ (by decide)) (MarksKept.refl _)) (stationGroup i) ?_
    exact Vector.getElem_set_self ..
  · intro he
    have := congrArg StationContent.state he
    change (s.station i).content.state = 2 at this
    unfold Station.content at this
    rw [h] at this
    exact absurd (show (1 : Nat) = 2 from this) (by decide)

/-- The last fill write of a ring (R89). -/
theorem fillStep_last {s : State} {i : Fin 8} {p : Nat} (h : (s.station i).state = .preparing p)
    (hl : (s.station i).d.slotCount ≤ p + 1) :
    ∃ d : Vector Bool 39, d[stationGroup i] = true ∧ s.fillStep i = { s.withStation i { s.station i with
        state := .live
          { sealedBin := highestDue (s.station i).d (s.reference i), highest := highestDue (s.station i).d (s.reference i)
            bins := [], paused := false } } with
      path.prepQueue := s.path.prepQueue.tail, path.pathFlags := s.path.pathFlags ||| 0x400, path.dirty := d } := by
  have hs := station_withStation s i { s.station i with state := .preparing (p + 1) }
  obtain ⟨d, hd, he⟩ := finishPreparation_eq (congrArg Station.state hs)
  refine ⟨d, hd, ?_⟩
  rw [fillStep_of h, if_pos hl, he, hs]
  simp only [State.withStation, Vector.set_set]
  rfl

theorem handoff_nil {s : State} (h : s.path.waitList = []) : s.handoff = s := by
  unfold State.handoff
  rw [h]

theorem emptyHeader_lanes (tag : Word) : (emptyHeader tag).map fullLane =
    [{ data := tag, en := 0xF }, { data := 0, en := 0xF }, { data := 0xFFFFFFFF, en := 0xF }, { data := 0x7F, en := 0xF }] :=
  rfl

/-! ## The place a B grant frees (R143) -/

/-- What the producers that are given a freed place keep: the burst in progress, and the queue and the wait list but for
what they add at the tails (R142, R143). -/
structure Hands (s t : State) : Prop where
  inProgress : t.path.inProgress = s.path.inProgress
  waits : ∃ later, t.path.waitList = s.path.waitList ++ later
  queue : ∃ more, t.path.bookkeeping.map (·.burst) = s.path.bookkeeping.map (·.burst) ++ more

theorem Hands.of_eq {s t : State} (hi : t.path.inProgress = s.path.inProgress) (hw : t.path.waitList = s.path.waitList)
    (hb : t.path.bookkeeping = s.path.bookkeeping) : Hands s t :=
  ⟨hi, ⟨[], by rw [hw, List.append_nil]⟩, ⟨[], by rw [hb, List.append_nil]⟩⟩

theorem Hands.refl (s : State) : Hands s s := .of_eq rfl rfl rfl

theorem Hands.trans {s t u : State} (h : Hands s t) (g : Hands t u) : Hands s u := by
  obtain ⟨hi, ⟨w, hw⟩, ⟨m, hm⟩⟩ := h
  obtain ⟨gi, ⟨w', gw⟩, ⟨m', gm⟩⟩ := g
  exact ⟨gi.trans hi, ⟨w ++ w', by rw [gw, hw, List.append_assoc]⟩, ⟨m ++ m', by rw [gm, hm, List.append_assoc]⟩⟩

theorem Hands.append (s : State) (b : WriteBurst) : Hands s (s.append b) :=
  ⟨rfl, ⟨[], (List.append_nil _).symm⟩, ⟨[b], List.map_append⟩⟩

theorem Hands.wait (s : State) (w : Waiter) : Hands s (s.wait w) :=
  ⟨rfl, ⟨[w], rfl⟩, ⟨[], (List.append_nil _).symm⟩⟩

theorem Hands.journalAppended (s : State) : Hands s s.journalAppended := by
  by_cases h : s.path.progress < 15
  · rw [journalAppended_of_lt h]
    exact .of_eq rfl rfl rfl
  · unfold State.journalAppended State.entryWritten
    dsimp only
    rw [if_neg h]
    obtain ⟨d, -, hj⟩ := judgeBacklog_eq _
    rw [hj]
    exact .of_eq rfl rfl rfl

theorem Hands.journalOffer : ∀ (n : Nat) (s : State), Hands s (State.journalOffer n s)
  | 0, s => .refl s
  | n + 1, s => by
    have next : ∀ b, Hands s (s.append b).journalAppended := fun b => (Hands.append s b).trans (.journalAppended _)
    unfold State.journalOffer
    split
    · split
      · exact .refl s
      · split
        · split
          · exact (next _).trans (Hands.journalOffer n _)
          · exact next _
        · exact .wait s _
    · exact .refl s

theorem Hands.completeDirective (s : State) (k : Fin 16) : Hands s (s.completeDirective k) := by
  unfold State.completeDirective
  rw [raisePath_eq]
  exact .of_eq rfl rfl rfl

theorem Hands.offerAnswer (k : Fin 16) : ∀ (bs : List WriteBurst) (s : State), Hands s (State.offerAnswer k bs s)
  | [], s => .completeDirective s k
  | b :: rest, s => by
    unfold State.offerAnswer
    split
    · exact (Hands.append s b).trans (Hands.offerAnswer k rest _)
    · exact (Hands.of_eq (s := s) (t := s.setUnit (.answering k rest)) rfl rfl rfl).trans (.wait _ _)

theorem Hands.resumeAnswer (s : State) : Hands s s.resumeAnswer := by
  unfold State.resumeAnswer
  split
  · exact .offerAnswer _ _ _
  · exact .refl s

theorem Hands.mirrorTurn (s : State) : Hands s s.mirrorTurn := by
  unfold State.mirrorTurn
  split
  · split
    · exact .refl s
    · rename_i g _
      refine (Hands.of_eq (s := s) (t := s.takeGroup g) rfl rfl rfl).trans ?_
      unfold State.offer
      split
      · exact .append _ _
      · exact .wait _ _
  · exact .refl s

theorem SealFrame.hands {i : Fin 8} {s t : State} (h : SealFrame i s t) : Hands s t := by
  refine ⟨?_, h.waits, ?_⟩
  · obtain ⟨_, _, _, _, _, _, _, _, _, _, _, h1⟩ := h.shape
    rw [h1]
    rfl
  · obtain ⟨more, hm⟩ := h.grows
    exact ⟨more.map (·.burst), by rw [hm, List.map_append]⟩

theorem TableFrame.hands {s t : State} (h : TableFrame s t) : Hands s t := (h.sealing (i := 0)).hands

theorem Hands.setLive (s : State) (i : Fin 8) (d : LiveData) : Hands s (s.setLive i d) := (SealFrame.setLive s i d).hands

theorem Hands.presentStep (s : State) (i : Fin 8) (f : Bool) : Hands s (s.presentStep i f) := by
  cases hl : (s.station i).live? with
  | none =>
    unfold State.presentStep
    rw [hl]
    exact .refl s
  | some d =>
    cases hb : d.bins with
    | nil =>
      unfold State.presentStep
      rw [hl]
      dsimp only
      rw [hb]
      exact .refl s
    | cons e rest =>
      exact ((Hands.append s _).trans (.setLive _ i _)).trans (presentStep_frame f (Station.live?_eq.1 hl) hb).hands

theorem Hands.resumeSealing (s : State) (i : Fin 8) : Hands s (s.resumeSealing i) := by
  unfold State.resumeSealing
  split
  · exact .refl s
  · exact ((Hands.setLive s i _).trans (.presentStep _ i false)).trans (SealFrame.seal _ i).hands

/-- What a producer does with the place it is given, by its kind (R143). -/
def State.giveTo (s : State) : Waiter → State
  | .sealing i => s.resumeSealing i
  | .journal b => State.journalOffer 16 (s.append b).journalAppended
  | .directive b => (s.append b).resumeAnswer
  | .mirror b => (s.append b).mirrorTurn

theorem handoff_of {s : State} {w : Waiter} {ws : List Waiter} (h : s.path.waitList = w :: ws) :
    s.handoff = State.giveTo { s with path.waitList := ws } w := by
  have hu : s.unwait = { s with path.waitList := ws } := by
    unfold State.unwait
    rw [h]
    rfl
  unfold State.handoff
  rw [h, ← hu]
  cases w <;> rfl

/-- The burst a producer waits with is the next that is appended (R143). -/
theorem Hands.giveTo_burst (s : State) {w : Waiter} {b : WriteBurst}
    (h : w = .journal b ∨ w = .directive b ∨ w = .mirror b) : Hands (s.append b) (s.giveTo w) := by
  rcases h with rfl | rfl | rfl
  · exact (Hands.journalAppended _).trans (.journalOffer 16 _)
  · exact .resumeAnswer _
  · exact .mirrorTurn _

theorem Hands.giveTo (s : State) (w : Waiter) : Hands s (s.giveTo w) := by
  cases w with
  | sealing i => exact .resumeSealing s i
  | journal b => exact (Hands.append s b).trans (.giveTo_burst s (.inl rfl))
  | directive b => exact (Hands.append s b).trans (.giveTo_burst s (.inr (.inl rfl)))
  | mirror b => exact (Hands.append s b).trans (.giveTo_burst s (.inr (.inr rfl)))

/-! ## A paused station that is given its place (R98, R100) -/

theorem station_setLive (s : State) (i : Fin 8) (d : LiveData) :
    (s.setLive i d).station i = { s.station i with state := .live d } := State.station_setStation_self ..

theorem station_append (s : State) (b : WriteBurst) (i : Fin 8) : (s.append b).station i = s.station i := rfl

/-- The header of the paused present step joins the queue; what the sealing adds comes after it. -/
theorem resumeSealing_header {s : State} {i : Fin 8} {d : LiveData} {b : Nat} {bin : OpenBin} {bins : List (Nat × OpenBin)}
    (h : (s.station i).state = .live d) (hb : d.bins = (b, bin) :: bins) :
    Hands (s.append ((s.station i).sealHeader (s.owner i (b * (s.station i).d.binLength)) b bin
      (evalChain (s.station i).chain bin) false)) (s.resumeSealing i) := by
  unfold State.resumeSealing
  rw [Station.live?_eq.2 h]
  have hlive : ((s.setLive i { d with paused := false }).station i).state = .live { d with paused := false } := by
    rw [station_setLive]
  have hst : (s.setLive i { d with paused := false }).station i =
      { s.station i with state := .live { d with paused := false } } := State.station_setStation_self ..
  have howner : ∀ pos, (s.setLive i { d with paused := false }).owner i pos = s.owner i pos := fun pos => by
    unfold State.owner State.setLive
    rw [State.setStation_track]
  have frame := presentStep_frame false hlive hb
  rw [hst, howner] at frame
  change TableFrame (((s.setLive i { d with paused := false }).append ((s.station i).sealHeader
    (s.owner i (b * (s.station i).d.binLength)) b bin (evalChain (s.station i).chain bin) false)).setLive i _) _ at frame
  generalize (s.station i).sealHeader (s.owner i (b * (s.station i).d.binLength)) b bin
    (evalChain (s.station i).chain bin) false = header at frame ⊢
  have appended : Hands (s.append header) ((s.setLive i { d with paused := false }).append header) := ?_
  · exact appended.trans ((Hands.setLive _ i _).trans (frame.hands.trans (SealFrame.seal _ i).hands))
  unfold State.setLive
  exact .of_eq (by simp [State.append]) (by simp [State.append]) (by simp [State.append])

theorem seal_of_not_opened {s : State} (i : Fin 8) (h : s.path.state ≠ .opened) : s.seal i = s := by
  unfold State.seal
  split
  · rfl
  · exact if_neg fun hc => h hc.1

/-- A station that is given its place in DRAINING seals that one bin and goes on unpaused (R143). -/
theorem resumeSealing_draining {s : State} {i : Fin 8} {d : LiveData} {b : Nat} {bin : OpenBin}
    {bins : List (Nat × OpenBin)} (h : (s.station i).state = .live d) (hb : d.bins = (b, bin) :: bins)
    (hd : s.path.state = .draining) : (s.resumeSealing i).station i =
      { s.station i with state := .live { d with sealedBin := (b : Int), bins := bins, paused := false } } := by
  unfold State.resumeSealing
  rw [Station.live?_eq.2 h]
  have hlive : ((s.setLive i { d with paused := false }).station i).state = .live { d with paused := false } := by
    rw [station_setLive]
  have frame := presentStep_frame false hlive hb
  have hstate : ((s.setLive i { d with paused := false }).presentStep i false).path.state ≠ .opened := by
    obtain ⟨⟨_, _, _, _, _, _, _, hf⟩, -⟩ := frame
    rw [hf]
    unfold State.setLive
    simp [State.withTable, State.append, hd]
  dsimp only
  rw [seal_of_not_opened i hstate, frame.station, station_setLive, station_append, station_setLive]
  unfold LiveData.sealed
  rw [hb]
  rfl

/-! ## A directive or the journal writer that is given its place (R158, R165) -/

theorem completeDirective_eq (s : State) (k : Fin 16) : ∃ d, s.completeDirective k = { s with
    path.slots := s.path.slots.set k.val { s.slot k with state := .idle } k.isLt
    path.pathFlags := s.path.pathFlags ||| 0x100, path.directiveUnit := .free, path.dirty := d } := by
  unfold State.completeDirective
  rw [raisePath_eq]
  exact ⟨_, rfl⟩

theorem resumeAnswer_of {s : State} {k : Fin 16} {rest : List WriteBurst} (h : s.path.directiveUnit = .answering k rest) :
    s.resumeAnswer = State.offerAnswer k rest s := by
  unfold State.resumeAnswer
  rw [h]

theorem offerAnswer_waits {s : State} (h : s.canAppend = false) (k : Fin 16) (b : WriteBurst) (rest : List WriteBurst) :
    State.offerAnswer k (b :: rest) s = (s.setUnit (.answering k rest)).wait (.directive b) := by
  unfold State.offerAnswer
  rw [h]
  rfl

/-- The writer's next burst after one of fewer than fifteen (R165). -/
theorem nextJournalBurst_of {s : State} {j : JournalSetting} {e : JournalEntry} {rest : List JournalEntry}
    (hj : s.path.journal = some j) (hb : s.track.backlog = e :: rest) : s.nextJournalBurst = some
      { addr := j.base + 512 * (e.seq % j.size) + 32 * journalBlock s.path.progress
        words := (((journalWords e).drop (8 * journalBlock s.path.progress)).take 8).map
          fun x => { data := x, en := 0xF } } := by
  unfold State.nextJournalBurst
  rw [hj, hb]
  rfl

theorem journalBlock_succ {p : Nat} (h : p < 15) : journalBlock (p + 1) = if p = 14 then 0 else p + 2 := by
  unfold journalBlock
  split <;> split <;> omega

end Sys2Proof.Machine
end

section
/-! PROOF. Grants put a burst in progress (R88, R89, R143, R145, R146, R158, R165; O24). -/

namespace Sys2Proof.Machine

/-- The state after a B grant whose freed place goes to the producer at the head of the wait list (R143). -/
def State.freedB (s : State) (e : Bookkeeping) (rest : List Bookkeeping) (ws : List Waiter) : State :=
  { s.grantedB e rest with path.waitList := ws }

/-- The state once a burst of the entry in progress, not its last, has been appended (R165). -/
def State.progressed (s : State) : State :=
  { s with
    path.progress := s.path.progress + 1
    path.dirty := s.path.dirty.set journalGroup.val true journalGroup.isLt }

section
variable {s : State} {e : Bookkeeping} {rest : List Bookkeeping} {w : Waiter} {ws : List Waiter}

/-- A B grant with a producer waiting. -/
theorem exec_grant_waiting (hs : s.Ready) (hg : s.grantClass = some .b) (hq : s.path.bookkeeping = e :: rest)
    (hw : s.path.waitList = w :: ws) :
    exec .mSideGrant s = .next (((s.freedB e rest ws).giveTo w).letIn) := by
  rw [exec_grant hs hg, grantTo_b hq, handoff_of (s := s.grantedB e rest) hw]
  rfl

theorem queue_append {t : State} {b : WriteBurst} (h : Hands ((s.freedB e rest ws).append b) t) :
    ∃ more, t.path.bookkeeping.map (·.burst) = rest.map (·.burst) ++ b :: more := by
  obtain ⟨more, hm⟩ := h.queue
  refine ⟨more, hm.trans ?_⟩
  show (rest ++ [_]).map Bookkeeping.burst ++ more = _
  rw [List.map_append, List.append_assoc]
  rfl

theorem no_place {b : WriteBurst} (h : ws ≠ [] ∨ 64 ≤ rest.length + 1) :
    ((s.freedB e rest ws).append b).canAppend = false := by
  refine canAppend_false (h.imp_right fun h => ?_)
  show 64 ≤ (rest ++ [_]).length
  rw [List.length_append]
  exact h

/-- The last burst of a directive completes it (R158). -/
theorem giveTo_directive_last {b : WriteBurst} {k : Fin 16} (hu : s.path.directiveUnit = .answering k []) :
    ∃ d, (s.freedB e rest ws).giveTo (.directive b) = { (s.freedB e rest ws).append b with
      path.slots := s.path.slots.set k.val { s.slot k with state := .idle } k.isLt
      path.pathFlags := s.path.pathFlags ||| 0x100, path.directiveUnit := .free, path.dirty := d } := by
  obtain ⟨d, hd⟩ := completeDirective_eq ((s.freedB e rest ws).append b) k
  exact ⟨d, (resumeAnswer_of (s := (s.freedB e rest ws).append b) hu).trans hd⟩

/-- Before the last, the next burst of a directive waits (R158). -/
theorem giveTo_directive_waits {b b' : WriteBurst} {more : List WriteBurst} {k : Fin 16}
    (hu : s.path.directiveUnit = .answering k (b' :: more)) (h : ws ≠ [] ∨ 64 ≤ rest.length + 1) :
    (s.freedB e rest ws).giveTo (.directive b) = { (s.freedB e rest ws).append b with
      path.waitList := ws ++ [.directive b'], path.directiveUnit := .answering k more } :=
  (resumeAnswer_of (s := (s.freedB e rest ws).append b) hu).trans (offerAnswer_waits (no_place h) k b' more)

/-- A burst of an entry before the sixteenth raises the progress (R165). -/
theorem giveTo_journal_raises {b : WriteBurst} (hp : s.path.progress < 15) :
    (s.freedB e rest ws).giveTo (.journal b) = State.journalOffer 16 ((s.freedB e rest ws).append b).progressed :=
  congrArg (State.journalOffer 16) (journalAppended_of_lt (s := (s.freedB e rest ws).append b) hp)

/-- The next burst of the entry waits in OPEN (R165). -/
theorem giveTo_journal_waits {b : WriteBurst} {j : JournalSetting} {entry : JournalEntry} {entries : List JournalEntry}
    (hj : s.path.journal = some j) (hb : s.track.backlog = entry :: entries) (hp : s.path.progress < 15)
    (ho : s.path.state = .opened) (h : ws ≠ [] ∨ 64 ≤ rest.length + 1) {n : Nat}
    (hn : n = if s.path.progress = 14 then 0 else s.path.progress + 2) :
    (s.freedB e rest ws).giveTo (.journal b) = { (s.freedB e rest ws).append b with
      path.progress := s.path.progress + 1
      path.waitList := ws ++ [.journal
        { addr := j.base + 512 * (entry.seq % j.size) + 32 * n
          words := (((journalWords entry).drop (8 * n)).take 8).map fun x => { data := x, en := 0xF } }]
      path.dirty := s.path.dirty.set journalGroup.val true journalGroup.isLt } := by
  have next := nextJournalBurst_of (s := ((s.freedB e rest ws).append b).progressed) hj hb
  have block : journalBlock ((s.freedB e rest ws).append b).progressed.path.progress = n :=
    (journalBlock_succ hp).trans hn.symm
  rw [block] at next
  rw [giveTo_journal_raises hp,
    journalOffer_wait (s := ((s.freedB e rest ws).append b).progressed) ho next (no_place (s := s) (b := b) h) 15]
  rfl

/-- The sixteenth burst ends the entry, and the writer begins its next (R165, log 17). -/
theorem giveTo_journal_ends {b : WriteBurst} {entry : JournalEntry} {entries : List JournalEntry} (hs : s.Ready)
    (hb : s.track.backlog = entry :: entries) (hp : 15 ≤ s.path.progress) (hws : ∀ b', .journal b' ∉ ws) :
    ∃ u, u = { (s.freedB e rest ws).append b with
        track.backlog := entries
        track.trackingFlags := if 96 ≤ entries.length then s.track.trackingFlags ||| 0x8 else s.track.trackingFlags
        path.journalHead := entry.seq, path.progress := 0, path.dirty := u.path.dirty } ∧
      exec .journalEntryBegin u = .next ((s.freedB e rest ws).giveTo (.journal b)) := by
  obtain ⟨d, -, he⟩ := journalAppended_last (s := (s.freedB e rest ws).append b) (Nat.not_lt.2 hp) hb
  refine ⟨_, rfl, (exec_journalEntryBegin (s := { (s.freedB e rest ws).append b with
    track.backlog := entries
    track.trackingFlags := if 96 ≤ entries.length then s.track.trackingFlags ||| 0x8 else s.track.trackingFlags
    path.journalHead := entry.seq, path.progress := 0, path.dirty := d }) hs).trans ?_⟩
  refine congrArg Host.Outcome.next ((journalBegin_of rfl hws).trans ?_)
  exact (congrArg (State.journalOffer 16) he).symm

end

/-- The state in which a fill write of slot p has been put in progress (R88). -/
def State.startedFill (s : State) (d : StationDef) (p : Nat) : State :=
  { s with
    path.fCount := 0
    path.inProgress := some (.fWrite (fullBurst (d.ringBase + 64 * p) (emptyHeader d.tag))) }

theorem grantTo_fill {s : State} {i : Fin 8} {q : List (Fin 8)} {p : Nat} {d : StationDef} (hg : s.grantClass = some .f)
    (hq : s.path.prepQueue = i :: q) (hst : (s.station i).state = .preparing p) (hdef : (s.station i).defn = some d) :
    s.grantTo .f = (s.startedFill d p).fillStep i :=
  grantTo_f hg hq hst hdef

/-- Settles O24: each class puts its burst in progress, and a freed place goes to the head of the wait list. -/
theorem grantsPutABurstInProgress : Obligations.GrantsPutABurstInProgress := by
  unfold Obligations.GrantsPutABurstInProgress
  refine ⟨fun s hs => ⟨fun q rest hg hq => ?_, fun e rest hg hq hw => ?_, fun i q p d hg hq hst hdef hlt => ?_⟩,
    fun s i q p d hs hg hq hst hdef hle => ?_, fun s e rest w ws hs hg hq hw => ?_⟩
  · rw [exec_grant hs hg, grantTo_p hq]
    cases q <;> rfl
  · rw [exec_grant hs hg, grantTo_b hq, handoff_nil (s := s.grantedB e rest) hw]
    rfl
  · have hd := Station.d_of_defn hdef
    rw [exec_grant hs hg, grantTo_fill hg hq hst hdef, fillStep_of (s := s.startedFill d p) hst, if_neg]
    · rfl
    · show ¬(s.station i).d.slotCount ≤ p + 1
      rw [hd]
      omega
  · have hd := Station.d_of_defn hdef
    rw [exec_grant hs hg, grantTo_fill hg hq hst hdef]
    obtain ⟨d', hd', he⟩ := fillStep_last (s := s.startedFill d p) hst
      (show (s.station i).d.slotCount ≤ p + 1 by rw [hd]; exact hle)
    rw [show (s.startedFill d p).path.prepQueue.tail = q from congrArg List.tail hq] at he
    refine ⟨_, congrArg (fun x : State => Host.Outcome.next x.letIn) he, rfl, ?_, fun j hj => ?_, ?_, hd'⟩
    · rfl
    · exact station_withStation_ne s _ hj
    · refine (station_withStation s i _).trans ?_
      rw [← hd]
      rfl
  · have run := exec_grant_waiting hs hg hq hw
    have hands := Hands.giveTo (s.freedB e rest ws) w
    refine ⟨_, run, hands.inProgress, hands.waits, fun b hb => queue_append (.giveTo_burst _ hb),
      fun i d b bin bins hi hlive hbins => ?_, fun b v hv => ?_⟩
    · subst hi
      exact ⟨queue_append (resumeSealing_header (s := s.freedB e rest ws) hlive hbins),
        fun hd => resumeSealing_draining (s := s.freedB e rest ws) hlive hbins hd⟩
    · have hfreed : (s.freedB e rest ws).append b = v := hv.symm
      refine ⟨fun k hwb hu => ?_, fun k b' more hwb hu hfull => ?_, fun j entry entries hwb hj hb => ⟨fun hp =>
        ⟨fun ho => ?_, fun ho hfull n hn => ?_⟩, fun hp hws => ?_⟩, fun hwb => ?_⟩
      all_goals
        subst hwb
        rw [run]
      · obtain ⟨d, hd⟩ := giveTo_directive_last (e := e) (rest := rest) (ws := ws) (b := b) hu
        rw [hd, hfreed]
        exact ⟨_, rfl, rfl⟩
      · rw [giveTo_directive_waits hu hfull, hfreed]
      · rw [giveTo_journal_raises hp, journalOffer_nothing (s := ((s.freedB e rest ws).append b).progressed) (.inr (.inr ho)), ← hfreed]
        exact ⟨_, rfl, rfl⟩
      · rw [giveTo_journal_waits hj hb hp ho hfull hn, hfreed]
        exact ⟨_, rfl, rfl⟩
      · obtain ⟨u, hu, hx⟩ := giveTo_journal_ends (e := e) (rest := rest) (b := b) hs hb hp hws
        rw [hfreed] at hu
        exact ⟨u, _, hu, hx, rfl⟩
      · refine ⟨_, exec_mirrorGroupWrite ?_, ?_⟩
        · rw [hv]
          exact hs
        · rw [← hfreed]
          rfl

end Sys2Proof.Machine
end

section
/-! PROOF. Taking, judging and answering a directive (R156 to R159; O29), and the directives of the lines: Define Line, Define
Hole Patterns, Start and Stop Tracking, Withdraw and Inject Marker (R9 to R13, R25, R26, R39, R52, R53; O30 to O32, O36,
O37). -/

namespace Sys2Proof.Machine

/-! ## Every directive (R156, R157) -/

theorem takes_of_headSlot {s : State} {k : Fin 16} (hp : s.powered = true) (h : s.headSlot = some k) :
    s.Takes k (s.slot k).code := by
  obtain ⟨hu, hst, hf⟩ := State.headSlot_some.1 h
  exact ⟨hp, hu, hst, hf, rfl⟩

theorem unknownCode_of {s : State} {k : Fin 16} {code : BitVec 8} (h : s.Takes k code) (hc : code ∉ directiveCodes) :
    s.unknownCode = (s.beginDirective k).answerWith k (some .unknownCode) [] := by
  unfold State.unknownCode
  rw [h.head]
  dsimp only
  rw [h.2.2.2.2, if_neg (by rw [List.contains_iff_mem]; exact hc)]
  rfl

theorem unknownCode_other {s : State} (hp : s.powered = true) (h : ∀ k code, s.Takes k code → code ∈ directiveCodes) :
    s.unknownCode = s := by
  unfold State.unknownCode
  split
  · rfl
  · rename_i k hk
    exact if_pos (List.contains_iff_mem.2 (h k _ (takes_of_headSlot hp hk)))

/-- A refused code runs as a directive without effect. -/
theorem runs_unknownCode {s : State} {k : Fin 16} {code : BitVec 8} (h : s.Takes k code) (hc : code ∉ directiveCodes) :
    Runs .unknownCode s (s.beginDirective k) k (some .unknownCode) [] := by
  refine ⟨_, exec_unknownCode h.1, ?_⟩
  rw [unknownCode_of h hc]
  exact State.answerWith_completes (s.beginDirective k) k _ _ _ (MarksKept.refl _)

/-- Settles O29: each directive's row takes it, and every other command comes after the takes that are due. -/
theorem directivesAreTakenJudgedAndAnswered : Obligations.DirectivesAreTakenJudgedAndAnswered := by
  unfold Obligations.DirectivesAreTakenJudgedAndAnswered
  refine ⟨fun s k => rfl, fun i code f s hi => ⟨fun h => ?_, fun k ht => ⟨fun r a hf => runs_refused hi ht hf,
    fun e a hf => runs_done hi ht (MarksKept.refl e.path.dirty) hf⟩⟩,
    fun s => ⟨fun k code ht hc => runs_unknownCode ht hc, fun h => ?_, fun k code ht => ⟨exists_takesCode code,
      fun i hi => ⟨_, exec_takesCode hi ht.1, ?_, fun c hc => ?_⟩⟩⟩⟩
  · by_cases hp : s.powered = true
    · rw [exec_directive hi hp, directive_not_taken h hp]
    · exact exec_directiveRow_unpowered (code := code) (.inl (by rw [hi]; rfl)) hp
  · by_cases hp : s.powered = true
    · rw [exec_unknownCode hp, unknownCode_other hp h]
    · exact exec_directiveRow_unpowered (code := 0) (.inr (.inr ⟨rfl, by decide⟩)) hp
  · have key := (TakeFrame.takeCode ht.head).2
    rw [ht.2.2.2.2] at key
    exact key
  · have frame := (TakeFrame.takeCode ht.head).1
    have cons := State.takeDue_cons ht.head
    rw [ht.2.2.2.2] at frame cons
    rw [exec_waitsForTakes hc ht.1, cons, ← exec_waitsForTakes hc (frame.port.1.trans ht.1)]

/-! ## Define Line (R9 to R11) -/

theorem lineWordsOk_iff (w : Nat → Word) : lineWordsOk w = true ↔
    (1 ≤ (w 1).toNat ∧ (w 1).toNat ≤ 4096) ∧ (1 ≤ (w 2).toNat ∧ (w 2).toNat ≤ 1000) ∧
    (1 ≤ (w 3).toNat ∧ (w 3).toNat ≤ 4096) ∧ (1 ≤ (w 4).toNat ∧ (w 4).toNat ≤ 1000) ∧ (w 5).toNat ≤ 1 ∧
    ((w 6).toNat ≤ 3 ∧ (w 7).toNat ≤ 15 ∧ -100000 ≤ (w 8).toInt ∧ (w 8).toInt ≤ 100000) ∧
    ((w 9).toNat ≤ 3 ∧ (w 10).toNat ≤ 15 ∧ -100000 ≤ (w 11).toInt ∧ (w 11).toInt ≤ 100000) ∧
    ((w 12).toNat ≤ 3 ∧ (w 13).toNat ≤ 15 ∧ -100000 ≤ (w 14).toInt ∧ (w 14).toInt ≤ 100000) ∧
    (1 ≤ (w 15).toNat ∧ (w 15).toNat ≤ 1000000) ∧ (1 ≤ (w 16).toNat ∧ (w 16).toNat ≤ 1000000) ∧
    (1 ≤ (w 17).toNat ∧ (w 17).toNat ≤ 1000000) ∧ (500 ≤ (w 18).toNat ∧ (w 18).toNat ≤ 20000) ∧
    (500 ≤ (w 19).toNat ∧ (w 19).toNat ≤ 20000) ∧ (w 20).toNat ≤ 1 ∧ (w 21).toNat ≤ 500 ∧
    (10 ≤ (w 22).toNat ∧ (w 22).toNat ≤ 10000) ∧ (w 23).toNat ≤ 10000 ∧
    (w 18).toNat ≤ (w 19).toNat ∧ (w 11).toInt ≤ (w 14).toInt := by
  simp only [lineWordsOk, within, withinInt, Bool.and_eq_true, decide_eq_true_eq, Nat.zero_le, true_and, and_assoc]

theorem defineLine_none {w : Nat → Word} (s : State) (h : 4 ≤ (w 0).toNat) :
    defineLine w s = .refused .badParameter [] := by
  unfold defineLine
  rw [lineOf_none h]

theorem defineLine_of {w : Nat → Word} {s : State} {l : LineId} (h : (w 0).toNat = l.val) : defineLine w s =
    if (s.line l).state = .tracking ∨ ((s.line l).state = .standby ∧ s.lineClear l = false) then .refused .wrongState []
    else if lineWordsOk w then .done ((s.setLine l ((s.line l).define w)).mark (lineGroup l)) []
    else .refused .badParameter [] := by
  unfold defineLine
  rw [lineOf_some h]

theorem lineClear_false_iff (s : State) (l : LineId) : s.lineClear l = false ↔ ¬s.Clear l := by
  rw [← lineClear_iff, Bool.not_eq_true]

/-- Settles O30: Define Line's ranges, its judgement in order and its effect. -/
theorem defineLineSetsTheWholeDefinition : Obligations.DefineLineSetsTheWholeDefinition := by
  unfold Obligations.DefineLineSetsTheWholeDefinition
  refine ⟨lineWordsOk_iff, fun s k ht => ⟨fun h => runs_refused rfl ht (defineLine_none _ h), fun l hl =>
    ⟨fun h => runs_refused rfl ht ?wrong, fun h => ⟨fun hw => runs_refused rfl ht ?bad, fun hw =>
      runs_done_marked rfl ht (setLine_eq _ l _) ?done⟩⟩⟩⟩
  all_goals have judged := defineLine_of (w := s.param k) (s := s.beginDirective k) hl
  case wrong =>
    rw [judged]
    exact if_pos (h.imp_right fun h => ⟨h.1, (lineClear_false_iff s l).2 h.2⟩)
  all_goals
    have free : ¬((s.line l).state = .tracking ∨ ((s.line l).state = .standby ∧ s.lineClear l = false)) := by
      rw [lineClear_false_iff]
      rcases h with h | ⟨h, hc⟩
      · rw [h]
        rintro (h | ⟨h, -⟩) <;> cases h
      · rw [h]
        rintro (h | ⟨-, hn⟩)
        · cases h
        · exact hn hc
  case bad =>
    rw [judged]
    exact (if_neg free).trans (if_neg (by rw [hw]; decide))
  case done =>
    rw [judged]
    exact (if_neg free).trans (if_pos hw)

/-! ## Define Hole Patterns (R25, R26) -/

/-- Reading the nine words of a pattern slot is what `PatternGiven` says. -/
theorem readPattern_iff (w : Nat → Word) (j : Nat) (p : PatternSlot) :
    readPattern w j = some p ↔ PatternGiven w j p := by
  unfold readPattern PatternGiven
  dsimp only
  generalize (w (2 + 9 * j)).toNat = n
  generalize (w (1 + 9 * j)).toNat = c
  by_cases h0 : n = 0
  · rw [if_pos h0, Option.some.injEq, eq_comm]
    refine ⟨fun h => .inl ⟨h0, h⟩, fun h => ?_⟩
    rcases h with ⟨-, h⟩ | ⟨h, -⟩
    · exact h
    · omega
  · rw [if_neg h0]
    by_cases h1 : n = 1 ∨ 8 < n
    · rw [if_pos h1]
      refine ⟨nofun, fun h => ?_⟩
      rcases h with ⟨h, -⟩ | ⟨h2, h8, -⟩ <;> omega
    · rw [if_neg h1]
      by_cases hc : 1 < c
      · rw [if_pos hc]
        refine ⟨nofun, fun h => ?_⟩
        rcases h with ⟨h, -⟩ | ⟨-, -, h, -⟩ <;> omega
      · have spaced : ((List.range (n - 1)).map fun i => (w (3 + 9 * j + i)).toNat).all
            (fun sp => decide (1 ≤ sp) && decide (sp ≤ 10000)) = true ↔
            ∀ i, i < n - 1 → 1 ≤ (w (3 + 9 * j + i)).toNat ∧ (w (3 + 9 * j + i)).toNat ≤ 10000 := by
          simp
        rw [if_neg hc]
        constructor
        · intro h
          split at h
          · rename_i hs
            cases h
            rw [spaced] at hs
            exact .inr ⟨by omega, by omega, by omega, rfl, rfl, by simp, fun i hi => ⟨by simp [hi], hs i hi⟩⟩
          · cases h
        · rintro (⟨h, -⟩ | ⟨-, -, -, hcls, hholes, hlen, hs⟩)
          · exact absurd h h0
          · rw [if_pos (spaced.2 fun i hi => (hs i hi).2)]
            obtain ⟨cls, holes, spacings⟩ := p
            subst hcls hholes
            refine congrArg (fun x => some (PatternSlot.mk _ _ x)) (List.ext_getElem? fun i => ?_)
            by_cases hi : i < holes - 1
            · rw [(hs i hi).1]
              simp [hi]
            · have hge : holes - 1 ≤ i := by omega
              rw [List.getElem?_eq_none (by simpa using hge), List.getElem?_eq_none (by rw [hlen]; exact hge)]

theorem readPattern_none {w : Nat → Word} {j : Nat} (h : ∀ p, ¬PatternGiven w j p) : readPattern w j = none := by
  cases hr : readPattern w j with
  | none => rfl
  | some p => exact absurd ((readPattern_iff w j p).1 hr) (h p)

theorem defineHolePatterns_none {w : Nat → Word} (s : State) (h : 4 ≤ (w 0).toNat) :
    defineHolePatterns w s = .refused .badParameter [] := by
  unfold defineHolePatterns
  rw [lineOf_none h]

section
variable {w : Nat → Word} {s : State} {l : LineId}

theorem defineHolePatterns_wrong (h : (w 0).toNat = l.val) (hst : (s.line l).state ≠ .standby) :
    defineHolePatterns w s = .refused .wrongState [] := by
  unfold defineHolePatterns
  rw [lineOf_some h]
  exact if_pos hst

theorem defineHolePatterns_bad (h : (w 0).toNat = l.val) (hst : (s.line l).state = .standby) {j : Nat} (hj : j < 3)
    (hn : readPattern w j = none) : defineHolePatterns w s = .refused .badParameter [] := by
  unfold defineHolePatterns
  rw [lineOf_some h]
  dsimp only
  rw [if_neg (not_not.2 hst)]
  split
  · rename_i h0 h1 h2
    obtain rfl | rfl | rfl : j = 0 ∨ j = 1 ∨ j = 2 := by omega
    · rw [h0] at hn; cases hn
    · rw [h1] at hn; cases hn
    · rw [h2] at hn; cases hn
  · rfl

theorem defineHolePatterns_done (h : (w 0).toNat = l.val) (hst : (s.line l).state = .standby) {a b c : PatternSlot}
    (ha : readPattern w 0 = some a) (hb : readPattern w 1 = some b) (hc : readPattern w 2 = some c) :
    defineHolePatterns w s =
      .done ((s.setLine l { s.line l with patterns := #v[a, b, c] }).mark (lineGroup l)) [] := by
  unfold defineHolePatterns
  rw [lineOf_some h]
  dsimp only
  rw [if_neg (not_not.2 hst), ha, hb, hc]

end

/-- Settles O31: the three pattern slots are read, judged and replaced together. -/
theorem defineHolePatternsReplacesAllThree : Obligations.DefineHolePatternsReplacesAllThree := by
  unfold Obligations.DefineHolePatternsReplacesAllThree
  refine fun s k ht => ⟨fun h => runs_refused rfl ht (defineHolePatterns_none _ h), fun l hl =>
    ⟨fun hst => runs_refused rfl ht (defineHolePatterns_wrong hl hst),
      fun j hst hj hn => runs_refused rfl ht (defineHolePatterns_bad hl hst hj (readPattern_none hn)),
      fun a b c hst ha hb hc => ?_⟩⟩
  have read0 := (readPattern_iff (s.param k) 0 a).2 ha
  have read1 := (readPattern_iff (s.param k) 1 b).2 hb
  have read2 := (readPattern_iff (s.param k) 2 c).2 hc
  have set := setLine_eq (s.beginDirective k) l { s.line l with patterns := #v[a, b, c] }
  exact runs_done_marked rfl ht set (defineHolePatterns_done (s := s.beginDirective k) hl hst read0 read1 read2)

/-! ## Start and Stop Tracking (R12, R13) -/

theorem MarksOnly.marked {e u : State} (h : MarksOnly e u) (g : Fin 39) : MarksOnly (e.mark g) (u.mark g) := by
  obtain ⟨hu, hm⟩ := h
  refine ⟨?_, hm.set_both g.val g.isLt⟩
  rw [hu]
  rfl

/-- A line replaced, its group marked and ANNOUNCE_EMPTY judged. -/
theorem MarksOnly.setLine_judged (s : State) (l : LineId) (ln : Line) {e : State}
    (he : e = (s.withLine l ln).mark (lineGroup l)) :
    MarksOnly (e.withFlags e.flagsJudged) ((s.setLine l ln).mark (lineGroup l)).judgeAnnounce := by
  subst he
  exact ((MarksOnly.setLine s l ln).marked (lineGroup l)).withFlagsJudged.trans (.judgeAnnounce _)

theorem startTracking_none {w : Nat → Word} (s : State) (h : 4 ≤ (w 0).toNat) :
    startTracking w s = .refused .badParameter [] := by
  unfold startTracking
  rw [lineOf_none h]

theorem startTracking_of {w : Nat → Word} {s : State} {l : LineId} (h : (w 0).toNat = l.val) : startTracking w s =
    if (s.line l).state ≠ .standby then .refused .wrongState []
    else .done ((s.setLine l { s.line l with state := .tracking }).mark (lineGroup l)).judgeAnnounce
      (s.line l).counterWords := by
  unfold startTracking
  rw [lineOf_some h]

theorem stopTracking_none {w : Nat → Word} (s : State) (h : 4 ≤ (w 0).toNat) :
    stopTracking w s = .refused .badParameter [] := by
  unfold stopTracking
  rw [lineOf_none h]

theorem stopTracking_of {w : Nat → Word} {s : State} {l : LineId} (h : (w 0).toNat = l.val) : stopTracking w s =
    if (s.line l).state ≠ .tracking then .refused .wrongState []
    else .done ((s.setLine l (s.line l).stopped).mark (lineGroup l)).judgeAnnounce (s.line l).counterWords := by
  unfold stopTracking
  rw [lineOf_some h]

/-- Settles O32: Start and Stop move the line state, and ANNOUNCE_EMPTY is judged at the change. -/
theorem startAndStopTrackingMoveTheLineState : Obligations.StartAndStopTrackingMoveTheLineState := by
  unfold Obligations.StartAndStopTrackingMoveTheLineState
  refine fun s k => ⟨fun ht => ⟨fun h => runs_refused rfl ht (startTracking_none _ h), fun l hl =>
    ⟨fun hst => runs_refused rfl ht ((startTracking_of hl).trans (if_pos hst)), fun e hst he => ?start⟩⟩,
    fun ht => ⟨fun h => runs_refused rfl ht (stopTracking_none _ h), fun l hl =>
      ⟨fun hst => runs_refused rfl ht ((stopTracking_of hl).trans (if_pos hst)), fun e hst he => ?stop⟩⟩⟩
  case start =>
    obtain ⟨hu, hm⟩ := MarksOnly.setLine_judged _ l _ he
    exact runs_done_up_to_marks rfl ht hu hm ((startTracking_of hl).trans (if_neg (not_not.2 hst)))
  case stop =>
    obtain ⟨hu, hm⟩ := MarksOnly.setLine_judged _ l _ he
    exact runs_done_up_to_marks rfl ht hu hm ((stopTracking_of hl).trans (if_neg (not_not.2 hst)))

/-! ## Withdraw (R39) -/

theorem withdraw_bad {w : Nat → Word} (s : State) (h : 4 ≤ (w 0).toNat ∨ 1 < (w 1).toNat) :
    withdraw w s = .refused .badParameter [] := by
  unfold withdraw
  split
  · rfl
  · rename_i l hl
    rcases h with h | h
    · rw [lineOf_none h] at hl
      cases hl
    · exact if_pos h

theorem withdraw_of {w : Nat → Word} {s : State} {l : LineId} {kind : Kind} (h : (w 0).toNat = l.val)
    (hk : (w 1).toNat ≤ 1) (hkind : (if (w 1).toNat = 0 then Kind.entry else Kind.exit) = kind) : withdraw w s =
      if w 2 ∈ (s.line l).queue kind then
        .done (s.setQueue l kind (((s.line l).queue kind).erase (w 2))) [wordOf (((s.line l).queue kind).idxOf (w 2))]
      else .refused .notFound [] := by
  unfold withdraw
  rw [lineOf_some h]
  dsimp only
  rw [if_neg (by omega), hkind]
  exact if_congr List.contains_iff_mem rfl rfl

theorem erase_of_split {x : Word} {pre post : List Word} (h : x ∉ pre) : (pre ++ x :: post).erase x = pre ++ post := by
  rw [List.erase_append_right _ h, List.erase_cons_head]

theorem idxOf_of_split {x : Word} {pre post : List Word} (h : x ∉ pre) : (pre ++ x :: post).idxOf x = pre.length := by
  rw [List.idxOf_append_of_notMem h, List.idxOf_cons_self, Nat.add_zero]

/-- The number leaves its queue from its place. -/
theorem withdraw_done {w : Nat → Word} {s : State} {l : LineId} {kind : Kind} (h : (w 0).toNat = l.val)
    (hk : (w 1).toNat ≤ 1) (hkind : (if (w 1).toNat = 0 then Kind.entry else Kind.exit) = kind) {pre post : List Word}
    (hq : (s.line l).queue kind = pre ++ w 2 :: post) (hpre : w 2 ∉ pre) :
    withdraw w s = .done (s.setQueue l kind (pre ++ post)) [wordOf pre.length] := by
  rw [withdraw_of h hk hkind, hq, if_pos (by simp), erase_of_split hpre, idxOf_of_split hpre]

/-- Settles O36: the number leaves the queue that word 1 names. -/
theorem withdrawRemovesFromItsPlace : Obligations.WithdrawRemovesFromItsPlace := by
  unfold Obligations.WithdrawRemovesFromItsPlace
  refine fun s k ht => ⟨fun h => runs_refused rfl ht (withdraw_bad _ h), fun l hl => ⟨fun h0 hn => ?_, fun h1 hn => ?_,
    fun pre post e h0 hq hpre he => ?_, fun pre post h1 hq hpre => ?_⟩⟩
  · exact runs_refused rfl ht ((withdraw_of (kind := .entry) hl (by omega) (if_pos h0)).trans (if_neg hn))
  · exact runs_refused rfl ht ((withdraw_of (kind := .exit) hl (by omega) (if_neg (by omega))).trans (if_neg hn))
  · obtain ⟨hu, hm⟩ := MarksOnly.setQueue_entry _ l _ he
    exact runs_done_up_to_marks rfl ht hu hm (withdraw_done (kind := .entry) hl (by omega) (if_pos h0) hq hpre)
  · obtain ⟨hu, hm⟩ := MarksOnly.setQueue_exit (s.beginDirective k) l (pre ++ post)
    exact runs_done_up_to_marks rfl ht hu hm (withdraw_done (kind := .exit) hl (by omega) (if_neg (by omega)) hq hpre)

/-! ## Inject Marker (R52, R53) -/

theorem injectMarker_none {w : Nat → Word} (s : State) (h : 4 ≤ (w 0).toNat) :
    injectMarker w s = .refused .badParameter [] := by
  unfold injectMarker
  rw [lineOf_none h]

section
variable {w : Nat → Word} {s : State} {l : LineId}

theorem injectMarker_wrong (h : (w 0).toNat = l.val) (hst : (s.line l).state ≠ .tracking) :
    injectMarker w s = .refused .wrongState [] := by
  unfold injectMarker
  rw [lineOf_some h]
  exact if_pos hst

theorem injectMarker_bad (h : (w 0).toNat = l.val) (hst : (s.line l).state = .tracking)
    (hw : 2 < (w 1).toNat ∨ 0xFFFF < (w 3).toNat) : injectMarker w s = .refused .badParameter [] := by
  unfold injectMarker
  rw [lineOf_some h]
  exact (if_neg (not_not.2 hst)).trans (if_pos hw)

/-- The event that word 1 names, carried out or refused by the plausibility test (R52, R53). -/
theorem injectMarker_of (h : (w 0).toNat = l.val) (hst : (s.line l).state = .tracking) (hhigh : (w 3).toNat ≤ 0xFFFF)
    {p : Nat} (hp : p = (w 2).toNat + (w 3).toNat * 4294967296) :
    ((w 1).toNat = 0 → injectMarker w s =
      if plausible (s.line l).lastSeamIn (s.line l).seamInSpacing p then injected (s.acceptSeamIn l p s.track.clock)
      else .refused .badParameter []) ∧
    ((w 1).toNat = 1 → injectMarker w s =
      if plausible (s.line l).lastExitSeam (s.line l).seamOutSpacing p then injected (s.acceptExitSeam l p)
      else .refused .badParameter []) ∧
    ((w 1).toNat = 2 → injectMarker w s =
      if plausible (s.line l).lastShear (s.line l).shearSpacing p then injected (s.acceptShear l p s.track.clock)
      else .refused .badParameter []) := by
  replace hp : joined (w 2) (w 3) = p := hp.symm
  unfold injectMarker
  rw [lineOf_some h]
  dsimp only
  rw [if_neg (not_not.2 hst), hp]
  refine ⟨fun h1 => ?_, fun h1 => ?_, fun h1 => ?_⟩ <;>
  · rw [if_neg (by omega)]
    simp only [h1]

end

/-- Settles O37: the injected event is judged and carried out as the captured one. -/
theorem injectMarkerCarriesOutTheEvent : Obligations.InjectMarkerCarriesOutTheEvent := by
  unfold Obligations.InjectMarkerCarriesOutTheEvent
  refine fun s k ht => ⟨fun h => runs_refused rfl ht (injectMarker_none _ h), fun l p hl hp =>
    ⟨fun hst => runs_refused rfl ht (injectMarker_wrong hl hst),
      fun hst hw => runs_refused rfl ht (injectMarker_bad hl hst hw), fun hst hhigh => ?_⟩⟩
  obtain ⟨seamIn, exitSeam, shear⟩ := injectMarker_of (s := s.beginDirective k) hl hst hhigh hp
  refine ⟨fun h1 => ?_, fun h1 => ?_, fun h1 => ?_⟩
  · refine ⟨fun hn => runs_refused rfl ht ((seamIn h1).trans (if_neg (by rw [plausible_iff]; exact hn))), ?_⟩
    rintro hpass _ rfl
    exact runs_done rfl ht (MarksKept.refl _) ((seamIn h1).trans (if_pos ((plausible_iff _ _ _).2 hpass)))
  · refine ⟨fun hn => runs_refused rfl ht ((exitSeam h1).trans (if_neg (by rw [plausible_iff]; exact hn))), ?_⟩
    rintro hpass _ rfl
    exact runs_done rfl ht (MarksKept.refl _) ((exitSeam h1).trans (if_pos ((plausible_iff _ _ _).2 hpass)))
  · refine ⟨fun hn => runs_refused rfl ht ((shear h1).trans (if_neg (by rw [plausible_iff]; exact hn))), ?_⟩
    rintro hpass _ rfl
    exact runs_done rfl ht (MarksKept.refl _) ((shear h1).trans (if_pos ((plausible_iff _ _ _).2 hpass)))

end Sys2Proof.Machine
end

section
/-! PROOF. Define Station and Define Verdict (R82 to R84, R104 to R107; O41, O42), Open and Refresh Cursor (R114 to R116;
O44), and the directives of journal, flags and period (R166, R171, R176; O46, O47, O49). -/

namespace Sys2Proof.Machine

/-! ## Define Station (R82 to R84) -/

theorem stationOf_word {l : LineId} {i : Fin 8} {x : Word} (hx : x.toNat ≤ 1) (hi : i.val = 2 * l.val + x.toNat) :
    stationOf l (if x.toNat = 0 then .entry else .exit) = i := by
  by_cases h : x.toNat = 0
  · rw [if_pos h]
    exact Fin.ext (by rw [hi, h]; rfl)
  · rw [if_neg h]
    refine Fin.ext ?_
    show 2 * l.val + 1 = i.val
    omega

theorem defineStation_bad {w : Nat → Word} (s : State) (h : 4 ≤ (w 0).toNat ∨ 1 < (w 1).toNat) :
    defineStation w s = .refused .badParameter [] := by
  unfold defineStation
  split
  · rfl
  · rename_i l hl
    rcases h with h | h
    · rw [lineOf_none h] at hl
      cases hl
    · exact if_pos h

/-- The definition's ring shares memory with the part, another ring or the journal (R83 step 4). -/
def State.ringTaken (s : State) (i : Fin 8) (d : StationDef) : Bool :=
  overlaps d.ringBase d.ringBytes s.base areaSize || s.meetsRing (some i) d.ringBase d.ringBytes ||
    s.meetsJournal d.ringBase d.ringBytes

theorem ringTaken_iff (s : State) (i : Fin 8) (d : StationDef) : s.ringTaken i d = true ↔
    s.MeetsPart (some i) d.ringBase (d.slotCount * 64) ∨
      ∃ j, s.path.journal = some j ∧ SharesMemory d.ringBase (d.slotCount * 64) j.base (j.size * 512) := by
  unfold State.ringTaken
  rw [Bool.or_eq_true, meetsRing_iff, meetsJournal_iff]
  rfl

theorem defineStation_of {w : Nat → Word} {s : State} {l : LineId} {i : Fin 8} (h : (w 0).toNat = l.val)
    (hk : (w 1).toNat ≤ 1) (hi : i.val = 2 * l.val + (w 1).toNat) : defineStation w s =
      if (s.station i).state ≠ .off then .refused .wrongState []
      else if stationWordsOk w = false then .refused .badParameter []
      else if s.ringTaken i (stationDef w) then .refused .badParameter []
      else .done ((s.setStation i { s.station i with defn := some (stationDef w), chain := [] }).mark (stationGroup i)) [] := by
  unfold defineStation
  rw [lineOf_some h]
  dsimp only
  rw [if_neg (Nat.not_lt.2 hk), stationOf_word hk hi]
  rfl

/-- Settles O41: the judgement of Define Station in its order, and its effect. -/
theorem defineStationReplacesTheDefinition : Obligations.DefineStationReplacesTheDefinition := by
  unfold Obligations.DefineStationReplacesTheDefinition
  refine fun s k ht => ⟨fun h => runs_refused rfl ht (defineStation_bad _ h), fun l i w hw h0 h1 hi => ?_⟩
  subst hw
  have judged := defineStation_of (s := s.beginDirective k) h0 h1 hi
  refine ⟨fun hst => runs_refused rfl ht (judged.trans (if_pos hst)), fun hst hn => runs_refused rfl ht ?_,
    fun d hst hg e1 e2 e3 e4 e5 e6 e7 => ?_⟩
  · have bad : stationWordsOk (s.param k) = false := by
      rw [← Bool.not_eq_true, stationWordsOk_iff]
      exact hn
    exact judged.trans ((if_neg (not_not.2 hst)).trans (if_pos bad))
  · rw [stationDef_eq (s.param k) d e1 e2 e3 e4 e5 e6 e7] at judged
    have words : ¬stationWordsOk (s.param k) = false := by
      rw [(stationWordsOk_iff _).2 hg]
      decide
    replace judged := judged.trans ((if_neg (not_not.2 hst)).trans (if_neg words))
    have taken := ringTaken_iff (s.beginDirective k) i d
    refine ⟨fun h => runs_refused rfl ht (judged.trans (if_pos (taken.2 h))), fun hp hj => ?_⟩
    refine runs_done_marked rfl ht (setStation_eq _ i _) (judged.trans (if_neg fun h => ?_))
    rcases taken.1 h with h | ⟨j, hjs, hm⟩
    · exact hp h
    · exact hj j hjs hm

/-! ## Verdict chains (R103 to R109) -/

/-- A condition holds on a bin exactly when the channel has a value and it compares so (R108). -/
theorem evalTest_eq {t : Test} {held : Option Word} {thr : Word} {x : Bool}
    (h : x = true ↔ ∃ v, held = some v ∧ (match t with
      | .gt => thr.toInt < v.toInt
      | .ge => thr.toInt ≤ v.toInt
      | .lt => v.toInt < thr.toInt
      | .le => v.toInt ≤ thr.toInt
      | .present => True)) : evalTest t held thr = x := by
  rw [Bool.eq_iff_iff, h]
  unfold evalTest
  cases held with
  | none => simp
  | some v => cases t <;> simp

theorem apply_cond {b : OpenBin} {t : Test} {ch : Nat} {thr : Word} {x : Bool} (op : CondOp) (st : List Bool)
    (h : evalTest t (b.channel ch) thr = x) : (Term.cond op t ch thr).apply b st = op.apply x st :=
  congrArg (fun c => op.apply c st) h

/-- A chain that is checked from its start: it begins with a term that pushes (R106). -/
theorem chainCheck_of_pushes {t : Term} {rest : List Term} (h : t.pushes = true) :
    chainCheck (t :: rest) = checkFrom 0 0 (t :: rest) := by
  cases t with
  | block o => cases h
  | cond o t c v =>
    cases o with
    | load | loadNot => rfl
    | and | andNot | or | orNot => cases h

theorem chainCheck_of_not_pushes {t : Term} {rest : List Term} (h : t.pushes = false) :
    chainCheck (t :: rest) = some (0, 1) := by
  cases t with
  | block o => rfl
  | cond o t c v =>
    cases o with
    | load | loadNot => cases h
    | and | andNot | or | orNot => rfl

/-- The depths of a chain that is checked from its start (R106). -/
theorem checkFrom_start (b : OpenBin) (chain : List Term) :
    (checkFrom 0 0 chain = none → (∀ n, depthAfter (chain.take n) b ≤ 4) ∧ depthAfter chain b = 1) ∧
    ∀ t kind, checkFrom 0 0 chain = some (t, kind) →
      (kind = 2 ∧ depthAfter (chain.take t) b = 4 ∧ ∃ x, chain[t]? = some x ∧ x.pushes = true) ∨
      (kind = 3 ∧ ∃ x, chain[t]? = some x ∧ x.pushes = false ∧ depthAfter (chain.take t) b < x.takes) ∨
      (kind = 4 ∧ t = chain.length ∧ depthAfter chain b ≠ 1) := by
  refine checkFrom_spec b chain chain 0 0 [] rfl (Nat.zero_le _) rfl rfl (by omega) fun n hn => ?_
  rw [Nat.le_zero.1 hn]
  exact Nat.zero_le 4

theorem chainCheck_passes {chain : List Term} (h : chainCheck chain = none) (hne : chain ≠ []) (b : OpenBin) :
    (∀ n, depthAfter (chain.take n) b ≤ 4) ∧ depthAfter chain b = 1 := by
  cases chain with
  | nil => exact absurd rfl hne
  | cons t rest =>
    by_cases hp : t.pushes = true
    · rw [chainCheck_of_pushes hp] at h
      exact (checkFrom_start b _).1 h
    · rw [chainCheck_of_not_pushes (Bool.not_eq_true _ ▸ hp)] at h
      cases h

theorem chainCheck_fails {chain : List Term} {t kind : Nat} (h : chainCheck chain = some (t, kind)) (b : OpenBin) :
    (kind = 1 ∧ t = 0 ∧ ∃ first rest, chain = first :: rest ∧ first.pushes = false) ∨
    (kind = 2 ∧ depthAfter (chain.take t) b = 4 ∧ ∃ x, chain[t]? = some x ∧ x.pushes = true) ∨
    (kind = 3 ∧ ∃ x, chain[t]? = some x ∧ x.pushes = false ∧ depthAfter (chain.take t) b < x.takes) ∨
    (kind = 4 ∧ t = chain.length ∧ depthAfter chain b ≠ 1) := by
  cases chain with
  | nil => cases h
  | cons x rest =>
    by_cases hp : x.pushes = true
    · rw [chainCheck_of_pushes hp] at h
      exact .inr ((checkFrom_start b _).2 t kind h)
    · have hf : x.pushes = false := Bool.not_eq_true _ ▸ hp
      rw [chainCheck_of_not_pushes hf] at h
      cases h
      exact .inl ⟨rfl, rfl, x, rest, rfl, hf⟩

/-- A stack of one result holds the verdict (R109). -/
theorem evalChain_of_depth {chain : List Term} {b : OpenBin} (h : depthAfter chain b = 1) :
    chain.foldl (fun st t => t.apply b st) [] = [evalChain chain b] := by
  obtain ⟨x, hx⟩ := List.length_eq_one_iff.1 h
  unfold evalChain
  rw [hx]
  rfl

/-! ## Define Verdict (R105, R107) -/

theorem defineVerdict_bad {w : Nat → Word} (s : State) (h : 8 ≤ (w 0).toNat ∨ 8 < (w 1).toNat) :
    defineVerdict w s = .refused .badParameter [] := by
  unfold defineVerdict
  split
  · rfl
  · rename_i i hi
    rcases h with h | h
    · rw [eightOf_none h] at hi
      cases hi
    · exact if_pos h

section
variable {w : Nat → Word} {s : State} {i : Fin 8}

theorem defineVerdict_wrong (h : (w 0).toNat = i.val) (hn : (w 1).toNat ≤ 8)
    (hst : (s.station i).defn = none ∨ (s.station i).state ≠ .off) : defineVerdict w s = .refused .wrongState [] := by
  unfold defineVerdict
  rw [eightOf_some h]
  exact (if_neg (Nat.not_lt.2 hn)).trans (if_pos hst)

theorem defineVerdict_unread (h : (w 0).toNat = i.val) (hn : (w 1).toNat ≤ 8) {d : StationDef}
    (hd : (s.station i).defn = some d) (hst : (s.station i).state = .off)
    (hr : readTerms d.channels w 0 (w 1).toNat = none) : defineVerdict w s = .refused .badParameter [] := by
  unfold defineVerdict
  rw [eightOf_some h]
  dsimp only
  rw [if_neg (Nat.not_lt.2 hn), if_neg (by rw [hd, hst]; simp), Station.d_of_defn hd, hr]

theorem defineVerdict_read (h : (w 0).toNat = i.val) (hn : (w 1).toNat ≤ 8) {d : StationDef}
    (hd : (s.station i).defn = some d) (hst : (s.station i).state = .off) {chain : List Term}
    (hr : readTerms d.channels w 0 (w 1).toNat = some chain) :
    (∀ term kind, chainCheck chain = some (term, kind) →
      defineVerdict w s = .refused .chainInvalid [wordOf term, wordOf kind]) ∧
    (chainCheck chain = none → defineVerdict w s = .done (s.setStation i { s.station i with chain := chain }) []) := by
  have judged : defineVerdict w s = match chainCheck chain with
      | some (term, kind) => .refused .chainInvalid [wordOf term, wordOf kind]
      | none => .done (s.setStation i { s.station i with chain := chain }) [] := by
    unfold defineVerdict
    rw [eightOf_some h]
    dsimp only
    rw [if_neg (Nat.not_lt.2 hn), if_neg (by rw [hd, hst]; simp), Station.d_of_defn hd, hr] <;> rfl
  refine ⟨fun term kind hc => ?_, fun hc => ?_⟩
  · rw [judged, hc]
  · rw [judged, hc]

end

/-- Settles O42: what terms and chains do, what the check finds, and the judgement of Define Verdict. -/
theorem defineVerdictLoadsACheckedChain : Obligations.DefineVerdictLoadsACheckedChain := by
  unfold Obligations.DefineVerdictLoadsACheckedChain
  refine ⟨fun test ch thr b held x st hh hx => ?_, fun b y z st => ⟨rfl, rfl⟩, fun b => rfl,
    fun chain b h hne => evalChain_of_depth (chainCheck_passes h hne b).2, fun chain b h hne => chainCheck_passes h hne b,
    fun chain b t kind h => chainCheck_fails h b,
    fun s k ht => ⟨fun h => runs_refused rfl ht (defineVerdict_bad _ h), fun i w hw h0 h1 => ?_⟩⟩
  · subst hh
    have value := fun op st => apply_cond (b := b) (ch := ch) op st (evalTest_eq hx)
    exact ⟨value _ _, value _ _, fun y => ⟨value _ _, value _ _, value _ _, value _ _⟩⟩
  · subst hw
    refine ⟨fun hst => runs_refused rfl ht (defineVerdict_wrong (s := s.beginDirective k) h0 h1 hst),
      fun d hd hst => ⟨fun j hj hbad => ?_, fun chain hlen hgiven => ?_⟩⟩
    · have unread : readTerm d.channels (s.param k (2 + 4 * j)) (s.param k (3 + 4 * j)) (s.param k (4 + 4 * j))
          (s.param k (5 + 4 * j)) = none := by
        rw [Option.eq_none_iff_forall_ne_some]
        exact fun t h => hbad t (readTerm_given.2 h)
      have none := readTerms_none d.channels (s.param k) _ 0 j hj (by rw [Nat.zero_add]; exact unread)
      exact runs_refused rfl ht (defineVerdict_unread (s := s.beginDirective k) h0 h1 hd hst none)
    · have read := readTerms_ok d.channels (s.param k) _ 0 chain hlen fun j t hj => by
        rw [Nat.zero_add]
        exact readTerm_given.1 (hgiven j t hj)
      obtain ⟨invalid, done⟩ := defineVerdict_read (s := s.beginDirective k) h0 h1 hd hst read
      refine ⟨fun hc => ?_, fun t kind hc => runs_refused rfl ht (invalid t kind hc)⟩
      obtain ⟨hu, hm⟩ := setStation_eq (s.beginDirective k) i { s.station i with chain := chain }
      exact runs_done_up_to_marks rfl ht hu hm (done hc)

/-! ## Open and Refresh Cursor (R114 to R116) -/

theorem cursorWordsOk_iff (w : Nat → Word) : cursorWordsOk w = true ↔
    (w 3).toNat ≤ 3 ∧ (w 4).toNat ≤ 1 ∧ (w 5).toNat ≤ 1000000000 ∧ -1000000 ≤ (w 6).toInt ∧ (w 6).toInt ≤ 1000000 ∧
      (w 6).toInt ≠ 0 ∧ 1 ≤ (w 7).toNat ∧ (w 7).toNat ≤ 1024 := by
  simp only [cursorWordsOk, within, withinInt, Bool.and_eq_true, decide_eq_true_eq, Nat.zero_le, true_and, and_assoc]

theorem openCursor_bad {w : Nat → Word} (s : State) (h : 8 ≤ (w 0).toNat ∨ 1 < (w 1).toNat) :
    openCursor w s = .refused .badParameter [] := by
  unfold openCursor
  split
  · rfl
  · rename_i i hi
    rcases h with h | h
    · rw [eightOf_none h] at hi
      cases hi
    · exact if_pos h

section
variable {w : Nat → Word} {s : State} {c : Fin 8}

theorem openCursor_inUse (h : (w 0).toNat = c.val) (h1 : (w 1).toNat ≤ 1) (hc : s.cursor c ≠ .closed) :
    openCursor w s = .refused .inUse [] := by
  unfold openCursor
  rw [eightOf_some h]
  exact (if_neg (Nat.not_lt.2 h1)).trans (if_pos hc)

theorem openCursor_badWords (h : (w 0).toNat = c.val) (h1 : (w 1).toNat ≤ 1) (hc : s.cursor c = .closed)
    (hw : cursorWordsOk w = false) : openCursor w s = .refused .badParameter [] := by
  unfold openCursor
  rw [eightOf_some h]
  exact (if_neg (Nat.not_lt.2 h1)).trans ((if_neg (not_not.2 hc)).trans (if_pos hw))

theorem openCursor_notFound (h : (w 0).toNat = c.val) (h1 : (w 1).toNat ≤ 1) (hc : s.cursor c = .closed)
    (hw : cursorWordsOk w = true) (hr : s.selected (w 1) (w 2) = none) : openCursor w s = .refused .notFound [] := by
  unfold openCursor
  rw [eightOf_some h]
  dsimp only
  rw [if_neg (Nat.not_lt.2 h1), if_neg (not_not.2 hc), if_neg (by rw [hw]; decide), hr]
  cases lineOf (w 3) <;> rfl

theorem openCursor_found (h : (w 0).toNat = c.val) (h1 : (w 1).toNat ≤ 1) (hc : s.cursor c = .closed)
    (hw : cursorWordsOk w = true) {l : LineId} (hl : (w 3).toNat = l.val) {r : Record}
    (hr : s.selected (w 1) (w 2) = some r) : openCursor w s = .done (s.setCursor c (.resolving
      { target := r.serial, line := l, side := if (w 4).toNat = 0 then .entry else .exit
        x0 := (w 5).toNat, stepLen := (w 6).toInt, count := (w 7).toNat } [])) [wordOf r.serial, w 7] := by
  unfold openCursor
  rw [eightOf_some h]
  dsimp only
  rw [if_neg (Nat.not_lt.2 h1), if_neg (not_not.2 hc), if_neg (by rw [hw]; decide), hr, lineOf_some hl]

end

theorem refreshCursor_none {w : Nat → Word} (s : State) (h : 8 ≤ (w 0).toNat) :
    refreshCursor w s = .refused .badParameter [] := by
  unfold refreshCursor
  rw [eightOf_none h]

theorem refreshCursor_closed {w : Nat → Word} {s : State} {c : Fin 8} (h : (w 0).toNat = c.val)
    (hc : s.cursor c = .closed) : refreshCursor w s = .refused .wrongState [] := by
  unfold refreshCursor
  rw [eightOf_some h]
  dsimp only
  rw [hc]

theorem refreshCursor_held {w : Nat → Word} {s : State} {c : Fin 8} (h : (w 0).toNat = c.val) {d : CursorDef}
    {table : List Resolved} (hc : s.cursor c = .resolving d table ∨ s.cursor c = .ready d table) :
    refreshCursor w s = .done ((s.setCursor c (.resolving d [])).mark (cursorGroup c)) [] := by
  unfold refreshCursor
  rw [eightOf_some h]
  dsimp only
  rcases hc with hc | hc <;> rw [hc]

/-- Settles O44: Open Cursor's judgement in its order, and what both directives make of the cursor. -/
theorem openAndRefreshMakeACursorResolve : Obligations.OpenAndRefreshMakeACursorResolve := by
  unfold Obligations.OpenAndRefreshMakeACursorResolve
  refine fun s k => ⟨fun ht => ⟨fun h => runs_refused rfl ht (openCursor_bad _ h), fun c w hw h0 h1 => ?_⟩,
    fun ht => ⟨fun h => runs_refused rfl ht (refreshCursor_none _ h), fun c h0 =>
      ⟨fun hc => runs_refused rfl ht (refreshCursor_closed (s := s.beginDirective k) h0 hc), fun d table hc =>
        runs_done_marked rfl ht (setCursor_eq _ c _) (refreshCursor_held (s := s.beginDirective k) h0 hc)⟩⟩⟩
  subst hw
  refine ⟨fun hc => runs_refused rfl ht (openCursor_inUse (s := s.beginDirective k) h0 h1 hc), fun hc =>
    ⟨fun hbad => ?_, fun l hl h4 h5 h6 h6' h6'' h7 h7' => ?_⟩⟩
  · have words : cursorWordsOk (s.param k) = false := by
      rw [← Bool.not_eq_true, cursorWordsOk_iff]
      omega
    exact runs_refused rfl ht (openCursor_badWords (s := s.beginDirective k) h0 h1 hc words)
  · have words : cursorWordsOk (s.param k) = true :=
      (cursorWordsOk_iff _).2 ⟨by omega, h4, h5, h6, h6', h6'', h7, h7'⟩
    refine ⟨fun hr => runs_refused rfl ht (openCursor_notFound (s := s.beginDirective k) h0 h1 hc words hr), fun r hr => ?_⟩
    have done := openCursor_found (s := s.beginDirective k) h0 h1 hc words hl hr
    have opened := setCursor_ne (s.beginDirective k) c (.resolving
      { target := r.serial, line := l, side := if (s.param k 4).toNat = 0 then .entry else .exit
        x0 := (s.param k 5).toNat, stepLen := (s.param k 6).toInt, count := (s.param k 7).toNat } [])
      (by rw [beginDirective_cursor, hc]; simp [Cursor.content])
    exact runs_done rfl ht (MarksKept.refl _) (done.trans (congrArg (DirOutcome.done · _) opened))

end Sys2Proof.Machine
end

section
/-! PROOF. Set Journal, Acknowledge Events and Set Mirror Period (R166, R171, R176; O46, O47, O49). -/

namespace Sys2Proof.Machine

/-! ## Set Journal (R166) -/

/-- The sizes of a journal ring are the powers of two from 16 to 65,536 (R166). -/
theorem journalSizes_iff (n : Nat) : journalSizes.contains n = true ↔ ∃ k, 4 ≤ k ∧ k ≤ 16 ∧ n = 2 ^ k := by
  constructor
  · intro h
    have sizes : ∀ n ∈ journalSizes, ∃ k ∈ List.range 17, 4 ≤ k ∧ n = 2 ^ k := by decide
    obtain ⟨k, hk, h4, hn⟩ := sizes n (List.contains_iff_mem.1 h)
    exact ⟨k, h4, Nat.le_of_lt_succ (List.mem_range.1 hk), hn⟩
  · rintro ⟨k, h4, h16, rfl⟩
    have powers : ∀ k : Fin 17, 4 ≤ k.val → journalSizes.contains (2 ^ k.val) = true := by decide
    exact powers ⟨k, by omega⟩ h4

theorem journalWordsOk_iff {w : Nat → Word} {base : Nat} (hb : base = (w 0).toNat + (w 1).toNat * 4294967296) :
    journalWordsOk w = true ↔ (w 2).toNat = 0 ∨ ((∃ n, 4 ≤ n ∧ n ≤ 16 ∧ (w 2).toNat = 2 ^ n) ∧ (w 1).toNat ≤ 3 ∧
      base % 512 = 0 ∧ base + (w 2).toNat * 512 ≤ 17179869184) := by
  have hj : joined (w 0) (w 1) = base := hb.symm
  simp only [journalWordsOk, hj, Bool.or_eq_true, Bool.and_eq_true, decide_eq_true_eq, beq_iff_eq, journalSizes_iff,
    and_assoc]
  rfl

theorem journalMeets_iff (s : State) (base size : Nat) :
    s.journalMeets base size = true ↔ size ≠ 0 ∧ s.MeetsPart none base (size * 512) := by
  unfold State.journalMeets
  rw [Bool.and_eq_true, bne_iff_ne, meetsRing_iff]

/-- What the answer of Set Journal gives as the next number (R166). -/
def State.journalNext (s : State) : Word :=
  match s.track.backlog with
  | e :: _ => wordOf e.seq
  | [] => sequenceWord s.track.nextSeq

section
variable {w : Nat → Word} {s : State}

/-- The three reasons for which Set Journal is refused (R166). -/
def State.journalRefused (s : State) (w : Nat → Word) : Prop :=
  journalWordsOk w = false ∨ s.journalMeets (joined (w 0) (w 1)) (w 2).toNat = true ∨ 0 < s.path.progress ∨
    s.journalWaits = true

theorem setJournal_refused (h : s.journalRefused w) : setJournal w s = .refused .badParameter [] := by
  unfold setJournal
  exact if_pos h

theorem setJournal_done (h : ¬s.journalRefused w) : setJournal w s =
    .done (s.setJournal (if (w 2).toNat = 0 then none else some { base := joined (w 0) (w 1), size := (w 2).toNat }))
      [s.journalNext, wordOf s.track.backlog.length] := by
  unfold setJournal
  exact if_neg h

end

theorem setJournal_eq (s : State) (j : Option JournalSetting) : s.setJournal j = { s with
    path.journal := j
    path.dirty := if s.path.journal = j then s.path.dirty
      else s.path.dirty.set journalGroup.val true journalGroup.isLt } := by
  unfold State.setJournal State.markIf
  by_cases h : s.path.journal = j
  · rw [if_neg (by simpa using h), if_pos h]
  · rw [if_pos (by simpa using h), if_neg h]
    rfl

/-- Settles O46: the judgement of Set Journal in its order, and its effect. -/
theorem setJournalReplacesTheSetting : Obligations.SetJournalReplacesTheSetting := by
  unfold Obligations.SetJournalReplacesTheSetting
  refine fun s k w base hw hb ht => ?_
  subst hw
  have words := journalWordsOk_iff hb
  have meets := journalMeets_iff (s.beginDirective k) base (s.param k 2).toNat
  have refused : (s.beginDirective k).journalRefused (s.param k) →
      Runs .setJournal s (s.beginDirective k) k (some .badParameter) [] := fun h =>
    runs_refused rfl ht (setJournal_refused h)
  have hj : joined (s.param k 0) (s.param k 1) = base := hb.symm
  unfold State.journalRefused at refused
  rw [hj, meets, ← Bool.not_eq_true, words] at refused
  refine ⟨fun h0 h => refused (.inl ?_), fun h0 h => refused (.inr (.inl ⟨h0, h⟩)), fun h => refused (.inr (.inr ?_)),
    fun j e hp hwait hcase he => ?_⟩
  · rintro (hz | ⟨⟨n, h4, h16, hn⟩, h1, hm, hle⟩)
    · exact h0 hz
    · rcases h with h | h | h | h
      · exact h n h4 h16 hn
      · omega
      · exact h hm
      · omega
  · exact h.imp_right (journalWaits_iff s).2
  · have taken : ¬(s.beginDirective k).journalRefused (s.param k) := by
      unfold State.journalRefused
      rw [hj, meets, ← Bool.not_eq_true, words]
      rintro (hn | hn | hn | hn)
      · rcases hcase with ⟨h0, -⟩ | ⟨-, hsize, hhigh, hm, hle, -⟩
        · exact hn (.inl h0)
        · exact hn (.inr ⟨hsize, hhigh, hm, hle⟩)
      · rcases hcase with ⟨h0, -⟩ | ⟨-, -, -, -, -, hfree, -⟩
        · exact hn.1 h0
        · exact hfree hn.2
      · exact absurd hp (Nat.ne_of_gt hn)
      · have none := journalWaits_false hwait
        exact absurd (none.symm.trans hn) (by decide)
    have setting : (if (s.param k 2).toNat = 0 then none
        else some ({ base := joined (s.param k 0) (s.param k 1), size := (s.param k 2).toNat } : JournalSetting)) = j := by
      rcases hcase with ⟨h0, rfl⟩ | ⟨h0, -, -, -, -, -, rfl⟩
      · exact if_pos h0
      · rw [hj]
        exact if_neg h0
    have done := setJournal_done taken
    rw [setting, setJournal_eq] at done
    subst he
    refine ⟨fun x rest hx => ?_, fun hnil => ?_⟩
    · have head : (s.beginDirective k).journalNext = wordOf x.seq := by
        unfold State.journalNext
        rw [show (s.beginDirective k).track.backlog = x :: rest from hx]
      rw [head] at done
      exact runs_done rfl ht (MarksKept.refl _) done
    · have head : (s.beginDirective k).journalNext = sequenceWord s.track.nextSeq := by
        unfold State.journalNext
        rw [show (s.beginDirective k).track.backlog = [] from hnil]
        rfl
      rw [head, show (s.beginDirective k).track.backlog = [] from hnil] at done
      exact runs_done rfl ht (MarksKept.refl _) done

/-! ## Acknowledge Events (R171) -/

theorem announceEmpty_iff (s : State) : s.announceEmpty = true ↔
    ∃ l : LineId, (s.line l).state = .tracking ∧ (s.line l).entryQueue = [] := by
  unfold State.announceEmpty
  simp [allLines, Fin.exists_fin_succ]
  rfl

/-- The tracking flags after the level flags a set names are judged (R171, R169). -/
def State.flagsRejudged (s : State) (set : Word) : Word :=
  s.track.trackingFlags |||
    ((if set &&& 0x4 ≠ 0 ∧ s.announceEmpty = true then 0x4 else 0) |||
      if set &&& 0x8 ≠ 0 ∧ 96 ≤ s.track.backlog.length then 0x8 else 0)

theorem word_or_zero (w : Word) : w ||| 0 = w := BitVec.or_zero

theorem or_ite (w bit : Word) (c : Prop) [Decidable c] : (if c then w ||| bit else w) = w ||| if c then bit else 0 := by
  by_cases h : c
  · rw [if_pos h, if_pos h]
  · rw [if_neg h, if_neg h, word_or_zero]

theorem MarksOnly.judgeBacklog (s : State) : MarksOnly (s.withFlags (s.track.trackingFlags |||
    if 96 ≤ s.track.backlog.length then 0x8 else 0)) s.judgeBacklog := by
  obtain ⟨d, hd, he⟩ := judgeBacklog_eq s
  rw [or_ite] at he
  rw [he]
  exact ⟨rfl, hd⟩

/-- The level flags that the set names are judged again. -/
theorem MarksOnly.rejudge (s : State) (set : Word) : MarksOnly (s.withFlags (s.flagsRejudged set)) (s.rejudge set) := by
  have first : MarksOnly (s.withFlags (s.track.trackingFlags |||
        if set &&& 0x4 ≠ 0 ∧ s.announceEmpty = true then 0x4 else 0))
      (if set &&& 0x4 ≠ 0 then s.judgeAnnounce else s) := by
    by_cases h : set &&& 0x4 ≠ 0
    · rw [if_pos h, if_congr (and_iff_right h) rfl rfl]
      have judged := MarksOnly.judgeAnnounce s
      unfold State.flagsJudged at judged
      rw [or_ite] at judged
      exact judged
    · rw [if_neg h, if_neg (not_and_of_not_left _ h), word_or_zero]
      exact MarksOnly.refl s
  unfold State.rejudge State.flagsRejudged
  dsimp only
  rw [show TrackFlag.announceEmpty.bit = 0x4 from rfl, show TrackFlag.backlogHigh.bit = 0x8 from rfl, ← BitVec.or_assoc]
  generalize (if set &&& 0x4 ≠ 0 then s.judgeAnnounce else s) = u at first ⊢
  have hb : u.track.backlog = s.track.backlog := by rw [first.1]
  have hf : u.track.trackingFlags = s.track.trackingFlags |||
      if set &&& 0x4 ≠ 0 ∧ s.announceEmpty = true then 0x4 else 0 := by rw [first.1]
  by_cases h : set &&& 0x8 ≠ 0
  · rw [if_pos h, if_congr (and_iff_right h) rfl rfl]
    have second := MarksOnly.judgeBacklog u
    rw [hb, hf] at second
    obtain ⟨hu, hm⟩ := first
    refine MarksOnly.trans ⟨?_, ?_⟩ second
    · rw [hu]
    · exact hm
  · rw [if_neg h, if_neg (not_and_of_not_left _ h), word_or_zero]
    exact first

theorem bit_named (set : Word) {bit : Word} {n : Nat} (hbit : bit = BitVec.twoPow 32 n) (hn : n < 32) :
    set &&& bit ≠ 0 ↔ set.getLsbD n = true := by
  rw [hbit, BitVec.and_twoPow]
  cases set.getLsbD n with
  | true =>
    simp only [if_true, iff_true, ne_eq]
    intro h
    have := congrArg (fun x : Word => x.getLsbD n) h
    simp [hn] at this
  | false => simp

theorem getLsbD_flag {bit : Word} {n : Nat} (hbit : bit = BitVec.twoPow 32 n) {c : Prop} [Decidable c] {j : Nat} (hj : j < 32) :
    (if c then bit else 0).getLsbD j = (j == n && decide c) := by
  by_cases hc : c
  · rw [if_pos hc, hbit, BitVec.getLsbD_twoPow]
    by_cases hn : n = j
    · simp [hc, hn, hj]
    · simp [hc, hn, Ne.symm hn]
  · simp [hc]

/-- The bits of the tracking flags after an Acknowledge Events (R171). -/
theorem getLsbD_acknowledged (s : State) (set : Word) {j : Nat} (hj : j < 32) :
    ((s.clearFlags set).flagsRejudged set).getLsbD j =
      (s.track.trackingFlags.getLsbD j && !set.getLsbD j ||
        (j == 2 && set.getLsbD 2 && decide (∃ l : LineId, (s.line l).state = .tracking ∧ (s.line l).entryQueue = [])) ||
        (j == 3 && set.getLsbD 3 && decide (96 ≤ s.track.backlog.length))) := by
  have empty : (s.clearFlags set).announceEmpty = true ↔
      ∃ l : LineId, (s.line l).state = .tracking ∧ (s.line l).entryQueue = [] := announceEmpty_iff (s.clearFlags set)
  unfold State.flagsRejudged
  show (s.track.trackingFlags &&& ~~~set ||| _).getLsbD j = _
  rw [BitVec.getLsbD_or, BitVec.getLsbD_or, BitVec.getLsbD_and, BitVec.getLsbD_not,
    getLsbD_flag (n := 2) (by decide) hj, getLsbD_flag (n := 3) (by decide) hj]
  simp only [bit_named set (bit := 0x4) (n := 2) (by decide) (by decide),
    bit_named set (bit := 0x8) (n := 3) (by decide) (by decide), empty, hj, decide_true, Bool.true_and, Bool.decide_and,
    Bool.decide_eq_true, Bool.or_assoc, Bool.and_assoc]
  rfl

theorem acknowledgeEvents_refused {w : Nat → Word} (s : State) (h : w 0 &&& ~~~flagBits ≠ 0) :
    acknowledgeEvents w s = .refused .badParameter [] := if_pos h

theorem acknowledgeEvents_done {w : Nat → Word} (s : State) (h : w 0 &&& ~~~flagBits = 0) :
    acknowledgeEvents w s = .done (((s.clearFlags (w 0)).rejudge (w 0)).mark 1) [s.flagSet] := if_neg (not_not.2 h)

/-- Settles O47: the flags named are cleared, and level flags judged again. -/
theorem acknowledgeClearsTheNamedFlags : Obligations.AcknowledgeClearsTheNamedFlags := by
  unfold Obligations.AcknowledgeClearsTheNamedFlags
  refine fun s k set hset ht => ?_
  subst hset
  refine ⟨fun h => runs_refused rfl ht (acknowledgeEvents_refused _ h), fun h => ?_⟩
  have judged := MarksOnly.rejudge ((s.beginDirective k).clearFlags (s.param k 0)) (s.param k 0)
  have done := acknowledgeEvents_done (s.beginDirective k) h
  exact ⟨_, runs_done_marked rfl ht judged done, rfl, fun j hj => getLsbD_acknowledged (s.beginDirective k) _ hj⟩

/-! ## Set Mirror Period (R176) -/

theorem exec_mirrorPeriodComplete {s : State} (h : s.Ready) : exec .mirrorPeriodComplete s = .next s.completePeriod :=
  afterTakes_ready (f := fun s => s.completePeriod) h

/-- Settles O49: the period is judged and replaced, and a completed period marks the lines' groups. -/
theorem setMirrorPeriodStartsTheCountAgain : Obligations.SetMirrorPeriodStartsTheCountAgain := by
  unfold Obligations.SetMirrorPeriodStartsTheCountAgain
  refine ⟨fun s k ht => ⟨fun h => runs_refused rfl ht (if_pos h), fun h =>
    runs_done (d := _) rfl ht (MarksKept.refl _) (if_neg (Nat.not_lt.2 h))⟩, fun s hs => ?_⟩
  rw [exec_mirrorPeriodComplete hs, completePeriod_eq]
  refine ⟨fun hp hc => ?_, fun h => ?_⟩
  · rw [if_pos ⟨hp, hc⟩, if_pos ⟨hp, hc⟩]
  · have not : ¬(0 < s.path.period ∧ s.path.period ≤ s.path.periodCount) := by omega
    rw [if_neg not, if_neg not]

end Sys2Proof.Machine
end

section
/-! PROOF. The directives that settle records: Clear Line by force (R54, R71; O33), Deactivate Station, and with it Activate
Station (R86, R87, R90; O43). -/

namespace Sys2Proof.Machine

/-! ## The state after a list of records has been settled (R70, R163) -/

theorem anomaly_congr {s t : State} (h : t.track = s.track) (c : AnomalyCode) (l : Option LineId) (p n : Option Nat) :
    (t.anomaly c l p n).track = (s.anomaly c l p n).track := by
  rw [State.anomaly_track t, State.anomaly_track s, (State.anomaly_rest t _ _ _ _).2.2.2.1,
    (State.anomaly_rest s _ _ _ _).2.2.2.1, h]

theorem backlogFull_congr {s t : State} (h : t.track = s.track) (rs : List Record) :
    (t.backlogFull rs).track = (s.backlogFull rs).track := by
  induction rs generalizing s t with
  | nil => exact h
  | cons r rest ih => exact ih (s := s.anomaly _ _ _ _) (t := t.anomaly _ _ _ _) (anomaly_congr h _ _ _ _)

theorem inOrder_congr {s t : State} (h : t.track = s.track) (p : Record → Bool) : t.inOrder p = s.inOrder p := by
  unfold State.inOrder State.find
  rw [h]

theorem settledEntries_map (g : Record → Record) (n : Nat) (time : Time) (rs : List Record) :
    settledEntries n time (rs.map g) =
      rs.mapIdx fun j r => { seq := n + j, settledAt := time, record := (g r).settled } := by
  refine List.ext_getElem? fun j => ?_
  unfold settledEntries
  rw [List.getElem?_mapIdx, List.getElem?_mapIdx, List.getElem?_map, Option.map_map]
  rfl

theorem TableFrame.settleAll (g : Record → Record) (s : State) (rs : List Record) : TableFrame s (s.settleAll g rs) :=
  foldl_frame TableFrame.refl TableFrame.trans (fun a (r : Record) => a.settleAs g r.serial)
    (fun a r => (TableFrame.modify a r.serial g).trans (TableFrame.settle _ r.serial)) rs s

/-- The tracking well after settlings, with the anomalies of those that found the backlog full. -/
def State.settledTrack (g : Record → Record) (s : State) (rs : List Record) : Tracking :=
  { s.track with
    table := { s.track.table with
      places := settledList (rs.map (·.serial)) (fun r => (g r).settled) s.track.table.places }
    nextSeq := s.track.nextSeq + rs.length
    backlog := s.track.backlog ++
      settledEntries s.track.nextSeq s.track.clock ((rs.take (128 - s.track.backlog.length)).map g)
    anomalies := (s.backlogFull (rs.drop (128 - s.track.backlog.length))).track.anomalies
    anomalyCount := (s.backlogFull (rs.drop (128 - s.track.backlog.length))).track.anomalyCount
    trackingFlags := (s.backlogFull (rs.drop (128 - s.track.backlog.length))).track.trackingFlags |||
      (if rs = [] then 0 else 0x2) |||
      (if rs ≠ [] ∧ s.track.backlog.length < 128 ∧ 96 ≤ s.track.backlog.length + rs.length then 0x8 else 0) }

theorem settledTrack_congr {s t : State} (h : t.track = s.track) (g : Record → Record) (rs : List Record) :
    t.settledTrack g rs = s.settledTrack g rs := by
  unfold State.settledTrack
  simp only [backlogFull_congr h, h]

/-- Settling a list of records changes the tracking well and dirty marks (R70, R163). -/
theorem settleAll_eq {g : Record → Record} (hg : Record.Stays g) {s : State} {rs : List Record} (h : s.Present rs) :
    ∃ d, MarksKept s.path.dirty d ∧
      s.settleAll g rs = { s with track := s.settledTrack g rs, path := { s.path with dirty := d } } := by
  obtain ⟨t1, t2⟩ := settleAll_table hg h
  obtain ⟨t3, ⟨l1, l2, -⟩, t5⟩ := settleAll_track hg rs h
  have flags := t5.trans (settleFlags_split _ (rs = []) _ _)
  rw [← backlogFull_flags] at flags
  obtain ⟨⟨tb, ns, bl, an, ac, tf, d, hshape⟩, hk⟩ := TableFrame.settleAll g s rs
  have marks := hk.marks
  rw [hshape] at marks t1 t2 t3 l1 l2 flags ⊢
  refine ⟨d, marks, ?_⟩
  have track : ({ s.track with table := tb, nextSeq := ns, backlog := bl, anomalies := an, anomalyCount := ac, trackingFlags := tf } :
      Tracking) = s.settledTrack g rs :=
    Tracking.mk.injEq .. ▸ ⟨rfl, rfl, t1, t2, t3, l1, l2, flags, rfl, rfl⟩
  rw [← track]
  rfl

/-- The places after the records that a test chooses have been settled. -/
theorem settledList_inOrder {s : State} (h : s.SerialsNodup) (p : Record → Bool) (f : Record → Record) :
    settledList ((s.inOrder p).map (·.serial)) f s.track.table.places =
      s.track.table.places.map fun e => if p e.2 = true then (e.1, f e.2) else e := by
  unfold settledList
  refine List.map_congr_left fun e he => ?_
  have hr : e.2 ∈ s.track.table.records := List.mem_map.2 ⟨e, he, rfl⟩
  have hiff : e.2.serial ∈ (s.inOrder p).map (·.serial) ↔ p e.2 = true := by
    rw [List.mem_map]
    constructor
    · rintro ⟨x, hx, hser⟩
      obtain ⟨hxr, hp⟩ := (mem_inOrder h p).1 hx
      have hf := find_of_mem h hxr
      rw [hser, find_of_mem h hr] at hf
      cases hf
      exact hp
    · exact fun hp => ⟨e.2, (mem_inOrder h p).2 ⟨hr, hp⟩, rfl⟩
  by_cases hp : p e.2 = true
  · rw [if_pos (hiff.2 hp), if_pos hp]
  · rw [if_neg (mt hiff.1 hp), if_neg hp]

/-- A directive that is taken and done, with its effect as it stands. -/
theorem runs_done_exactly {i : Instr} {code : BitVec 8} {f : (Nat → Word) → State → DirOutcome}
    (h : directiveOf i = some (code, f)) {s : State} {k : Fin 16} (ht : s.Takes k code) {e : State} {a : List Word}
    (hf : f (s.param k) (s.beginDirective k) = .done e a) : Runs i s e k none a :=
  runs_done_up_to_marks h ht rfl (MarksKept.refl _) hf

/-! ## Deactivate Station (R90, R69) -/

/-- The state in which a LIVE station has left the wait list and become OFF. -/
def State.liveEnded (s : State) (i : Fin 8) : State :=
  { s with
    path.stations := s.path.stations.set i.val { s.station i with state := .off } i.isLt
    path.waitList := s.path.waitList.filter fun w => w != Waiter.sealing i }

/-- Deactivating a LIVE station settles the records that were due there (R69, R70). -/
theorem stopLive_eq {s : State} {i : Fin 8} (h : s.SerialsNodup) :
    ∃ d : Vector Bool 39, MarksKept s.path.dirty d ∧ d[stationGroup i] = true ∧ s.stopLive i = { s.liveEnded i with
      track := s.settledTrack id (s.dueAt i), path := { (s.liveEnded i).path with dirty := d } } := by
  have begun := setStation_eq { s with path.waitList := s.path.waitList.filter fun w => w != Waiter.sealing i } i
    { s.station i with state := .off }
  unfold State.stopLive
  generalize State.setStation _ i _ = u at begun ⊢
  obtain ⟨hu, hm⟩ := begun
  have ht : (u.mark (stationGroup i)).track = s.track := by rw [hu]; rfl
  have hoff : ((u.mark (stationGroup i)).station i).live? = none := by
    rw [hu]
    exact congrArg Station.live? (station_withStation { s with path.waitList := _ } i { s.station i with state := .off })
  have hs : (u.mark (stationGroup i)).SerialsNodup := by
    unfold State.SerialsNodup
    rw [ht]
    exact h
  obtain ⟨d, hd, he⟩ := settleAll_eq stays_id (dueAt_present hs i)
  rw [settleStation_settleAll hoff hs, he, settledTrack_congr ht,
    show (u.mark (stationGroup i)).dueAt i = s.dueAt i from inOrder_congr ht _]
  refine ⟨d, fun j hj => hd j (MarksKept.set _ _ (stationGroup i).isLt j (hm j hj)), hd _ ?_, ?_⟩
  · show (u.path.dirty.set (stationGroup i).val true (stationGroup i).isLt)[(stationGroup i).val] = true
    rw [Vector.getElem_set_self]
  · rw [hu]
    rfl

/-- The tracking well after the records due at station i have settled, as R90 has it. -/
theorem settledTrack_dueAt {s : State} (h : s.SerialsNodup) (i : Fin 8) {full : State}
    (hf : full = s.backlogFull ((s.dueAt i).drop (128 - s.track.backlog.length))) : s.settledTrack id (s.dueAt i) =
      { s.track with
        table := { s.track.table with places := settledAtStation i s.track.table.places }
        nextSeq := s.track.nextSeq + (s.dueAt i).length
        backlog := s.track.backlog ++ ((s.dueAt i).take (128 - s.track.backlog.length)).mapIdx fun j r =>
          { seq := s.track.nextSeq + j, settledAt := s.track.clock, record := { r with state := .settled } }
        anomalies := full.track.anomalies, anomalyCount := full.track.anomalyCount
        trackingFlags := full.track.trackingFlags ||| (if s.dueAt i = [] then 0 else 0x2) |||
          (if s.dueAt i ≠ [] ∧ s.track.backlog.length < 128 ∧ 96 ≤ s.track.backlog.length + (s.dueAt i).length then 0x8
            else 0) } := by
  have table := settledList_inOrder h (fun r => decide (r.DueAt i)) Record.settled
  simp only [decide_eq_true_eq] at table
  subst hf
  unfold State.settledTrack
  rw [List.map_id]
  exact Tracking.mk.injEq .. ▸
    ⟨rfl, rfl, congrArg (fun p => { s.track.table with places := p }) table, rfl, rfl, rfl, rfl, rfl, rfl, rfl⟩

theorem deactivateStation_none {w : Nat → Word} (s : State) (h : 8 ≤ (w 0).toNat) :
    deactivateStation w s = .refused .badParameter [] := by
  unfold deactivateStation
  rw [eightOf_none h]

section
variable {w : Nat → Word} {s : State} {i : Fin 8}

theorem deactivateStation_off (h : (w 0).toNat = i.val) (hst : (s.station i).state = .off) :
    deactivateStation w s = .refused .wrongState [] := by
  unfold deactivateStation
  rw [eightOf_some h]
  dsimp only
  rw [hst]

theorem deactivateStation_preparing (h : (w 0).toNat = i.val) {p : Nat} (hst : (s.station i).state = .preparing p) :
    deactivateStation w s = .done (s.stopPreparing i) [0] := by
  unfold deactivateStation
  rw [eightOf_some h]
  dsimp only
  rw [hst]

theorem deactivateStation_live (h : (w 0).toNat = i.val) {d : LiveData} (hst : (s.station i).state = .live d) :
    deactivateStation w s = .done (s.stopLive i) [wordOf d.bins.length] := by
  unfold deactivateStation
  rw [eightOf_some h]
  dsimp only
  rw [hst]

end

/-! ## Activate Station (R86, R87) -/

theorem highestDue_eq {d : StationDef} {reference : Nat} {S : Int} (hlow : reference < d.settle + d.binLength → S = -1)
    (hhigh : d.settle + d.binLength ≤ reference → S = ((reference - d.settle) / d.binLength : Nat) - 1) :
    highestDue d reference = S := by
  unfold highestDue
  by_cases h : reference < d.settle + d.binLength
  · rw [hlow h]
    by_cases hs : reference < d.settle
    · rw [if_pos hs]
    · rw [if_neg hs, Nat.div_eq_of_lt (by omega)]
      rfl
  · rw [hhigh (Nat.not_lt.1 h), if_neg (by omega)]

theorem activateStation_bad {w : Nat → Word} (s : State) (h : 8 ≤ (w 0).toNat ∨ 1 < (w 1).toNat) :
    activateStation w s = .refused .badParameter [] := by
  unfold activateStation
  split
  · rfl
  · rename_i i hi
    rcases h with h | h
    · rw [eightOf_none h] at hi
      cases hi
    · exact if_pos h

/-- The incarnation of a station rises by one (R86). -/
def State.incarnate (s : State) (i : Fin 8) : State :=
  s.setStation i { s.station i with incarnation := (s.station i).incarnation + 1 }

theorem activateStation_of {w : Nat → Word} {s : State} {i : Fin 8} (h : (w 0).toNat = i.val) (h1 : (w 1).toNat ≤ 1) :
    activateStation w s =
      if (s.station i).defn = none ∨ (s.station i).state ≠ .off then .refused .wrongState []
      else .done (if (w 1).toNat = 0 then (s.incarnate i).beginPreparation i else (s.incarnate i).enterLive i)
        [(s.station i).incarnation + 1] := by
  unfold activateStation
  rw [eightOf_some h]
  exact if_neg (Nat.not_lt.2 h1)

/-- A state whose station i is replaced, up to dirty marks that are kept with the station's group set. -/
def StationSet (s : State) (i : Fin 8) (st : Station) (u : State) : Prop :=
  u = { s with path.stations := s.path.stations.set i.val st i.isLt, path.dirty := u.path.dirty } ∧
    MarksKept (s.path.dirty.set (stationGroup i).val true (stationGroup i).isLt) u.path.dirty

theorem stationSet_changed {s : State} {i : Fin 8} {st : Station} (h : (s.station i).content ≠ st.content) :
    StationSet s i st (s.setStation i st) := by
  rw [setStation_changed h]
  exact ⟨rfl, MarksKept.refl _⟩

/-- A station replaced once more: the last value stands. -/
theorem StationSet.again {s u : State} {i : Fin 8} {st : Station} (h : StationSet s i st u) (st' : Station) :
    StationSet s i st' (u.setStation i st') := by
  obtain ⟨hu, hm⟩ := h
  obtain ⟨he, hd⟩ := setStation_eq u i st'
  refine ⟨?_, fun j hj => hd j (hm j hj)⟩
  rw [hu] at he
  rw [hu]
  refine he.trans ?_
  simp only [Vector.set_set]

theorem StationSet.station {s u : State} {i : Fin 8} {st : Station} (h : StationSet s i st u) : u.station i = st := by
  obtain ⟨hu, -⟩ := h
  rw [hu]
  exact station_withStation s i st

theorem StationSet.queued {s u : State} {i : Fin 8} {st : Station} (h : StationSet s i st u) (q : List (Fin 8)) :
    StationSet { s with path.prepQueue := q } i st { u with path.prepQueue := q } := by
  obtain ⟨hu, hm⟩ := h
  refine ⟨?_, hm⟩
  rw [hu]

/-- The incarnation rises: a change that marks the station's group (R80). -/
theorem content_incarnation (st : Station) : st.content ≠ Station.content { st with incarnation := st.incarnation + 1 } := by
  have key : st.incarnation ≠ st.incarnation + 1 := by
    intro h
    have := congrArg (· - st.incarnation) h
    simp at this
  obtain ⟨defn, chain, state, inc, disc⟩ := st
  intro h
  cases state <;> exact key (congrArg StationContent.incarnation h)

theorem runs_stationSet {i : Instr} {code : BitVec 8} {f : (Nat → Word) → State → DirOutcome}
    (h : directiveOf i = some (code, f)) {s : State} {k : Fin 16} (ht : s.Takes k code) {e u : State} {j : Fin 8} {st : Station}
    {a : List Word} (hu : StationSet e j st u) (hf : f (s.param k) (s.beginDirective k) = .done u a) :
    Runs i s ((e.withStation j st).mark (stationGroup j)) k none a := by
  obtain ⟨hu, hm⟩ := hu
  exact runs_done_up_to_marks h ht hu hm hf

/-- Settles O43: what activation and deactivation make of the station, and what deactivation settles. -/
theorem activateAndDeactivateMoveTheStation : Obligations.ActivateAndDeactivateMoveTheStation := by
  unfold Obligations.ActivateAndDeactivateMoveTheStation
  refine fun s k => ⟨fun ht => ⟨fun h => runs_refused rfl ht (activateStation_bad _ h), fun i h0 h1 => ?activate⟩,
    fun ht => ⟨fun h => runs_refused rfl ht (deactivateStation_none _ h), fun i h0 =>
      ⟨fun hst => runs_refused rfl ht (deactivateStation_off (s := s.beginDirective k) h0 hst), fun p hp => ?preparing,
        fun d hd hser => ?live⟩⟩⟩
  case activate =>
    have judged := activateStation_of (s := s.beginDirective k) h0 h1
    have raised : StationSet (s.beginDirective k) i
        { s.station i with incarnation := (s.station i).incarnation + 1 } ((s.beginDirective k).incarnate i) :=
      stationSet_changed (content_incarnation _)
    refine ⟨fun hst => runs_refused rfl ht (judged.trans (if_pos hst)), fun d hd hst => ?_⟩
    have taken : ¬((s.station i).defn = none ∨ (s.station i).state ≠ .off) := by
      rw [hd, hst]
      simp
    replace judged := judged.trans (if_neg taken)
    have now := raised.station
    generalize (s.beginDirective k).incarnate i = u at raised now judged
    refine ⟨fun hw => ?_, fun S hw hlow hhigh => ?_⟩
    · have queue : u.path.prepQueue = s.path.prepQueue := by
        rw [raised.1]
        rfl
      have joined := (raised.queued (s.path.prepQueue ++ [i])).again { u.station i with state := .preparing 0 }
      rw [now] at joined
      refine runs_stationSet rfl ht joined (judged.trans ?_)
      rw [if_pos hw]
      unfold State.beginPreparation
      rw [queue]
      show DirOutcome.done (State.setStation _ i { u.station i with state := .preparing 0 }) _ = _
      rw [now]
      rfl
    · have entered := raised.again { u.station i with
        state := .live { sealedBin := S, highest := S, bins := [], paused := false } }
      rw [now] at entered
      refine runs_stationSet rfl ht entered (judged.trans ?_)
      have line : u.reference i = s.reference i := by
        unfold State.reference State.line
        rw [raised.1]
        rfl
      have def? : (u.station i).d = d := by
        rw [now]
        exact Station.d_of_defn hd
      have due : enteringSealed (u.station i).d (u.reference i) = S := by
        rw [line, def?]
        exact highestDue_eq hlow hhigh
      rw [if_neg (by omega)]
      unfold State.enterLive State.setLive
      dsimp only
      rw [due, now]
      rfl
  case preparing =>
    have stopped := setStation_eq { s.beginDirective k with path.prepQueue := s.path.prepQueue.filter fun j => j != i } i
      { s.station i with state := .off }
    exact runs_done_marked rfl ht stopped (deactivateStation_preparing (s := s.beginDirective k) h0 hp)
  case live =>
    have hnd : s.SerialsNodup := hser.1
    obtain ⟨m, hm, hg, he⟩ := stopLive_eq (s := s.beginDirective k) (i := i) hnd
    have done := deactivateStation_live (s := s.beginDirective k) h0 hd
    have pairwise := inOrder_pairwise hnd fun r => decide (r.DueAt i)
    have perm := inOrder_perm hnd fun r => decide (r.DueAt i)
    have result := runs_done_exactly (i := .deactivateStation) rfl ht done
    refine ⟨(s.beginDirective k).stopLive i, s.dueAt i, result, ?_, pairwise, perm, fun full hfull => ?_⟩
    · rw [he]
      exact hg
    · have track := settledTrack_dueAt hnd i hfull
      rw [he]
      rw [settledTrack_congr (s := s) (t := s.beginDirective k) rfl, show (s.beginDirective k).dueAt i = s.dueAt i from rfl, track]
      rfl

/-! ## Clear Line (R54, R71) -/

/-- A record that Clear Line settles by force (R54). -/
abbrev Record.Cleared (l : LineId) (r : Record) : Prop :=
  r.line = l ∧ (r.state = .loading ∨ r.state = .closed ∨ r.state = .winding)

/-- The records that Clear Line settles by force, in increasing serial order (R54). -/
def State.clearedRecords (s : State) (l : LineId) : List Record := s.inOrder fun r => decide (r.Cleared l)

theorem force_stays : Record.Stays Record.force := fun _ => ⟨rfl, rfl⟩

theorem clearable_eq {s : State} (h : s.SerialsNodup) (l : LineId) :
    s.clearable l = (s.clearedRecords l).map (·.serial) := by
  have same : (fun r : Record => decide (r.line = l) && (r.state == .loading || r.state == .closed || r.state == .winding)) =
      fun r => decide (r.Cleared l) := by
    funext r
    rw [Bool.eq_iff_iff]
    simp only [Bool.and_eq_true, Bool.or_eq_true, beq_iff_eq, decide_eq_true_eq, or_assoc]
  unfold State.clearable State.clearedRecords
  rw [same, inOrder_serials h]

theorem clearLine_none {w : Nat → Word} (s : State) (h : 4 ≤ (w 0).toNat) : clearLine w s = .refused .badParameter [] := by
  unfold clearLine
  rw [lineOf_none h]

theorem clearLine_wrong {w : Nat → Word} {s : State} {l : LineId} (h : (w 0).toNat = l.val)
    (hst : (s.line l).state ≠ .standby) : clearLine w s = .refused .wrongState [] := by
  unfold clearLine
  rw [lineOf_some h]
  exact if_pos hst

/-- The state in which the line's records have been settled by force. -/
def State.lineSettled (s : State) (l : LineId) : State := s.settleAll Record.force (s.clearedRecords l)

/-- The state after Clear Line (R54). -/
def State.lineCleared (s : State) (l : LineId) : State :=
  ((s.lineSettled l).setLine l ((s.lineSettled l).line l).cleared).judgeAnnounce

theorem clearLine_done {w : Nat → Word} {s : State} {l : LineId} (h : (w 0).toNat = l.val)
    (hst : (s.line l).state = .standby) (hs : s.SerialsNodup) : clearLine w s =
      .done (s.lineCleared l)
        [wordOf (s.clearedRecords l).length, wordOf (s.line l).entryQueue.length, wordOf (s.line l).exitQueue.length] := by
  have folded : (s.clearable l).foldl (fun acc n => acc.forceSettle n) s = s.lineSettled l := by
    rw [clearable_eq hs, List.foldl_map]
    rfl
  unfold clearLine
  rw [lineOf_some h]
  dsimp only
  rw [if_neg (not_not.2 hst), folded, clearable_eq hs, List.length_map]
  rfl

/-- The tracking well after Clear Line, before ANNOUNCE_EMPTY is judged. -/
def State.clearedTrack (s : State) (l : LineId) : Tracking :=
  { s.settledTrack Record.force (s.clearedRecords l) with lines := s.track.lines.set l.val (s.line l).cleared l.isLt }

/-- Clear Line changes the tracking well and dirty marks. -/
theorem clearLine_marksOnly {s : State} (hs : s.SerialsNodup) (l : LineId) {e : State}
    (he : e = { s with track := s.clearedTrack l }) :
    MarksOnly (e.withFlags e.flagsJudged) (s.lineCleared l) := by
  obtain ⟨d, hd, heq⟩ := settleAll_eq force_stays (inOrder_present hs fun r => decide (r.Cleared l))
  have line : (s.lineSettled l).line l = s.line l := (TableFrame.settleAll Record.force s (s.clearedRecords l)).line l
  unfold State.lineCleared
  rw [line]
  have set := MarksOnly.setLine (s.lineSettled l) l (s.line l).cleared
  have first : MarksOnly e ((s.lineSettled l).withLine l (s.line l).cleared) := by
    unfold State.lineSettled State.clearedRecords
    rw [he, heq]
    exact ⟨rfl, hd⟩
  exact (first.trans set).withFlagsJudged.trans (.judgeAnnounce _)

/-- With the line in STANDBY, the other lines alone say whether ANNOUNCE_EMPTY is set. -/
theorem announceEmpty_withLine {s : State} {l : LineId} {ln : Line} (hs : (s.line l).state = .standby)
    (hn : ln.state = .standby) : (s.withLine l ln).announceEmpty = true ↔
      ∃ j, (s.line j).state = .tracking ∧ (s.line j).entryQueue = [] := by
  rw [announceEmpty_iff]
  refine exists_congr fun j => ?_
  by_cases hj : j = l
  · subst hj
    rw [line_withLine, hs, hn]
    simp
  · rw [line_withLine_ne s ln hj]

/-- What Clear Line leaves of a line in STANDBY. -/
theorem lineCleared_eq {s : State} (hs : s.SerialsNodup) {l : LineId} (hst : (s.line l).state = .standby) :
    ∃ d, s.lineCleared l = { s with
      track := { s.clearedTrack l with
        trackingFlags := (s.clearedTrack l).trackingFlags |||
          if ∃ j, (s.line j).state = .tracking ∧ (s.line j).entryQueue = [] then 0x4 else 0 }
      path := { s.path with dirty := d } } := by
  obtain ⟨he, -⟩ := clearLine_marksOnly hs l rfl
  refine ⟨(s.lineCleared l).path.dirty, ?_⟩
  have judged : ({ s with track := s.clearedTrack l } : State).flagsJudged = (s.clearedTrack l).trackingFlags |||
      if ∃ j, (s.line j).state = .tracking ∧ (s.line j).entryQueue = [] then 0x4 else 0 := by
    unfold State.flagsJudged
    rw [or_ite]
    refine congrArg _ (if_congr ?_ rfl rfl)
    exact announceEmpty_withLine (ln := (s.line l).cleared) hst hst
  rw [judged] at he
  exact he

/-- Settles O33: the records settle by force in serial order, and the line is emptied. -/
theorem clearLineSettlesByForceAndEmpties : Obligations.ClearLineSettlesByForceAndEmpties := by
  unfold Obligations.ClearLineSettlesByForceAndEmpties
  refine fun s k ht => ⟨fun h => runs_refused rfl ht (clearLine_none _ h), fun l hl =>
    ⟨fun hst => runs_refused rfl ht (clearLine_wrong (s := s.beginDirective k) hl hst), fun n hst hser hn => ?_⟩⟩
  have hnd : s.SerialsNodup := hser.1
  have pairwise := inOrder_pairwise hnd fun r => decide (r.Cleared l)
  have perm := inOrder_perm hnd fun r => decide (r.Cleared l)
  have length : (s.clearedRecords l).length = n := perm.length_eq.trans hn.symm
  have table := settledList_inOrder hnd (fun r => decide (r.Cleared l)) fun r => r.force.settled
  simp only [decide_eq_true_eq] at table
  have done := clearLine_done (s := s.beginDirective k) hl hst hnd
  have result := runs_done_exactly (i := .clearLine) rfl ht done
  obtain ⟨d, he⟩ := lineCleared_eq (s := s.beginDirective k) hnd hst
  have track : (s.beginDirective k).clearedTrack l = s.clearedTrack l :=
    congrArg (fun t : Tracking => { t with lines := s.track.lines.set l.val (s.line l).cleared l.isLt })
      (settledTrack_congr (s := s) (t := s.beginDirective k) rfl Record.force (s.clearedRecords l))
  rw [track] at he
  generalize (s.beginDirective k).lineCleared l = e at he result
  refine ⟨e, ?_, ?_, fun j hj => ?_, ?_, ?_, ?_, ?_, s.clearedRecords l, pairwise, perm, ?_, ?_⟩
  · rw [← length]
    exact result
  all_goals rw [he]
  · exact line_withLine s l _
  · exact line_withLine_ne s _ hj
  · exact congrArg (fun p => { s.track.table with places := p }) table
  · rw [← length]
    rfl
  · rfl
  · show s.track.backlog ++ settledEntries _ _ _ = _
    exact congrArg (s.track.backlog ++ ·) (settledEntries_map _ _ _ _)
  · rintro full rfl
    exact ⟨rfl, rfl, rfl⟩

end Sys2Proof.Machine
end

section
/-! PROOF. Name Record (R72, R65, R66; O38) and Descend with its scan (R76 to R78; O40). -/

namespace Sys2Proof.Machine

/-! ## Records changed in their places, and the identity map (R64, R65) -/

theorem mapSerial_ite (n : Nat) (f : Record → Record) (places : List (Nat × Record)) :
    mapSerial n f places = places.map fun e => if e.2.serial = n then (e.1, f e.2) else e := by
  unfold mapSerial
  refine List.map_congr_left fun e _ => ?_
  by_cases h : e.2.serial = n
  · rw [if_pos h, if_pos h]
  · rw [if_neg h, if_neg h]

/-- Two changes of the records with one serial are one change. -/
theorem modify_modify (s : State) (n : Nat) {f g : Record → Record} (hf : ∀ r, (f r).serial = r.serial) :
    (s.modify n f).modify n g = s.modify n (g ∘ f) := by
  have places : mapSerial n g (mapSerial n f s.track.table.places) = mapSerial n (g ∘ f) s.track.table.places := by
    unfold mapSerial
    rw [List.map_map]
    refine List.map_congr_left fun e _ => ?_
    by_cases h : e.2.serial = n
    · simp [h, hf]
    · simp [h]
  rw [State.modify_eq s n f, State.modify_eq s n (g ∘ f), State.modify_eq]
  exact congrArg (fun p => { s with track.table.places := p }) places

/-- The identity map is written, unless a serial as great stands there (R65). -/
theorem mapWrite_kept {s : State} {number : Word} {serial held : Nat} (h : s.lookupNumber number = some held)
    (hle : serial ≤ held) : s.mapWrite number serial = s ∧ s.mapWrites number serial = false := by
  unfold State.mapWrite State.mapWrites
  rw [h]
  exact ⟨if_neg (Nat.not_lt.2 hle), decide_eq_false (Nat.not_lt.2 hle)⟩

theorem mapWrite_set {s : State} {number : Word} {serial : Nat}
    (h : ∀ held, s.lookupNumber number = some held → held < serial) :
    s.mapWrite number serial = s.mapSet number serial ∧ s.mapWrites number serial = true := by
  unfold State.mapWrite State.mapWrites
  cases hl : s.lookupNumber number with
  | none => exact ⟨rfl, rfl⟩
  | some held => exact ⟨if_pos (h held hl), decide_eq_true (h held hl)⟩

/-! ## Name Record (R72) -/

theorem nameRecord_notFound {w : Nat → Word} {s : State} (h : s.find (w 0).toNat = none) :
    nameRecord w s = .refused .notFound [] := by
  unfold nameRecord
  rw [h]

section
variable {w : Nat → Word} {s : State} {r : Record}

theorem nameRecord_identified (h : s.find (w 0).toNat = some r) (hi : r.identity ≠ none) :
    nameRecord w s = .refused .wrongState [] := by
  unfold nameRecord
  rw [h]
  exact if_pos (Option.isSome_iff_ne_none.2 hi)

theorem nameRecord_entry (h : s.find (w 0).toNat = some r) (hi : r.identity = none) (hk : r.kind = .entry) :
    nameRecord w s = .done ((s.modify r.serial fun x => x.named (w 1)).sourceLookup r.serial)
      [wordOf ((s.lookupNumber (w 1)).getD 0), 0] := by
  unfold nameRecord
  rw [h]
  dsimp only
  rw [hi, hk]
  rfl

theorem nameRecord_exit (h : s.find (w 0).toNat = some r) (hi : r.identity = none) (hk : r.kind = .exit) :
    nameRecord w s = if r.state = .cut ∨ r.state = .settled then
        .done ((s.modify r.serial fun x => x.named (w 1)).mapWrite (w 1) r.serial)
          [0, if s.mapWrites (w 1) r.serial then 1 else 0]
      else .done (s.modify r.serial fun x => x.named (w 1)) [0, 0] := by
  unfold nameRecord
  rw [h]
  dsimp only
  rw [hi, hk]
  rfl

end

/-- The record just named takes the source that the identity map holds for its number (R66). -/
theorem sourceLookup_named {s : State} {r : Record} {n : Nat} {number : Word} (h : s.find n = some r) :
    (s.modify n fun x => x.named number).sourceLookup n =
      s.modify n fun x => { x.named number with source := (s.lookupNumber number).elim x.source some } := by
  have found := State.find_modify_self h (fun x => x.named number) fun _ => rfl
  have held : (s.modify n fun x => x.named number).lookupNumber number = s.lookupNumber number := by
    rw [State.modify_eq]
    rfl
  unfold State.sourceLookup
  rw [found]
  show (match (s.modify n fun x => x.named number).lookupNumber number with
    | none => s.modify n fun x => x.named number
    | some m => (s.modify n fun x => x.named number).modify n fun x => x.withSource m) = _
  rw [held]
  cases s.lookupNumber number with
  | none => rfl
  | some m => exact modify_modify s n fun _ => rfl

/-- The records with serial n changed, as the statements write it. -/
theorem modify_ite (s : State) (n : Nat) (f : Record → Record) : s.modify n f = { s with
    track.table.places := s.track.table.places.map fun e => if e.2.serial = n then (e.1, f e.2) else e } := by
  rw [State.modify_eq, mapSerial_ite]

/-- Settles O38: the identity, and with it the source or the map. -/
theorem nameRecordGivesAnIdentity : Obligations.NameRecordGivesAnIdentity := by
  unfold Obligations.NameRecordGivesAnIdentity
  refine fun s k ht => ⟨fun h => runs_refused rfl ht (nameRecord_notFound (s := s.beginDirective k) h), fun r hr =>
    ⟨fun hi => runs_refused rfl ht (nameRecord_identified (s := s.beginDirective k) hr hi), fun hi hk held hheld => ?entry,
      fun hi hk u hu => ?exit⟩⟩
  have hser : (s.param k 0).toNat = r.serial := (CoilTable.find_some hr).1.symm
  case entry =>
    subst hheld
    have done := nameRecord_entry (s := s.beginDirective k) hr hi hk
    have found : (s.beginDirective k).find r.serial = some r := hser ▸ hr
    rw [sourceLookup_named found, modify_ite] at done
    exact runs_done_exactly (i := .nameRecord) rfl ht done
  case exit =>
    have done := nameRecord_exit (s := s.beginDirective k) hr hi hk
    have named : (s.beginDirective k).modify r.serial (fun x => x.named (s.param k 1)) = u := by
      rw [hu]
      exact modify_ite _ _ _
    have held : u.lookupNumber (s.param k 1) = s.lookupNumber (s.param k 1) := by rw [hu]; rfl
    rw [named] at done
    refine ⟨fun hc hst => runs_done_exactly (i := .nameRecord) rfl ht (done.trans (if_neg ?_)), fun hst =>
      ⟨fun m hm hle => ?_, fun hlt => ?_⟩⟩
    · rintro (h | h)
      · exact hc h
      · exact hst h
    · rw [if_pos hst, (mapWrite_kept (s := u) (held.trans hm) hle).1,
        (mapWrite_kept (s := s.beginDirective k) hm hle).2] at done
      exact runs_done_exactly (i := .nameRecord) rfl ht done
    · rw [if_pos hst, (mapWrite_set (s := u) (fun m hm => hlt m (held.symm.trans hm))).1,
        (mapWrite_set (s := s.beginDirective k) hlt).2] at done
      have map : u.track.table.idMap = s.track.table.idMap := by rw [hu]; rfl
      unfold State.mapSet at done
      rw [map] at done
      exact runs_done_exactly (i := .nameRecord) rfl ht done

/-! ## Descend (R76 to R78) -/

theorem takeDescend_of {s : State} {k : Fin 16} (h : s.Takes k 0x23) :
    s.takeDescend = (s.beginDirective k).beginDescend k := by
  unfold State.takeDescend
  rw [h.head]
  exact if_pos h.2.2.2.2

theorem beginDirective_word (s : State) (k : Fin 16) (i : Nat) : ((s.beginDirective k).slot k).word i = s.param k i := by
  have slot : (s.beginDirective k).slot k = { s.slot k with state := .running } := by
    rw [show (s.beginDirective k).slot k = (s.setSlot k { s.slot k with state := .running }).slot k from rfl,
      State.slot_setSlot, if_pos rfl]
  rw [slot]
  rfl

/-- The scan of a Descend begins (R76). -/
theorem beginDescend_found {s : State} {k : Fin 16} {r : Record} (h : s.find (s.param k 0).toNat = some r) :
    (s.beginDirective k).beginDescend k = (s.beginDirective k).setUnit (.scanning k r.serial r.kind 0 []) := by
  unfold State.beginDescend
  rw [beginDirective_word, show (s.beginDirective k).find (s.param k 0).toNat = some r from h]

theorem beginDescend_notFound {s : State} {k : Fin 16} (h : s.find (s.param k 0).toNat = none) :
    (s.beginDirective k).beginDescend k = (s.beginDirective k).finish k (.refused .notFound []) := by
  unfold State.beginDescend
  rw [beginDirective_word, show (s.beginDirective k).find (s.param k 0).toNat = none from h]

theorem takeDescend_other {s : State} (hp : s.powered = true) (h : ∀ k, ¬s.Takes k 0x23) : s.takeDescend = s := by
  unfold State.takeDescend
  split
  · rfl
  · rename_i k hk
    refine if_neg fun hc => h k ?_
    rw [← hc]
    exact takes_of_headSlot hp hk

theorem exec_descendScanVisit {s : State} (h : s.Ready) : exec .descendScanVisit s = .next s.scanVisit :=
  afterTakes_ready (f := fun s => s.scanVisit) h

/-- The child that a record is (R77). -/
def Record.asChild (r : Record) : Child := { serial := r.serial, number := r.identity, kind := r.kind, line := r.line }

theorem childAt_eq (s : State) (place target : Nat) (kind : Kind) : s.childAt place target kind =
    ((tableGet place s.track.table.places).filter fun r => r.childOf target kind).map Record.asChild := by
  unfold State.childAt
  cases tableGet place s.track.table.places with
  | none => rfl
  | some r =>
    by_cases h : r.childOf target kind = true
    · simp [h, Record.asChild]
    · simp [h]

/-- One visit of a scan (R77). -/
theorem scanVisit_of {s : State} {k : Fin 16} {target place : Nat} {kind : Kind} {children : List Child}
    (h : s.path.directiveUnit = .scanning k target kind place children) : s.scanVisit =
      if (s.childAt place target kind).isSome = true ∧ 24 ≤ children.length then s.completeDescend k target children true
      else if 8192 ≤ place + 1 then
        s.completeDescend k target (children ++ (s.childAt place target kind).toList) false
      else s.setUnit (.scanning k target kind (place + 1) (children ++ (s.childAt place target kind).toList)) := by
  unfold State.scanVisit
  rw [h]
  dsimp only [Config.descendCap, Config.places]
  cases s.childAt place target kind with
  | none => simp
  | some c => simp

theorem scanVisit_idle {s : State}
    (h : ∀ k target kind place children, s.path.directiveUnit ≠ .scanning k target kind place children) :
    s.scanVisit = s := by
  unfold State.scanVisit
  split
  · rename_i hu
    exact absurd hu (h _ _ _ _ _)
  · rfl

/-- Settles O40: the scan begins, visits each place and answers its list. -/
theorem descendScansEveryPlace : Obligations.DescendScansEveryPlace := by
  unfold Obligations.DescendScansEveryPlace
  refine fun s hp => ⟨fun k ht => ⟨fun h => ?_, fun r hr => ?_⟩, fun h => ?_, fun h hn => ?_,
    fun k target kind place children found hu hfound => ?_⟩
  · refine ⟨_, exec_descend hp, ?_⟩
    rw [takeDescend_of ht, beginDescend_notFound h]
    exact State.answerWith_completes (s.beginDirective k) k _ _ _ (MarksKept.refl _)
  · rw [exec_descend hp, takeDescend_of ht, beginDescend_found hr]
    rfl
  · rw [exec_descend hp, takeDescend_other hp h]
  · rw [exec_descendScanVisit ⟨hp, hn⟩, scanVisit_idle h]
  · have ready : s.Ready := ⟨hp, fun hf => by rw [hu] at hf; cases hf⟩
    have child : s.childAt place target kind = found.map Record.asChild := by
      rw [childAt_eq, hfound]
      cases kind <;> rfl
    have visit := scanVisit_of hu
    rw [child, Option.isSome_map] at visit
    have completes : ∀ (list : List Child) (truncated : Bool), s.Completes (s.completeDescend k target list truncated) k none
        ([wordOf target, countWord list.length truncated] ++ (list.map childWords).flatten) := fun list truncated =>
      State.answerWith_completes s k _ _ _ (MarksKept.refl s.path.dirty)
    refine ⟨fun r hr hlen => ⟨_, exec_descendScanVisit ready, ?_⟩, fun list hroom hlist => ?_⟩
    · rw [visit, hr, if_pos ⟨rfl, hlen⟩]
      exact completes _ _
    · have go : ¬(found.isSome = true ∧ 24 ≤ children.length) := fun h =>
        absurd (hroom (Option.isSome_iff_ne_none.1 h.1)) (Nat.not_lt.2 h.2)
      have next : list = children ++ (found.map Record.asChild).toList := by
        rw [hlist]
        cases found <;> rfl
      rw [if_neg go, ← next] at visit
      refine ⟨fun hl => ?_, fun hl => ⟨_, exec_descendScanVisit ready, ?_⟩⟩
      · rw [exec_descendScanVisit ready, visit, if_neg (by omega)]
        rfl
      · rw [visit, if_pos hl]
        exact completes _ _

end Sys2Proof.Machine
end

section
/-! PROOF. Read Record and Trace (R74, R75; O39): a Trace lists the references of the target and of the ancestors listed, in
the order in which they are met. -/

namespace Sys2Proof.Machine

/-! ## The references a Trace meets (R75) -/

/-- A reference as a Trace meets it: serial, kind and line implied, and the record it was met in. -/
abbrev MetRef := Nat × Kind × Option LineId × Nat

/-- The references of a record, with the record they were met in. -/
def Record.metRefs (v : Record) : List MetRef := v.references.map fun x => (x.1, x.2.1, x.2.2, v.serial)

/-- A reference met joins the list, unless it is the target or listed already. -/
def meet (target : Nat) (acc : List MetRef) (x : MetRef) : List MetRef :=
  if x.1 = target ∨ ∃ y ∈ acc, y.1 = x.1 then acc else acc ++ [x]

/-- The references met, each serial once and the target never. -/
def metOf (target : Nat) (refs : List MetRef) : List MetRef := refs.foldl (meet target) []

theorem metOf_snoc (target : Nat) (refs : List MetRef) (x : MetRef) :
    metOf target (refs ++ [x]) = meet target (metOf target refs) x := by
  unfold metOf
  rw [List.foldl_append]
  rfl

theorem meet_prefix (target : Nat) (acc : List MetRef) (x : MetRef) : acc <+: meet target acc x := by
  unfold meet
  split
  · exact List.prefix_rfl
  · exact List.prefix_append _ _

/-- What was met stays met, in its place. -/
theorem metOf_prefix (target : Nat) (refs more : List MetRef) : metOf target refs <+: metOf target (refs ++ more) := by
  induction more using List.reverseRecOn with
  | nil => rw [List.append_nil]
  | append_singleton more x ih =>
    rw [← List.append_assoc, metOf_snoc]
    exact ih.trans (meet_prefix _ _ _)

theorem take_of_prefix {α : Type} {xs ys : List α} {n : Nat} (h : xs <+: ys) (hn : n ≤ xs.length) :
    ys.take n = xs.take n := by
  obtain ⟨more, rfl⟩ := h
  exact List.take_append_of_le_length hn

/-- The ancestor that a reference met is listed as (R75). -/
def ancestorOf (t : CoilTable) (x : MetRef) : Ancestor :=
  match t.find x.1 with
  | none => { serial := x.1, number := none, kind := x.2.1, line := x.2.2.1, lost := true, reachedFrom := x.2.2.2 }
  | some a => { serial := x.1, number := a.identity, kind := a.kind, line := some a.line, lost := false
                reachedFrom := x.2.2.2 }

theorem ancestorOf_serial (t : CoilTable) (x : MetRef) : (ancestorOf t x).serial = x.1 := by
  unfold ancestorOf
  cases t.find x.1 <;> rfl

/-! ## One reference of a visited record -/

/-- The listing after the references `refs` have been met: the first twelve, and whether there was a thirteenth. -/
structure Tracing.Lists (st : Tracing) (t : CoilTable) (target : Nat) (refs : List MetRef) : Prop where
  truncated : st.truncated = decide (12 < (metOf target refs).length)
  listed : st.listed = ((metOf target refs).take 12).map (ancestorOf t)

/-- The records visited, and then those to visit, are the target and the ancestors present, in list order. -/
def Tracing.Visits (st : Tracing) (t : CoilTable) (r : Record) (visited : List Record) : Prop :=
  visited ++ st.queue = r :: st.listed.filterMap fun a => t.find a.serial

section
variable {t : CoilTable} {st : Tracing} {target : Nat} {refs : List MetRef}

/-- While it is not truncated, the listing holds every reference met. -/
theorem Tracing.Lists.whole (h : st.Lists t target refs) (hn : st.truncated = false) :
    (metOf target refs).length ≤ 12 ∧ st.listed = (metOf target refs).map (ancestorOf t) := by
  obtain ⟨ht, hl⟩ := h
  rw [hn] at ht
  have len := Nat.not_lt.1 (decide_eq_false_iff_not.1 ht.symm)
  rw [List.take_of_length_le len] at hl
  exact ⟨len, hl⟩

/-- A truncated listing has its twelve. -/
theorem Tracing.Lists.more (h : st.Lists t target refs) (hn : st.truncated = true) (more : List MetRef) :
    st.Lists t target (refs ++ more) := by
  obtain ⟨ht, hl⟩ := h
  rw [hn] at ht
  have len := decide_eq_true_iff.1 ht.symm
  have pre := metOf_prefix target refs more
  refine ⟨?_, ?_⟩
  · rw [hn, eq_comm, decide_eq_true_eq]
    exact len.trans_le pre.length_le
  · rw [hl, take_of_prefix pre (Nat.le_of_lt len)]

theorem any_serial (x : MetRef) (met : List MetRef) :
    ((met.map (ancestorOf t)).any fun a => a.serial == x.1) = true ↔ ∃ y ∈ met, y.1 = x.1 := by
  simp [List.any_eq_true, ancestorOf_serial]

/-- What a reference does to a listing that is not truncated (R75). -/
theorem traceRef_eq (v : Record) (x : Nat × Kind × Option LineId) {met : List MetRef} (hn : st.truncated = false)
    (hl : st.listed = met.map (ancestorOf t)) : traceRef t target v.serial st x =
      if x.1 = target ∨ ∃ y ∈ met, y.1 = x.1 then st
      else if 12 ≤ met.length then { st with truncated := true }
      else { st with
        queue := st.queue ++ (t.find x.1).toList
        listed := st.listed ++ [ancestorOf t (x.1, x.2.1, x.2.2, v.serial)] } := by
  have known : (st.truncated || x.1 == target || st.listed.any fun a => a.serial == x.1) = true ↔
      (x.1 = target ∨ ∃ y ∈ met, y.1 = x.1) := by
    rw [hn, hl, Bool.false_or, Bool.or_eq_true, beq_iff_eq]
    exact or_congr Iff.rfl (any_serial (x.1, x.2.1, x.2.2, v.serial) met)
  have full : Config.traceCap ≤ st.listed.length ↔ 12 ≤ met.length := by
    rw [hl, List.length_map]
    rfl
  unfold traceRef
  by_cases h : x.1 = target ∨ ∃ y ∈ met, y.1 = x.1
  · rw [if_pos (known.2 h), if_pos h]
  · rw [if_neg (mt known.1 h), if_neg h]
    by_cases hf : 12 ≤ met.length
    · rw [if_pos (full.2 hf), if_pos hf]
    · rw [if_neg (mt full.1 hf), if_neg hf]
      unfold ancestorOf
      cases t.find x.1 with
      | none => simp
      | some a => rfl

theorem Tracing.Lists.ref (h : st.Lists t target refs) (v : Record) (x : Nat × Kind × Option LineId) :
    (traceRef t target v.serial st x).Lists t target (refs ++ [(x.1, x.2.1, x.2.2, v.serial)]) := by
  by_cases hn : st.truncated = true
  · have same : traceRef t target v.serial st x = st := by
      unfold traceRef
      exact if_pos (by rw [hn]; rfl)
    rw [same]
    exact h.more hn _
  · have hn : st.truncated = false := Bool.not_eq_true _ ▸ hn
    obtain ⟨len, hl⟩ := h.whole hn
    rw [traceRef_eq v x hn hl]
    refine ⟨?_, ?_⟩ <;> rw [metOf_snoc, meet] <;>
      by_cases hk : x.1 = target ∨ ∃ y ∈ metOf target refs, y.1 = x.1
    · rw [if_pos hk, if_pos hk, hn, eq_comm, decide_eq_false_iff_not]
      exact Nat.not_lt.2 len
    · rw [if_neg hk, if_neg hk, List.length_append, List.length_singleton]
      by_cases hf : 12 ≤ (metOf target refs).length
      · rw [if_pos hf, eq_comm, decide_eq_true_eq]
        omega
      · rw [if_neg hf, eq_comm]
        show decide _ = st.truncated
        rw [hn, decide_eq_false_iff_not]
        omega
    · rw [if_pos hk, if_pos hk, List.take_of_length_le len]
      exact hl
    · rw [if_neg hk, if_neg hk]
      by_cases hf : 12 ≤ (metOf target refs).length
      · rw [if_pos hf, take_of_prefix (List.prefix_append _ _) hf, List.take_of_length_le len]
        exact hl
      · rw [if_neg hf, List.take_of_length_le (by rw [List.length_append, List.length_singleton]; omega), List.map_append,
          ← hl]
        rfl

theorem Tracing.Visits.ref {r : Record} {visited : List Record} (h : st.Lists t target refs) (hv : st.Visits t r visited)
    (v : Record) (x : Nat × Kind × Option LineId) : (traceRef t target v.serial st x).Visits t r visited := by
  by_cases hn : st.truncated = true
  · have same : traceRef t target v.serial st x = st := by
      unfold traceRef
      exact if_pos (by rw [hn]; rfl)
    rw [same]
    exact hv
  · have hn : st.truncated = false := Bool.not_eq_true _ ▸ hn
    obtain ⟨len, hl⟩ := h.whole hn
    rw [traceRef_eq v x hn hl]
    by_cases hk : x.1 = target ∨ ∃ y ∈ metOf target refs, y.1 = x.1
    · rw [if_pos hk]
      exact hv
    · rw [if_neg hk]
      by_cases hf : 12 ≤ (metOf target refs).length
      · rw [if_pos hf]
        exact hv
      · rw [if_neg hf]
        unfold Tracing.Visits at hv ⊢
        dsimp only
        rw [← List.append_assoc, hv, List.filterMap_append, List.cons_append]
        have tail : (t.find x.1).toList =
            [ancestorOf t (x.1, x.2.1, x.2.2, v.serial)].filterMap fun a => t.find a.serial := by
          cases hx : t.find x.1 <;> simp [ancestorOf_serial, hx]
        rw [tail]

end

/-! ## The references of a record, and the visits in order -/

/-- All references of a visited record (R75). -/
theorem Tracing.visit {t : CoilTable} {target : Nat} {r : Record} {visited : List Record} (v : Record) :
    ∀ (xs : List (Nat × Kind × Option LineId)) {st : Tracing} {refs : List MetRef}, st.Lists t target refs →
      st.Visits t r visited →
      (xs.foldl (traceRef t target v.serial) st).Lists t target
          (refs ++ xs.map fun x => (x.1, x.2.1, x.2.2, v.serial)) ∧
        (xs.foldl (traceRef t target v.serial) st).Visits t r visited
  | [], st, refs, h, hv => by
    rw [List.map_nil, List.append_nil]
    exact ⟨h, hv⟩
  | x :: xs, st, refs, h, hv => by
    obtain ⟨h2, hv2⟩ := Tracing.visit v xs (h.ref v x) (hv.ref h v x)
    rw [List.map_cons, List.append_cons]
    exact ⟨h2, hv2⟩

/-- The loop visits each record present, in list order, or stops at a thirteenth ancestor (R75). -/
theorem traceLoop_lists {t : CoilTable} {target : Nat} {r : Record} : ∀ (fuel : Nat) {st : Tracing} {visited : List Record},
    fuel + visited.length = 14 → st.Lists t target (visited.flatMap Record.metRefs) → st.Visits t r visited →
    (traceLoop t target fuel st).Lists t target
      ((r :: (traceLoop t target fuel st).listed.filterMap fun a => t.find a.serial).flatMap Record.metRefs)
  | 0, st, visited, hf, h, hv => by
    have len := congrArg List.length hv
    have most : (st.listed.filterMap fun a => t.find a.serial).length ≤ 12 := by
      refine (List.length_filterMap_le _ _).trans ?_
      rw [h.listed, List.length_map]
      exact List.length_take_le _ _
    rw [List.length_append, List.length_cons] at len
    omega
  | fuel + 1, st, visited, hf, h, hv => by
    unfold traceLoop
    cases hq : st.queue with
    | nil =>
      unfold Tracing.Visits at hv
      rw [hq, List.append_nil] at hv
      rw [← hv]
      exact h
    | cons v rest =>
      dsimp only
      by_cases ht : st.truncated = true
      · rw [if_pos ht]
        unfold Tracing.Visits at hv
        rw [← hv, List.flatMap_append]
        exact h.more ht _
      · rw [if_neg ht]
        have lists : ({ st with queue := rest } : Tracing).Lists t target (visited.flatMap Record.metRefs) := ⟨h.1, h.2⟩
        have visits : ({ st with queue := rest } : Tracing).Visits t r (visited ++ [v]) := by
          unfold Tracing.Visits at hv ⊢
          rw [List.append_assoc, List.singleton_append, ← hq]
          exact hv
        obtain ⟨h2, hv2⟩ := Tracing.visit v v.references lists visits
        refine traceLoop_lists fuel (visited := visited ++ [v]) (by rw [List.length_append, List.length_singleton]; omega) ?_ hv2
        rw [List.flatMap_append, List.flatMap_singleton]
        exact h2

/-- A Trace lists the first twelve references met, and says whether there was a thirteenth (R75). -/
theorem traceOf_lists (t : CoilTable) (r : Record) : (traceOf t r).Lists t r.serial
    ((r :: (traceOf t r).listed.filterMap fun a => t.find a.serial).flatMap Record.metRefs) :=
  traceLoop_lists 14 (visited := []) rfl ⟨rfl, rfl⟩ rfl

theorem traceOf_alone {t : CoilTable} {r : Record} (h : r.references = []) :
    (traceOf t r).listed = [] ∧ (traceOf t r).truncated = false := by
  have none : traceOf t r = { queue := [], listed := [], truncated := false } := by
    show traceLoop t r.serial 13 (r.references.foldl _ _) = _
    rw [h]
    rfl
  rw [none]
  exact ⟨rfl, rfl⟩

theorem metRefs_eq (v : Record) : v.metRefs = match v.kind with
    | .exit => v.segments.map fun g => (g.serial, .entry, some v.line, v.serial)
    | .entry => v.source.toList.map fun n => (n, .exit, none, v.serial) := by
  unfold Record.metRefs Record.references
  cases v.kind with
  | exit => exact List.map_map
  | entry => cases v.source <;> rfl

/-! ## Read Record and Trace (R74, R75) -/

theorem readRecord_bad {w : Nat → Word} (s : State) (h : 1 < (w 0).toNat ∨ 1 < (w 2).toNat) :
    readRecord w s = .refused .badParameter [] := if_pos h

theorem readRecord_of {w : Nat → Word} {s : State} (h0 : (w 0).toNat ≤ 1) (h2 : (w 2).toNat ≤ 1) :
    (s.selected (w 0) (w 1) = none → readRecord w s = .refused .notFound []) ∧
    ∀ r, s.selected (w 0) (w 1) = some r → readRecord w s = .done s (recordAnswer r (w 2)) := by
  have judged : ¬(1 < (w 0).toNat ∨ 1 < (w 2).toNat) := by omega
  unfold readRecord
  rw [if_neg judged]
  refine ⟨fun h => ?_, fun r h => ?_⟩
  · rw [h]
  · rw [h]

theorem trace_bad {w : Nat → Word} (s : State) (h : 1 < (w 0).toNat) : trace w s = .refused .badParameter [] := if_pos h

theorem trace_of {w : Nat → Word} {s : State} (h0 : (w 0).toNat ≤ 1) :
    (s.selected (w 0) (w 1) = none → trace w s = .refused .notFound []) ∧
    ∀ r, s.selected (w 0) (w 1) = some r → trace w s = .done s.drawn
      ([wordOf r.serial, countWord (traceOf s.track.table r).listed.length (traceOf s.track.table r).truncated] ++
        ((traceOf s.track.table r).listed.map (ancestorWords s.freeCount)).flatten) := by
  unfold trace
  rw [if_neg (Nat.not_lt.2 h0)]
  refine ⟨fun h => ?_, fun r h => ?_⟩
  · rw [h]
  · rw [h]

/-- Settles O39: what is selected, the answers of both directives, and the order of a Trace. -/
theorem readRecordAndTraceAnswerFromTheTable : Obligations.ReadRecordAndTraceAnswerFromTheTable := by
  unfold Obligations.ReadRecordAndTraceAnswerFromTheTable
  refine ⟨fun s a v => rfl, fun t r listed truncated refs met ht hrefs hmet => ?_, fun s k => ⟨fun hk => ?_, fun hk => ?_⟩⟩
  · have hl : (traceOf t r).listed = listed := congrArg Tracing.listed ht
    have htr : (traceOf t r).truncated = truncated := congrArg Tracing.truncated ht
    obtain ⟨h1, h2⟩ := traceOf_lists t r
    have all : (r :: listed.filterMap fun a => t.find a.serial).flatMap Record.metRefs = refs := by
      rw [hrefs]
      exact List.flatMap_congr fun v _ => metRefs_eq v
    rw [hl, all] at h1 h2
    rw [htr] at h1
    have same : metOf r.serial refs = met := hmet.symm
    rw [same] at h1 h2
    exact ⟨h1, h2⟩
  · refine ⟨fun h => runs_refused rfl hk (readRecord_bad _ h), fun h0 h2 => ?_⟩
    obtain ⟨notFound, found⟩ := readRecord_of (s := s.beginDirective k) h0 h2
    refine ⟨fun h => runs_refused rfl hk (notFound h), fun r hr => ?_⟩
    have done := found r hr
    unfold recordAnswer at done
    refine ⟨fun hp => ?_, fun hp => ?_⟩
    · rw [if_pos hp] at done
      exact runs_done_exactly (i := .readRecord) rfl hk done
    · rw [if_neg (by omega)] at done
      exact runs_done_exactly (i := .readRecord) rfl hk done
  · refine ⟨fun h => runs_refused rfl hk (trace_bad _ h), fun h0 => ?_⟩
    obtain ⟨notFound, found⟩ := trace_of (s := s.beginDirective k) h0
    refine ⟨fun h => runs_refused rfl hk (notFound h), fun r hr => ⟨?_, traceOf_alone, ?_⟩⟩
    · rw [(traceOf_lists s.track.table r).listed, List.length_map]
      exact List.length_take_le _ _
    · exact runs_done_exactly (i := .trace) rfl hk (found r hr)

end Sys2Proof.Machine
end

section
/-! PROOF. The owner of a strip position and the lineage walk (R97, R121 to R126; O56). -/

namespace Sys2Proof.Machine

/-! ## The owner of a position (R97) -/

theorem owns_iff (r : Record) (i : Fin 8) (pos : Nat) :
    (decide (r.line = stationLine i) && r.kind == stationKind i && r.spans pos) = true ↔
      r.station = i ∧ r.start ≤ pos ∧ ∀ e, r.stop = some e → pos < e := by
  rw [Bool.and_eq_true, owner_test, spans_iff]

theorem owner_some {s : State} {i : Fin 8} {pos : Nat} {r : Record} (h : s.owner i pos = some r) :
    r ∈ s.track.table.records ∧ r.station = i ∧ r.start ≤ pos ∧ (∀ e, r.stop = some e → pos < e) ∧
    ∀ r' ∈ s.track.table.records, r'.station = i → r'.start ≤ pos → (∀ e, r'.stop = some e → pos < e) →
      r'.serial ≤ r.serial := by
  obtain ⟨hr, hp, hmax⟩ := greatestSerial_some h
  obtain ⟨hs, hb, he⟩ := (owns_iff r i pos).1 hp
  exact ⟨hr, hs, hb, he, fun r' hr' hs' hb' he' => hmax r' hr' ((owns_iff r' i pos).2 ⟨hs', hb', he'⟩)⟩

theorem owner_none (s : State) (i : Fin 8) (pos : Nat) : s.owner i pos = none ↔
    ∀ r ∈ s.track.table.records, r.station = i → r.start ≤ pos → ∃ e, r.stop = some e ∧ e ≤ pos := by
  unfold State.owner
  rw [greatestSerial_none]
  refine forall₂_congr fun r _ => ?_
  rw [← Bool.not_eq_true, owns_iff]
  constructor
  · intro h hs hb
    by_contra hn
    exact h ⟨hs, hb, fun e he => Nat.lt_of_not_le fun hle => hn ⟨e, he, hle⟩⟩
  · rintro h ⟨hs, hb, he⟩
    obtain ⟨e, hstop, hle⟩ := h hs hb
    exact absurd (he e hstop) (Nat.not_lt.2 hle)

/-! ## The stop test and one hop (R123 to R125) -/

theorem walkFrom_stopped {s : State} {l : LineId} {sd : Side} {r : Record} (h : r.station = stationOf l sd) (n q : Nat) :
    s.walkFrom l sd n r q = .stopped r q := by
  unfold State.walkFrom
  exact if_pos ((isAt_iff r l sd).2 h)

section
variable {s : State} {l : LineId} {sd : Side} {r : Record} (hne : r.station ≠ stationOf l sd) {n q : Nat}
include hne

theorem walkFrom_depth : s.walkFrom l sd 0 r q = .ended .depth r.serial q := by
  unfold State.walkFrom
  exact if_neg (mt (isAt_iff r l sd).1 hne)

/-- A walk that has hops left goes where the hop of its record's kind leads (R121). -/
theorem walkFrom_ends {st : PointStatus}
    (h : (r.kind = .exit ∧ exitHop s.track.table r q = .ends st) ∨ (r.kind = .entry ∧ s.entryHop r q = .ends st)) :
    s.walkFrom l sd (n + 1) r q = .ended st r.serial q := by
  unfold State.walkFrom
  rw [if_neg (mt (isAt_iff r l sd).1 hne)]
  rcases h with ⟨hk, hh⟩ | ⟨hk, hh⟩ <;> simp only [hk, hh]

theorem walkFrom_to {x : Record} {p : Nat}
    (h : (r.kind = .exit ∧ exitHop s.track.table r q = .to x p) ∨ (r.kind = .entry ∧ s.entryHop r q = .to x p)) :
    s.walkFrom l sd (n + 1) r q = s.walkFrom l sd n x p := by
  rw [State.walkFrom]
  rw [if_neg (mt (isAt_iff r l sd).1 hne)]
  rcases h with ⟨hk, hh⟩ | ⟨hk, hh⟩ <;> simp only [hk, hh]

end

/-- A segment holds a position of its coil (R124). -/
abbrev Segment.Holds (g : Segment) (p : Nat) : Prop := g.exitStart ≤ p ∧ p < g.exitEnd

theorem exitHop_untracked {t : CoilTable} {w : Record} {q : Nat} (h : ∀ g ∈ w.segments, ¬g.Holds (w.start + q)) :
    exitHop t w q = .ends .untracked := by
  have none : (w.segments.find? fun g => decide (g.exitStart ≤ w.start + q) && decide (w.start + q < g.exitEnd)) = none := by
    rw [List.find?_eq_none]
    intro g hg
    simpa using h g hg
  unfold exitHop
  dsimp only
  rw [none]

section
variable {t : CoilTable} {w : Record} {q : Nat} {pre post : List Segment} {g : Segment} (hseg : w.segments = pre ++ g :: post)
    (hpre : ∀ g' ∈ pre, ¬g'.Holds (w.start + q)) (hg : g.Holds (w.start + q))
include hseg hpre hg

theorem exitHop_segment :
    (w.segments.find? fun g => decide (g.exitStart ≤ w.start + q) && decide (w.start + q < g.exitEnd)) = some g := by
  rw [hseg]
  refine find?_first (fun x hx => ?_) ?_
  · have := hpre x hx
    simpa [Segment.Holds] using this
  · simpa [Segment.Holds] using hg

theorem exitHop_lost (h : t.find g.serial = none) : exitHop t w q = .ends .lineageLost := by
  unfold exitHop
  dsimp only
  rw [exitHop_segment hseg hpre hg]
  dsimp only
  rw [h]

theorem exitHop_pending {x : Record} (h : t.find g.serial = some x)
    (hx : x.stop = none ∨ x.exitStart = none ∨ x.exitEnd = none) : exitHop t w q = .ends .pending := by
  unfold exitHop
  dsimp only
  rw [exitHop_segment hseg hpre hg]
  dsimp only
  rw [h]
  dsimp only
  split
  · rename_i h1 h2 h3
    rw [h1, h2, h3] at hx
    simp at hx
  · rfl

theorem exitHop_found {x : Record} {e xs xe : Nat} (h : t.find g.serial = some x) (h1 : x.stop = some e)
    (h2 : x.exitStart = some xs) (h3 : x.exitEnd = some xe) : exitHop t w q =
      if xe ≤ w.start + q then .ends .untracked else .to x ((w.start + q - xs) * (e - x.start) / (xe - xs)) := by
  unfold exitHop
  dsimp only
  rw [exitHop_segment hseg hpre hg]
  dsimp only
  rw [h]
  dsimp only
  rw [h1, h2, h3]

end

theorem entryHop_none {s : State} {x : Record} {q : Nat} (h : x.source = none) : s.entryHop x q = .ends .notInLineage := by
  unfold State.entryHop
  rw [h]

theorem entryHop_lost {s : State} {x : Record} {q m : Nat} (h : x.source = some m) (hm : s.find m = none) :
    s.entryHop x q = .ends .lineageLost := by
  unfold State.entryHop
  rw [h]
  dsimp only
  rw [hm]

theorem entryHop_pending {s : State} {x w : Record} {q m : Nat} (h : x.source = some m) (hm : s.find m = some w)
    (hx : x.stop = none ∨ w.stop = none) : s.entryHop x q = .ends .pending := by
  unfold State.entryHop
  rw [h]
  dsimp only
  rw [hm]
  dsimp only
  split
  · rename_i h1 h2
    rw [h1, h2] at hx
    simp at hx
  · rfl

theorem entryHop_found {s : State} {x w : Record} {q m xe we : Nat} (h : x.source = some m) (hm : s.find m = some w)
    (hx : x.stop = some xe) (hw : w.stop = some we) : s.entryHop x q =
      .to w (carriedPosition q (xe - x.start) (we - w.start) (s.line x.line).reverseOnPass) := by
  unfold State.entryHop
  rw [h]
  dsimp only
  rw [hm]
  dsimp only
  rw [hx, hw]

theorem carriedPosition_forward (q lenX lenW : Nat) : carriedPosition q lenX lenW false = q * lenW / lenX := rfl

theorem carriedPosition_turned (q lenX lenW : Nat) :
    carriedPosition q lenX lenW true = lenW - 1 - q * lenW / lenX := by
  unfold carriedPosition
  rw [if_pos rfl]
  exact Nat.min_eq_left (Nat.sub_le _ _)

/-! ## What a point resolves to (R121, R122, R126) -/

theorem resolve_absent {s : State} {d : CursorDef} (x : Int) (h : s.find d.target = none) : s.resolve d x =
    { status := .lineageLost, ancestor := d.target, pos := 0, bin := none, incarnation := none } := by
  unfold State.resolve State.walk
  rw [h]

section
variable {s : State} {d : CursorDef} {x : Int} {r : Record} (hr : s.find d.target = some r)
include hr

theorem resolve_outOfRange (h : x < 0 ∨ s.targetLength r ≤ x) : s.resolve d x =
    { status := .outOfRange, ancestor := d.target, pos := 0, bin := none, incarnation := none } := by
  unfold State.resolve State.walk
  rw [hr]
  dsimp only
  rw [if_pos h]

theorem walk_within (h0 : 0 ≤ x) (h1 : x < s.targetLength r) :
    s.walk d x = s.walkFrom d.line d.side 8 r x.toNat := by
  unfold State.walk
  rw [hr]
  exact if_neg (by omega)

end

theorem resolve_ended {s : State} {d : CursorDef} {x : Int} {st : PointStatus} {a q : Nat} (h : s.walk d x = .ended st a q) :
    s.resolve d x = { status := st, ancestor := a, pos := q, bin := none, incarnation := none } := by
  unfold State.resolve
  rw [h]

section
variable {s : State} {d : CursorDef} {x : Int} {w : Record} {q : Nat} (hw : s.walk d x = .stopped w q) {i : Fin 8}
    (hi : i = stationOf d.line d.side)
include hw hi

theorem resolve_stationChanged (hl : (s.station i).live? = none) : s.resolve d x =
    { status := .stationChanged, ancestor := w.serial, pos := q, bin := none, incarnation := none } := by
  subst hi
  unfold State.resolve
  rw [hw]
  dsimp only
  rw [hl]

theorem resolve_ok {lv : LiveData} {sd : StationDef} (hl : (s.station i).state = .live lv)
    (hd : (s.station i).defn = some sd) : s.resolve d x =
    { status := .ok, ancestor := w.serial, pos := q, bin := some ((w.start + q) / sd.binLength)
      incarnation := some (s.station i).incarnation } := by
  subst hi
  have live : (s.station (stationOf d.line d.side)).live? = some lv := by
    unfold Station.live?
    rw [hl]
  unfold State.resolve
  rw [hw]
  dsimp only
  rw [live, Station.d_of_defn hd]

end

theorem targetLength_eq (s : State) (r : Record) : s.targetLength r = match r.stop, r.state with
    | some e, _ => (e : Int) - r.start
    | none, .loading => max (((s.line r.line).entry.counter : Int) - (s.line r.line).seamIn.offset - r.start) 0
    | none, .winding => max (((s.line r.line).exit.counter : Int) - (s.line r.line).shear.offset - r.start) 0
    | none, _ => 0 := by
  unfold State.targetLength
  cases r.stop with
  | some e => rfl
  | none => cases r.state <;> rfl

/-- Settles O56: the owner of a position, what a point resolves to, and each hop of the walk. -/
theorem theWalkGoesUpstreamHopByHop : Obligations.TheWalkGoesUpstreamHopByHop := by
  unfold Obligations.TheWalkGoesUpstreamHopByHop
  refine ⟨fun s i pos r h => owner_some h, owner_none, fun s d x => ⟨resolve_absent x, fun r len hr hlen => ?resolve⟩,
    fun s l sd n r q => ⟨fun h => walkFrom_stopped h n q, fun hne => ⟨walkFrom_depth hne, fun hk p hp => ?exit, fun hk => ?entry⟩⟩⟩
  case resolve =>
    have length : s.targetLength r = len := by
      rw [hlen]
      exact targetLength_eq s r
    subst length
    refine ⟨resolve_outOfRange hr, fun h0 h1 i hi => ?_⟩
    rw [← walk_within hr h0 h1]
    exact ⟨fun st a q h => resolve_ended h, fun w q hw => ⟨resolve_stationChanged hw hi, fun lv sd hl hd => resolve_ok hw hi hl hd⟩⟩
  case exit =>
    subst hp
    refine ⟨fun h => walkFrom_ends hne (.inl ⟨hk, exitHop_untracked h⟩), fun pre g post hseg hpre hs he => ?_⟩
    refine ⟨fun hf => walkFrom_ends hne (.inl ⟨hk, exitHop_lost hseg hpre ⟨hs, he⟩ hf⟩), fun x hx =>
      ⟨fun hopen => walkFrom_ends hne (.inl ⟨hk, exitHop_pending hseg hpre ⟨hs, he⟩ hx hopen⟩), fun e xs xe h1 h2 h3 => ?_⟩⟩
    have hop := exitHop_found hseg hpre ⟨hs, he⟩ hx h1 h2 h3
    exact ⟨fun hle => walkFrom_ends hne (.inl ⟨hk, hop.trans (if_pos hle)⟩),
      fun hlt => walkFrom_to hne (.inl ⟨hk, hop.trans (if_neg (Nat.not_le.2 hlt))⟩)⟩
  case entry =>
    refine ⟨fun h => walkFrom_ends hne (.inr ⟨hk, entryHop_none h⟩), fun m hm =>
      ⟨fun hf => walkFrom_ends hne (.inr ⟨hk, entryHop_lost hm hf⟩), fun w hw =>
        ⟨fun hopen => walkFrom_ends hne (.inr ⟨hk, entryHop_pending hm hw hopen⟩), fun xe we v hx hwe hv => ?_⟩⟩⟩
    have hop := entryHop_found (q := q) hm hw hx hwe
    subst hv
    refine ⟨fun hr => walkFrom_to hne (.inr ⟨hk, hop.trans ?_⟩), fun hr _ => walkFrom_to hne (.inr ⟨hk, hop.trans ?_⟩)⟩
    · rw [hr, carriedPosition_forward]
    · rw [hr, carriedPosition_turned]

end Sys2Proof.Machine
end

section
/-! PROOF. Opening a record and the three ways of an allocation (R37, R56, R61, R62; O50). -/

namespace Sys2Proof.Machine

/-! ## Opening a record (R37) -/

theorem anomaly_shape (s : State) (c : AnomalyCode) (l : Option LineId) (p n : Option Nat) : ∃ d,
    s.anomaly c l p n = { s with track := (s.anomaly c l p n).track, path := { s.path with dirty := d } } := by
  obtain ⟨⟨_, _, _, _, _, _, d, h⟩, -⟩ := TableFrame.anomaly s c l p n
  refine ⟨d, ?_⟩
  rw [h]
  rfl

/-- An anomaly after a mark is the anomaly, up to dirty marks. -/
theorem anomaly_mark (s : State) (g : Fin 39) (c : AnomalyCode) (l : Option LineId) (p n : Option Nat) :
    (s.mark g).anomaly c l p n =
      { s.anomaly c l p n with path.dirty := ((s.mark g).anomaly c l p n).path.dirty } := by
  have track := anomaly_congr (s := s) (t := s.mark g) rfl c l p n
  obtain ⟨d, h⟩ := anomaly_shape s c l p n
  obtain ⟨d', h'⟩ := anomaly_shape (s.mark g) c l p n
  rw [track] at h'
  rw [h', h]
  rfl

theorem newRecord_eq (kind : Kind) (l : LineId) (p : Nat) (t : Time) (identity : Option Word) :
    newRecord kind l p t identity =
      fun n => opened n kind l (if kind = .entry then .loading else .winding) identity t p none := by
  cases kind <;> rfl

theorem openRecord_spent {s : State} (h : s.track.table.nextSerial = 0) (kind : Kind) (l : LineId) (p : Nat) (t : Time) :
    s.openRecord kind l p t = (s, 0) := by
  have none : s.canAllocate = false := by
    unfold State.canAllocate
    rw [h]
    rfl
  unfold State.openRecord
  rw [none]
  rfl

/-- A number leaves the head of its queue (R37, R169): the line's queue, and ANNOUNCE_EMPTY with an entry queue. -/
theorem setQueue_eq (s : State) (l : LineId) (kind : Kind) (q : List Word) {u : State} (hu : u = s.setQueue l kind q) :
    u = { s.withLine l ((s.line l).setQueue kind q) with
      track.trackingFlags := u.track.trackingFlags, path.dirty := u.path.dirty } ∧
    u.track.trackingFlags = s.track.trackingFlags |||
      if kind = .entry ∧ ∃ j, (u.line j).state = .tracking ∧ (u.line j).entryQueue = [] then 0x4 else 0 := by
  cases kind with
  | entry =>
    obtain ⟨h, -⟩ := MarksOnly.setQueue_entry s l q rfl
    rw [← hu] at h
    have line : ∀ j, u.line j = (s.withLine l { s.line l with entryQueue := q }).line j := fun j => by rw [h]; rfl
    have judged := announceEmpty_iff (s.withLine l { s.line l with entryQueue := q })
    simp only [← line] at judged
    refine ⟨by rw [h]; rfl, ?_⟩
    rw [if_congr (and_iff_right rfl) rfl rfl, ← if_congr judged rfl rfl, ← or_ite, h]
    rfl
  | exit =>
    obtain ⟨h, -⟩ := MarksOnly.setQueue_exit s l q
    rw [← hu] at h
    refine ⟨by rw [h]; rfl, ?_⟩
    rw [if_neg (by rintro ⟨h, -⟩; cases h), h]
    exact (word_or_zero _).symm

theorem openRecord_opens {s : State} (hc : s.canAllocate = true) (kind : Kind) (l : LineId) (p : Nat) (t : Time) :
    s.openRecord kind l p t = (((s.allocate (newRecord kind l p t ((s.line l).queue kind).head?)).mark (lineGroup l)).announced
      kind l ((s.line l).queue kind) p s.track.table.nextSerial, s.track.table.nextSerial) := by
  unfold State.openRecord
  rw [if_pos hc]

/-! ## Allocation in a full table (R61, R62) -/

theorem lowestFree_full {t : List (Nat × Record)} (hw : tableWf t = true) (hb : ∀ e ∈ t, e.1 < 8192) (hlen : t.length = 8192) :
    lowestFree 0 t = 8192 :=
  lowestFree_eq hw (fun _ _ => Nat.zero_le _) (Nat.zero_le _) (tableGet_none.2 fun e he => Nat.ne_of_lt (hb e he))
    fun j _ hj => full_places hw hb hlen j hj

/-- In a full table the SETTLED record of lowest serial is reclaimed (R61, second way). -/
theorem makeRoom_settled {s : State} (hfull : lowestFree 0 s.track.table.places = 8192) (hs : s.SerialsNodup) {old : Record}
    (hold : old ∈ s.track.table.records) (hst : old.state = .settled)
    (hmin : ∀ r ∈ s.track.table.records, r.state = .settled → old.serial ≤ r.serial) :
    s.makeRoom = s.reclaim old.serial := by
  have lowest : lowestSerial (fun r => r.state == .settled) s.track.table.records = some old :=
    lowestSerial_is hold (beq_iff_eq.2 hst) (fun x hx hp => hmin x hx (beq_iff_eq.1 hp)) hs
  unfold State.makeRoom Config.places
  rw [hfull, if_neg (by decide), lowest]

/-- With none SETTLED, the lowest that is neither LOADING nor WINDING is settled by force and reclaimed (R61, third way). -/
theorem makeRoom_forced {s : State} (hfull : lowestFree 0 s.track.table.places = 8192) (hs : s.SerialsNodup) {old : Record}
    (hold : old ∈ s.track.table.records) (hnone : ∀ r ∈ s.track.table.records, r.state ≠ .settled)
    (h1 : old.state ≠ .loading) (h2 : old.state ≠ .winding)
    (hmin : ∀ r ∈ s.track.table.records, r.state ≠ .loading → r.state ≠ .winding → old.serial ≤ r.serial) :
    s.makeRoom = ((s.forceSettle old.serial).anomaly .forcedSettle (some old.line) (some old.start)
      (some old.serial)).reclaim old.serial := by
  have settled : lowestSerial (fun r => r.state == .settled) s.track.table.records = none := by
    cases h : lowestSerial (fun r => r.state == .settled) s.track.table.records with
    | none => rfl
    | some r =>
      obtain ⟨hr, hp⟩ := lowestSerial_some h
      exact absurd (beq_iff_eq.1 hp) (hnone r hr)
  have lowest : lowestSerial (fun r => r.state != .loading && r.state != .winding) s.track.table.records = some old :=
    lowestSerial_is hold (by simp [h1, h2]) (fun x hx hp => by
      rw [Bool.and_eq_true, bne_iff_ne, bne_iff_ne] at hp
      exact hmin x hx hp.1 hp.2) hs
  unfold State.makeRoom Config.places
  rw [hfull, if_neg (by decide), settled]
  dsimp only
  rw [lowest]

/-- The record of a place is the one of its serial. -/
theorem filter_serial_eq {s : State} (hw : tableWf s.track.table.places = true) (hs : s.SerialsNodup) {place : Nat}
    {old : Record} (hold : (place, old) ∈ s.track.table.places) :
    (s.track.table.places.filter fun e => e.2.serial != old.serial) = s.track.table.places.filter fun e => e.1 != place := by
  refine List.filter_congr fun e he => ?_
  rw [Bool.eq_iff_iff, bne_iff_ne, bne_iff_ne, not_iff_not]
  constructor
  · intro h
    have same : e = (place, old) := by
      have inj := List.inj_on_of_nodup_map (f := fun e : Nat × Record => e.2.serial) (l := s.track.table.places)
        (by simpa [State.SerialsNodup, CoilTable.records, List.map_map, Function.comp_def] using hs)
      exact inj he hold h
    rw [same]
  · intro h
    rw [place_unique hw he hold h]

/-- A new record takes the place of the one reclaimed (R61, R62): `v` holds the other records as `s` does. -/
theorem adding_reclaimed {s v : State} (h : s.TableOk) (hs : s.SerialsNodup) (hlen : s.track.table.places.length = 8192)
    {place : Nat} {old : Record} (hold : (place, old) ∈ s.track.table.places)
    (hv : v.track.table = { s.track.table with places := v.track.table.places })
    (hp : (v.track.table.places.filter fun e => e.2.serial != old.serial) =
      s.track.table.places.filter fun e => e.2.serial != old.serial) (mk : Nat → Record) :
    (v.reclaim old.serial).track.table.adding mk =
      { places := s.track.table.places.map fun e => if e.1 = place then (place, mk s.track.table.nextSerial) else e
        nextSerial := if s.track.table.nextSerial = 4294967295 then 0 else s.track.table.nextSerial + 1
        idMap := s.track.table.idMap.filter fun e => e.2 != old.serial } := by
  obtain ⟨hw, hb, -⟩ := h
  have without : (v.reclaim old.serial).track.table = { s.track.table with
      places := s.track.table.places.filter fun e => e.1 != place
      idMap := s.track.table.idMap.filter fun e => e.2 != old.serial } := by
    show v.track.table.without old.serial = _
    unfold CoilTable.without
    rw [hp, filter_serial_eq hw hs hold, hv]
  have free : lowestFree 0 (s.track.table.places.filter fun e => e.1 != place) = place := by
    refine lowestFree_eq (tableWf_filter _ hw) (fun _ _ => Nat.zero_le _) (Nat.zero_le _) ?_ fun j _ hj hn => ?_
    · rw [tableGet_none]
      intro e he
      simpa using (List.mem_filter.1 he).2
    · refine full_places hw hb hlen j (hj.trans (hb _ hold)) (tableGet_none.2 fun e he hej => ?_)
      refine tableGet_none.1 hn e (List.mem_filter.2 ⟨he, ?_⟩) hej
      rw [hej]
      simpa using Nat.ne_of_lt hj
  rw [without]
  unfold CoilTable.adding
  dsimp only
  rw [free, tableSet_full hw hold]
  rfl

theorem allocate_eq (s : State) (mk : Nat → Record) :
    s.allocate mk = (s.makeRoom.setTable (s.makeRoom.track.table.adding mk)).mark 0 := rfl

/-- The state with the record settled by force, and the anomaly of it (R61, R71). -/
def State.forcedOut (s : State) (old : Record) : State :=
  (s.forceSettle old.serial).anomaly .forcedSettle (some old.line) (some old.start) (some old.serial)

theorem forcedOut_rest {s : State} {old : Record} (h : s.find old.serial = some old) :
    (s.forcedOut old).track.table =
        { s.track.table with places := mapSerial old.serial (fun r => r.force.settled) s.track.table.places } ∧
      (s.forcedOut old).track.nextSeq = s.track.nextSeq + 1 ∧
      (s.track.backlog.length < 128 → (s.forcedOut old).track.backlog =
        s.track.backlog ++ [{ seq := s.track.nextSeq, settledAt := s.track.clock, record := old.force.settled }]) := by
  obtain ⟨h1, h2, h3⟩ := State.forceSettle_rest h
  obtain ⟨a1, a2, a3, -, -⟩ := State.anomaly_rest (s.forceSettle old.serial) .forcedSettle (some old.line) (some old.start)
    (some old.serial)
  exact ⟨a1.trans h1, a3.trans h2, fun hlen => a2.trans (h3.trans (if_pos hlen))⟩

theorem filter_mapSerial (n : Nat) {f : Record → Record} (hf : ∀ r, (f r).serial = r.serial) (places : List (Nat × Record)) :
    (mapSerial n f places).filter (fun e => e.2.serial != n) = places.filter fun e => e.2.serial != n := by
  unfold mapSerial
  induction places with
  | nil => rfl
  | cons e rest ih =>
    rw [List.map_cons]
    by_cases h : e.2.serial = n
    · rw [List.filter_cons_of_neg (by simp [h, hf]), List.filter_cons_of_neg (by simp [h]), ih]
    · rw [if_neg h, List.filter_cons_of_pos (by simp [h]), List.filter_cons_of_pos (by simp [h]), ih]

/-- What is logged stays logged through a reclaim and a new record. -/
theorem forcedOut_logged (s : State) (old : Record) (mk : Nat → Record) (h : s.makeRoom = (s.forcedOut old).reclaim old.serial) :
    (s.allocate mk).Logged .forcedSettle (some old.line) (some old.start) (some old.serial) s.track.clock := by
  have logged := (anomaly_logged (s.forceSettle old.serial) .forcedSettle (some old.line) (some old.start)
    (some old.serial)).2 (s.allocate mk) 0 (by decide)
  rw [(TableFrame.forceSettle s old.serial).rest.2.1] at logged
  refine logged ?_
  rw [allocate_eq, h]
  exact .zero rfl rfl

/-- Settles O50: what opening a record leaves, and the three ways of an allocation. -/
theorem allocationReclaimsByTheThreeWays : Obligations.AllocationReclaimsByTheThreeWays := by
  unfold Obligations.AllocationReclaimsByTheThreeWays
  refine ⟨fun s kind l p t => ⟨fun h => openRecord_spent h kind l p t, fun hc a st hst ha => ?opens⟩,
    fun s mk ht hser hc => ⟨fun place hp hn hl => allocate_free ht hp hn hl, fun place old hlen hold hway => ?full⟩⟩
  case opens =>
    have key := openRecord_opens hc kind l p t
    rw [newRecord_eq, ← hst, ← ha] at key
    have line : (a.mark (lineGroup l)).line l = s.line l := by
      rw [ha]
      exact (TableFrame.allocate s _ hc).line l
    refine ⟨_, key, fun hq => ?_, fun number rest hq => ?_⟩
    · rw [hq]
      exact anomaly_mark a (lineGroup l) _ _ _ _
    · rw [hq]
      obtain ⟨h1, h2⟩ := setQueue_eq (a.mark (lineGroup l)) l kind rest rfl
      rw [line] at h1
      exact ⟨h1, h2⟩
  case full =>
    have hnd : s.SerialsNodup := hser.1
    have hmem : old ∈ s.track.table.records := List.mem_map.2 ⟨_, hold, rfl⟩
    have hfull := lowestFree_full ht.1 ht.2.1 hlen
    have lines := (TableFrame.allocate s mk hc).rest.2.2
    rcases hway with ⟨hst, hmin⟩ | ⟨hnone, h1, h2, hmin⟩
    · have room := makeRoom_settled hfull hnd hmem hst hmin
      have table := adding_reclaimed (v := s) ht hnd hlen hold rfl rfl mk
      rw [← room] at table
      refine ⟨table, lines, fun _ => ?_, fun h => absurd hst h⟩
      rw [allocate_eq, room]
      rfl
    · have room := makeRoom_forced hfull hnd hmem hnone h1 h2 hmin
      obtain ⟨f1, f2, f3⟩ := forcedOut_rest (find_of_mem hnd hmem)
      have same := filter_mapSerial old.serial (f := fun r => r.force.settled) (fun _ => rfl) s.track.table.places
      have table := adding_reclaimed (v := s.forcedOut old) ht hnd hlen hold (by rw [f1]) (by rw [f1]; exact same) mk
      have room' : s.makeRoom = (s.forcedOut old).reclaim old.serial := room
      rw [← room'] at table
      refine ⟨table, lines, fun h => absurd h (hnone old hmem), fun _ => ⟨forcedOut_logged s old mk room', ?_, fun hlen => ?_⟩⟩
      · rw [allocate_eq, room']
        exact f2
      · rw [allocate_eq, room']
        exact f3 hlen

end Sys2Proof.Machine
end

section
/-! PROOF. The hole-code matcher and tags (R28 to R32, R34, R49; O54). -/

namespace Sys2Proof.Machine

/-! ## The matcher replaced -/

/-- The state with another matcher for a line, up to dirty marks. -/
def MatcherSet (m : Matcher) (l : LineId) (a u : State) : Prop :=
  u = { a.withLine l { a.line l with matcher := m } with path.dirty := u.path.dirty }

theorem matcherSet (s : State) (l : LineId) (m : Matcher) : MatcherSet m l s (s.setMatcher l m) :=
  (MarksOnly.setLine s l _).1

theorem MatcherSet.of_eq {m m' : Matcher} {l : LineId} {a u : State} (h : MatcherSet m l a u) (hm : m = m') :
    MatcherSet m' l a u := hm ▸ h

/-! ## A hole that starts a sequence, and one in RECOVERY (R28, R32) -/

theorem usedSlots_eq (ln : Line) {used : List (Fin 3)}
    (h : used = ([0, 1, 2] : List (Fin 3)).filter fun k => decide ((ln.patterns[k]).holes ≠ 0)) : ln.usedSlots = used := by
  rw [h]
  refine List.filter_congr fun k _ => ?_
  rw [Bool.eq_iff_iff, bne_iff_ne, decide_eq_true_eq]
  rfl

theorem startSequence_eq (ln : Line) (p : Nat) :
    ln.startSequence p = if ln.usedSlots = [] then .idle else .collecting [p] ln.usedSlots := by
  unfold Line.startSequence
  simp only [List.isEmpty_iff]

section
variable {s : State} {l : LineId} {p : Nat}

theorem holeEvent_recovery {e : Nat} (h : (s.line l).matcher = .recovery e) (hp : p < e) : s.holeEvent l p = s := by
  unfold State.holeEvent
  dsimp only
  rw [h]
  exact if_pos hp

/-- A hole that finds no sequence to go on with starts one (R28, R29, R32). -/
theorem holeEvent_starts (h : (s.line l).matcher = .idle ∨ (∃ e, (s.line l).matcher = .recovery e ∧ e ≤ p) ∨
    (∃ ps q alive, (s.line l).matcher = .collecting (ps ++ [q]) alive ∧ q + (s.line l).gapLimit < p)) :
    s.holeEvent l p = s.setMatcher l ((s.line l).startSequence p) := by
  unfold State.holeEvent
  dsimp only
  rcases h with h | ⟨e, h, hp⟩ | ⟨ps, q, alive, h, hp⟩ <;> rw [h] <;> dsimp only
  · exact if_neg (Nat.not_lt.2 hp)
  · rw [List.getLastD_concat]
    exact if_pos (by omega)

theorem holeEvent_judged {ps : List Nat} {q : Nat} {alive : List (Fin 3)}
    (h : (s.line l).matcher = .collecting (ps ++ [q]) alive) (hp : p ≤ q + (s.line l).gapLimit) :
    s.holeEvent l p = s.judgeHole l (ps ++ [q]) alive p ((p : Int) - q) := by
  unfold State.holeEvent
  dsimp only
  rw [h]
  dsimp only
  rw [List.getLastD_concat]
  exact if_neg (by omega)

end

/-! ## A hole that is judged (R30, R31) -/

theorem survives_iff (ln : Line) (ps : List Nat) (q : Nat) (d : Int) (k : Fin 3) :
    ln.survives (ps ++ [q]).length d k = true ↔ ∃ sp : Nat, ((ln.patterns[k]).spacings)[ps.length]? = some sp ∧
      d - ln.tolerance ≤ sp ∧ (sp : Int) ≤ d + ln.tolerance := by
  unfold Line.survives
  rw [List.length_append, List.length_singleton, Nat.add_sub_cancel, show ln.pattern k = ln.patterns[k] from rfl]
  cases (ln.patterns[k]).spacings[ps.length]? <;> simp

/-- A sublist of a list in rising order is the filter that has its members. -/
theorem eq_filter_of_sublist {surv alive : List (Fin 3)} {f : Fin 3 → Bool} (hsub : surv.Sublist alive)
    (hord : alive.Pairwise (· < ·)) (hmem : ∀ k, k ∈ surv ↔ k ∈ alive ∧ f k = true) : alive.filter f = surv := by
  have nodup : alive.Nodup := hord.imp fun h => Fin.ne_of_lt h
  have perm : (alive.filter f).Perm surv := by
    refine (List.perm_ext_iff_of_nodup (nodup.filter f) (hsub.nodup nodup)).2 fun k => ?_
    rw [List.mem_filter, hmem]
  exact perm.eq_of_pairwise (fun a b _ _ hab hba => absurd hab (Fin.lt_asymm hba)) (hord.sublist List.filter_sublist)
    (hord.sublist hsub)

section
variable {s : State} {l : LineId} {ps : List Nat} {alive surv : List (Fin 3)} {p : Nat} {d : Int}
    (hsurv : alive.filter ((s.line l).survives ps.length d) = surv)
include hsurv

theorem judgeHole_mismatch (h : surv = []) : s.judgeHole l ps alive p d =
    (s.anomaly .holeMismatch (some l) (some p) none).setMatcher l ((s.line l).afterMismatch p) := by
  unfold State.judgeHole
  dsimp only
  rw [hsurv, h]
  rfl

theorem judgeHole_goes_on (h : surv ≠ []) (hn : ∀ k ∈ surv, ((s.line l).patterns[k]).holes ≠ ps.length + 1) :
    s.judgeHole l ps alive p d = s.setMatcher l (.collecting (ps ++ [p]) surv) := by
  have none : (surv.find? fun k => ((s.line l).pattern k).holes == ps.length + 1) = none := by
    rw [List.find?_eq_none]
    intro k hk
    rw [beq_iff_eq]
    exact hn k hk
  unfold State.judgeHole
  dsimp only
  rw [hsurv, if_neg (by simpa using h), none]

/-- The lowest slot that is complete matches (R31). -/
theorem judgeHole_matches {k : Fin 3} (hord : surv.Pairwise (· < ·)) (hk : k ∈ surv)
    (hc : ((s.line l).patterns[k]).holes = ps.length + 1)
    (hl : ∀ j ∈ surv, j < k → ((s.line l).patterns[j]).holes ≠ ps.length + 1) :
    s.judgeHole l ps alive p d = (s.setMatcher l .idle).matchEvent l k (ps.headD p) := by
  obtain ⟨pre, post, rfl⟩ := List.append_of_mem hk
  have first : ((pre ++ k :: post).find? fun k => ((s.line l).pattern k).holes == ps.length + 1) = some k := by
    refine find?_first (fun j hj => ?_) (beq_iff_eq.2 hc)
    have hlt : j < k := (List.pairwise_append.1 hord).2.2 j hj k List.mem_cons_self
    exact beq_eq_false_iff_ne.2 (hl j (List.mem_append_left _ hj) hlt)
  unfold State.judgeHole
  dsimp only
  rw [hsurv, if_neg (by simp), first]

end

/-- The matcher replaced leaves the line's patterns. -/
theorem MatcherSet.pattern {m : Matcher} {l : LineId} {a u : State} (h : MatcherSet m l a u) (k : Fin 3) :
    (u.line l).pattern k = (a.line l).patterns[k] := by
  have line : u.line l = { a.line l with matcher := m } := by
    rw [h]
    exact line_withLine a l _
  rw [line]
  rfl

/-! ## Tags (R49) -/

/-- A CUT record of the line whose span holds the tag (R49). -/
abbrev Record.HoldsTag (l : LineId) (p : Nat) (r : Record) : Prop :=
  r.line = l ∧ r.state = .cut ∧ r.start ≤ p ∧ ∀ e, r.stop = some e → p < e

/-- The first CUT record of the line whose span holds the tag. -/
def State.cutTarget (s : State) (l : LineId) (p : Nat) : Option Record :=
  s.track.table.records.find? fun r => decide (r.line = l) && r.state == .cut && r.spans p

theorem holdsTag_iff (l : LineId) (p : Nat) (r : Record) :
    (decide (r.line = l) && r.state == .cut && r.spans p) = true ↔ r.HoldsTag l p := by
  rw [Bool.and_eq_true, Bool.and_eq_true, decide_eq_true_eq, beq_iff_eq, spans_iff, and_assoc]

theorem findOpen_some {s : State} {l : LineId} {st : RecordState} {w : Record} (h : s.findOpen l st = some w) :
    w ∈ s.track.table.records ∧ w.line = l ∧ w.state = st := by
  rw [findOpen_eq] at h
  exact ⟨List.mem_of_find?_eq_some h, by simpa using List.find?_some h⟩

section
variable {s : State} {l : LineId} {p : Nat}

/-- A tag before the WINDING record goes to a CUT one, where there is one (R49). -/
theorem tagTarget_before (h : ∀ r ∈ s.track.table.records, r.line = l → r.state = .winding → p < r.start) :
    s.tagTarget l p = s.cutTarget l p := by
  unfold State.tagTarget
  dsimp only
  cases hw : s.findOpen l .winding with
  | none => rfl
  | some w =>
    obtain ⟨hmem, hline, hst⟩ := findOpen_some hw
    exact if_neg (Nat.not_le.2 (h w hmem hline hst))

theorem tagTarget_winding (ho : s.OpenOk) {r : Record} (hr : r ∈ s.track.table.records) (hline : r.line = l)
    (hst : r.state = .winding) (hp : r.start ≤ p) : s.tagTarget l p = some r := by
  have winding : s.findOpen l .winding = some r := by
    cases hw : s.findOpen l .winding with
    | none =>
      rw [findOpen_eq, List.find?_eq_none] at hw
      exact absurd (hw r hr) (by simp [hline, hst])
    | some w =>
      obtain ⟨hmem, hl, hs⟩ := findOpen_some hw
      rw [ho w hmem r hr (hl.trans hline.symm) (hs.trans hst.symm) (.inr hs)]
  unfold State.tagTarget
  rw [winding]
  exact if_pos hp

theorem cutTarget_none (h : ∀ r ∈ s.track.table.records, ¬r.HoldsTag l p) : s.cutTarget l p = none := by
  unfold State.cutTarget
  rw [List.find?_eq_none]
  intro r hr
  rw [holdsTag_iff]
  exact h r hr

theorem cutTarget_some {r : Record} (hr : r ∈ s.track.table.records) (h : r.HoldsTag l p)
    (hu : ∀ r' ∈ s.track.table.records, r'.HoldsTag l p → r' = r) : s.cutTarget l p = some r := by
  cases hc : s.cutTarget l p with
  | none => exact absurd ((holdsTag_iff l p r).2 h) (List.find?_eq_none.1 hc r hr)
  | some x =>
    unfold State.cutTarget at hc
    have hx := List.find?_some hc
    rw [hu x (List.mem_of_find?_eq_some hc) ((holdsTag_iff l p x).1 hx)]

theorem tagEvent_unplaced (k : Fin 3) (h : s.tagTarget l p = none) :
    s.tagEvent l p k = s.anomaly .unplacedTag (some l) (some p) none := by
  unfold State.tagEvent
  rw [h]

theorem tagEvent_placed (k : Fin 3) {r : Record} (h : s.tagTarget l p = some r) : s.tagEvent l p k = { s with
    track.table.places := s.track.table.places.map fun e =>
      if e.2.serial = r.serial then
        (e.1, if e.2.tags.length < 8 then { e.2 with tags := e.2.tags ++ [{ slot := k, pos := p - e.2.start }] }
          else { e.2 with flags.tagOverflow := true })
      else e } := by
  unfold State.tagEvent
  rw [h]
  exact modify_ite s r.serial _

end

theorem afterMismatch_eq (ln : Line) (p : Nat) : ln.afterMismatch p =
    if ln.recoveryLen = 0 ∨ (min (p + ln.recoveryLen) 281474976710655 : Int) ≤ (ln.exit.counter : Int) - ln.hole.offset
    then .idle else .recovery (min (p + ln.recoveryLen) 281474976710655) := by
  unfold Line.afterMismatch Line.holeReached
  dsimp only
  refine if_congr (or_congr Iff.rfl ?_) rfl rfl
  rw [decide_eq_true_eq]
  push_cast
  rfl

/-- Settles O54: the matcher hole by hole, and the record a tag is placed on. -/
theorem theMatcherFollowsTheHoles : Obligations.TheMatcherFollowsTheHoles := by
  unfold Obligations.TheMatcherFollowsTheHoles
  refine ⟨fun s l p t used set hused hset => ?holes, fun s l p k holds hholds => ?tags⟩
  case holes =>
    have hset' : ∀ m a u, set m a u ↔ MatcherSet m l a u := fun m a u => by rw [hset]; exact Iff.rfl
    simp only [hset']
    have slots := usedSlots_eq (s.line l) hused
    refine ⟨rfl, fun e he hp => holeEvent_recovery he hp, fun h => ?_, fun ps q alive surv hm hp hmem hsub hord => ?_⟩
    · rw [holeEvent_starts h, ← slots]
      exact (matcherSet s l _).of_eq (startSequence_eq _ p)
    · have judged := holeEvent_judged hm hp
      have filtered : alive.filter ((s.line l).survives (ps ++ [q]).length ((p : Int) - q)) = surv :=
        eq_filter_of_sublist hsub hord fun k => by rw [hmem, survives_iff]
      have len : (ps ++ [q]).length + 1 = ps.length + 2 := by simp
      refine ⟨fun h => ?_, fun h hn => ?_, fun k hk hc hl => ?_⟩
      · rw [judged, judgeHole_mismatch filtered h]
        exact (matcherSet _ l _).of_eq (afterMismatch_eq (s.line l) p)
      · rw [judged, judgeHole_goes_on filtered h (by rw [len]; exact hn)]
        exact (matcherSet s l _).of_eq (by rw [List.append_assoc]; rfl)
      · have idle := matcherSet s l .idle
        refine ⟨s.setMatcher l .idle, idle, ?_⟩
        rw [judged, judgeHole_matches filtered (hord.sublist hsub) hk (hc.trans len.symm) (by rw [len]; exact hl)]
        have head : (ps ++ [q]).headD p = ps.headD q := by cases ps <;> rfl
        rw [head]
        unfold State.matchEvent
        rw [idle.pattern k] <;> rfl
  case tags =>
    have hholds' : ∀ r, holds r ↔ r.HoldsTag l p := fun r => by rw [hholds]
    simp only [hholds']
    refine ⟨fun h => tagEvent_unplaced k ?_, fun r hr ho h => tagEvent_placed k ?_⟩
    · rw [tagTarget_before fun r hr => (h r hr).2]
      exact cutTarget_none fun r hr => (h r hr).1
    · rcases h with ⟨hl, hst, hp⟩ | ⟨hh, hu⟩
      · exact tagTarget_winding ho hr hl hst hp
      · rw [tagTarget_before fun r' hr' => (hu r' hr').2]
        exact cutTarget_some hr hh fun r' hr' => (hu r' hr').1

end Sys2Proof.Machine
end

section
/-! PROOF. An accepted SEAM_IN (R40 to R42; O51). -/

namespace Sys2Proof.Machine

/-! ## The log through the steps of an event (R168) -/

theorem LogGrows.of_track {s t : State} (h : t.track.anomalies = s.track.anomalies)
    (hc : t.track.anomalyCount = s.track.anomalyCount) : LogGrows 0 s t := .zero h hc

theorem setLine_log (s : State) (l : LineId) (ln : Line) : LogGrows 0 s (s.setLine l ln) :=
  .zero (setLine_table s l ln).2.1 (setLine_table s l ln).2.2

theorem setLine_flags (s : State) (l : LineId) (ln : Line) :
    (s.setLine l ln).track.trackingFlags = s.track.trackingFlags := by
  rw [State.setLine_track]

theorem modify_log (s : State) (n : Nat) (f : Record → Record) : LogGrows 0 s (s.modify n f) := .zero rfl rfl

/-! ## The record that is closed (R41) -/

/-- The places with the LOADING record closed (R41). -/
def closedPlaces (closing : Option Record) (p : Nat) (t : Time) (places : List (Nat × Record)) : List (Nat × Record) :=
  places.map fun e =>
    if closing = some e.2 then (e.1, { e.2 with stop := some p, closedAt := some t, state := .closed }) else e

theorem closeLoading_eq {s : State} (hs : s.SerialsOk) {closing : Option Record}
    (hc : ∀ r, closing = some r → r ∈ s.track.table.records) (p : Nat) (t : Time) : s.closeLoading closing p t =
      { s with track.table.places := closedPlaces closing p t s.track.table.places } := by
  unfold State.closeLoading closedPlaces
  cases closing with
  | none =>
    have same : (s.track.table.places.map fun e =>
        if none = some e.2 then (e.1, { e.2 with stop := some p, closedAt := some t, state := .closed }) else e) =
        s.track.table.places := by simp
    rw [same]
  | some r =>
    dsimp only
    rw [State.modify_eq, mapSerial_some hs (hc r rfl)]
    rfl

theorem closedPlaces_key {closing : Option Record} {p : Nat} {t : Time} (e : Nat × Record) :
    (if closing = some e.2 then (e.1, { e.2 with stop := some p, closedAt := some t, state := .closed }) else e).1 = e.1 := by
  split <;> rfl

theorem closedPlaces_serials (closing : Option Record) (p : Nat) (t : Time) (places : List (Nat × Record)) :
    (closedPlaces closing p t places).map (·.2.serial) = places.map (·.2.serial) := by
  unfold closedPlaces
  rw [List.map_map]
  refine List.map_congr_left fun e _ => ?_
  simp only [Function.comp_apply]
  split <;> rfl

/-! ## The record that is opened, with its source (R37, R41, R66) -/

/-- What opening an ENTRY record and looking up its source leave, where a place is free or the serials are used up. -/
structure EntryOpened (l : LineId) (p n : Nat) (places : List (Nat × Record)) (s v : State) : Prop where
  rest : TrackRest s v
  table : v.track.table =
    { places := places, nextSerial := if n = 0 ∨ n = 4294967295 then 0 else n + 1, idMap := s.track.table.idMap }
  line : v.line l = { s.line l with
    entryQueue := if n = 0 then (s.line l).entryQueue else (s.line l).entryQueue.tail }
  others : ∀ j, j ≠ l → v.line j = s.line j
  spent : n = 0 → v.track = s.track
  logged : n ≠ 0 → (s.line l).entryQueue = [] → ∀ (u : State) (k : Nat), k < 32 → LogGrows k v u →
    u.Logged .noAnnouncement (some l) (some p) (some n) s.track.clock

theorem sourceLookup_absent {s : State} {n : Nat} (h : s.find n = none) : s.sourceLookup n = s := by
  unfold State.sourceLookup
  rw [h]

/-- The source of a record just opened (R66). -/
theorem sourceLookup_opened {s : State} {n place : Nat} {places : List (Nat × Record)} {kind : Kind} {l : LineId} {p : Nat}
    {t : Time} {identity : Option Word} (hp : s.track.table.places = tableSet place (newRecord kind l p t identity n) places)
    (hf : ∀ e ∈ places, e.2.serial ≠ n) : s.sourceLookup n = { s with
      track.table.places := tableSet place
        { newRecord kind l p t identity n with source := identity.bind s.lookupNumber } places } := by
  have found : s.find n = some (newRecord kind l p t identity n) :=
    find_tableSet (t := { s.track.table with places := places }) rfl hf s.track.table hp
  have same : s = { s with track.table.places := tableSet place (newRecord kind l p t identity n) places } := by
    rw [← hp]
  unfold State.sourceLookup
  rw [found]
  dsimp only
  cases hi : (newRecord kind l p t identity n).identity with
  | none =>
    have absent : identity = none := hi
    rw [absent] at same ⊢
    exact same
  | some number =>
    have known : identity = some number := hi
    dsimp only
    cases hl : s.lookupNumber number with
    | none =>
      rw [known] at same ⊢
      dsimp only [Option.bind]
      rw [hl]
      exact same
    | some held =>
      dsimp only
      rw [State.modify_eq, hp, mapSerial_tableSet (show (newRecord kind l p t identity n).serial = n from rfl) hf, known]
      dsimp only [Option.bind]
      rw [hl]
      rfl

theorem entryOpened {s : State} {l : LineId} {p : Nat} {t : Time} {n place : Nat} (ht : s.TableOk)
    (hn : n = s.track.table.nextSerial) (hfresh : ∀ e ∈ s.track.table.places, e.2.serial ≠ n)
    (hplace : n = 0 ∨ place < 8192 ∧ tableGet place s.track.table.places = none ∧
      ∀ j, j < place → tableGet j s.track.table.places ≠ none) :
    (s.openRecord .entry l p t).2 = n ∧
      EntryOpened l p n (if n = 0 then s.track.table.places else tableSet place
        (opened n .entry l .loading (s.line l).entryQueue.head? t p ((s.line l).entryQueue.head?.bind s.lookupNumber))
        s.track.table.places) s ((s.openRecord .entry l p t).1.sourceLookup n) := by
  by_cases h0 : n = 0
  · have absent : s.find n = none := by
      unfold State.find CoilTable.find
      rw [List.find?_eq_none.2 (by simpa using fun a b h => hfresh (a, b) h)]
      rfl
    rw [openRecord_spent (hn ▸ h0), sourceLookup_absent absent]
    refine ⟨h0.symm, TrackRest.refl s, ?_, ?_, fun _ _ => rfl, fun _ => rfl, fun h => absurd h0 h⟩
    · rw [if_pos h0, if_pos (.inl h0), ← h0, hn]
    · rw [if_pos h0]
  · obtain ⟨hp, hget, hlow⟩ := hplace.resolve_left h0
    obtain ⟨w, hw, hrest, htab, hline, hothers, hkept, hlog⟩ :=
      openRecord_rest (kind := .entry) (l := l) (p := p) (t := t) ht hp hget hlow hn h0
    rw [hw]
    refine ⟨rfl, ?_⟩
    have look : w.lookupNumber = s.lookupNumber := by
      funext x
      unfold State.lookupNumber
      rw [htab]
    have source := sourceLookup_opened (s := w) (n := n) (congrArg CoilTable.places htab) hfresh
    dsimp only
    rw [source, look]
    refine ⟨⟨hrest.path, hrest.clock, hrest.backlog, hrest.nextSeq⟩, ?_, ?_, fun j hj => hothers j hj, fun h => absurd h h0,
      fun _ hq u k hk hg => ?_⟩
    · show ({ places := _, nextSerial := w.track.table.nextSerial, idMap := w.track.table.idMap } : CoilTable) = _
      rw [congrArg CoilTable.nextSerial htab, congrArg CoilTable.idMap htab, if_neg h0]
      simp only [h0, false_or]
      rfl
    · rw [if_neg h0]
      exact hline
    · obtain ⟨hc, ha⟩ := hlog hq
      refine ⟨⟨s.track.anomalyCount.toNat % 32, Nat.mod_lt _ (by decide)⟩, s.track.anomalyCount, ?_⟩
      exact hg.get hk s.track.anomalyCount hc _ (by rw [show _ = _ from ha]; exact Vector.getElem_set_self _)

end Sys2Proof.Machine
end

section
/-! PROOF. The seam queue (R42) and an accepted SEAM_IN (R40, R41; O51). -/

namespace Sys2Proof.Machine

/-! ## The seam queue (R42) -/

/-- The places with the records of a dropped seam queue entry SUSPECT, unless SETTLED (R42). -/
def suspectedPlaces (headed : Nat) (tailed : Option Nat) (places : List (Nat × Record)) : List (Nat × Record) :=
  places.map fun e =>
    if (e.2.serial = headed ∨ tailed = some e.2.serial) ∧ e.2.state ≠ .settled then
      (e.1, { e.2 with flags.suspect := true })
    else e

theorem withPlaces_log (s : State) (places : List (Nat × Record)) :
    LogGrows 0 s { s with track.table.places := places } := .zero rfl rfl

theorem mapSerial_suspects (n : Nat) (places : List (Nat × Record)) :
    mapSerial n (fun r => if r.state = .settled then r else r.suspect) places = suspectedPlaces n none places := by
  unfold mapSerial suspectedPlaces
  refine List.map_congr_left fun e _ => ?_
  by_cases h1 : e.2.serial = n <;> by_cases h2 : e.2.state = .settled <;> simp [h1, h2, Record.suspect]

theorem suspectedPlaces_twice (n m : Nat) (places : List (Nat × Record)) :
    suspectedPlaces m none (suspectedPlaces n none places) = suspectedPlaces n (some m) places := by
  unfold suspectedPlaces
  rw [List.map_map]
  refine List.map_congr_left fun e _ => ?_
  rcases eq_or_ne m e.2.serial with rfl | h2
  · by_cases h1 : e.2.serial = n <;> by_cases h3 : e.2.state = .settled <;> simp [h1, h3]
  · by_cases h1 : e.2.serial = n <;> by_cases h3 : e.2.state = .settled <;> simp [h1, h2, h2.symm, h3]

theorem suspectOpen_eq (s : State) (n : Nat) :
    s.suspectOpen n = { s with track.table.places := suspectedPlaces n none s.track.table.places } := by
  unfold State.suspectOpen
  rw [State.modify_eq, mapSerial_suspects]

theorem suspectEntry_eq (s : State) (old : SeamEntry) : s.suspectEntry old =
    { s with track.table.places := suspectedPlaces old.headed old.tailed s.track.table.places } := by
  unfold State.suspectEntry
  cases old.tailed with
  | none => exact suspectOpen_eq s old.headed
  | some m =>
    dsimp only
    rw [suspectOpen_eq, suspectOpen_eq]
    dsimp only
    rw [suspectedPlaces_twice]

theorem pushSeam_room {s : State} {l : LineId} (h : (s.line l).seamQueue.length < 16) (e : SeamEntry) :
    s.pushSeam l e = s.setSeams l ((s.line l).seamQueue ++ [e]) := by
  unfold State.pushSeam
  cases hq : (s.line l).seamQueue with
  | nil => rfl
  | cons old rest =>
    rw [hq] at h
    exact if_pos h

theorem pushSeam_full {s : State} {l : LineId} {old : SeamEntry} {rest : List SeamEntry}
    (hq : (s.line l).seamQueue = old :: rest) (h : 15 ≤ rest.length) (e : SeamEntry) : s.pushSeam l e =
      ((s.setSeams l (rest ++ [e])).anomaly .seamQueueFull (some l) (some old.pos) (some old.headed)).suspectEntry old := by
  unfold State.pushSeam
  rw [hq]
  exact if_neg (by simp only [List.length_cons, Config.seamCap]; omega)

/-- What a seam queue entry leaves that stays the same whether the queue was full or not. -/
structure SeamQueued (l : LineId) (e : SeamEntry) (s u : State) : Prop where
  rest : TrackRest s u
  next : u.track.table.nextSerial = s.track.table.nextSerial
  idMap : u.track.table.idMap = s.track.table.idMap
  line : u.line l = { s.line l with
    seamQueue := (if (s.line l).seamQueue.length < 16 then (s.line l).seamQueue else (s.line l).seamQueue.tail) ++ [e] }
  others : ∀ j, j ≠ l → u.line j = s.line j
  log : ∃ k, k ≤ 1 ∧ LogGrows k s u
  old : ∀ (i : Fin 32) (a : Anomaly), u.track.anomalies[i] = some a → a.code = .noAnnouncement → s.track.anomalies[i] = some a

theorem setSeams_queued (s : State) (l : LineId) (q : List SeamEntry) : TrackRest s (s.setSeams l q) ∧
    (s.setSeams l q).track.table = s.track.table ∧ LogGrows 0 s (s.setSeams l q) ∧
    (s.setSeams l q).line l = { s.line l with seamQueue := q } ∧ ∀ j, j ≠ l → (s.setSeams l q).line j = s.line j := by
  refine ⟨setLine_trackRest .., (setLine_table ..).1, setLine_log .., ?_, fun j hj => State.line_setLine_ne _ _ hj⟩
  exact State.line_setLine_self ..

/-- An anomaly of another code leaves the entries of a code. -/
theorem anomaly_other {s : State} {c code : AnomalyCode} (h : c ≠ code) (l : Option LineId) (p n : Option Nat) (i : Fin 32)
    (a : Anomaly) (ha : (s.anomaly c l p n).track.anomalies[i] = some a) (hc : a.code = code) :
    s.track.anomalies[i] = some a := by
  obtain ⟨-, -, -, entries, -⟩ := State.anomaly_rest s c l p n
  simp only [entries, Fin.getElem_fin, Vector.getElem_set] at ha
  split at ha
  · rw [← Option.some.inj ha] at hc
    exact absurd hc h
  · exact ha

theorem pushSeam_queued (s : State) (l : LineId) (e : SeamEntry) : SeamQueued l e s (s.pushSeam l e) := by
  by_cases h : (s.line l).seamQueue.length < 16
  · rw [pushSeam_room h]
    obtain ⟨rest, table, log, line, others⟩ := setSeams_queued s l ((s.line l).seamQueue ++ [e])
    refine ⟨rest, congrArg _ table, congrArg _ table, ?_, others, ⟨0, by decide, log⟩, fun i a ha _ => ?_⟩
    · rw [if_pos h]
      exact line
    · rw [← (setLine_table s l ((s.line l).withSeams ((s.line l).seamQueue ++ [e]))).2.1]
      exact ha
  · cases hq : (s.line l).seamQueue with
    | nil =>
      rw [hq] at h
      exact absurd (by decide) h
    | cons old more =>
      have full : 15 ≤ more.length := by
        rw [hq, List.length_cons] at h
        omega
      rw [pushSeam_full hq full, suspectEntry_eq]
      obtain ⟨rest, table, log, line, others⟩ := setSeams_queued s l (more ++ [e])
      have entries := (setLine_table s l ((s.line l).withSeams (more ++ [e]))).2.1
      have entered := anomaly_trackRest (s.setSeams l (more ++ [e])) .seamQueueFull (some l) (some old.pos) (some old.headed)
      have grown := (anomaly_logged (s.setSeams l (more ++ [e])) .seamQueueFull (some l) (some old.pos) (some old.headed)).1
      have lines := anomaly_line (s.setSeams l (more ++ [e])) .seamQueueFull (some l) (some old.pos) (some old.headed)
      have kept := (State.anomaly_rest (s.setSeams l (more ++ [e])) .seamQueueFull (some l) (some old.pos) (some old.headed)).1
      have other := fun i a => anomaly_other (s := s.setSeams l (more ++ [e])) (c := .seamQueueFull) (code := .noAnnouncement)
        (by decide) (some l) (some old.pos) (some old.headed) i a
      generalize (s.setSeams l (more ++ [e])).anomaly .seamQueueFull (some l) (some old.pos) (some old.headed) = w at *
      have all := rest.trans entered
      refine ⟨⟨all.path, all.clock, all.backlog, all.nextSeq⟩, ?_, ?_, ?_, fun j hj => (lines j).trans (others j hj), ⟨1, by decide, ?_⟩,
        fun i a ha hc => ?_⟩
      · exact (congrArg CoilTable.nextSerial (kept.trans table) :)
      · exact (congrArg CoilTable.idMap (kept.trans table) :)
      · rw [if_neg h, hq, List.tail_cons]
        exact (lines l).trans line
      · exact (log.trans grown).trans (withPlaces_log w _)
      · rw [← entries]
        exact other i a ha hc

/-- A seam queue entry in a queue with room for it. -/
theorem pushSeam_room_track {s : State} {l : LineId} (h : (s.line l).seamQueue.length < 16) (e : SeamEntry) :
    (s.pushSeam l e).track.table = s.track.table ∧ (s.pushSeam l e).track.anomalies = s.track.anomalies ∧
      (s.pushSeam l e).track.anomalyCount = s.track.anomalyCount ∧
      (s.pushSeam l e).track.trackingFlags = s.track.trackingFlags := by
  rw [pushSeam_room h]
  have kept := setLine_table s l ((s.line l).withSeams ((s.line l).seamQueue ++ [e]))
  exact ⟨kept.1, kept.2.1, kept.2.2, setLine_flags ..⟩

/-- A seam queue entry in a full queue: the oldest entry is lost. -/
theorem pushSeam_full_track {s : State} {l : LineId} {old : SeamEntry} {rest : List SeamEntry}
    (hq : (s.line l).seamQueue = old :: rest) (h : 15 ≤ rest.length) (e : SeamEntry) :
    (s.pushSeam l e).track.table.places = suspectedPlaces old.headed old.tailed s.track.table.places ∧
      ∀ (u : State) (k : Nat), k < 32 → LogGrows k (s.pushSeam l e) u →
        u.Logged .seamQueueFull (some l) (some old.pos) (some old.headed) s.track.clock := by
  rw [pushSeam_full hq h, suspectEntry_eq]
  obtain ⟨rest', table, -⟩ := setSeams_queued s l (rest ++ [e])
  have kept := (State.anomaly_rest (s.setSeams l (rest ++ [e])) .seamQueueFull (some l) (some old.pos) (some old.headed)).1
  have logged := (anomaly_logged (s.setSeams l (rest ++ [e])) .seamQueueFull (some l) (some old.pos) (some old.headed)).2
  generalize (s.setSeams l (rest ++ [e])).anomaly .seamQueueFull (some l) (some old.pos) (some old.headed) = w at *
  refine ⟨?_, fun u k hk hg => ?_⟩
  · show suspectedPlaces old.headed old.tailed w.track.table.places = _
    rw [kept, table]
  · rw [← rest'.clock]
    refine logged u (0 + k) (by omega) ?_
    exact (withPlaces_log w _).trans hg

/-! ## An accepted SEAM_IN (R41) -/

theorem setLastSeamIn_same (s : State) (l : LineId) (p : Nat) : TrackRest s (s.setLastSeamIn l p) ∧
    (s.setLastSeamIn l p).track.table = s.track.table ∧ (s.setLastSeamIn l p).track.anomalies = s.track.anomalies ∧
    (s.setLastSeamIn l p).track.anomalyCount = s.track.anomalyCount ∧
    (s.setLastSeamIn l p).track.trackingFlags = s.track.trackingFlags ∧
    (s.setLastSeamIn l p).line l = { s.line l with lastSeamIn := some p } ∧
    ∀ j, j ≠ l → (s.setLastSeamIn l p).line j = s.line j := by
  obtain ⟨table, entries, count⟩ := setLine_table s l ((s.line l).withLastSeamIn p)
  refine ⟨setLine_trackRest .., table, entries, count, setLine_flags .., ?_, fun j hj => State.line_setLine_ne _ _ hj⟩
  exact State.line_setLine_self ..

/-- The last steps of R41 leave what the seam queue entry left, with the last SEAM_IN at p. -/
theorem enterSeam_same (s : State) (l : LineId) (p : Nat) (t : Time) (n : Nat) (closing : Option Record) {w u : State}
    (hw : w = (s.sourceLookup n).pushSeam l { pos := p, time := t, headed := n, tailed := closing.map (·.serial) })
    (hu : u = s.enterSeam l p t n closing) : TrackRest w u ∧ u.track.table = w.track.table ∧
    u.track.anomalies = w.track.anomalies ∧ u.track.anomalyCount = w.track.anomalyCount ∧
    u.track.trackingFlags = w.track.trackingFlags ∧ u.line l = { w.line l with lastSeamIn := some p } ∧
    ∀ j, j ≠ l → u.line j = w.line j := by
  obtain ⟨rest, table, entries, count, flags, line, others⟩ := setLastSeamIn_same w l p
  obtain ⟨marked, track⟩ := markIf_trackRest (w.setLastSeamIn l p) closing.isSome (lineGroup l)
  have ends : u = (w.setLastSeamIn l p).markIf closing.isSome (lineGroup l) := by rw [hu, hw]; rfl
  rw [← ends] at marked track
  have lines : ∀ j, u.line j = (w.setLastSeamIn l p).line j := fun j => by
    unfold State.line
    rw [track]
  exact ⟨rest.trans marked, track ▸ table, track ▸ entries, track ▸ count, track ▸ flags, (lines l).trans line,
    fun j hj => (lines j).trans (others j hj)⟩

theorem seamIn_refused {s : State} {l : LineId} {p : Nat} (h : ¬Passes (s.line l).lastSeamIn (s.line l).seamInSpacing p)
    (t : Time) : s.capture l .seamIn p t = s.anomaly .spuriousSeamIn (some l) (some p) none := by
  show s.seamInEvent l p t = _
  unfold State.seamInEvent
  rw [if_neg (fun hp => h ((plausible_iff ..).1 hp))]

theorem seamIn_passes {s : State} {l : LineId} {p : Nat} (h : Passes (s.line l).lastSeamIn (s.line l).seamInSpacing p)
    (t : Time) : s.capture l .seamIn p t = (s.acceptSeamIn l p t).1 := by
  show s.seamInEvent l p t = _
  unfold State.seamInEvent
  rw [if_pos ((plausible_iff ..).2 h)]

end Sys2Proof.Machine
end

section
/-! PROOF. What an accepted SEAM_IN leaves (R41, R42; O51). -/

namespace Sys2Proof.Machine

theorem closedPlaces_tableOk {s : State} (h : s.TableOk) (closing : Option Record) (p : Nat) (t : Time) :
    { s with track.table.places := closedPlaces closing p t s.track.table.places }.TableOk := by
  obtain ⟨wf, places, idMap⟩ := h
  refine ⟨tableWf_map _ closedPlaces_key wf, fun e he => ?_, idMap⟩
  obtain ⟨x, hx, rfl⟩ := List.mem_map.1 he
  rw [closedPlaces_key]
  exact places x hx

theorem closedPlaces_fresh {s : State} (h : s.SerialsOk) (closing : Option Record) (p : Nat) (t : Time) :
    ∀ e ∈ closedPlaces closing p t s.track.table.places, e.2.serial ≠ s.track.table.nextSerial := by
  intro e he
  have mem : e.2.serial ∈ (closedPlaces closing p t s.track.table.places).map (·.2.serial) := List.mem_map.2 ⟨e, he, rfl⟩
  rw [closedPlaces_serials] at mem
  obtain ⟨x, hx, hs⟩ := List.mem_map.1 mem
  obtain ⟨low, -, below⟩ := h.2.2 x.2 (List.mem_map.2 ⟨x, hx, rfl⟩)
  rw [← hs]
  omega

theorem closedPlaces_free (closing : Option Record) (p : Nat) (t : Time) (k : Nat) (places : List (Nat × Record)) :
    tableGet k (closedPlaces closing p t places) = none ↔ tableGet k places = none :=
  tableGet_map _ closedPlaces_key places

/-- Opening the ENTRY record of an accepted SEAM_IN, after the LOADING record is closed (R41). -/
theorem seamIn_opens {s : State} {l : LineId} {p : Nat} {t : Time} {n place : Nat} {closing : Option Record}
    (ht : s.TableOk) (hs : s.SerialsOk) (hn : n = s.track.table.nextSerial)
    (hplace : n = 0 ∨ place < 8192 ∧ tableGet place s.track.table.places = none ∧
      ∀ j, j < place → tableGet j s.track.table.places ≠ none)
    (hc : s.findOpen l .loading = closing) :
    ∃ w v : State, v = w.sourceLookup n ∧
      s.acceptSeamIn l p t = (w.enterSeam l p t n closing, n, (closing.map (·.serial)).getD 0) ∧
      EntryOpened l p n (if n = 0 then closedPlaces closing p t s.track.table.places else tableSet place
        (opened n .entry l .loading (s.line l).entryQueue.head? t p ((s.line l).entryQueue.head?.bind s.lookupNumber))
        (closedPlaces closing p t s.track.table.places))
        { s with track.table.places := closedPlaces closing p t s.track.table.places } v := by
  have mem : ∀ r, closing = some r → r ∈ s.track.table.records := by
    intro r hr
    rw [findOpen_eq, hr] at hc
    exact List.mem_of_find?_eq_some hc
  have free : n = 0 ∨ place < 8192 ∧ tableGet place (closedPlaces closing p t s.track.table.places) = none ∧
      ∀ j, j < place → tableGet j (closedPlaces closing p t s.track.table.places) ≠ none := by
    simp only [ne_eq, closedPlaces_free]
    exact hplace
  obtain ⟨serial, entry⟩ := entryOpened
    (s := { s with track.table.places := closedPlaces closing p t s.track.table.places }) (l := l) (p := p) (t := t)
    (closedPlaces_tableOk ht closing p t) hn (hn ▸ closedPlaces_fresh hs closing p t) free
  refine ⟨_, _, rfl, ?_, entry⟩
  unfold State.acceptSeamIn
  rw [hc]
  dsimp only
  rw [closeLoading_eq hs mem, serial]
  rfl

/-- Settles O51: the LOADING record is closed, the ENTRY record is opened with its source, and the seam queue takes the
entry; a full queue loses its oldest one. -/
theorem aSeamInOpensAnEntryRecord : Obligations.ASeamInOpensAnEntryRecord := by
  unfold Obligations.ASeamInOpensAnEntryRecord
  intro s l p t
  refine ⟨fun h => seamIn_refused h t, fun h => seamIn_passes h t, ?_⟩
  intro n place closing new ht hs hn hplace hc hnew
  have found : s.findOpen l .loading = closing := (findOpen_eq s l .loading).trans hc.symm
  obtain ⟨w, v, hv, accepts, entry⟩ := seamIn_opens (p := p) (t := t) ht hs hn hplace found
  rw [← hnew] at entry
  obtain ⟨rest, table, entries, count, flags, line, others⟩ := enterSeam_same w l p t n closing rfl rfl
  refine ⟨_, accepts, ?_⟩
  generalize w.enterSeam l p t n closing = u at *
  rw [← hv] at rest table entries count flags line others
  obtain ⟨qrest, qnext, qidMap, qline, qothers, ⟨k, hk, qlog⟩, qold⟩ :=
    pushSeam_queued v l { pos := p, time := t, headed := n, tailed := closing.map (·.serial) }
  have room := fun h => pushSeam_room_track (s := v) (l := l) h
    { pos := p, time := t, headed := n, tailed := closing.map (·.serial) }
  have full := fun old rest hq h => pushSeam_full_track (s := v) (l := l) (old := old) (rest := rest) hq h
    { pos := p, time := t, headed := n, tailed := closing.map (·.serial) }
  generalize v.pushSeam l { pos := p, time := t, headed := n, tailed := closing.map (·.serial) } = q at *
  have all := (entry.rest.trans qrest).trans rest
  have queue : (v.line l).seamQueue = (s.line l).seamQueue := by rw [entry.line]; rfl
  have logs : LogGrows 0 q u := .zero entries count
  refine ⟨fun j hj => ?_, ?_, all.path, all.clock, all.backlog, all.nextSeq, ?_, ?_, ?_, ?_, ?_, ?_⟩
  · rw [others j hj, qothers j hj, entry.others j hj]
    rfl
  · rw [line, qline, queue, entry.line]
    rfl
  · rw [table, qnext, entry.table]
  · rw [table, qidMap, entry.table]
  · rintro kept places hkept hplaces
    refine ⟨fun h => ?_, fun old more hq h => ?_⟩
    · rw [table, (room (queue ▸ h)).1, entry.table, hplaces, hkept]
      rfl
    · obtain ⟨places', logged⟩ := full old more (queue.trans hq) h
      refine ⟨?_, ?_⟩
      · have at' := logged u 0 (by decide) logs
        rwa [entry.rest.clock] at at'
      · rw [table, places', entry.table, hplaces, hkept]
        rfl
  · intro h0 hq
    exact entry.logged h0 hq u (k + 0) (by omega) (qlog.trans logs)
  · intro h0 hq
    obtain ⟨-, rentries, rcount, rflags⟩ := room (queue ▸ hq)
    have same := entry.spent h0
    refine ⟨?_, ?_, ?_⟩
    · rw [entries, rentries, same]
    · rw [count, rcount, same]
    · rw [flags, rflags, same]
  · intro h0 i a ha hcode
    rw [entries] at ha
    have held := qold i a ha hcode
    rwa [entry.spent h0] at held

end Sys2Proof.Machine
end

section
/-! PROOF. An exit seam event (R40, R43 to R45, R50; O52). -/

namespace Sys2Proof.Machine

/-! ## Steps that change, of the lines, the through list of one -/

/-- Of the lines only the through list of `l` changes, of the table only places, of the path well only dirty marks. -/
structure ThroughStep (l : LineId) (s t : State) : Prop where
  path : t.path = { s.path with dirty := t.path.dirty }
  clock : t.track.clock = s.track.clock
  idMap : t.track.table.idMap = s.track.table.idMap
  next : t.track.table.nextSerial = s.track.table.nextSerial
  line : t.line l = { s.line l with through := (t.line l).through }
  others : ∀ j, j ≠ l → t.line j = s.line j

theorem ThroughStep.trans {l : LineId} {s t u : State} (h : ThroughStep l s t) (g : ThroughStep l t u) :
    ThroughStep l s u :=
  ⟨by rw [g.path, h.path], g.clock.trans h.clock, g.idMap.trans h.idMap, g.next.trans h.next, by rw [g.line, h.line],
    fun j hj => (g.others j hj).trans (h.others j hj)⟩

theorem TableSame.throughStep {s t : State} (h : TableSame s t) (l : LineId) : ThroughStep l s t :=
  ⟨h.frame.rest.1, h.frame.rest.2.1, h.idMap, h.next, by rw [h.line], fun j _ => h.line j⟩

theorem ThroughStep.refl (l : LineId) (s : State) : ThroughStep l s s := (TableSame.refl s).throughStep l

theorem ThroughStep.setThrough (s : State) (l : LineId) (ns : List Nat) : ThroughStep l s (s.setThrough l ns) := by
  have rest := setLine_trackRest s l ((s.line l).withThrough ns)
  have table := (setLine_table s l ((s.line l).withThrough ns)).1
  refine ⟨rest.path, rest.clock, congrArg _ table, congrArg _ table, ?_, fun j hj => State.line_setLine_ne _ _ hj⟩
  unfold State.setThrough
  rw [State.line_setLine_self]
  rfl

@[simp] theorem setThrough_through (s : State) (l : LineId) (ns : List Nat) : ((s.setThrough l ns).line l).through = ns := by
  unfold State.setThrough
  rw [State.line_setLine_self]
  rfl

theorem find_of_table {s t : State} (h : t.track.table = s.track.table) (m : Nat) : t.find m = s.find m := by
  unfold State.find
  rw [h]

@[simp] theorem find_setThrough (s : State) (l : LineId) (ns : List Nat) (m : Nat) : (s.setThrough l ns).find m = s.find m :=
  find_of_table (setLine_table ..).1 m

theorem setThrough_log (s : State) (l : LineId) (ns : List Nat) : LogGrows 0 s (s.setThrough l ns) := setLine_log ..

/-! ## The exit-open record (R44 step 3, R50) -/

theorem settleCheck_keeps (s : State) (n : Nat) : TableSame s (s.settleCheck n) ∧
    ∀ m, m ≠ n → (s.settleCheck n).find m = s.find m := by
  cases h : s.find n with
  | none =>
    have same : s.settleCheck n = s := by
      unfold State.settleCheck
      rw [h]
    rw [same]
    exact ⟨TableSame.refl s, fun _ _ => rfl⟩
  | some r =>
    obtain ⟨same, -, others, -⟩ := settleCheck_same h
    exact ⟨same, others⟩

theorem checkElongation_keeps (s : State) (l : LineId) (n e p : Nat) : TableSame s (s.checkElongation l n e p) ∧
    ∀ m, m ≠ n → (s.checkElongation l n e p).find m = s.find m := by
  unfold State.checkElongation
  split
  · obtain ⟨same, found⟩ := anomaly_same (s.modify n Record.suspect) .elongationImplausible (some l) (some p) (some n)
    exact ⟨(modify_same ..).trans same, fun m hm => (found m).trans (State.find_modify_ne _ hm _ fun _ => rfl)⟩
  · exact ⟨TableSame.refl s, fun _ _ => rfl⟩

theorem endExitSpan_keeps (s : State) (l : LineId) (r : Record) (p : Nat) : TableSame s (s.endExitSpan l r p) ∧
    ∀ m, m ≠ r.serial → (s.endExitSpan l r p).find m = s.find m := by
  unfold State.endExitSpan
  dsimp only
  obtain ⟨checked, found⟩ := checkElongation_keeps
    (s.modify r.serial fun x => x.endExit p (elongationOf (r.stop.getD r.start - r.start) (p - r.exitStart.getD p))) l r.serial
    (elongationOf (r.stop.getD r.start - r.start) (p - r.exitStart.getD p)) p
  obtain ⟨settled, kept⟩ := settleCheck_keeps (State.checkElongation
    (s.modify r.serial fun x => x.endExit p (elongationOf (r.stop.getD r.start - r.start) (p - r.exitStart.getD p))) l r.serial
    (elongationOf (r.stop.getD r.start - r.start) (p - r.exitStart.getD p)) p) r.serial
  exact ⟨((modify_same ..).trans checked).trans settled,
    fun m hm => ((kept m hm).trans (found m hm)).trans (State.find_modify_ne _ hm _ fun _ => rfl)⟩

/-- What step 3 of R44 leaves. -/
structure ExitClosed (l : LineId) (p : Nat) (s : State) (c : State × Nat) : Prop where
  step : ThroughStep l s c.1
  none : (∀ r, ¬s.ExitOpen l r) → c.2 = 0
  ended : ∀ r, s.ExitOpen l r → c.2 = r.serial ∧ c.1 = s.endExitSpan l r p
  found : ∀ m, (∀ r, s.ExitOpen l r → m ≠ r.serial) → c.1.find m = s.find m
  leaves : s.TailLeaves l → (c.1.line l).through = (s.line l).through.dropLast
  stays : ¬s.TailLeaves l → (c.1.line l).through = (s.line l).through

theorem exitOpen_serial {s : State} {l : LineId} {r : Record} (h : s.ExitOpen l r) :
    (s.line l).through.getLast? = some r.serial ∧ s.find r.serial = some r := by
  obtain ⟨n, tail, found, -⟩ := h
  rw [(CoilTable.find_some found).1]
  exact ⟨tail, found⟩

/-- Nothing is exit-open: the tail leaves or the list stays. -/
theorem exitClosed_none {s : State} {l : LineId} (p : Nat) (h : ∀ r, ¬s.ExitOpen l r) (hs : ¬s.TailLeaves l) :
    ExitClosed l p s (s, 0) :=
  ⟨.refl l s, fun _ => rfl, fun r hr => absurd hr (h r), fun _ _ => rfl, fun hl => absurd hl hs, fun _ => rfl⟩

theorem exitClosed_leaves {s : State} {l : LineId} (p : Nat) (h : ∀ r, ¬s.ExitOpen l r) (hs : s.TailLeaves l) :
    ExitClosed l p s (s.setThrough l (s.line l).through.dropLast, 0) :=
  ⟨.setThrough .., fun _ => rfl, fun r hr => absurd hr (h r), fun _ _ => find_setThrough .., fun _ => setThrough_through ..,
    fun hl => absurd hs hl⟩

theorem exitClosed_ends {s : State} {l : LineId} {r : Record} (p : Nat) (h : s.ExitOpen l r) :
    ExitClosed l p s (s.endExitSpan l r p, r.serial) := by
  obtain ⟨same, kept⟩ := endExitSpan_keeps s l r p
  obtain ⟨tail, found⟩ := exitOpen_serial h
  have only : ∀ r', s.ExitOpen l r' → r' = r := fun r' hr' => by
    obtain ⟨tail', found'⟩ := exitOpen_serial hr'
    rw [tail] at tail'
    rw [← Option.some.inj tail', found] at found'
    exact (Option.some.inj found').symm
  refine ⟨same.throughStep l, fun hn => absurd h (hn r), fun r' hr' => ?_, fun m hm => kept m (hm r h), fun hl => ?_,
    fun _ => by rw [same.line]⟩
  · rw [only r' hr']
    exact ⟨rfl, rfl⟩
  · obtain ⟨n, tail', settled⟩ := hl
    obtain ⟨_, _, _, _, open'⟩ := h
    rw [tail] at tail'
    exact absurd (settled r (Option.some.inj tail' ▸ found)).2 open'

theorem closeExitOpen_closed (s : State) (l : LineId) (p : Nat) : ExitClosed l p s (s.closeExitOpen l p) := by
  unfold State.closeExitOpen
  cases ht : (s.line l).through.getLast? with
  | none =>
    refine exitClosed_none p ?_ ?_
    · rintro r ⟨n, tail, -⟩
      rw [ht] at tail
      cases tail
    · rintro ⟨n, tail, -⟩
      rw [ht] at tail
      cases tail
  | some n =>
    dsimp only
    have tailIs : ∀ {m}, (s.line l).through.getLast? = some m → m = n := fun h => (Option.some.inj (ht.symm.trans h)).symm
    cases hf : s.find n with
    | none =>
      refine exitClosed_leaves p ?_ ⟨n, ht, fun r hr => ?_⟩
      · rintro r ⟨m, tail, found, -⟩
        rw [tailIs tail, hf] at found
        cases found
      · rw [hf] at hr
        cases hr
    | some r =>
      dsimp only
      have foundIs : ∀ {m x}, (s.line l).through.getLast? = some m → s.find m = some x → x = r := fun tail h =>
        (Option.some.inj (hf.symm.trans (tailIs tail ▸ h))).symm
      by_cases he : r.exitEnd = none
      · rw [if_neg (by rw [he]; decide)]
        by_cases hst : r.state = .settled
        · rw [if_pos hst]
          refine exitClosed_leaves p ?_ ⟨n, ht, fun x hx => ?_⟩
          · rintro x ⟨m, tail, found, -, live⟩
            exact live (foundIs tail found ▸ hst)
          · rw [foundIs ht hx]
            exact ⟨he, hst⟩
        · rw [if_neg hst]
          have serial : r.serial = n := (CoilTable.find_some hf).1
          rw [← serial]
          exact exitClosed_ends p ⟨n, ht, hf, he, hst⟩
      · rw [if_pos (Option.isSome_iff_ne_none.2 he)]
        refine exitClosed_none p ?_ ?_
        · rintro x ⟨m, tail, found, absent, -⟩
          exact he (foundIs tail found ▸ absent)
        · rintro ⟨m, tail, left⟩
          exact he (left r (tailIs tail ▸ hf)).1

/-! ## The headed record (R43, R44 step 4, R50) -/

/-- What step 4 of R44 leaves. -/
structure ExitStarted (l : LineId) (n p : Nat) (s : State) (c : State × Nat) : Prop where
  step : ThroughStep l s c.1
  starts : ∀ x, s.find n = some x → x.state ≠ .settled → c.2 = n ∧ c.1.find n = some { x with exitStart := some p }
  lost : (s.find n = none ∨ ∃ x, s.find n = some x ∧ x.state = .settled) → c = (s, 0)
  found : ∀ m, m ≠ c.2 → c.1.find m = s.find m
  unlisted : c.2 = 0 → (c.1.line l).through = (s.line l).through
  room : c.2 ≠ 0 → (s.line l).through.length < 16 → (c.1.line l).through = (s.line l).through ++ [n]
  full : ∀ first more, (s.line l).through = first :: more → c.2 ≠ 0 → 15 ≤ more.length →
    (c.1.line l).through = more ++ [n] ∧ ∀ (u : State) (k : Nat), k < 32 → LogGrows k c.1 u →
      u.Logged .throughOverflow (some l) (some p) (some first) s.track.clock
  log : ∃ k, k ≤ 1 ∧ LogGrows k s c.1
  serial : c.2 = 0 ∨ c.2 = n

theorem pushThrough_room {s : State} {l : LineId} (h : (s.line l).through.length < 16) (n p : Nat) :
    s.pushThrough l n p = s.setThrough l ((s.line l).through ++ [n]) := by
  unfold State.pushThrough
  cases ht : (s.line l).through with
  | nil => rfl
  | cons old rest =>
    rw [ht] at h
    exact if_pos h

theorem pushThrough_full {s : State} {l : LineId} {old : Nat} {rest : List Nat} (ht : (s.line l).through = old :: rest)
    (h : 15 ≤ rest.length) (n p : Nat) : s.pushThrough l n p =
      (s.setThrough l (rest ++ [n])).anomaly .throughOverflow (some l) (some p) (some old) := by
  unfold State.pushThrough
  rw [ht]
  exact if_neg (by simp only [List.length_cons, Config.seamCap]; omega)

/-- Joining the through list leaves the records and enters at most one anomaly (R43). -/
theorem pushThrough_keeps (s : State) (l : LineId) (n p : Nat) : ThroughStep l s (s.pushThrough l n p) ∧
    (∀ m, (s.pushThrough l n p).find m = s.find m) ∧ ∃ k, k ≤ 1 ∧ LogGrows k s (s.pushThrough l n p) := by
  by_cases h : (s.line l).through.length < 16
  · rw [pushThrough_room h]
    exact ⟨.setThrough .., fun m => find_setThrough .., 0, by decide, setThrough_log ..⟩
  · cases ht : (s.line l).through with
    | nil =>
      rw [ht] at h
      exact absurd (by decide) h
    | cons old rest =>
      rw [pushThrough_full ht (by rw [ht, List.length_cons] at h; omega)]
      obtain ⟨same, found⟩ := anomaly_same (s.setThrough l (rest ++ [n])) .throughOverflow (some l) (some p) (some old)
      have entered := (anomaly_logged (s.setThrough l (rest ++ [n])) .throughOverflow (some l) (some p) (some old)).1
      exact ⟨(ThroughStep.setThrough ..).trans (same.throughStep l), fun m => (found m).trans (find_setThrough ..), 0 + 1,
        by decide, (setThrough_log ..).trans entered⟩

theorem startExitSpan_started {s : State} (l : LineId) {n : Nat} (p : Nat) (h0 : s.find 0 = none) :
    ExitStarted l n p s (s.startExitSpan l n p) := by
  unfold State.startExitSpan
  have idle : (∀ x, s.find n = some x → x.state = .settled) → ExitStarted l n p s (s, 0) := fun h =>
    ⟨.refl l s, fun x hx hst => absurd (h x hx) hst, fun _ => rfl, fun _ _ => rfl, fun _ => rfl, fun h => absurd rfl h,
      fun _ _ _ h => absurd rfl h, ⟨0, by decide, .zero rfl rfl⟩, .inl rfl⟩
  cases hf : s.find n with
  | none => exact idle fun x hx => by rw [hf] at hx; cases hx
  | some x =>
    dsimp only
    by_cases hst : x.state = .settled
    · rw [if_pos hst]
      exact idle fun y hy => by rw [hf] at hy; exact Option.some.inj hy ▸ hst
    · rw [if_neg hst]
      have nonzero : n ≠ 0 := by
        rintro rfl
        rw [h0] at hf
        cases hf
      obtain ⟨step, kept, k, hk, log⟩ := pushThrough_keeps (s.modify n fun x => x.startExit p) l n p
      refine ⟨((modify_same ..).throughStep l).trans step, fun y hy _ => ⟨rfl, ?_⟩, ?_, fun m hm => ?_, fun h => absurd h nonzero,
        fun _ hlen => ?_, fun first more ht _ hlen => ?_, ⟨0 + k, by omega, (modify_log ..).trans log⟩, .inr rfl⟩
      · exact (kept n).trans (State.find_modify_self hy _ fun _ => rfl)
      · rintro (h | ⟨y, hy, settled⟩)
        · cases hf.symm.trans h
        · exact absurd (Option.some.inj (hf.symm.trans hy) ▸ settled) hst
      · exact (kept m).trans (State.find_modify_ne _ hm _ fun _ => rfl)
      · dsimp only
        rw [pushThrough_room (s := s.modify n fun x => x.startExit p) hlen, setThrough_through]
        rfl
      · dsimp only
        rw [pushThrough_full (s := s.modify n fun x => x.startExit p) ht hlen]
        obtain ⟨-, logged⟩ := anomaly_logged ((s.modify n fun x => x.startExit p).setThrough l (more ++ [n]))
          .throughOverflow (some l) (some p) (some first)
        rw [anomaly_line, setThrough_through]
        refine ⟨rfl, fun u k hk hg => ?_⟩
        have at' := logged u k hk hg
        rwa [(ThroughStep.setThrough ..).clock] at at'

end Sys2Proof.Machine
end

section
/-! PROOF. The through list at an exit seam event (R40, R43 to R45; O52). -/

namespace Sys2Proof.Machine

theorem exitSeam_refused {s : State} {l : LineId} {p : Nat}
    (h : ¬Passes (s.line l).lastExitSeam (s.line l).seamOutSpacing p) :
    s.exitSeamEvent l p = s.anomaly .spuriousSeamOut (some l) (some p) none := by
  unfold State.exitSeamEvent
  rw [if_neg (fun hp => h ((plausible_iff ..).1 hp))]

theorem exitSeam_passes {s : State} {l : LineId} {p : Nat}
    (h : Passes (s.line l).lastExitSeam (s.line l).seamOutSpacing p) : s.exitSeamEvent l p = (s.acceptExitSeam l p).1 := by
  unfold State.exitSeamEvent
  rw [if_pos ((plausible_iff ..).2 h)]

/-- An exit seam into an empty seam queue (R44 step 1). -/
theorem exitSeam_orphan {s : State} {l : LineId} (h : (s.line l).seamQueue = []) (p : Nat) :
    ∃ u, s.acceptExitSeam l p = (u, 0, 0) ∧
      u = { (s.anomaly .orphanSeam (some l) (some p) none).withLine l { s.line l with lastExitSeam := some p } with
        path.dirty := u.path.dirty } := by
  refine ⟨(s.anomaly .orphanSeam (some l) (some p) none).setLastExitSeam l p, ?_, ?_⟩
  · unfold State.acceptExitSeam
    rw [h]
  · have set := (setLine_eq (s.anomaly .orphanSeam (some l) (some p) none) l
      (((s.anomaly .orphanSeam (some l) (some p) none).line l).withLastExitSeam p)).1
    have line := anomaly_line s .orphanSeam (some l) (some p) none l
    unfold State.setLastExitSeam
    rw [line] at set ⊢
    exact set

theorem exitSeam_takes {s : State} {l : LineId} {e : SeamEntry} {rest : List SeamEntry}
    (h : (s.line l).seamQueue = e :: rest) (p : Nat) {c d : State × Nat} (hc : c = (s.setSeams l rest).closeExitOpen l p)
    (hd : d = c.1.startExitSpan l e.headed p) : s.acceptExitSeam l p = (d.1.setLastExitSeam l p, d.2, c.2) := by
  unfold State.acceptExitSeam
  rw [h, hd, hc]

/-- The last exit seam is set. -/
theorem setLastExitSeam_same (s : State) (l : LineId) (p : Nat) : TrackRest s (s.setLastExitSeam l p) ∧
    (s.setLastExitSeam l p).track.table = s.track.table ∧ LogGrows 0 s (s.setLastExitSeam l p) ∧
    (s.setLastExitSeam l p).line l = { s.line l with lastExitSeam := some p } ∧
    ∀ j, j ≠ l → (s.setLastExitSeam l p).line j = s.line j := by
  refine ⟨setLine_trackRest .., (setLine_table ..).1, setLine_log .., ?_, fun j hj => State.line_setLine_ne _ _ hj⟩
  exact State.line_setLine_self ..

theorem find_zero {s : State} (h : s.SerialsOk) : s.find 0 = none :=
  CoilTable.find_none fun r hr h0 => absurd (h.2.2 r hr).1 (by omega)

/-- Settles O52: the orphan seam, and the exit-open and headed records in the order of R44's steps 3 and 4. -/
theorem anExitSeamMovesTheThroughList : Obligations.AnExitSeamMovesTheThroughList := by
  unfold Obligations.AnExitSeamMovesTheThroughList
  intro s l p
  refine ⟨exitSeam_refused, exitSeam_passes, fun h => exitSeam_orphan h p, ?_⟩
  intro e rest hq hs
  obtain ⟨qrest, qtable, -, qline, qothers⟩ := setSeams_queued s l rest
  have closed := closeExitOpen_closed (s.setSeams l rest) l p
  have accepts := exitSeam_takes hq p rfl rfl
  generalize s.setSeams l rest = q at *
  have qfind : ∀ m, q.find m = s.find m := find_of_table qtable
  have qthrough : (q.line l).through = (s.line l).through := by rw [qline]
  have qopen : ∀ r, q.ExitOpen l r ↔ s.ExitOpen l r := fun r => by simp only [State.ExitOpen, qthrough, qfind]
  have qleaves : q.TailLeaves l ↔ s.TailLeaves l := by simp only [State.TailLeaves, qthrough, qfind]
  have qsettles : ∀ r xe, q.SettlesAt r xe ↔ s.SettlesAt r xe := fun r xe => by
    have stations : ∀ i, q.station i = s.station i := fun i => by
      unfold State.station
      rw [qrest.path]
    simp only [State.SettlesAt, stations]
  generalize hc : q.closeExitOpen l p = c at *
  have zero : c.1.find 0 = none := by
    rw [closed.found, qfind, find_zero hs]
    intro r hr
    have mem := CoilTable.find_some (exitOpen_serial ((qopen r).1 hr)).2
    have := (hs.2.2 r mem.2).1
    omega
  have started := startExitSpan_started l (n := e.headed) p zero
  generalize c.1.startExitSpan l e.headed p = d at *
  obtain ⟨lrest, ltable, llog, lline, lothers⟩ := setLastExitSeam_same d.1 l p
  have lfind : ∀ m, (d.1.setLastExitSeam l p).find m = d.1.find m := find_of_table ltable
  refine ⟨_, _, _, accepts, ?_⟩
  generalize d.1.setLastExitSeam l p = u at *
  have step := closed.step.trans started.step
  have lthrough : (u.line l).through = (d.1.line l).through := by rw [lline]
  have cfind : ∀ m, (∀ r, s.ExitOpen l r → m ≠ r.serial) → c.1.find m = s.find m := fun m hm =>
    (closed.found m fun r hr => hm r ((qopen r).1 hr)).trans (qfind m)
  refine ⟨fun j hj => ?_, ?_, ?_, ?_, ?_, ?_, ?_, ?_, ?_, ?_, ?_, ?_⟩
  · rw [lothers j hj, step.others j hj, qothers j hj]
  · rw [lthrough, lline, step.line, qline]
  · rw [lrest.path, step.path, qrest.path]
  · rw [lrest.clock, step.clock, qrest.clock]
  · rw [ltable, step.idMap, qtable]
  · rw [ltable, step.next, qtable]
  · intro hn
    exact closed.none fun r hr => hn r ((qopen r).1 hr)
  · intro r hr
    obtain ⟨ended, is⟩ := closed.ended r ((qopen r).2 hr)
    refine ⟨ended, fun xs xe hxs hxe hne => ?_⟩
    obtain ⟨r', v, -, found, -, hv, hr', settles, through, -, logged⟩ :=
      endExitSpan_rest (l := l) (p := p) ((qfind _).trans (exitOpen_serial hr).2) hxs hxe
    rw [← is] at found logged
    rw [qline] at hr' logged
    rw [qsettles] at settles through
    have apart : r.serial ≠ d.2 := by
      have low := (hs.2.2 r (CoilTable.find_some (exitOpen_serial hr).2).2).1
      rcases started.serial with h | h
      · omega
      · exact h ▸ hne
    refine ⟨r', v, ?_, hv, hr', settles, through, fun hout => ?_⟩
    · rw [lfind, started.found _ apart, found]
    · obtain ⟨k, hk, log⟩ := started.log
      rw [← qrest.clock]
      exact logged hout u (k + 0) (by omega) (log.trans llog)
  · intro x hx hst hno
    have found : c.1.find e.headed = some x := by
      rw [cfind _ fun r hr h => hno ?_, hx]
      rw [h, (exitOpen_serial hr).2] at hx
      exact Option.some.inj hx ▸ hr
    obtain ⟨is, now⟩ := started.starts x found hst
    exact ⟨is, (lfind _).trans now⟩
  · intro hlost
    have same : c.1.find e.headed = s.find e.headed := cfind _ fun r hr h => by
      have here := h ▸ (exitOpen_serial hr).2
      obtain ⟨_, _, _, _, live⟩ := hr
      rcases hlost with absent | ⟨x, hx, settled⟩
      · cases absent.symm.trans here
      · exact live (Option.some.inj (here.symm.trans hx) ▸ settled)
    have none := started.lost (by rw [same]; exact hlost)
    rw [none]
    refine ⟨rfl, ?_⟩
    rw [lfind, none, same]
  · intro m h1 h2
    rw [lfind, started.found m h1, cfind m fun r hr h => h2 ?_]
    rw [(closed.ended r ((qopen r).2 hr)).1, h]
  · intro kept hkept
    have now : (c.1.line l).through = kept := by
      rw [hkept]
      by_cases h : s.TailLeaves l
      · rw [if_pos h, closed.leaves (qleaves.2 h), qthrough]
      · rw [if_neg h, closed.stays (fun h' => h (qleaves.1 h')), qthrough]
    rw [lthrough, ← now]
    refine ⟨started.unlisted, fun h hlen => started.room h hlen, fun first more ht h hlen => ?_⟩
    obtain ⟨is, logged⟩ := started.full first more ht h hlen
    refine ⟨is, ?_⟩
    have at' := logged u 0 (by decide) llog
    rwa [closed.step.clock, qrest.clock] at at'

end Sys2Proof.Machine
end

section
/-! PROOF. The segments of a cut, and its anomalies (R47, R48; O53). -/

namespace Sys2Proof.Machine

/-! ## The segments (R47) -/

/-- The records of a through list that overlap the cut [lo, e) (R47). -/
def CoilTable.overlaps (t : CoilTable) (lo e : Nat) (through : List Nat) : List Record :=
  (through.filterMap t.find).filter fun x => x.overlapsCut lo e

/-- Those among them that the cut of a record with serial w takes (R48). -/
def CoilTable.parents (t : CoilTable) (w lo e : Nat) (through : List Nat) : List Record :=
  (t.overlaps lo e through).filter fun x => decide (x.serial ≤ w)

/-- A serial stays on the through list after a cut at e: its record is present and not consumed (R47, R50). -/
def CoilTable.keepsThrough (t : CoilTable) (e n : Nat) : Bool := (t.find n).any fun x => !x.consumed e

/-- What `buildCut` has built from the through list. -/
structure CutIs (t : CoilTable) (w lo e : Nat) (through : List Nat) (c : Cut) : Prop where
  segments : c.segments = ((t.parents w lo e through).take 16).map fun x => x.segmentIn lo e
  keep : c.keep = through.filter (t.keepsThrough e)
  late : .lateParent ∈ c.codes ↔ ∃ x ∈ t.overlaps lo e through, w < x.serial
  overflow : .segmentOverflow ∈ c.codes ↔ 16 < (t.parents w lo e through).length
  codes : c.codes.Nodup ∧ ∀ code ∈ c.codes, code = .lateParent ∨ code = .segmentOverflow

theorem overlaps_snoc (t : CoilTable) (lo e : Nat) (through : List Nat) (n : Nat) :
    t.overlaps lo e (through ++ [n]) =
      t.overlaps lo e through ++ ((t.find n).toList.filter fun x => x.overlapsCut lo e) := by
  unfold CoilTable.overlaps
  rw [List.filterMap_append, List.filter_append]
  cases h : t.find n <;> simp [h]

theorem mem_note (c : Cut) (a b : AnomalyCode) : a ∈ (c.note b).codes ↔ a ∈ c.codes ∨ a = b := by
  unfold Cut.note
  split
  · next h =>
    have mem : b ∈ c.codes := by simpa using h
    exact ⟨.inl, fun h => h.elim id fun h => h ▸ mem⟩
  · simp

theorem note_nodup {c : Cut} (h : c.codes.Nodup) (b : AnomalyCode) : (c.note b).codes.Nodup := by
  unfold Cut.note
  split
  · exact h
  · next hn =>
    have absent : b ∉ c.codes := by simpa using hn
    exact List.nodup_append.2 ⟨h, by simp, fun a ha x hx => by
      rw [List.mem_singleton.1 hx]
      rintro rfl
      exact absent ha⟩

@[simp] theorem note_segments (c : Cut) (b : AnomalyCode) : (c.note b).segments = c.segments := by
  unfold Cut.note
  split <;> rfl

@[simp] theorem note_keep (c : Cut) (b : AnomalyCode) : (c.note b).keep = c.keep := by
  unfold Cut.note
  split <;> rfl

/-- The cut with the segment of an overlapping record, or its anomaly (R47, R48). -/
def Cut.take (c : Cut) (w lo e : Nat) (x : Record) : Cut :=
  if w < x.serial then c.note .lateParent
  else if c.segments.length < Config.segmentCap then { c with segments := c.segments ++ [x.segmentIn lo e] }
  else c.note .segmentOverflow

theorem cutVisit_found {t : CoilTable} {n : Nat} {x : Record} (h : t.find n = some x) (w lo e : Nat) (c : Cut) :
    cutVisit t w lo e c n =
      { (if x.overlapsCut lo e then c.take w lo e x else c) with
        keep := c.keep ++ if x.consumed e then [] else [n] } := by
  have keep : (if x.overlapsCut lo e then c.take w lo e x else c).keep = c.keep := by
    unfold Cut.take
    split
    · split
      · simp
      · split
        · rfl
        · simp
    · rfl
  unfold cutVisit
  rw [h]
  dsimp only
  show (if x.consumed e then (if x.overlapsCut lo e then c.take w lo e x else c)
    else { (if x.overlapsCut lo e then c.take w lo e x else c) with
      keep := (if x.overlapsCut lo e then c.take w lo e x else c).keep ++ [n] }) = _
  rw [keep]
  generalize (if x.overlapsCut lo e then c.take w lo e x else c) = d at *
  cases x.consumed e with
  | true => rw [if_pos rfl, if_pos rfl, List.append_nil, ← keep]
  | false => rfl

section
variable {t : CoilTable} {w lo e : Nat} {through : List Nat} {c : Cut} {n : Nat} {x : Record}

/-- A serial whose record does not overlap changes the through list only. -/
theorem CutIs.keeps (h : CutIs t w lo e through c) {keep : List Nat}
    (ho : t.overlaps lo e (through ++ [n]) = t.overlaps lo e through)
    (hk : keep = through.filter (t.keepsThrough e) ++ if t.keepsThrough e n then [n] else []) :
    CutIs t w lo e (through ++ [n]) { c with keep := keep } := by
  obtain ⟨segments, -, late, overflow, codes⟩ := h
  have parents : t.parents w lo e (through ++ [n]) = t.parents w lo e through := by
    unfold CoilTable.parents
    rw [ho]
  refine ⟨by rw [parents]; exact segments, ?_, by rw [ho]; exact late, by rw [parents]; exact overflow, codes⟩
  rw [List.filter_append, hk]
  cases hn : t.keepsThrough e n <;> simp [hn]

/-- A serial whose record overlaps gives its segment or its anomaly. -/
theorem CutIs.takes (h : CutIs t w lo e through c) {keep : List Nat}
    (ho : t.overlaps lo e (through ++ [n]) = t.overlaps lo e through ++ [x])
    (hk : keep = through.filter (t.keepsThrough e) ++ if t.keepsThrough e n then [n] else []) :
    CutIs t w lo e (through ++ [n]) { c.take w lo e x with keep := keep } := by
  obtain ⟨segments, -, late, overflow, nodup, codes⟩ := h
  have kept : keep = (through ++ [n]).filter (t.keepsThrough e) := by
    rw [List.filter_append, hk]
    cases hn : t.keepsThrough e n <;> simp [hn]
  have parents : t.parents w lo e (through ++ [n]) =
      t.parents w lo e through ++ if x.serial ≤ w then [x] else [] := by
    unfold CoilTable.parents
    rw [ho, List.filter_append]
    by_cases hx : x.serial ≤ w <;> simp [hx]
  have length : c.segments.length = min 16 (t.parents w lo e through).length := by
    rw [segments, List.length_map, List.length_take]
  unfold Cut.take
  by_cases hw : w < x.serial
  · rw [if_neg (Nat.not_le.2 hw), List.append_nil] at parents
    rw [if_pos hw]
    refine ⟨?_, kept, ?_, ?_, note_nodup nodup _, fun code hc => ?_⟩
    · rw [parents]
      exact (note_segments ..).trans segments
    · rw [ho]
      refine iff_of_true ((mem_note ..).2 (.inr rfl)) ⟨x, ?_, hw⟩
      simp
    · rw [parents, ← overflow]
      exact (mem_note ..).trans (or_iff_left (by decide))
    · exact ((mem_note ..).1 hc).elim (codes code) .inl
  · rw [if_pos (Nat.not_lt.1 hw)] at parents
    rw [if_neg hw]
    have late' : (∃ y ∈ t.overlaps lo e (through ++ [n]), w < y.serial) ↔ ∃ y ∈ t.overlaps lo e through, w < y.serial := by
      rw [ho]
      simp [hw]
    by_cases hlen : c.segments.length < Config.segmentCap
    · rw [if_pos hlen]
      have short : (t.parents w lo e through).length < 16 := by unfold Config.segmentCap at hlen; omega
      refine ⟨?_, kept, late.trans late'.symm, ?_, nodup, codes⟩
      · rw [parents, List.take_of_length_le (by simp; omega), List.map_append, segments,
          List.take_of_length_le (by omega)]
        rfl
      · refine overflow.trans ?_
        rw [parents, List.length_append, List.length_singleton]
        omega
    · rw [if_neg hlen]
      have long : 16 ≤ (t.parents w lo e through).length := by unfold Config.segmentCap at hlen; omega
      refine ⟨?_, kept, ?_, ?_, note_nodup nodup _, fun code hc => ?_⟩
      · rw [parents, List.take_append_of_le_length long]
        exact (note_segments ..).trans segments
      · exact ((mem_note ..).trans (or_iff_left (by decide))).trans (late.trans late'.symm)
      · refine iff_of_true ((mem_note ..).2 (.inr rfl)) ?_
        rw [parents, List.length_append, List.length_singleton]
        omega
      · exact ((mem_note ..).1 hc).elim (codes code) .inr

theorem CutIs.visit (h : CutIs t w lo e through c) (n : Nat) :
    CutIs t w lo e (through ++ [n]) (cutVisit t w lo e c n) := by
  have overlaps := overlaps_snoc t lo e through n
  cases hf : t.find n with
  | none =>
    have same : cutVisit t w lo e c n = { c with keep := c.keep } := by
      unfold cutVisit
      rw [hf]
    rw [same]
    refine h.keeps ?_ ?_
    · rw [overlaps, hf]
      exact List.append_nil _
    · rw [h.keep]
      simp [CoilTable.keepsThrough, hf]
  | some x =>
    rw [cutVisit_found hf]
    rw [hf] at overlaps
    have keep : c.keep ++ (if x.consumed e then [] else [n]) =
        through.filter (t.keepsThrough e) ++ if t.keepsThrough e n then [n] else [] := by
      rw [h.keep]
      cases hx : x.consumed e <;> simp [CoilTable.keepsThrough, hf, hx]
    cases ho : x.overlapsCut lo e with
    | true => exact h.takes (by rw [overlaps]; simp [ho]) keep
    | false => exact h.keeps (by rw [overlaps]; simp [ho]) keep

end

theorem buildCut_is (t : CoilTable) (w lo e : Nat) (through : List Nat) :
    CutIs t w lo e through (buildCut t w lo e through) := by
  induction through using List.reverseRecOn with
  | nil =>
    refine ⟨rfl, rfl, ?_, ?_, List.nodup_nil, nofun⟩ <;> simp [buildCut, CoilTable.overlaps, CoilTable.parents]
  | append_singleton through n ih =>
    unfold buildCut at ih ⊢
    rw [List.foldl_append]
    exact ih.visit n

theorem CutIs.few {t : CoilTable} {w lo e : Nat} {through : List Nat} {c : Cut} (h : CutIs t w lo e through c) :
    c.codes.length ≤ 2 := by
  obtain ⟨-, -, -, -, nodup, codes⟩ := h
  have sub : c.codes ⊆ [.lateParent, .segmentOverflow] := fun code hc => by simpa using codes code hc
  exact (List.subperm_of_subset nodup sub).length_le

/-! ## The anomalies of a cut (R48) -/

theorem cutAnomalies_same (l : LineId) (p n : Nat) : ∀ (codes : List AnomalyCode) (s : State),
    TableSame s (s.cutAnomalies l p n codes) ∧ (s.cutAnomalies l p n codes).track.table = s.track.table ∧
      LogGrows codes.length s (s.cutAnomalies l p n codes)
  | [], s => ⟨TableSame.refl s, rfl, .zero rfl rfl⟩
  | code :: codes, s => by
    obtain ⟨same, table, log⟩ := cutAnomalies_same l p n codes (s.anomaly code (some l) (some p) (some n))
    have entered := (anomaly_logged s code (some l) (some p) (some n)).1
    refine ⟨(anomaly_same ..).1.trans same, table.trans (State.anomaly_rest ..).1, ?_⟩
    rw [List.length_cons, Nat.add_comm]
    exact entered.trans log

theorem cutAnomalies_logged {l : LineId} {p n : Nat} {code : AnomalyCode} {u : State} {k : Nat} :
    ∀ {codes : List AnomalyCode} {s : State}, code ∈ codes → codes.length + k ≤ 32 →
      LogGrows k (s.cutAnomalies l p n codes) u → u.Logged code (some l) (some p) (some n) s.track.clock
  | [], _, h, _, _ => absurd h (by simp)
  | c :: codes, s, h, hk, hg => by
    rw [List.length_cons] at hk
    have hg' : LogGrows k ((s.anomaly c (some l) (some p) (some n)).cutAnomalies l p n codes) u := hg
    rcases List.mem_cons.1 h with rfl | h
    · have log := (cutAnomalies_same l p n codes (s.anomaly code (some l) (some p) (some n))).2.2
      exact (anomaly_logged s code (some l) (some p) (some n)).2 u (codes.length + k) (by omega) (log.trans hg')
    · have at' := cutAnomalies_logged h (by omega) hg'
      rwa [(anomaly_keeps s c (some l) (some p) (some n)).2.1] at at'

/-! ## Entries of a code that a step does not enter -/

/-- Every entry of `code` in the log of `t` stands in that of `s` at the same index. -/
def NoneNew (code : AnomalyCode) (s t : State) : Prop :=
  ∀ (i : Fin 32) (a : Anomaly), t.track.anomalies[i] = some a → a.code = code → s.track.anomalies[i] = some a

theorem NoneNew.trans {code : AnomalyCode} {s t u : State} (h : NoneNew code s t) (g : NoneNew code t u) :
    NoneNew code s u := fun i a ha hc => h i a (g i a ha hc) hc

theorem NoneNew.of_log {s t : State} (h : t.track.anomalies = s.track.anomalies) (code : AnomalyCode) :
    NoneNew code s t := fun i a ha _ => by rwa [h] at ha

theorem NoneNew.anomaly {c code : AnomalyCode} (h : c ≠ code) (s : State) (l : Option LineId) (p n : Option Nat) :
    NoneNew code s (s.anomaly c l p n) := anomaly_other h l p n

theorem NoneNew.cutAnomalies {code : AnomalyCode} {l : LineId} {p n : Nat} : ∀ {codes : List AnomalyCode} (s : State),
    code ∉ codes → NoneNew code s (s.cutAnomalies l p n codes)
  | [], _, _ => .of_log rfl code
  | c :: codes, s, h => by
    rw [List.mem_cons, not_or] at h
    exact (NoneNew.anomaly (Ne.symm h.1) s (some l) (some p) (some n)).trans (NoneNew.cutAnomalies _ h.2)

theorem NoneNew.settleCheck {code : AnomalyCode} (h : AnomalyCode.journalBacklogFull ≠ code) (s : State) (n : Nat) :
    NoneNew code s (s.settleCheck n) := by
  have joined : ∀ (w : State) (r : Record), NoneNew code w (w.joinBacklog r) := fun w r => by
    unfold State.joinBacklog
    split
    · exact .of_log (State.judgeBacklog_rest _).2.2.2.1 code
    · exact (NoneNew.of_log rfl code).trans (NoneNew.anomaly h w.nextSequence (some r.line) none (some r.serial))
  unfold State.settleCheck
  cases hf : s.find n with
  | none => exact .of_log rfl code
  | some r =>
    dsimp only
    split
    · unfold State.settle
      rw [hf]
      refine ((NoneNew.of_log (t := s.modify n Record.settled) rfl code).trans (joined _ r.settled)).trans (.of_log ?_ code)
      simp only [State.markIf_track, State.mark_track]
      exact (State.raiseTrack_rest ..).2.2.2.1
    · exact .of_log rfl code

/-! ## Places and serials -/

/-- The places in use, each with the serial of its record. -/
def State.placed (s : State) : List (Nat × Nat) := s.track.table.places.map fun e => (e.1, e.2.serial)

theorem placed_of_table {s t : State} (h : t.track.table = s.track.table) : t.placed = s.placed := by
  unfold State.placed
  rw [h]

theorem placed_modify (s : State) (n : Nat) {f : Record → Record} (hf : ∀ r, (f r).serial = r.serial) :
    (s.modify n f).placed = s.placed := by
  unfold State.placed
  rw [State.modify_eq]
  show (mapSerial n f s.track.table.places).map _ = _
  unfold mapSerial
  rw [List.map_map]
  refine List.map_congr_left fun e _ => ?_
  simp only [Function.comp_apply]
  split
  · rw [hf]
  · rfl

theorem placed_settleCheck (s : State) (n : Nat) : (s.settleCheck n).placed = s.placed := by
  unfold State.settleCheck
  cases h : s.find n with
  | none => rfl
  | some r =>
    dsimp only
    split
    · have same := placed_modify s n (f := Record.settled) fun _ => rfl
      unfold State.placed at same ⊢
      rw [State.modify_eq] at same
      rw [(State.settle_rest h).1]
      exact same
    · rfl

theorem placed_serials {s t : State} (h : t.placed = s.placed) :
    t.track.table.records.map (·.serial) = s.track.table.records.map (·.serial) := by
  have mapped := congrArg (List.map (·.2)) h
  simpa [State.placed, CoilTable.records, List.map_map, Function.comp_def] using mapped

theorem placed_free {s t : State} (h : t.placed = s.placed) (k : Nat) :
    tableGet k t.track.table.places = none ↔ tableGet k s.track.table.places = none := by
  have keys : t.track.table.places.map (·.1) = s.track.table.places.map (·.1) := by
    have mapped := congrArg (List.map (·.1)) h
    simpa [State.placed, List.map_map, Function.comp_def] using mapped
  have free : ∀ {x : State}, tableGet k x.track.table.places = none ↔ k ∉ x.track.table.places.map (·.1) := fun {x} => by
    rw [tableGet_none]
    simp only [List.mem_map, not_exists, not_and, ne_eq]
  rw [free, free, keys]

theorem find_tableSet_ne {place n m : Nat} {v : Record} (hv : v.serial = n) (hm : m ≠ n) : ∀ {t : List (Nat × Record)},
    tableGet place t = none → (tableSet place v t).find? (fun e => e.2.serial == m) = t.find? fun e => e.2.serial == m
  | [], _ => by simp [tableSet, hv, Ne.symm hm]
  | (j, w) :: rest, h => by
    have free : j ≠ place ∧ tableGet place rest = none := by
      rw [tableGet_none] at h ⊢
      exact ⟨h _ List.mem_cons_self, fun e he => h e (List.mem_cons_of_mem _ he)⟩
    unfold tableSet
    split
    · rw [List.find?_cons_of_neg (by simp [hv, Ne.symm hm])]
    · rw [if_neg free.1, List.find?_cons, List.find?_cons, find_tableSet_ne hv hm free.2]

end Sys2Proof.Machine
end

section
/-! PROOF. The cut of a WINDING record and the EXIT record opened after it (R46, R65, R69; O53). -/

namespace Sys2Proof.Machine

theorem SeamFrame.rest {l : LineId} {s t : State} (h : SeamFrame l s t) :
    t.path = { s.path with dirty := t.path.dirty } ∧ t.track.clock = s.track.clock := by
  obtain ⟨⟨_, _, _, _, _, _, _, _, rfl⟩, -⟩ := h
  exact ⟨rfl, rfl⟩

theorem SeamFrame.station {l : LineId} {s t : State} (h : SeamFrame l s t) (i : Fin 8) : t.station i = s.station i := by
  unfold State.station
  rw [h.rest.1]

/-! ## The identity map at a cut (R65) -/

theorem mapRecord_eq (s : State) (w : Record) :
    s.mapRecord w = { s with track.table.idMap := (s.mapRecord w).track.table.idMap } := by
  unfold State.mapRecord
  cases w.identity with
  | none => rfl
  | some number =>
    dsimp only
    unfold State.mapWrite
    split
    · rfl
    · split <;> rfl

theorem mapRecord_none {s : State} {w : Record} (h : w.identity = none) : s.mapRecord w = s := by
  unfold State.mapRecord
  rw [h]

theorem mapRecord_some {s : State} {w : Record} {number : Word} (h : w.identity = some number) :
    s.mapRecord w = s.mapWrite number w.serial := by
  unfold State.mapRecord
  rw [h]

/-! ## The cut (R46 step 1) -/

/-- What cutting the WINDING record, where there is one, leaves to the record opened after it. -/
structure BeforeOpening (l : LineId) (s : State) (winding : Option Record) (a : State) : Prop where
  frame : SeamFrame l s a
  next : a.track.table.nextSerial = s.track.table.nextSerial
  placed : a.placed = s.placed
  line : a.line l = { s.line l with through := (a.line l).through }
  found : ∀ m, (∀ w, winding = some w → m ≠ w.serial) → a.find m = s.find m
  old : NoneNew .noAnnouncement s a

/-- What a cut leaves of the record cut, of the through list, the log and the identity map. -/
structure RecordCut (l : LineId) (p : Nat) (t : Time) (s : State) (w : Record) (a : State) : Prop where
  through : (a.line l).through = (s.line l).through.filter (s.track.table.keepsThrough p)
  cut : ∃ w', a.find w.serial = some w' ∧ w' = { w with
      stop := some p, closedAt := some t, state := w'.state
      segments := ((s.track.table.parents w.serial w.start p (s.line l).through).take 16).map fun x => x.segmentIn w.start p
      flags.truncated := w.flags.truncated ||
        (s.overlapping l w.start p).any (fun x => decide (w.serial < x.serial)) ||
        decide (16 < (s.track.table.parents w.serial w.start p (s.line l).through).length) } ∧
    (s.SettlesAt w p → w'.state = .settled) ∧ (¬s.SettlesAt w p → w'.state = .cut)
  late : (∃ x ∈ s.overlapping l w.start p, w.serial < x.serial) → ∀ (u : State) (k : Nat), k ≤ 20 → LogGrows k a u →
    u.Logged .lateParent (some l) (some p) (some w.serial) s.track.clock
  overflow : 16 < (s.track.table.parents w.serial w.start p (s.line l).through).length →
    ∀ (u : State) (k : Nat), k ≤ 20 → LogGrows k a u →
      u.Logged .segmentOverflow (some l) (some p) (some w.serial) s.track.clock
  anonymous : w.identity = none → a.track.table.idMap = s.track.table.idMap
  named : ∀ number, w.identity = some number →
    (∀ held, s.lookupNumber number = some held → w.serial ≤ held → a.track.table.idMap = s.track.table.idMap) ∧
    ((∀ held, s.lookupNumber number = some held → held < w.serial) →
      a.track.table.idMap = tableSet number.toNat w.serial s.track.table.idMap)

/-- The record that a cut at p makes of a record. -/
def Cut.apply (c : Cut) (p : Nat) (t : Time) (x : Record) : Record := x.cutAt p t c.segments (!c.codes.isEmpty)

/-- The state of a cut before its settle check: record, through list, anomalies and identity map. -/
def State.cutWith (s : State) (l : LineId) (w : Record) (p : Nat) (t : Time) (c : Cut) : State :=
  (((s.modify w.serial (c.apply p t)).setThrough l c.keep).cutAnomalies l p w.serial c.codes).mapRecord w

theorem cutRecord_eq (s : State) (l : LineId) (w : Record) (p : Nat) (t : Time) : s.cutRecord l w p t =
    (s.cutWith l w p t (buildCut s.track.table w.serial w.start p (s.line l).through)).settleCheck w.serial := rfl

/-- What the cut leaves before its settle check; `c` is the cut built. -/
structure Unchecked (l : LineId) (p : Nat) (t : Time) (s : State) (w : Record) (c : Cut) (b : State) : Prop where
  next : b.track.table.nextSerial = s.track.table.nextSerial
  placed : b.placed = s.placed
  line : b.line l = { s.line l with through := c.keep }
  found : ∀ m, m ≠ w.serial → b.find m = s.find m
  cut : b.find w.serial = some (c.apply p t w)
  old : .noAnnouncement ∉ c.codes → NoneNew .noAnnouncement s b
  logged : ∀ code ∈ c.codes, ∀ (u : State) (k : Nat), c.codes.length + k ≤ 32 → LogGrows k b u →
    u.Logged code (some l) (some p) (some w.serial) s.track.clock
  anonymous : w.identity = none → b.track.table.idMap = s.track.table.idMap
  named : ∀ number, w.identity = some number →
    (∀ held, s.lookupNumber number = some held → w.serial ≤ held → b.track.table.idMap = s.track.table.idMap) ∧
    ((∀ held, s.lookupNumber number = some held → held < w.serial) →
      b.track.table.idMap = tableSet number.toNat w.serial s.track.table.idMap)

theorem cutWith_unchecked {s : State} {w : Record} (hw : s.find w.serial = some w) (l : LineId) (p : Nat) (t : Time)
    (c : Cut) : Unchecked l p t s w c (s.cutWith l w p t c) := by
  unfold State.cutWith
  have cut := State.find_modify_self hw (c.apply p t) fun _ => rfl
  have others := fun m (hm : m ≠ w.serial) => State.find_modify_ne s hm (c.apply p t) fun _ => rfl
  have placed := placed_modify s w.serial (f := c.apply p t) fun _ => rfl
  obtain ⟨next1, idMap1, line1, clock1, entries1⟩ :
      (s.modify w.serial (c.apply p t)).track.table.nextSerial = s.track.table.nextSerial ∧
      (s.modify w.serial (c.apply p t)).track.table.idMap = s.track.table.idMap ∧
      (s.modify w.serial (c.apply p t)).line l = s.line l ∧
      (s.modify w.serial (c.apply p t)).track.clock = s.track.clock ∧
      (s.modify w.serial (c.apply p t)).track.anomalies = s.track.anomalies := ⟨rfl, rfl, rfl, rfl, rfl⟩
  generalize s.modify w.serial (c.apply p t) = x1 at *
  obtain ⟨table2, entries2, -⟩ := setLine_table x1 l ((x1.line l).withThrough c.keep)
  have line2 : (x1.setThrough l c.keep).line l = { s.line l with through := c.keep } := by
    rw [← line1]
    exact State.line_setLine_self ..
  have clock2 : (x1.setThrough l c.keep).track.clock = s.track.clock := (setLine_trackRest ..).clock.trans clock1
  have log2 : NoneNew .noAnnouncement s (x1.setThrough l c.keep) := .of_log (entries2.trans entries1) _
  have tables2 : (x1.setThrough l c.keep).track.table = x1.track.table := table2
  generalize x1.setThrough l c.keep = x2 at *
  obtain ⟨same3, table3, -⟩ := cutAnomalies_same l p w.serial c.codes x2
  have log3 := NoneNew.cutAnomalies (code := .noAnnouncement) (l := l) (p := p) (n := w.serial) (codes := c.codes) x2
  have logged := fun code hc u k hk hg => cutAnomalies_logged (l := l) (p := p) (n := w.serial) (code := code) (u := u)
    (k := k) (codes := c.codes) (s := x2) hc hk hg
  generalize x2.cutAnomalies l p w.serial c.codes = x3 at *
  have tables : x3.track.table = x1.track.table := table3.trans tables2
  have mapped := mapRecord_eq x3 w
  have number : x3.lookupNumber = s.lookupNumber := by
    funext x
    unfold State.lookupNumber
    rw [tables, idMap1]
  have idMap : x3.track.table.idMap = s.track.table.idMap := by rw [tables, idMap1]
  refine ⟨?_, ?_, ?_, fun m hm => ?_, ?_, fun h => ?_, fun code hc u k hk hg => ?_, fun h => ?_, fun x h => ⟨fun held hl hle => ?_,
    fun hlt => ?_⟩⟩
  · rw [mapped]
    exact (congrArg CoilTable.nextSerial tables).trans next1
  · rw [mapped]
    exact (placed_of_table tables).trans placed
  · rw [mapped]
    exact (same3.line l).trans line2
  · rw [mapped]
    exact (find_of_table tables m).trans (others m hm)
  · rw [mapped]
    exact (find_of_table tables _).trans cut
  · rw [mapped]
    exact log2.trans (log3 h)
  · have at' := logged code hc u (0 + k) (by omega) (LogGrows.trans ?_ hg)
    · rwa [clock2] at at'
    · rw [mapped]
      exact .zero rfl rfl
  · rw [mapRecord_none h, idMap]
  · rw [mapRecord_some h, (mapWrite_kept (s := x3) (number := x) (by rw [number]; exact hl) hle).1, idMap]
  · rw [mapRecord_some h, (mapWrite_set (s := x3) (number := x) (by rw [number]; exact hlt)).1, ← idMap]
    rfl

end Sys2Proof.Machine
end

section
/-! PROOF. An accepted SHEAR (R40, R46 to R48; O53). -/

namespace Sys2Proof.Machine

/-! ## The cut with its settle check (R69) -/

theorem overlapping_eq (s : State) (l : LineId) (lo e : Nat) :
    s.overlapping l lo e = s.track.table.overlaps lo e (s.line l).through := rfl

theorem cutRecord_before {s : State} {w : Record} (hw : s.find w.serial = some w) (l : LineId) (p : Nat) (t : Time) :
    BeforeOpening l s (some w) (s.cutRecord l w p t) := by
  have frame := SeamFrame.cutRecord s l w p t
  have built := buildCut_is s.track.table w.serial w.start p (s.line l).through
  rw [cutRecord_eq] at frame ⊢
  have made := cutWith_unchecked hw l p t (buildCut s.track.table w.serial w.start p (s.line l).through)
  generalize s.cutWith l w p t (buildCut s.track.table w.serial w.start p (s.line l).through) = b at *
  obtain ⟨same, found⟩ := settleCheck_keeps b w.serial
  have step := same.throughStep l
  have absent : AnomalyCode.noAnnouncement ∉ (buildCut s.track.table w.serial w.start p (s.line l).through).codes :=
    fun h => (built.codes.2 _ h).elim (by decide) (by decide)
  refine ⟨frame, same.next.trans made.next, (placed_settleCheck ..).trans made.placed, ?_, fun m hm => ?_,
    (made.old absent).trans (.settleCheck (by decide) _ _)⟩
  · rw [step.line, made.line]
  · exact (found m (hm w rfl)).trans (made.found m (hm w rfl))

theorem cutRecord_cut {s : State} {w : Record} (hw : s.find w.serial = some w) (l : LineId) (p : Nat) (t : Time) :
    RecordCut l p t s w (s.cutRecord l w p t) := by
  have built := buildCut_is s.track.table w.serial w.start p (s.line l).through
  have stations := (cutRecord_before hw l p t).frame.station
  rw [cutRecord_eq] at stations ⊢
  have made := cutWith_unchecked hw l p t (buildCut s.track.table w.serial w.start p (s.line l).through)
  generalize s.cutWith l w p t (buildCut s.track.table w.serial w.start p (s.line l).through) = b at *
  have few := built.few
  generalize buildCut s.track.table w.serial w.start p (s.line l).through = c at *
  obtain ⟨same, found, -, k', hk', log⟩ := settleCheck_same made.cut
  have truncated : (!c.codes.isEmpty) = ((s.overlapping l w.start p).any (fun x => decide (w.serial < x.serial)) ||
      decide (16 < (s.track.table.parents w.serial w.start p (s.line l).through).length)) := by
    rw [Bool.eq_iff_iff]
    simp only [Bool.not_eq_true', List.isEmpty_eq_false_iff, Bool.or_eq_true, List.any_eq_true, decide_eq_true_eq,
      overlapping_eq, ← built.late, ← built.overflow]
    refine ⟨fun h => ?_, fun h hn => by simp [hn] at h⟩
    obtain ⟨code, hc⟩ := List.exists_mem_of_ne_nil _ h
    exact (built.codes.2 code hc).imp (fun is => by rwa [is] at hc) fun is => by rwa [is] at hc
  have meets : b.meetsSettle (c.apply p t w) = true ↔ s.SettlesAt w p := by
    rw [meetsSettle_iff (.inr rfl) rfl]
    simp only [State.SettlesAt, ← stations, same.station]
    exact Iff.rfl
  refine ⟨?_, ⟨_, found, ?_, fun h => ?_, fun h => ?_⟩, fun h u k hk hg => ?_, fun h u k hk hg => ?_, fun h => ?_, fun x h => ?_⟩
  · rw [same.line, made.line]
    exact built.keep
  · rw [← built.segments, Bool.or_assoc, ← truncated]
    cases b.meetsSettle (c.apply p t w) <;> rfl
  · rw [if_pos (meets.2 h)]
    rfl
  · rw [if_neg (fun h' => h (meets.1 h'))]
    rfl
  · exact made.logged _ (built.late.2 h) u (k' + k) (by omega) (log.trans hg)
  · exact made.logged _ (built.overflow.2 h) u (k' + k) (by omega) (log.trans hg)
  · exact same.idMap.trans (made.anonymous h)
  · rw [same.idMap]
    exact made.named x h

theorem cutWinding_before {s : State} {winding : Option Record} (hw : ∀ w, winding = some w → s.find w.serial = some w)
    (l : LineId) (p : Nat) (t : Time) : BeforeOpening l s winding (s.cutWinding l winding p t) := by
  cases winding with
  | none => exact ⟨SeamFrame.refl l s, rfl, rfl, rfl, fun _ _ => rfl, .of_log rfl _⟩
  | some w => exact cutRecord_before (hw w rfl) l p t

/-! ## The EXIT record (R37, R46 step 2) -/

/-- What opening an EXIT record leaves, where a place is free or the serials are used up. -/
structure ExitOpened (l : LineId) (p n : Nat) (t : Time) (s v : State) : Prop where
  rest : TrackRest s v
  next : v.track.table.nextSerial = if n = 0 ∨ n = 4294967295 then 0 else n + 1
  idMap : v.track.table.idMap = s.track.table.idMap
  line : v.line l = { s.line l with exitQueue := if n = 0 then (s.line l).exitQueue else (s.line l).exitQueue.tail }
  others : ∀ j, j ≠ l → v.line j = s.line j
  new : n ≠ 0 → v.find n = some (opened n .exit l .winding (s.line l).exitQueue.head? t p none)
  found : ∀ m, m ≠ n → v.find m = s.find m
  spent : n = 0 → v = s
  log : ∃ k, k ≤ 1 ∧ LogGrows k s v
  logged : n ≠ 0 → (s.line l).exitQueue = [] → ∀ (u : State) (k : Nat), k < 32 → LogGrows k v u →
    u.Logged .noAnnouncement (some l) (some p) (some n) s.track.clock

theorem exitOpened {s : State} {l : LineId} {p : Nat} {t : Time} {n place : Nat} (ht : s.TableOk)
    (hn : n = s.track.table.nextSerial) (hfresh : ∀ e ∈ s.track.table.places, e.2.serial ≠ n)
    (hplace : n = 0 ∨ place < 8192 ∧ tableGet place s.track.table.places = none ∧
      ∀ j, j < place → tableGet j s.track.table.places ≠ none) :
    ∃ v, s.openRecord .exit l p t = (v, n) ∧ ExitOpened l p n t s v := by
  by_cases h0 : n = 0
  · rw [openRecord_spent (hn ▸ h0)]
    refine ⟨s, by rw [h0], TrackRest.refl s, ?_, rfl, ?_, fun _ _ => rfl, fun h => absurd h0 h, fun _ _ => rfl, fun _ => rfl,
      ⟨0, by decide, .zero rfl rfl⟩, fun h => absurd h0 h⟩
    · rw [if_pos (.inl h0), ← hn, h0]
    · rw [if_pos h0]
  · obtain ⟨hp, hget, hlow⟩ := hplace.resolve_left h0
    obtain ⟨v, hv, rest, table, line, others, kept, entered⟩ :=
      openRecord_rest (kind := .exit) (l := l) (p := p) (t := t) ht hp hget hlow hn h0
    have places := congrArg CoilTable.places table
    refine ⟨v, hv, rest, ?_, by rw [table], ?_, others, fun _ => ?_, fun m hm => ?_, fun h => absurd h h0, ?_,
      fun _ hq u k hk hg => ?_⟩
    · rw [congrArg CoilTable.nextSerial table]
      simp only [h0, false_or]
    · rw [if_neg h0]
      exact line
    · exact find_tableSet (t := s.track.table) rfl hfresh _ places
    · unfold State.find CoilTable.find
      rw [places, find_tableSet_ne rfl hm hget]
    · by_cases hq : (s.line l).queue .exit = []
      · obtain ⟨count, entries⟩ := entered hq
        exact ⟨1, le_refl 1, .add _ (.zero rfl rfl) entries count⟩
      · obtain ⟨entries, count⟩ := kept hq
        exact ⟨0, by decide, .zero entries count⟩
    · obtain ⟨count, entries⟩ := entered hq
      refine ⟨⟨s.track.anomalyCount.toNat % 32, Nat.mod_lt _ (by decide)⟩, s.track.anomalyCount, ?_⟩
      exact hg.get hk s.track.anomalyCount count _ (by rw [entries]; exact Vector.getElem_set_self _)

theorem log_entries {s t : State} (h : LogGrows 0 s t) : t.track.anomalies = s.track.anomalies := by
  cases h with
  | zero entries _ => exact entries

/-! ## An accepted SHEAR -/

theorem shear_refused {s : State} {l : LineId} {p : Nat} (h : ¬Passes (s.line l).lastShear (s.line l).shearSpacing p)
    (t : Time) : s.capture l .shear p t = s.anomaly .spuriousShear (some l) (some p) none := by
  show s.shearEvent l p t = _
  unfold State.shearEvent
  rw [if_neg (fun hp => h ((plausible_iff ..).1 hp))]

theorem shear_passes {s : State} {l : LineId} {p : Nat} (h : Passes (s.line l).lastShear (s.line l).shearSpacing p)
    (t : Time) : s.capture l .shear p t = (s.acceptShear l p t).1 := by
  show s.shearEvent l p t = _
  unfold State.shearEvent
  rw [if_pos ((plausible_iff ..).2 h)]

/-- The last SHEAR is set and the line's group marked where a record was cut. -/
theorem setLastShear_same (s : State) (l : LineId) (p : Nat) (cut : Bool) {u : State}
    (hu : u = (s.setLastShear l p).markIf cut (lineGroup l)) : TrackRest s u ∧ u.track.table = s.track.table ∧
    LogGrows 0 s u ∧ u.line l = { s.line l with lastShear := some p } ∧ ∀ j, j ≠ l → u.line j = s.line j := by
  obtain ⟨marked, track⟩ := markIf_trackRest (s.setLastShear l p) cut (lineGroup l)
  rw [← hu] at marked track
  have line : ∀ j, u.line j = (s.setLastShear l p).line j := fun j => by
    unfold State.line
    rw [track]
  obtain ⟨table, entries, count⟩ := setLine_table s l ((s.line l).withLastShear p)
  refine ⟨(setLine_trackRest ..).trans marked, track ▸ table, ?_, (line l).trans (State.line_setLine_self ..),
    fun j hj => (line j).trans (State.line_setLine_ne _ _ hj)⟩
  exact .zero (track ▸ entries) (track ▸ count)

theorem fresh_of_placed {s a : State} (hs : s.SerialsOk) (h : a.placed = s.placed) :
    ∀ e ∈ a.track.table.places, e.2.serial ≠ s.track.table.nextSerial := by
  intro e he
  have mem : e.2.serial ∈ a.track.table.records.map (·.serial) :=
    List.mem_map.2 ⟨e.2, List.mem_map.2 ⟨e, he, rfl⟩, rfl⟩
  rw [placed_serials h] at mem
  obtain ⟨r, hr, serial⟩ := List.mem_map.1 mem
  obtain ⟨low, -, below⟩ := hs.2.2 r hr
  rw [← serial]
  omega

/-- Settles O53: the cut, its settle check, and the EXIT record opened after it. -/
theorem aShearCutsTheWindingRecord : Obligations.AShearCutsTheWindingRecord := by
  unfold Obligations.AShearCutsTheWindingRecord
  intro s l p t
  refine ⟨fun h => shear_refused h t, fun h => shear_passes h t, ?_⟩
  intro n place winding ht hs hn hplace hwinding
  have isOpen : s.findOpen l .winding = winding := (findOpen_eq s l .winding).trans hwinding.symm
  have held : ∀ w, winding = some w → w ∈ s.track.table.records ∧ s.find w.serial = some w := fun w hw => by
    rw [hwinding] at hw
    have mem := List.mem_of_find?_eq_some hw
    exact ⟨mem, CoilTable.find_of_mem hs.1 mem⟩
  have before := cutWinding_before (fun w hw => (held w hw).2) l p t
  have cut : ∀ w, winding = some w → RecordCut l p t s w (s.cutWinding l winding p t) := fun w hw => by
    rw [hw]
    exact cutRecord_cut (held w hw).2 l p t
  have untouched : winding = none → s.cutWinding l winding p t = s := fun h => by rw [h]; rfl
  have accepts : ∀ v, (s.cutWinding l winding p t).openRecord .exit l p t = (v, n) → s.acceptShear l p t =
      ((v.setLastShear l p).markIf winding.isSome (lineGroup l), n, (winding.map (·.serial)).getD 0) := fun v hv => by
    unfold State.acceptShear
    rw [isOpen]
    dsimp only
    rw [hv]
    rfl
  generalize s.cutWinding l winding p t = a at *
  obtain ⟨v, opens, exit⟩ := exitOpened (s := a) (l := l) (p := p) (t := t) (before.frame.2.1.table ht)
    (hn.trans before.next.symm) (hn ▸ fresh_of_placed hs before.placed)
    (by simpa only [ne_eq, placed_free before.placed] using hplace)
  refine ⟨_, accepts v opens, ?_⟩
  obtain ⟨rest, table, log, line, others⟩ := setLastShear_same v l p winding.isSome rfl
  generalize (v.setLastShear l p).markIf winding.isSome (lineGroup l) = u at *
  obtain ⟨path, clock⟩ := before.frame.rest
  have all := exit.rest.trans rest
  have found : ∀ m, m ≠ n → u.find m = a.find m := fun m hm => (find_of_table table m).trans (exit.found m hm)
  have through : (u.line l).through = (a.line l).through := by rw [line, exit.line]
  have idMap : u.track.table.idMap = a.track.table.idMap := (congrArg CoilTable.idMap table).trans exit.idMap
  obtain ⟨k, hk, opening⟩ := exit.log
  refine ⟨fun j hj => ?_, ?_, ?_, ?_, ?_, fun h => ?_, fun h hq => ?_, fun h => ⟨?_, fun i x hx hcode => ?_⟩, fun m hm hw => ?_,
    fun hw => ⟨?_, ?_⟩, fun w hw => ⟨?_, ?_, fun h => ?_, fun h => ?_, fun h => ?_, fun number hi => ?_⟩⟩
  · rw [others j hj, exit.others j hj, before.frame.2.2.2 j hj]
  · rw [through, line, exit.line, before.line]
  · rw [all.path, path]
  · rw [all.clock, clock]
  · rw [table, exit.next]
  · rw [find_of_table table, exit.new h, before.line]
  · rw [← clock]
    exact exit.logged h (by rw [before.line]; exact hq) u 0 (by decide) log
  · rw [table, exit.spent h, placed_serials before.placed]
  · refine before.old i x ?_ hcode
    rw [← exit.spent h]
    exact NoneNew.of_log (log_entries log) .noAnnouncement i x hx hcode
  · exact (found m hm).trans (before.found m hw)
  · rw [through, untouched hw]
  · rw [idMap, untouched hw]
  · rw [through, (cut w hw).through]
    refine List.filter_congr fun m _ => ?_
    unfold CoilTable.keepsThrough State.find
    cases s.track.table.find m <;> rfl
  · obtain ⟨w', at', is, settles⟩ := (cut w hw).cut
    refine ⟨w', (found _ fun h => ?_).trans at', is, settles⟩
    obtain ⟨low, -, below⟩ := hs.2.2 w (held w hw).1
    omega
  · exact (cut w hw).late h u (k + 0) (by omega) (opening.trans log)
  · exact (cut w hw).overflow h u (k + 0) (by omega) (opening.trans log)
  · rw [idMap, (cut w hw).anonymous h]
  · rw [idMap]
    exact (cut w hw).named number hi

end Sys2Proof.Machine
end

section
/-! PROOF. Tallies counted and records settled: what a stretch of a sealing run leaves of the records and the journal
(R67 to R70, R163; O55). -/

namespace Sys2Proof.Machine

/-- A record with the tally `tl` gives it, SETTLED where `st` says so. -/
def Record.sealedAs (tl : Record → Tally) (st : Record → Bool) (r : Record) : Record :=
  { r with tally := tl r, state := if st r then .settled else r.state }

/-- The flags that `n` settlings raise with `n` entries more in a backlog of `held`: RECORD_SETTLED and BACKLOG_HIGH. -/
def raisedBy (held n : Nat) : Word := (if n = 0 then 0 else 0x2) ||| if n ≠ 0 ∧ 96 ≤ held + n then 0x8 else 0

theorem raisedBy_zero (held : Nat) : raisedBy held 0 = 0 := by simp [raisedBy]

theorem settled_or (a b : Bool) (x : RecordState) :
    (if b then .settled else if a then .settled else x) = if a || b then RecordState.settled else x := by
  cases a <;> cases b <;> rfl

theorem sealedAs_sealedAs (r : Record) (tl tl' : Record → Tally) (st st' : Record → Bool) :
    (r.sealedAs tl st).sealedAs tl' st' =
      r.sealedAs (fun r => tl' (r.sealedAs tl st)) fun r => st r || st' (r.sealedAs tl st) :=
  congrArg (fun x => ({ r with tally := tl' (r.sealedAs tl st), state := x } : Record))
    (settled_or (st r) (st' (r.sealedAs tl st)) r.state)

/-- The journal entries of records settled in the order of the list (R70). -/
def journalOf (seq : Nat) (t : Time) (rs : List Record) : List JournalEntry :=
  rs.mapIdx fun j r => { seq := seq + j, settledAt := t, record := r }

/-- The records that `st` settles, as they are settled. -/
def State.settledBy (s : State) (tl : Record → Tally) (st : Record → Bool) : List Record :=
  (s.track.table.records.filter st).map fun r => { r with tally := tl r, state := .settled }

/-- From `s` to `t` each record gets the tally `tl` gives it and those that `st` chooses are settled, each with its final
tally; with room in the backlog they all enter the journal and no anomaly arises. -/
structure Tallied (s t : State) (tl : Record → Tally) (st : Record → Bool) : Prop where
  places : t.track.table.places = s.track.table.places.map fun e => (e.1, e.2.sealedAs tl st)
  clock : t.track.clock = s.track.clock
  nextSeq : t.track.nextSeq = s.track.nextSeq + (s.track.table.records.filter st).length
  fits : s.track.backlog.length + (s.track.table.records.filter st).length ≤ 128 →
    t.track.anomalies = s.track.anomalies ∧ t.track.anomalyCount = s.track.anomalyCount ∧
    t.track.trackingFlags =
      s.track.trackingFlags ||| raisedBy s.track.backlog.length (s.track.table.records.filter st).length ∧
    ∃ new : List Record, new.Perm (s.settledBy tl st) ∧
      t.track.backlog = s.track.backlog ++ journalOf s.track.nextSeq s.track.clock new

/-- A SETTLED record takes no addition and is not settled again. -/
def Inert (tl : Record → Tally) (st : Record → Bool) : Prop :=
  ∀ r, r.state = .settled → tl r = r.tally ∧ st r = false

theorem Tallied.records {s t : State} {tl : Record → Tally} {st : Record → Bool} (h : Tallied s t tl st) :
    t.track.table.records = s.track.table.records.map (Record.sealedAs tl st) := by
  unfold CoilTable.records
  rw [h.places, List.map_map, List.map_map]
  rfl

/-- No record is settled. -/
theorem Tallied.tallies {s t : State} {tl : Record → Tally} {table : CoilTable}
    (hr : t.track = { s.track with table := table })
    (hp : table.places = s.track.table.places.map fun e => (e.1, { e.2 with tally := tl e.2 })) :
    Tallied s t tl fun _ => false := by
  have none : s.track.table.records.filter (fun _ => false) = [] := by simp
  refine ⟨?_, by rw [hr], by rw [hr, none]; rfl, fun _ => ⟨by rw [hr], by rw [hr], ?_, [], ?_, ?_⟩⟩
  · rw [hr]
    exact hp
  · rw [hr, none]
    show s.track.trackingFlags = s.track.trackingFlags ||| raisedBy s.track.backlog.length 0
    rw [raisedBy_zero, word_or_zero]
  · unfold State.settledBy
    rw [none]
    exact .refl _
  · rw [hr]
    exact (List.append_nil _).symm

theorem Tallied.of_track {s t : State} (h : t.track = s.track) : Tallied s t Record.tally fun _ => false :=
  .tallies (table := s.track.table) h (List.map_id _).symm

theorem filter_or_perm {α : Type} (p q : α → Bool) : ∀ {xs : List α}, (∀ x ∈ xs, p x = true → q x = false) →
    (xs.filter fun x => p x || q x).Perm (xs.filter p ++ xs.filter q)
  | [], _ => .refl _
  | x :: rest, h => by
    have ih := filter_or_perm p q fun y hy => h y (List.mem_cons_of_mem _ hy)
    cases hp : p x with
    | true =>
      have hq := h x List.mem_cons_self hp
      simpa [hp, hq] using ih
    | false =>
      cases hq : q x with
      | true => simpa [hp, hq] using (ih.cons x).trans List.perm_middle.symm
      | false => simpa [hp, hq] using ih

theorem raisedBy_add (held n m : Nat) : raisedBy held n ||| raisedBy (held + n) m = raisedBy held (n + m) := by
  unfold raisedBy
  rcases Nat.eq_zero_or_pos n with hn | hn
  · rw [hn, Nat.zero_add, Nat.add_zero]
    simp
  · rcases Nat.eq_zero_or_pos m with hm | hm
    · rw [hm]
      simp
    · have hn' : n ≠ 0 := by omega
      have hm' : m ≠ 0 := by omega
      have hs : n + m ≠ 0 := by omega
      by_cases h1 : 96 ≤ held + n
      · have h2 : 96 ≤ held + (n + m) := by omega
        have h3 : 96 ≤ held + n + m := by omega
        simp only [hn', hm', hs, h1, h2, h3, ne_eq, not_false_eq_true, and_self, if_true, if_false]
        decide
      · by_cases h2 : 96 ≤ held + n + m
        · have h3 : 96 ≤ held + (n + m) := by omega
          simp only [hn', hm', hs, h1, h2, h3, ne_eq, not_false_eq_true, and_self, and_false, if_true, if_false]
          decide
        · have h3 : ¬96 ≤ held + (n + m) := by omega
          simp only [hn', hm', hs, h1, h2, h3, ne_eq, not_false_eq_true, and_false, if_false]
          decide

theorem journalOf_append (seq : Nat) (t : Time) (xs ys : List Record) :
    journalOf seq t (xs ++ ys) = journalOf seq t xs ++ journalOf (seq + xs.length) t ys := by
  unfold journalOf
  rw [List.mapIdx_append]
  congr 1
  refine List.mapIdx_eq_mapIdx_iff.2 fun i _ => ?_
  rw [Nat.add_comm i, Nat.add_assoc]

section
variable {s t u : State} {tl tl' : Record → Tally} {st st' : Record → Bool}

/-- The records two stretches settle. -/
theorem settledBy_trans (h : Tallied s t tl st) (hi : Inert tl' st') :
    ((s.track.table.records.filter st).length + (t.track.table.records.filter st').length =
      (s.track.table.records.filter fun r => st r || st' (r.sealedAs tl st)).length) ∧
    (s.settledBy (fun r => tl' (r.sealedAs tl st)) fun r => st r || st' (r.sealedAs tl st)).Perm
      (s.settledBy tl st ++ t.settledBy tl' st') := by
  have settled : ∀ r : Record, st r = true → (r.sealedAs tl st).state = .settled := fun r hr => by
    unfold Record.sealedAs
    rw [hr]
    rfl
  have perm := filter_or_perm st (fun r => st' (r.sealedAs tl st)) (xs := s.track.table.records)
    fun r _ hr => (hi _ (settled r hr)).2
  have later : t.track.table.records.filter st' =
      (s.track.table.records.filter fun r => st' (r.sealedAs tl st)).map (Record.sealedAs tl st) := by
    rw [h.records, List.filter_map]
    rfl
  refine ⟨?_, ?_⟩
  · rw [perm.length_eq, List.length_append, later, List.length_map]
  · unfold State.settledBy
    rw [later, List.map_map]
    refine (perm.map _).trans ?_
    rw [List.map_append]
    refine .of_eq (congrArg₂ _ (List.map_congr_left fun r hr => ?_) rfl)
    have same := (hi _ (settled r (List.mem_filter.1 hr).2)).1
    exact congrArg (fun x => ({ r with tally := x, state := .settled } : Record)) same

theorem Tallied.trans (h : Tallied s t tl st) (g : Tallied t u tl' st') (hi : Inert tl' st') :
    Tallied s u (fun r => tl' (r.sealedAs tl st)) fun r => st r || st' (r.sealedAs tl st) := by
  obtain ⟨count, perm⟩ := settledBy_trans h hi
  refine ⟨?_, g.clock.trans h.clock, ?_, fun hroom => ?_⟩
  · rw [g.places, h.places, List.map_map]
    refine List.map_congr_left fun e _ => ?_
    exact congrArg (Prod.mk e.1) (sealedAs_sealedAs e.2 tl tl' st st')
  · rw [g.nextSeq, h.nextSeq, Nat.add_assoc, count]
  · rw [← count] at hroom ⊢
    obtain ⟨entries, counter, flags, new, hnew, backlog⟩ := h.fits (by omega)
    have length : new.length = (s.track.table.records.filter st).length := by
      rw [hnew.length_eq]
      exact List.length_map ..
    have held : t.track.backlog.length = s.track.backlog.length + (s.track.table.records.filter st).length := by
      rw [backlog, List.length_append, ← length]
      exact congrArg _ List.length_mapIdx
    obtain ⟨entries', counter', flags', new', hnew', backlog'⟩ := g.fits (by omega)
    refine ⟨entries'.trans entries, counter'.trans counter, ?_, new ++ new', (hnew.append hnew').trans perm.symm, ?_⟩
    · rw [flags', flags, held, BitVec.or_assoc, raisedBy_add]
    · rw [backlog', backlog, h.nextSeq, h.clock, journalOf_append, length, List.append_assoc]

/-- Only what the functions give to records of the table counts. -/
theorem Tallied.congr (h : Tallied s t tl st) (ht : ∀ r ∈ s.track.table.records, tl r = tl' r)
    (hs : ∀ r ∈ s.track.table.records, st r = st' r) : Tallied s t tl' st' := by
  have filter : s.track.table.records.filter st = s.track.table.records.filter st' := List.filter_congr hs
  obtain ⟨places, clock, nextSeq, fits⟩ := h
  refine ⟨?_, clock, by rw [← filter]; exact nextSeq, fun hroom => ?_⟩
  · rw [places]
    refine List.map_congr_left fun e he => ?_
    have mem : e.2 ∈ s.track.table.records := List.mem_map.2 ⟨e, he, rfl⟩
    unfold Record.sealedAs
    rw [ht _ mem, hs _ mem]
  · rw [← filter] at hroom ⊢
    obtain ⟨entries, counter, flags, new, hnew, backlog⟩ := fits hroom
    refine ⟨entries, counter, flags, new, hnew.trans (.of_eq ?_), backlog⟩
    unfold State.settledBy
    rw [filter]
    refine List.map_congr_left fun r hr => ?_
    rw [ht r (List.mem_filter.1 hr).1]

end

end Sys2Proof.Machine
end

section
/-! PROOF. The tallies and the settle checks of a sealing step (R67 to R69, R98, R99; O55). -/

namespace Sys2Proof.Machine

/-! ## Additions to a tally (R67) -/

/-- The tally of a record that is given bins; none are given where `bins` is 0. -/
def Record.counted (r : Record) (bins verdicts gaps : Nat) : Tally :=
  if bins = 0 then r.tally else (r.addTally bins verdicts gaps).tally

theorem addTally_eq (r : Record) (a v g : Nat) : r.addTally a v g = { r with tally := (r.addTally a v g).tally } := by
  unfold Record.addTally
  split <;> rfl

theorem counted_settled {r : Record} (h : r.state = .settled) (a v g : Nat) : r.counted a v g = r.tally := by
  unfold Record.counted Record.addTally
  rw [if_pos h, ite_self]

theorem counted_zero (r : Record) (v g : Nat) : r.counted 0 v g = r.tally := rfl

theorem counted_live {r : Record} (h : r.state ≠ .settled) (a v g : Nat) : r.counted a v g =
    if a = 0 then r.tally else ⟨min (r.tally.sealedBins + a) 4294967295, min (r.tally.verdictBins + v) 4294967295,
      min (r.tally.gapBins + g) 4294967295⟩ := by
  unfold Record.counted Record.addTally
  rw [if_neg h]
  rfl

/-- Additions to one tally add up. -/
theorem counted_counted (r : Record) {a v g a' v' g' : Nat} (h : a = 0 → v = 0 ∧ g = 0) (h' : a' = 0 → v' = 0 ∧ g' = 0) :
    Record.counted { r with tally := r.counted a v g } a' v' g' = r.counted (a + a') (v + v') (g + g') := by
  by_cases hs : r.state = .settled
  · rw [counted_settled hs, counted_settled hs, counted_settled (r := { r with tally := r.tally }) hs]
  · rw [counted_live (r := { r with tally := r.counted a v g }) hs, counted_live hs, counted_live hs]
    dsimp only
    by_cases ha : a = 0
    · obtain ⟨rfl, rfl⟩ := h ha
      rw [ha]
      simp only [Nat.zero_add, if_true]
    · by_cases ha' : a' = 0
      · obtain ⟨rfl, rfl⟩ := h' ha'
        rw [ha']
        simp only [Nat.add_zero, if_true]
      · rw [if_neg ha, if_neg ha', if_neg (by omega), Tally.mk.injEq]
        dsimp only
        omega

theorem sealedAs_tallied (r : Record) (tl : Record → Tally) : r.sealedAs tl (fun _ => false) = { r with tally := tl r } := rfl

theorem inert_counted (f g k : Record → Nat) : Inert (fun r => r.counted (f r) (g r) (k r)) fun _ => false :=
  fun _ h => ⟨counted_settled h _ _ _, rfl⟩

/-- Tallying the record of a serial. -/
theorem tally_tallied (s : State) (n a v g : Nat) (h : a ≠ 0) : Tallied s (s.tally n a v g)
    (fun r => r.counted (if r.serial = n then a else 0) v g) fun _ => false := by
  refine .tallies (table := (s.tally n a v g).track.table) rfl ?_
  unfold State.tally
  rw [State.modify_eq]
  show mapSerial n (fun r => r.addTally a v g) s.track.table.places = _
  unfold mapSerial
  refine List.map_congr_left fun e _ => congrArg (Prod.mk e.1) ?_
  by_cases hn : e.2.serial = n
  · rw [if_pos hn]
    unfold Record.counted
    rw [if_pos hn, if_neg h]
    exact addTally_eq e.2 a v g
  · rw [if_neg hn, if_neg hn, counted_zero]

/-- A bin's owner is given one sealed bin, and one verdict bin for a true verdict (R98). -/
theorem tallyOwner_tallied (s : State) (owner : Option Record) (verdict : Bool) : Tallied s (s.tallyOwner owner verdict)
    (fun r => r.counted (if owner.map (·.serial) = some r.serial then 1 else 0) (if verdict then 1 else 0) 0)
    fun _ => false := by
  unfold State.tallyOwner
  cases owner with
  | none => exact (Tallied.of_track rfl).congr (fun r _ => (counted_zero r _ _).symm) fun _ _ => rfl
  | some o =>
    refine (tally_tallied s o.serial 1 (if verdict then 1 else 0) 0 (by decide)).congr (fun r _ => ?_) fun _ _ => rfl
    simp only [Option.map_some, Option.some.injEq, eq_comm (a := o.serial)]

/-! ## A run of missing bins (R99) -/

/-- What a list of serials and counts gives a serial. -/
def givenTo (xs : List (Nat × Nat)) (n : Nat) : Nat := ((xs.find? fun e => e.1 == n).map (·.2)).getD 0

theorem tallyList_tallied : ∀ {xs : List (Nat × Nat)} (s : State), (xs.map (·.1)).Nodup →
    Tallied s (xs.foldl (fun acc e => if e.2 = 0 then acc else acc.tally e.1 e.2 0 e.2) s)
      (fun r => r.counted (givenTo xs r.serial) 0 (givenTo xs r.serial)) fun _ => false
  | [], s, _ => .of_track rfl
  | (n, k) :: rest, s, hnd => by
    obtain ⟨hn, hrest⟩ := List.nodup_cons.1 hnd
    have first : Tallied s (if k = 0 then s else s.tally n k 0 k)
        (fun r => r.counted (if r.serial = n then k else 0) 0 (if r.serial = n then k else 0)) fun _ => false := by
      by_cases hk : k = 0
      · rw [if_pos hk, hk]
        exact (Tallied.of_track rfl).congr (fun r _ => by rw [ite_self, counted_zero]) fun _ _ => rfl
      · rw [if_neg hk]
        refine (tally_tallied s n k 0 k hk).congr (fun r _ => ?_) fun _ _ => rfl
        by_cases hr : r.serial = n
        · rw [if_pos hr]
        · rw [if_neg hr, counted_zero, counted_zero]
    refine (first.trans (tallyList_tallied _ hrest) (inert_counted _ _ _)).congr (fun r _ => ?_) fun _ _ => rfl
    rw [sealedAs_tallied, counted_counted r (fun h => ⟨rfl, h⟩) fun h => ⟨rfl, h⟩]
    suffices given : (if r.serial = n then k else 0) + givenTo rest r.serial = givenTo ((n, k) :: rest) r.serial by
      rw [given]
    unfold givenTo
    by_cases hr : r.serial = n
    · have absent : rest.find? (fun e => e.1 == r.serial) = none := by
        rw [List.find?_eq_none]
        intro e he
        rw [hr, beq_iff_eq]
        rintro rfl
        exact hn (List.mem_map.2 ⟨e, he, rfl⟩)
      rw [absent, List.find?_cons_of_pos (by simp [hr]), if_pos hr]
      rfl
    · rw [List.find?_cons_of_neg (by simp [Ne.symm hr]), if_neg hr, Nat.zero_add]

theorem isAtStation_iff (r : Record) (i : Fin 8) :
    (decide (r.line = stationLine i) && r.kind == stationKind i) = decide (r.station = i) := by
  rw [Bool.eq_iff_iff, owner_test, decide_eq_true_eq]

/-- What the tally of a run gives a record of the table. -/
theorem givenTo_run {s : State} (hs : s.SerialsNodup) {i : Fin 8} (f : Record → Nat) {r : Record}
    (hr : r ∈ s.track.table.records) :
    givenTo ((s.track.table.records.filter fun r => decide (r.station = i)).map fun r => (r.serial, f r)) r.serial =
      if r.station = i then f r else 0 := by
  unfold givenTo
  rw [List.find?_map]
  cases hf : List.find? ((fun e : Nat × Nat => e.1 == r.serial) ∘ fun r : Record => (r.serial, f r))
      (s.track.table.records.filter fun r => decide (r.station = i)) with
  | none =>
    rw [if_neg]
    · rfl
    · intro hst
      have := List.find?_eq_none.1 hf r (List.mem_filter.2 ⟨hr, decide_eq_true hst⟩)
      simp at this
  | some x =>
    have mem := List.mem_filter.1 (List.mem_of_find?_eq_some hf)
    have serial : x.serial = r.serial := by simpa using List.find?_some hf
    have same : x = r := List.inj_on_of_nodup_map hs mem.1 hr serial
    rw [if_pos (same ▸ of_decide_eq_true mem.2), same]
    rfl

/-- The tally of a run of missing bins (R99). -/
theorem tallyRun_tallied {s : State} (hs : s.SerialsNodup) (i : Fin 8) (len lo past : Nat) :
    Tallied s (s.tallyRun i len lo past)
      (fun r => r.counted (if r.station = i then r.binsIn len lo past else 0) 0
        (if r.station = i then r.binsIn len lo past else 0)) fun _ => false := by
  unfold State.tallyRun
  simp only [isAtStation_iff]
  refine (tallyList_tallied s ?_).congr (fun r hr => ?_) fun _ _ => rfl
  · rw [List.map_map]
    exact hs.sublist (List.filter_sublist.map _)
  · rw [givenTo_run hs _ hr]

/-! ## The settle check of a LIVE station (R68, R69) -/

/-- A THROUGH or CUT record of station i that ends by a position. -/
def Record.endsBy (i : Fin 8) (pos : Nat) (r : Record) : Bool := decide (r.DueAt i) && r.stop.any fun e => decide (e ≤ pos)

theorem endsBy_iff (i : Fin 8) (pos : Nat) (r : Record) : r.endsBy i pos = true ↔
    r.station = i ∧ (r.state = .through ∨ r.state = .cut) ∧ ∃ e, r.stop = some e ∧ e ≤ pos := by
  unfold Record.endsBy
  rw [Bool.and_eq_true, decide_eq_true_eq, and_assoc]
  cases r.stop <;> simp

theorem inert_endsBy (i : Fin 8) (pos : Nat) : Inert Record.tally (Record.endsBy i pos) := fun r h => by
  refine ⟨rfl, Bool.eq_false_iff.2 fun he => ?_⟩
  obtain ⟨-, hst, -⟩ := (endsBy_iff i pos r).1 he
  rw [h] at hst
  rcases hst with hst | hst <;> cases hst

theorem meetsSettle_live {s : State} {i : Fin 8} {d : LiveData} (h : (s.station i).state = .live d) {r : Record}
    (hr : r.DueAt i) : s.meetsSettle r = r.endsBy i ((d.sealedBin + 1).toNat * (s.station i).d.binLength) := by
  obtain ⟨hi, hst⟩ := hr
  have due : decide (r.DueAt i) = true := decide_eq_true ⟨hi, hst⟩
  have live : (s.station i).live? = some d := Station.live?_eq.2 h
  have state : (r.state == .through || r.state == .cut) = true := by
    rcases hst with hst | hst <;> rw [hst] <;> rfl
  unfold State.meetsSettle Record.endsBy sealedPosition
  rw [due, hi, state, live, Bool.true_and, Bool.true_and]
  dsimp only
  cases r.stop <;> rfl

theorem meetsSettle_frame {s t : State} (h : TableFrame s t) (r : Record) : t.meetsSettle r = s.meetsSettle r := by
  unfold State.meetsSettle
  rw [h.station]

/-- Settle checks settle the records that meet the settle condition, in the order of the list. -/
theorem settleChecks_filter : ∀ (rs : List Record) {s : State}, s.Present rs →
    rs.foldl (fun a r => a.settleCheck r.serial) s = s.settleAll id (rs.filter s.meetsSettle)
  | [], _, _ => rfl
  | r :: rest, s, h => by
    have hr := h.2 r List.mem_cons_self
    show rest.foldl _ (s.settleCheck r.serial) = _
    cases hm : s.meetsSettle r with
    | true =>
      have htail := h.tail stays_id
      rw [settleAs_id] at htail
      rw [State.settleCheck_settles hr hm, List.filter_cons_of_pos hm, settleChecks_filter rest htail,
        List.filter_congr fun x _ => meetsSettle_frame (TableFrame.settle s r.serial) x]
      show _ = (s.settleAs id r.serial).settleAll id _
      rw [settleAs_id]
    | false =>
      rw [State.settleCheck_not hr hm, List.filter_cons_of_neg (by simp [hm])]
      exact settleChecks_filter rest ⟨(List.nodup_cons.1 h.1).2, fun x hx => h.2 x (List.mem_cons_of_mem _ hx)⟩

/-- Settling a list of records, each once. -/
theorem settleAll_tallied {s : State} (hs : s.SerialsNodup) {rs : List Record} {st : Record → Bool} (h : s.Present rs)
    (hp : rs.Perm (s.track.table.records.filter st)) : Tallied s (s.settleAll id rs) Record.tally st := by
  obtain ⟨table, nextSeq⟩ := settleAll_table stays_id h
  obtain ⟨backlog, ⟨entries, count, clock⟩, flags⟩ := settleAll_track stays_id rs h
  have length := hp.length_eq
  have ticks : ∀ (rs : List Record) (s : State), (s.backlogFull rs).track.clock = s.track.clock := fun rs => by
    induction rs with
    | nil => exact fun _ => rfl
    | cons r rest ih => exact fun s => (ih _).trans (anomaly_clock ..)
  refine ⟨?_, clock.trans (ticks ..), by rw [nextSeq, length], fun hroom => ?_⟩
  · rw [table]
    unfold settledList
    refine List.map_congr_left fun e he => congrArg (Prod.mk e.1) ?_
    have mem : e.2 ∈ s.track.table.records := List.mem_map.2 ⟨e, he, rfl⟩
    have chosen : e.2.serial ∈ rs.map (·.serial) ↔ st e.2 = true := by
      rw [List.mem_map]
      constructor
      · rintro ⟨r, hr, serial⟩
        have held := List.mem_filter.1 (hp.mem_iff.1 hr)
        rw [← List.inj_on_of_nodup_map hs held.1 mem serial]
        exact held.2
      · exact fun hst => ⟨e.2, hp.mem_iff.2 (List.mem_filter.2 ⟨mem, hst⟩), rfl⟩
    unfold Record.sealedAs
    simp only [chosen]
    cases st e.2 <;> rfl
  · rw [← length] at hroom ⊢
    have none : rs.drop (128 - s.track.backlog.length) = [] := List.drop_eq_nil_of_le (by omega)
    rw [none] at entries count flags
    refine ⟨entries, count, ?_, rs.map Record.settled, ?_, ?_⟩
    · rw [flags]
      congr 1
      unfold settleFlags raisedBy
      have held : rs ≠ [] ↔ rs.length ≠ 0 := by rw [ne_eq, ne_eq, List.length_eq_zero_iff]
      have room : rs ≠ [] ∧ s.track.backlog.length < 128 ∧ 96 ≤ s.track.backlog.length + rs.length ↔
          rs.length ≠ 0 ∧ 96 ≤ s.track.backlog.length + rs.length := by
        rw [held]
        omega
      simp only [decide_eq_true_eq, room, ne_eq, not_true_eq_false, if_false, word_or_zero]
      congr 1
      by_cases hl : rs.length = 0
      · rw [if_pos hl, if_neg (fun h => h (List.length_eq_zero_iff.1 hl))]
      · rw [if_neg hl, if_pos (held.2 hl)]
    · unfold State.settledBy
      exact hp.map _
    · rw [backlog, List.take_of_length_le (by omega), List.map_id]
      refine congrArg _ (List.ext_getElem ?_ fun j _ _ => ?_)
      · simp [settledEntries, journalOf]
      · simp [settledEntries, journalOf]

/-- The settle check of a LIVE station. -/
theorem settleStation_tallied {s : State} (hs : s.SerialsNodup) {i : Fin 8} {d : LiveData}
    (h : (s.station i).state = .live d) : Tallied s (s.settleStation i) Record.tally
      (Record.endsBy i ((d.sealedBin + 1).toNat * (s.station i).d.binLength)) := by
  have due : (fun r : Record => decide (r.station = i) && (r.state == .through || r.state == .cut)) =
      fun r => decide (r.DueAt i) := by
    funext r
    rw [Bool.eq_iff_iff]
    simp only [Bool.and_eq_true, Bool.or_eq_true, beq_iff_eq, decide_eq_true_eq]
  have present := inOrder_present hs fun r => decide (r.DueAt i)
  have settles : s.settleStation i =
      s.settleAll id ((s.inOrder fun r => decide (r.DueAt i)).filter s.meetsSettle) := by
    unfold State.settleStation
    rw [due, ← inOrder_serials hs, List.foldl_map]
    exact settleChecks_filter _ present
  rw [settles]
  refine settleAll_tallied hs ⟨present.1.sublist (List.filter_sublist.map _),
    fun r hr => present.2 r (List.mem_filter.1 hr).1⟩ ?_
  refine ((inOrder_perm hs _).filter _).trans (.of_eq ?_)
  rw [List.filter_filter]
  refine List.filter_congr fun r _ => ?_
  by_cases hr : r.DueAt i
  · rw [meetsSettle_live h hr, decide_eq_true hr, Bool.and_true]
  · unfold Record.endsBy
    rw [decide_eq_false hr, Bool.and_false, Bool.false_and]

end Sys2Proof.Machine
end

section
/-! PROOF. What a stretch of a sealing run counts for each record, and how two stretches make one (R67, R97 to R99; O55). -/

namespace Sys2Proof.Machine

/-! ## The bins counted -/

/-- The missing bins above `S` up to `top` whose first position a record's span holds (R99). -/
def Record.missedBins (r : Record) (len : Nat) (S top : Int) (front : List (Nat × OpenBin)) : List Nat :=
  (List.range (top + 1).toNat).filter fun b =>
    decide (S < (b : Int)) && decide (∀ e ∈ front, e.1 ≠ b) && r.spans (b * len)

/-- The sealed bins that a record owns (R97, R98). -/
def State.ownedBins (s : State) (i : Fin 8) (len : Nat) (front : List (Nat × OpenBin)) (r : Record) :
    List (Nat × OpenBin) :=
  front.filter fun e => decide ((s.owner i (e.1 * len)).map (·.serial) = some r.serial)

/-- The tally of a record once station i has sealed from `S` to `top`, the present bins being `front`. -/
def State.runTally (s : State) (i : Fin 8) (len : Nat) (chain : List Term) (S top : Int) (front : List (Nat × OpenBin))
    (r : Record) : Tally :=
  if r.station = i then
    r.counted ((s.ownedBins i len front r).length + (r.missedBins len S top front).length)
      ((s.ownedBins i len front r).filter fun e => evalChain chain e.2).length (r.missedBins len S top front).length
  else r.tally

/-- The records that settle while station i seals from `S` to `top`. -/
def runSettles (i : Fin 8) (len : Nat) (S top : Int) (r : Record) : Bool :=
  decide (S < top) && r.endsBy i ((top + 1).toNat * len)

theorem runTally_settled {s : State} {i : Fin 8} {len : Nat} {chain : List Term} {S top : Int}
    {front : List (Nat × OpenBin)} {r : Record} (h : r.state = .settled) :
    s.runTally i len chain S top front r = r.tally := by
  unfold State.runTally
  rw [counted_settled h, ite_self]

theorem inert_run (s : State) (i : Fin 8) (len : Nat) (chain : List Term) (S top : Int) (front : List (Nat × OpenBin)) :
    Inert (s.runTally i len chain S top front) (runSettles i len S top) := fun r h => by
  refine ⟨runTally_settled h, ?_⟩
  unfold runSettles
  rw [(inert_endsBy i _ r h).2, Bool.and_false]

theorem endsBy_mono {i : Fin 8} {p q : Nat} (h : p ≤ q) {r : Record} (hr : r.endsBy i p = true) : r.endsBy i q = true := by
  rw [endsBy_iff] at hr ⊢
  obtain ⟨hi, hst, e, he, hle⟩ := hr
  exact ⟨hi, hst, e, he, hle.trans h⟩

/-- A record that ends by the sealed position of M holds no bin above M. -/
theorem endsBy_past {i : Fin 8} {len : Nat} {M : Int} {r : Record} (h : r.endsBy i ((M + 1).toNat * len) = true) {b : Nat}
    (hb : M < (b : Int)) : r.spans (b * len) = false := by
  obtain ⟨-, -, e, he, hle⟩ := (endsBy_iff ..).1 h
  refine Bool.eq_false_iff.2 fun hs => ?_
  have before := ((spans_iff ..).1 hs).2 e he
  have above : (M + 1).toNat * len ≤ b * len := Nat.mul_le_mul_right len (by omega)
  omega

/-! ## Owners while tallies and states change -/

theorem greatestSerial_map {p : Record → Bool} {g : Record → Record} (hs : ∀ r, (g r).serial = r.serial)
    (hp : ∀ r, p (g r) = p r) : ∀ rs : List Record, greatestSerial p (rs.map g) = (greatestSerial p rs).map g
  | [] => rfl
  | r :: rest => by
    unfold greatestSerial
    rw [List.map_cons]
    dsimp only
    rw [greatestSerial_map hs hp rest, hp, hs]
    cases greatestSerial p rest with
    | none =>
      dsimp only [Option.map]
      split <;> rfl
    | some m =>
      dsimp only [Option.map]
      rw [hs]
      split <;> rfl

theorem owner_tallied {s t : State} {tl : Record → Tally} {st : Record → Bool} (h : Tallied s t tl st) (i : Fin 8)
    (pos : Nat) : t.owner i pos = (s.owner i pos).map (Record.sealedAs tl st) := by
  unfold State.owner
  rw [h.records]
  exact greatestSerial_map (g := Record.sealedAs tl st) (fun _ => rfl) (fun _ => rfl) _

theorem ownedBins_tallied {s t : State} {tl : Record → Tally} {st : Record → Bool} (h : Tallied s t tl st) (i : Fin 8)
    (len : Nat) (front : List (Nat × OpenBin)) (r : Record) :
    t.ownedBins i len front (r.sealedAs tl st) = s.ownedBins i len front r := by
  unfold State.ownedBins
  refine List.filter_congr fun e _ => ?_
  rw [owner_tallied h, Option.map_map]
  rfl

theorem ownedBins_append (s : State) (i : Fin 8) (len : Nat) (xs ys : List (Nat × OpenBin)) (r : Record) :
    s.ownedBins i len (xs ++ ys) r = s.ownedBins i len xs r ++ s.ownedBins i len ys r := List.filter_append ..

/-- Only a record whose span holds the bin's first position owns it. -/
theorem ownedBins_nil {s : State} (hs : s.SerialsNodup) {i : Fin 8} {len : Nat} {front : List (Nat × OpenBin)} {r : Record}
    (hr : r ∈ s.track.table.records) (h : r.station = i → ∀ e ∈ front, r.spans (e.1 * len) = false) :
    s.ownedBins i len front r = [] := by
  unfold State.ownedBins
  rw [List.filter_eq_nil_iff]
  intro e he
  rw [decide_eq_true_eq]
  cases ho : s.owner i (e.1 * len) with
  | none => exact nofun
  | some o =>
    intro serial
    obtain ⟨mem, station, low, high, -⟩ := owner_some ho
    have same : o = r := List.inj_on_of_nodup_map hs mem hr (Option.some.inj serial)
    rw [same] at station low high
    have held := h station e he
    rw [(spans_iff r (e.1 * len)).2 ⟨low, high⟩] at held
    cases held

theorem Tallied.serialsNodup {s t : State} {tl : Record → Tally} {st : Record → Bool} (h : Tallied s t tl st)
    (hs : s.SerialsNodup) : t.SerialsNodup := by
  unfold State.SerialsNodup
  rw [h.records, List.map_map]
  exact hs

/-! ## Two stretches make one -/

theorem range_split {n m : Nat} (h : n ≤ m) : ∃ xs : List Nat, (∀ b ∈ xs, n ≤ b) ∧
    List.range m = List.range n ++ xs := by
  obtain ⟨k, rfl⟩ := Nat.exists_eq_add_of_le h
  refine ⟨(List.range k).map (n + ·), fun b hb => ?_, List.range_add⟩
  obtain ⟨j, -, rfl⟩ := List.mem_map.1 hb
  omega

theorem missedBins_append (r : Record) (len : Nat) {S M T : Int} {xs ys : List (Nat × OpenBin)} (h1 : S ≤ M) (h2 : M ≤ T)
    (hx : ∀ e ∈ xs, (e.1 : Int) ≤ M) (hy : ∀ e ∈ ys, M < (e.1 : Int)) :
    r.missedBins len S T (xs ++ ys) = r.missedBins len S M xs ++ r.missedBins len M T ys := by
  obtain ⟨more, above, split⟩ := range_split (n := (M + 1).toNat) (m := (T + 1).toNat) (by omega)
  have low : (List.range (M + 1).toNat).filter (fun b : Nat =>
      decide (M < (b : Int)) && decide (∀ e ∈ ys, e.1 ≠ b) && r.spans (b * len)) = [] := by
    rw [List.filter_eq_nil_iff]
    intro b hb
    rw [List.mem_range] at hb
    rw [decide_eq_false (by omega)]
    exact nofun
  unfold Record.missedBins
  rw [split, List.filter_append, List.filter_append, low, List.nil_append]
  congr 1
  · refine List.filter_congr fun b hb => ?_
    rw [List.mem_range] at hb
    congr 2
    refine decide_eq_decide.2 ⟨fun h e he => h e (List.mem_append_left _ he), fun h e he => ?_⟩
    rcases List.mem_append.1 he with he | he
    · exact h e he
    · have := hy e he
      omega
  · refine List.filter_congr fun b hb => ?_
    have hb := above b hb
    rw [decide_eq_true (show S < (b : Int) by omega), decide_eq_true (show M < (b : Int) by omega)]
    congr 2
    refine decide_eq_decide.2 ⟨fun h e he => h e (List.mem_append_right _ he), fun h e he => ?_⟩
    rcases List.mem_append.1 he with he | he
    · have := hx e he
      omega
    · exact h e he

theorem missedBins_past {i : Fin 8} {r : Record} {len : Nat} {M T : Int} {front : List (Nat × OpenBin)}
    (h : r.endsBy i ((M + 1).toNat * len) = true) : r.missedBins len M T front = [] := by
  unfold Record.missedBins
  rw [List.filter_eq_nil_iff]
  intro b _ hb
  rw [Bool.and_eq_true, Bool.and_eq_true, decide_eq_true_eq] at hb
  obtain ⟨⟨hM, -⟩, hspan⟩ := hb
  rw [endsBy_past h hM] at hspan
  cases hspan

theorem missedBins_empty (r : Record) (len : Nat) {S T : Int} (h : T ≤ S) (front : List (Nat × OpenBin)) :
    r.missedBins len S T front = [] := by
  unfold Record.missedBins
  rw [List.filter_eq_nil_iff]
  intro b hb
  rw [List.mem_range] at hb
  rw [decide_eq_false (by omega)]
  exact nofun

section
variable {s t u : State} {i : Fin 8} {len : Nat} {chain : List Term} {S M T : Int} {xs ys : List (Nat × OpenBin)}

/-- What two stretches settle. -/
theorem runSettles_trans (h1 : S ≤ M) (h2 : M ≤ T) (tl : Record → Tally) (r : Record) :
    (runSettles i len S M r || runSettles i len M T (r.sealedAs tl (runSettles i len S M))) = runSettles i len S T r := by
  have grows : (M + 1).toNat * len ≤ (T + 1).toNat * len := Nat.mul_le_mul_right len (by omega)
  cases hr : runSettles i len S M r with
  | true =>
    unfold runSettles at hr ⊢
    rw [Bool.and_eq_true, decide_eq_true_eq] at hr
    rw [Bool.true_or, decide_eq_true (by omega), endsBy_mono grows hr.2]
    rfl
  | false =>
    have same : (r.sealedAs tl (runSettles i len S M)).endsBy i ((T + 1).toNat * len) =
        r.endsBy i ((T + 1).toNat * len) := by
      unfold Record.sealedAs
      rw [hr]
      rfl
    rw [Bool.false_or]
    unfold runSettles at hr ⊢
    unfold runSettles at same
    rw [same]
    by_cases hMT : M < T
    · rw [decide_eq_true hMT, decide_eq_true (by omega : S < T)]
    · have : T = M := by omega
      rw [this, decide_eq_false (by omega : ¬M < M), Bool.false_and, hr]

/-- Where no bin is given, no verdict and no gap is. -/
theorem none_counted {r : Record} (h : (s.ownedBins i len xs r).length + (r.missedBins len S T xs).length = 0) :
    ((s.ownedBins i len xs r).filter fun e => evalChain chain e.2).length = 0 ∧ (r.missedBins len S T xs).length = 0 := by
  obtain ⟨h1, h2⟩ := Nat.add_eq_zero_iff.1 h
  rw [List.length_eq_zero_iff.1 h1]
  exact ⟨rfl, h2⟩

theorem runTally_trans (hs : s.SerialsNodup) (h1 : S ≤ M) (h2 : M ≤ T) (hx : ∀ e ∈ xs, (e.1 : Int) ≤ M)
    (hy : ∀ e ∈ ys, M < (e.1 : Int))
    (h : Tallied s t (s.runTally i len chain S M xs) (runSettles i len S M)) {r : Record}
    (hr : r ∈ s.track.table.records) :
    t.runTally i len chain M T ys (r.sealedAs (s.runTally i len chain S M xs) (runSettles i len S M)) =
      s.runTally i len chain S T (xs ++ ys) r := by
  have owned := ownedBins_tallied h i len ys r
  have missed : (r.sealedAs (s.runTally i len chain S M xs) (runSettles i len S M)).missedBins len M T ys =
    r.missedBins len M T ys := rfl
  have both := missedBins_append r len h1 h2 hx hy
  by_cases hst : r.station = i
  · unfold State.runTally at owned missed ⊢
    rw [if_pos (show (r.sealedAs _ _).station = i from hst), if_pos hst, owned, missed, both, ownedBins_append,
      List.filter_append, List.length_append, List.length_append, List.length_append]
    cases hset : runSettles i len S M r with
    | true =>
      have ends : r.endsBy i ((M + 1).toNat * len) = true := by
        unfold runSettles at hset
        exact (Bool.and_eq_true_iff.1 hset).2
      rw [missedBins_past ends, ownedBins_nil hs hr fun _ e he => endsBy_past ends (hy e he)]
      show (if r.station = i then _ else r.tally) = _
      rw [if_pos hst]
      rfl
    | false =>
      have tallied : r.sealedAs (s.runTally i len chain S M xs) (runSettles i len S M) =
          { r with tally := s.runTally i len chain S M xs r } := by
        unfold Record.sealedAs
        rw [hset]
        rfl
      unfold State.runTally at tallied
      rw [tallied, if_pos hst, counted_counted]
      · congr 1
        omega
      · exact none_counted
      · exact none_counted
  · unfold State.runTally
    rw [if_neg (show ¬(r.sealedAs _ _).station = i from hst), if_neg hst]
    show (if r.station = i then _ else r.tally) = _
    rw [if_neg hst]

/-- Two stretches of a run, one after the other. -/
theorem run_trans (hs : s.SerialsNodup) (h1 : S ≤ M) (h2 : M ≤ T) (hx : ∀ e ∈ xs, (e.1 : Int) ≤ M)
    (hy : ∀ e ∈ ys, M < (e.1 : Int)) (h : Tallied s t (s.runTally i len chain S M xs) (runSettles i len S M))
    (g : Tallied t u (t.runTally i len chain M T ys) (runSettles i len M T)) :
    Tallied s u (s.runTally i len chain S T (xs ++ ys)) (runSettles i len S T) :=
  (h.trans g (inert_run t i len chain M T ys)).congr (fun _ hr => runTally_trans hs h1 h2 hx hy h hr) fun r _ => runSettles_trans h1 h2 _ r

end

end Sys2Proof.Machine
end

section
/-! PROOF. The missing step and the present step of a sealing (R96, R98, R99; O55). -/

namespace Sys2Proof.Machine

/-! ## The bins of a run whose first position a span holds (R99) -/

theorem range_count (a c : Nat) : ∀ n : Nat,
    ((List.range n).filter fun b => decide (a ≤ b) && decide (b < c)).length = min c n - a
  | 0 => by simp
  | n + 1 => by
    rw [List.range_succ, List.filter_append, List.length_append, range_count a c n]
    by_cases h : a ≤ n ∧ n < c
    · obtain ⟨h1, h2⟩ := h
      simp only [List.filter_cons, decide_eq_true h1, decide_eq_true h2, Bool.and_self, if_true, List.filter_nil,
        List.length_singleton]
      omega
    · have none : (decide (a ≤ n) && decide (n < c)) = false := by
        rw [← Bool.decide_and]
        exact decide_eq_false h
      simp only [List.filter_cons, none, Bool.false_eq_true, if_false, List.filter_nil, List.length_nil]
      omega

theorem ceilDiv_le {len : Nat} (h : 0 < len) (x b : Nat) : (x + len - 1) / len ≤ b ↔ x ≤ b * len := by
  rw [Nat.div_le_iff_le_mul_add_pred h, Nat.mul_comm len b]
  omega

theorem binsIn_eq {len : Nat} (h : 0 < len) (r : Record) (lo past : Nat) : r.binsIn len lo past =
    ((List.range past).filter fun b => decide (lo ≤ b) && r.spans (b * len)).length := by
  unfold Record.binsIn Record.spans
  cases r.stop with
  | none =>
    dsimp only
    rw [← Nat.min_self past, ← range_count, Nat.min_self]
    congr 1
    refine List.filter_congr fun b hb => ?_
    rw [List.mem_range] at hb
    rw [Bool.and_true, decide_eq_true hb, Bool.and_true, ← Bool.decide_and]
    exact decide_eq_decide.2 (by rw [Nat.max_le, ceilDiv_le h])
  | some e =>
    dsimp only
    rw [Nat.min_comm, ← range_count]
    congr 1
    refine List.filter_congr fun b _ => ?_
    rw [← Bool.decide_and, ← Bool.decide_and, ← Bool.decide_and]
    refine decide_eq_decide.2 ?_
    have upper : b < (e + len - 1) / len ↔ b * len < e := by rw [← Nat.not_le, ceilDiv_le h, Nat.not_le]
    rw [Nat.max_le, ceilDiv_le h, upper, and_assoc]

/-- A run of missing bins counts those whose first position the span holds. -/
theorem binsIn_missed {len : Nat} (h : 0 < len) (r : Record) {S T : Int} :
    r.binsIn len (S + 1).toNat (T + 1).toNat = (r.missedBins len S T []).length := by
  rw [binsIn_eq h]
  unfold Record.missedBins
  congr 1
  refine List.filter_congr fun b _ => ?_
  rw [decide_eq_true (show ∀ e ∈ ([] : List (Nat × OpenBin)), e.1 ≠ b from nofun), Bool.and_true]
  congr 1
  exact decide_eq_decide.2 (by omega)

/-! ## The steps -/

theorem sealedAs_endsBy (tl : Record → Tally) (i : Fin 8) (pos : Nat) (r : Record) :
    (r.sealedAs tl fun _ => false).endsBy i pos = r.endsBy i pos := rfl

/-- Nothing is sealed. -/
theorem run_none {s t : State} (h : t.track = s.track) (i : Fin 8) (len : Nat) (chain : List Term) (S : Int) :
    Tallied s t (s.runTally i len chain S S []) (runSettles i len S S) := by
  refine (Tallied.of_track h).congr (fun r _ => ?_) fun r _ => ?_
  · unfold State.runTally
    rw [missedBins_empty r len (le_refl S)]
    exact (ite_self _).symm
  · unfold runSettles
    rw [decide_eq_false (lt_irrefl S), Bool.false_and]

section
variable {s : State} (hs : s.SerialsNodup) {i : Fin 8} {d : LiveData} (h : (s.station i).state = .live d)
include hs h

theorem missingStep_tallied (hlen : 0 < (s.station i).d.binLength) (chain : List Term) {n : Int} (hn : d.sealedBin ≤ n) :
    Tallied s (s.missingStep i n) (s.runTally i (s.station i).d.binLength chain d.sealedBin n [])
      (runSettles i (s.station i).d.binLength d.sealedBin n) := by
  unfold State.missingStep
  rw [Station.live?_eq.2 h]
  dsimp only
  by_cases hle : n ≤ d.sealedBin
  · rw [if_pos hle]
    have same : n = d.sealedBin := le_antisymm hle hn
    rw [same]
    exact run_none rfl ..
  · rw [if_neg hle]
    have moved : (s.setLive i { d with sealedBin := n }).track = s.track := State.setStation_track ..
    have station : (s.setLive i { d with sealedBin := n }).station i =
        { s.station i with state := .live { d with sealedBin := n } } := State.station_setStation_self ..
    have records : (s.setLive i { d with sealedBin := n }).track.table.records = s.track.table.records := by rw [moved]
    generalize s.setLive i { d with sealedBin := n } = v at *
    have hv : v.SerialsNodup := by
      unfold State.SerialsNodup
      rw [records]
      exact hs
    have run := tallyRun_tallied hv i (s.station i).d.binLength (d.sealedBin + 1).toNat (n + 1).toNat
    have frame := TableFrame.tallyRun v i (s.station i).d.binLength (d.sealedBin + 1).toNat (n + 1).toNat
    generalize v.tallyRun i (s.station i).d.binLength (d.sealedBin + 1).toNat (n + 1).toNat = w at *
    have live : (w.station i).state = .live { d with sealedBin := n } := by rw [frame.station, station]
    have len : (w.station i).d.binLength = (s.station i).d.binLength := by rw [frame.station, station]; rfl
    have settled := settleStation_tallied (run.serialsNodup hv) live
    rw [len] at settled
    refine ((((Tallied.of_track moved).trans run (inert_counted _ _ _)).trans settled (inert_endsBy _ _))).congr
      (fun r _ => ?_) fun r _ => ?_
    · unfold State.runTally
      show Record.counted r _ 0 _ = _
      by_cases hst : r.station = i
      · rw [if_pos hst, if_pos (show (r.sealedAs _ _).station = i from hst)]
        show r.counted (r.binsIn _ _ _) 0 (r.binsIn _ _ _) = _
        rw [binsIn_missed hlen]
        show _ = r.counted (0 + _) 0 _
        rw [Nat.zero_add]
      · rw [if_neg hst, if_neg (show ¬(r.sealedAs _ _).station = i from hst), counted_zero]
    · unfold runSettles
      rw [decide_eq_true (by omega : d.sealedBin < n), Bool.false_or, Bool.false_or, Bool.true_and]
      rfl

/-- A present step seals the station's lowest open bin, the one after the sealed bin. -/
theorem presentStep_tallied {b : Nat} {bin : OpenBin} {rest : List (Nat × OpenBin)} (hb : d.bins = (b, bin) :: rest)
    (f : Bool) : Tallied s (s.presentStep i f)
      (s.runTally i (s.station i).d.binLength (s.station i).chain ((b : Int) - 1) b [(b, bin)])
      (runSettles i (s.station i).d.binLength ((b : Int) - 1) b) := by
  unfold State.presentStep
  rw [Station.live?_eq.2 h]
  dsimp only
  rw [hb]
  dsimp only
  obtain ⟨v, hv⟩ : ∃ v, v = (s.append ((s.station i).sealHeader (s.owner i (b * (s.station i).d.binLength)) b bin
    (evalChain (s.station i).chain bin) f)).setLive i (d.sealed b) := ⟨_, rfl⟩
  rw [← hv]
  have moved : v.track = s.track := by rw [hv]; exact State.setStation_track ..
  have station : v.station i = { s.station i with state := .live (d.sealed b) } := by
    rw [hv]
    exact State.station_setStation_self ..
  clear hv
  have given := tallyOwner_tallied v (s.owner i (b * (s.station i).d.binLength)) (evalChain (s.station i).chain bin)
  have frame := TableFrame.tallyOwner v (s.owner i (b * (s.station i).d.binLength)) (evalChain (s.station i).chain bin)
  generalize v.tallyOwner (s.owner i (b * (s.station i).d.binLength)) (evalChain (s.station i).chain bin) = w at *
  have live : (w.station i).state = .live (d.sealed b) := by rw [frame.station, station]
  have len : (w.station i).d.binLength = (s.station i).d.binLength := by rw [frame.station, station]; rfl
  have hvs : v.SerialsNodup := by
    unfold State.SerialsNodup
    rw [moved]
    exact hs
  have settled := settleStation_tallied (given.serialsNodup hvs) live
  rw [len] at settled
  refine ((((Tallied.of_track moved).trans given (inert_counted _ _ _)).trans settled (inert_endsBy _ _))).congr
    (fun r hr => ?_) fun r _ => ?_
  · show r.counted (if _ then 1 else 0) (if _ then 1 else 0) 0 = _
    have missed : r.missedBins (s.station i).d.binLength ((b : Int) - 1) b [(b, bin)] = [] := by
      unfold Record.missedBins
      rw [List.filter_eq_nil_iff]
      intro c hc hn
      rw [List.mem_range] at hc
      rw [Bool.and_eq_true, Bool.and_eq_true, decide_eq_true_eq, decide_eq_true_eq] at hn
      have := hn.1.2 (b, bin) List.mem_cons_self
      have := hn.1.1
      dsimp only at *
      omega
    unfold State.runTally
    rw [missed]
    by_cases ho : (s.owner i (b * (s.station i).d.binLength)).map (·.serial) = some r.serial
    · have owned : s.ownedBins i (s.station i).d.binLength [(b, bin)] r = [(b, bin)] :=
        List.filter_cons_of_pos (decide_eq_true ho)
      have hst : r.station = i := by
        by_contra hne
        rw [ownedBins_nil hs hr fun h => absurd h hne] at owned
        cases owned
      rw [owned, if_pos hst]
      rw [if_pos (show _ = some (r.sealedAs _ _).serial from ho)]
      cases hverdict : evalChain (s.station i).chain bin with
      | true =>
        rw [List.filter_cons_of_pos (by exact hverdict)]
        rfl
      | false =>
        rw [List.filter_cons_of_neg (by simp [hverdict])]
        rfl
    · have owned : s.ownedBins i (s.station i).d.binLength [(b, bin)] r = [] :=
        List.filter_cons_of_neg (by simpa using ho)
      rw [owned]
      rw [if_neg (show ¬_ = some (r.sealedAs _ _).serial from ho)]
      exact (ite_self _).symm
  · unfold runSettles
    rw [decide_eq_true (by omega : (b : Int) - 1 < b), Bool.false_or, Bool.false_or, Bool.true_and]
    rfl

end

end Sys2Proof.Machine
end

section
/-! PROOF. What a stretch of a sealing run leaves of the path well: the station, the bookkeeping queue, the wait list and the
dirty marks (R96, R98, R100; O55). -/

namespace Sys2Proof.Machine

/-- The station, LIVE with what `d` holds. -/
def State.stationsLive (s : State) (i : Fin 8) (d : LiveData) : Vector Station 8 :=
  s.path.stations.set i.val { s.station i with state := .live d } i.isLt

/-- From `s`, where station i holds `d`, to `t`, where it holds `d'`: the bursts queued, the waiters that joined, and beside
them only places, journal, log, flags and dirty marks. -/
structure SealRun (i : Fin 8) (s t : State) (d d' : LiveData) (bursts : List WriteBurst) (waits : List Waiter) : Prop where
  shape : t = s.withSeal (s.stationsLive i d') t.path.bookkeeping (s.path.nextId + bursts.length)
    (s.path.waitList ++ waits) { s.track.table with places := t.track.table.places } t.track.nextSeq t.track.backlog
    t.track.anomalies t.track.anomalyCount t.track.trackingFlags t.path.dirty
  marks : MarksKept s.path.dirty t.path.dirty
  moved : d'.sealedBin ≠ d.sealedBin ∨ d'.paused ≠ d.paused → t.path.dirty[stationGroup i] = true
  bursts : t.path.bookkeeping.map (·.burst) = s.path.bookkeeping.map (·.burst) ++ bursts

theorem stationsLive_same {s : State} {i : Fin 8} {d : LiveData} (h : (s.station i).state = .live d) :
    s.stationsLive i d = s.path.stations := by
  have same : ({ s.station i with state := .live d } : Station) = s.station i := by rw [← h]
  unfold State.stationsLive
  rw [same]
  exact Vector.set_getElem_self _

section
variable {i : Fin 8} {s t u : State} {d d' d'' : LiveData} {bs bs' : List WriteBurst} {ws ws' : List Waiter}

theorem SealRun.station (h : SealRun i s t d d' bs ws) : t.station i = { s.station i with state := .live d' } := by
  unfold State.station
  rw [h.shape]
  exact Vector.getElem_set_self _

theorem SealRun.waits (h : SealRun i s t d d' bs ws) : t.path.waitList = s.path.waitList ++ ws := by
  rw [h.shape]
  rfl

theorem SealRun.trans (h : SealRun i s t d d' bs ws) (g : SealRun i t u d' d'' bs' ws') :
    SealRun i s u d d'' (bs ++ bs') (ws ++ ws') := by
  have stations : t.stationsLive i d'' = s.stationsLive i d'' := by
    unfold State.stationsLive
    rw [h.station, show t.path.stations = s.stationsLive i d' by rw [h.shape]; rfl]
    exact Vector.set_set _ _
  have nextId : t.path.nextId = s.path.nextId + bs.length := by rw [h.shape]; rfl
  have table : { t.track.table with places := u.track.table.places } =
      { s.track.table with places := u.track.table.places } := by
    rw [show t.track.table = { s.track.table with places := t.track.table.places } by rw [h.shape]; rfl]
  have rest : ∀ sts bk nid wl tb ns bl an ac tf d, t.withSeal sts bk nid wl tb ns bl an ac tf d =
      s.withSeal sts bk nid wl tb ns bl an ac tf d := by
    intros
    rw [h.shape]
    rfl
  refine ⟨?_, h.marks.trans g.marks, fun hne => ?_, ?_⟩
  · refine g.shape.trans ?_
    rw [rest, stations, nextId, h.waits, table, List.length_append, Nat.add_assoc, List.append_assoc]
  · by_cases hm : d''.sealedBin ≠ d'.sealedBin ∨ d''.paused ≠ d'.paused
    · exact g.moved hm
    · refine g.marks _ (h.moved ?_)
      rw [not_or, not_not, not_not] at hm
      rwa [hm.1, hm.2] at hne
  · rw [g.bursts, h.bursts, List.append_assoc]

theorem TableSame.sealRun (h : TableSame s t) (hd : (s.station i).state = .live d) : SealRun i s t d d [] [] := by
  obtain ⟨⟨⟨tb, ns, bl, an, ac, tf, dirty, shape⟩, keeps⟩, idMap, next⟩ := h
  have table : tb = { s.track.table with places := t.track.table.places } := by
    rw [shape] at idMap next ⊢
    cases tb
    exact CoilTable.mk.injEq .. ▸ ⟨rfl, next, idMap⟩
  refine ⟨?_, keeps.marks, fun hne => absurd hne (by simp), ?_⟩
  · rw [stationsLive_same hd, ← table, shape]
    unfold State.withTable State.withSeal
    simp
  · rw [shape]
    exact (List.append_nil _).symm

theorem setLive_run (hd : (s.station i).state = .live d) (d' : LiveData) : SealRun i s (s.setLive i d') d d' [] [] := by
  obtain ⟨shape, marks⟩ := setStation_eq s i { s.station i with state := .live d' }
  refine ⟨?_, marks, fun hne => ?_, ?_⟩
  · unfold State.setLive
    rw [shape]
    unfold State.withSeal
    simp
    rfl
  · have differs : ((s.station i).content != ({ s.station i with state := .live d' } : Station).content) = true := by
      rw [bne_iff_ne]
      intro same
      unfold Station.content at same
      rw [hd] at same
      dsimp only at same
      rw [StationContent.mk.injEq] at same
      obtain ⟨-, -, hs, -, -, hp, -⟩ := same
      rcases hne with hne | hne
      · exact hne hs.symm
      · exact hne hp.symm
    unfold State.setLive
    rw [State.setStation_path]
    simp only [differs, if_true]
    exact Vector.getElem_set_self _
  · unfold State.setLive
    rw [State.setStation_path]
    exact (List.append_nil _).symm

theorem append_run (hd : (s.station i).state = .live d) (b : WriteBurst) : SealRun i s (s.append b) d d [b] [] := by
  refine ⟨?_, MarksKept.refl _, fun hne => absurd hne (by simp), ?_⟩
  · rw [stationsLive_same hd, List.append_nil]
    rfl
  · exact List.map_append ..

theorem wait_run (hd : (s.station i).state = .live d) (w : Waiter) : SealRun i s (s.wait w) d d [] [w] := by
  refine ⟨?_, MarksKept.refl _, fun hne => absurd hne (by simp), (List.append_nil _).symm⟩
  rw [stationsLive_same hd]
  rfl

/-! ## The steps -/

theorem tally_same (s : State) (n a b c : Nat) : TableSame s (s.tally n a b c) := modify_same ..

theorem tallyRun_same (s : State) (i : Fin 8) (len lo past : Nat) : TableSame s (s.tallyRun i len lo past) := by
  unfold State.tallyRun
  refine foldl_frame TableSame.refl TableSame.trans _ (fun u e => ?_) _ s
  split
  · exact .refl u
  · exact tally_same ..

theorem tallyOwner_same (s : State) (owner : Option Record) (verdict : Bool) : TableSame s (s.tallyOwner owner verdict) := by
  unfold State.tallyOwner
  cases owner with
  | none => exact .refl s
  | some r => exact tally_same ..

theorem settleStation_same (s : State) (i : Fin 8) : TableSame s (s.settleStation i) :=
  foldl_frame TableSame.refl TableSame.trans _ (fun u n => (settleCheck_keeps u n).1) _ s

theorem missingStep_run (hd : (s.station i).state = .live d) {n : Int} (hn : d.sealedBin ≤ n) :
    SealRun i s (s.missingStep i n) d { d with sealedBin := n } [] [] := by
  unfold State.missingStep
  rw [Station.live?_eq.2 hd]
  dsimp only
  by_cases hle : n ≤ d.sealedBin
  · rw [if_pos hle, show n = d.sealedBin from le_antisymm hle hn]
    exact (TableSame.refl s).sealRun hd
  · rw [if_neg hle]
    have set := setLive_run hd { d with sealedBin := n }
    have live : ((s.setLive i { d with sealedBin := n }).station i).state = .live { d with sealedBin := n } := by
      rw [set.station]
    exact set.trans (((tallyRun_same ..).trans (settleStation_same ..)).sealRun live)

theorem presentStep_run (hd : (s.station i).state = .live d) {b : Nat} {bin : OpenBin} {rest : List (Nat × OpenBin)}
    (hb : d.bins = (b, bin) :: rest) (f : Bool) : SealRun i s (s.presentStep i f) d { d with sealedBin := b, bins := rest }
      [(s.station i).sealHeader (s.owner i (b * (s.station i).d.binLength)) b bin (evalChain (s.station i).chain bin) f] [] := by
  have sealed : d.sealed b = { d with sealedBin := (b : Int), bins := rest } := by
    unfold LiveData.sealed
    rw [hb]
    rfl
  unfold State.presentStep
  rw [Station.live?_eq.2 hd]
  dsimp only
  rw [hb]
  dsimp only
  rw [sealed]
  have queued := append_run hd ((s.station i).sealHeader (s.owner i (b * (s.station i).d.binLength)) b bin
    (evalChain (s.station i).chain bin) f)
  have set := setLive_run (s := s.append ((s.station i).sealHeader (s.owner i (b * (s.station i).d.binLength)) b bin
    (evalChain (s.station i).chain bin) f)) hd { d with sealedBin := (b : Int), bins := rest }
  have live : ((State.setLive (s.append ((s.station i).sealHeader (s.owner i (b * (s.station i).d.binLength)) b bin
    (evalChain (s.station i).chain bin) f)) i { d with sealedBin := (b : Int), bins := rest }).station i).state =
      .live { d with sealedBin := (b : Int), bins := rest } := by
    rw [set.station]
  exact (queued.trans set).trans (((tallyOwner_same ..).trans (settleStation_same ..)).sealRun live)

theorem pauseSealing_run (hd : (s.station i).state = .live d) :
    SealRun i s (s.pauseSealing i) d { d with paused := true } [] [.sealing i] := by
  unfold State.pauseSealing
  rw [Station.live?_eq.2 hd]
  have set := setLive_run hd { d with paused := true }
  have live : ((s.setLive i { d with paused := true }).station i).state = .live { d with paused := true } := by
    rw [set.station]
  exact set.trans (wait_run live (.sealing i))

theorem pauseSealing_track (s : State) (i : Fin 8) : (s.pauseSealing i).track = s.track := by
  unfold State.pauseSealing
  cases (s.station i).live? with
  | none => rfl
  | some d => exact State.setStation_track ..

end

end Sys2Proof.Machine
end

section
/-! PROOF. The run of a station's sealing as a whole (R96 to R100; O55). -/

namespace Sys2Proof.Machine

/-! ## Stretches of a run -/

/-- The header of an open bin of station i, with its owner and verdict (R98). -/
def State.headerFor (s : State) (i : Fin 8) (forced : Bool) (e : Nat × OpenBin) : WriteBurst :=
  (s.station i).sealHeader (s.owner i (e.1 * (s.station i).d.binLength)) e.1 e.2 (evalChain (s.station i).chain e.2) forced

/-- A stretch of a run that seals the bins `front`: the tallies, the settlings and the path well. -/
structure Sealed (i : Fin 8) (forced : Bool) (s t : State) (d d' : LiveData) (front : List (Nat × OpenBin))
    (waits : List Waiter) : Prop where
  tallied : Tallied s t
    (s.runTally i (s.station i).d.binLength (s.station i).chain d.sealedBin d'.sealedBin front)
    (runSettles i (s.station i).d.binLength d.sealedBin d'.sealedBin)
  run : SealRun i s t d d' (front.map (s.headerFor i forced)) waits

section
variable {i : Fin 8} {f : Bool} {s t u : State} {d d' d'' : LiveData} {xs ys : List (Nat × OpenBin)} {ws ws' : List Waiter}

theorem Sealed.live (h : Sealed i f s t d d' xs ws) : (t.station i).state = .live d' := by
  rw [h.run.station]

theorem Sealed.headerFor (h : Sealed i f s t d d' xs ws) (e : Nat × OpenBin) : t.headerFor i f e = s.headerFor i f e := by
  unfold State.headerFor Station.sealHeader
  rw [owner_tallied h.tallied, Option.map_map, h.run.station]
  rfl

theorem Sealed.trans (hs : s.SerialsNodup) (h : Sealed i f s t d d' xs ws) (g : Sealed i f t u d' d'' ys ws')
    (h1 : d.sealedBin ≤ d'.sealedBin) (h2 : d'.sealedBin ≤ d''.sealedBin) (hx : ∀ e ∈ xs, (e.1 : Int) ≤ d'.sealedBin)
    (hy : ∀ e ∈ ys, d'.sealedBin < (e.1 : Int)) : Sealed i f s u d d'' (xs ++ ys) (ws ++ ws') := by
  have later := g.tallied
  have headers : ys.map (t.headerFor i f) = ys.map (s.headerFor i f) := List.map_congr_left fun e _ => h.headerFor e
  have run := h.run.trans g.run
  rw [headers, ← List.map_append] at run
  rw [h.run.station] at later
  exact ⟨run_trans hs h1 h2 hx hy h.tallied later, run⟩

theorem Sealed.refl (hd : (s.station i).state = .live d) (f : Bool) : Sealed i f s s d d [] [] :=
  ⟨run_none rfl .., (TableSame.refl s).sealRun hd⟩

/-- The run of missing bins up to n. -/
theorem missingStep_sealed (hs : s.SerialsNodup) (hd : (s.station i).state = .live d)
    (hlen : 0 < (s.station i).d.binLength) {n : Int} (hn : d.sealedBin ≤ n) (f : Bool) :
    Sealed i f s (s.missingStep i n) d { d with sealedBin := n } [] [] :=
  ⟨missingStep_tallied hs hd hlen _ hn, missingStep_run hd hn⟩

/-- The lowest open bin is sealed, after the missing bins below it. -/
theorem sealOne_sealed (hs : s.SerialsNodup) (hd : (s.station i).state = .live d) (hlen : 0 < (s.station i).d.binLength)
    {e : Nat × OpenBin} {rest : List (Nat × OpenBin)} (hb : d.bins = e :: rest) (he : d.sealedBin < (e.1 : Int)) (f : Bool) :
    Sealed i f s (s.sealOne i f e) d { d with sealedBin := (e.1 : Int), bins := rest } [e] [] := by
  have missing := missingStep_sealed hs hd hlen (show d.sealedBin ≤ (e.1 : Int) - 1 by omega) f
  have present : Sealed i f (s.missingStep i ((e.1 : Int) - 1)) (s.sealOne i f e) { d with sealedBin := (e.1 : Int) - 1 }
      { d with sealedBin := (e.1 : Int), bins := rest } [e] [] :=
    ⟨presentStep_tallied (missing.tallied.serialsNodup hs) missing.live hb f, presentStep_run missing.live hb f⟩
  exact missing.trans hs present (by dsimp only; omega) (by dsimp only; omega) nofun fun x hx => by
    rw [List.mem_singleton.1 hx]
    dsimp only
    omega

theorem Sealed.binLength (h : Sealed i f s t d d' xs ws) : (t.station i).d.binLength = (s.station i).d.binLength := by
  rw [h.run.station]
  rfl

/-- The bins with a place for their header. -/
theorem sealFront_sealed (f : Bool) (rest : List (Nat × OpenBin)) : ∀ (front : List (Nat × OpenBin)) {s : State} {d : LiveData},
    s.SerialsNodup → (s.station i).state = .live d → 0 < (s.station i).d.binLength → d.bins = front ++ rest →
    tableWf front = true → (∀ e ∈ front, d.sealedBin < (e.1 : Int)) →
    Sealed i f s (front.foldl (State.sealOne i f) s) d
      { d with sealedBin := sealedTo d.sealedBin front, bins := rest } front []
  | [], s, d, hs, hd, hlen, hb, _, _ => by
    have same : { d with sealedBin := sealedTo d.sealedBin [], bins := rest } = d := by
      rw [← show d.bins = rest from hb]
      rfl
    rw [same]
    exact .refl hd f
  | e :: front, s, d, hs, hd, hlen, hb, hw, habove => by
    obtain ⟨he, hw'⟩ := tableWf_cons.1 hw
    have first := sealOne_sealed hs hd hlen hb (habove e List.mem_cons_self) f
    have above : ∀ x ∈ front, (e.1 : Int) < (x.1 : Int) := fun x hx => by exact_mod_cast he x hx
    have others := sealFront_sealed f rest front (first.tallied.serialsNodup hs) first.live
      (first.binLength ▸ hlen) rfl hw' above
    have low := (sealedTo_bounds hw' above).1
    exact first.trans hs others (habove e List.mem_cons_self).le low
      (fun x hx => by rw [List.mem_singleton.1 hx]) above

theorem missingStep_max (hd : (s.station i).state = .live d) (n : Int) :
    s.missingStep i n = s.missingStep i (max d.sealedBin n) := by
  by_cases h : d.sealedBin ≤ n
  · rw [max_eq_right h]
  · have idle : ∀ m, m ≤ d.sealedBin → s.missingStep i m = s := fun m hm => by
      unfold State.missingStep
      rw [Station.live?_eq.2 hd]
      exact if_pos hm
    rw [max_eq_left (by omega), idle n (by omega), idle _ (le_refl _)]

/-! ## The whole run -/

/-- Every due bin finds a place (R96). -/
theorem sealBins_whole (hs : s.SerialsNodup) (hd : (s.station i).state = .live d) (hlen : 0 < (s.station i).d.binLength)
    (hok : d.Ok) (lim : Int) (f : Bool) (hroom : (d.bins.filter fun e => decide ((e.1 : Int) ≤ lim)) = [] ∨
      s.path.waitList = [] ∧ s.path.bookkeeping.length + (d.bins.filter fun e => decide ((e.1 : Int) ≤ lim)).length ≤ 64) :
    Sealed i f s (State.sealBins i lim f d.bins s) d { d with
      sealedBin := max d.sealedBin lim, bins := d.bins.filter fun e => decide (lim < (e.1 : Int)) }
      (d.bins.filter fun e => decide ((e.1 : Int) ≤ lim)) [] := by
  have split := tableWf_split lim hok.1
  have due : ∀ e ∈ d.bins.filter fun e => decide ((e.1 : Int) ≤ lim), e ∈ d.bins ∧ (e.1 : Int) ≤ lim := fun e he => by
    rw [List.mem_filter, decide_eq_true_eq] at he
    exact he
  have above : ∀ e ∈ d.bins.filter fun e => decide (lim < (e.1 : Int)), lim < (e.1 : Int) := fun e he => by
    rw [List.mem_filter, decide_eq_true_eq] at he
    exact he.2
  have hwf := tableWf_filter (fun e => decide ((e.1 : Int) ≤ lim)) hok.1
  generalize d.bins.filter (fun e => decide ((e.1 : Int) ≤ lim)) = front at *
  generalize d.bins.filter (fun e => decide (lim < (e.1 : Int))) = rest at *
  have front_above : ∀ e ∈ front, d.sealedBin < (e.1 : Int) := fun e he => hok.2 e (due e he).1
  obtain ⟨b1, b2, b3⟩ := sealedTo_bounds hwf front_above
  have top : max (sealedTo d.sealedBin front) lim = max d.sealedBin lim := by
    rcases b3 with b3 | ⟨e, he, b3⟩
    · rw [b3]
    · have := (due e he).2
      omega
  have first := sealFront_sealed (s := s) f rest front hs hd hlen split hwf front_above
  rw [split, sealBins_front i lim f rest front s (fun e he => (due e he).2) hroom, sealBins_last above,
    missingStep_max first.live, ← top]
  have last := missingStep_sealed (first.tallied.serialsNodup hs) first.live (first.binLength ▸ hlen)
    (le_max_left (sealedTo d.sealedBin front) lim) f
  have both := first.trans hs last b1 (le_max_left _ _) b2 nofun
  rwa [List.append_nil] at both

/-- A due bin finds no place: the station pauses below it (R100). -/
theorem sealBins_paused (hs : s.SerialsNodup) (hd : (s.station i).state = .live d) (hlen : 0 < (s.station i).d.binLength)
    (hok : d.Ok) {lim : Int} (f : Bool) {front rest : List (Nat × OpenBin)} {b : Nat} {bin : OpenBin}
    (hb : d.bins = front ++ (b, bin) :: rest) (hle : (b : Int) ≤ lim)
    (hfull : front = [] ∧ (s.path.waitList ≠ [] ∨ 64 ≤ s.path.bookkeeping.length) ∨
      s.path.waitList = [] ∧ s.path.bookkeeping.length + front.length = 64) :
    Sealed i f s (State.sealBins i lim f d.bins s) d
      { d with sealedBin := (b : Int) - 1, bins := (b, bin) :: rest, paused := true } front [.sealing i] := by
  have hw := hok.1
  rw [hb] at hw
  obtain ⟨hwf, -, below⟩ := tableWf_append hw
  have front_below : ∀ e ∈ front, (e.1 : Int) < b := fun e he => by exact_mod_cast below e he (b, bin) List.mem_cons_self
  have front_above : ∀ e ∈ front, d.sealedBin < (e.1 : Int) := fun e he => hok.2 e (hb ▸ List.mem_append_left _ he)
  have bin_above : d.sealedBin < (b : Int) :=
    hok.2 (b, bin) (hb ▸ List.mem_append_right _ List.mem_cons_self)
  obtain ⟨b1, b2, b3⟩ := sealedTo_bounds hwf front_above
  have low : sealedTo d.sealedBin front ≤ (b : Int) - 1 := by
    rcases b3 with b3 | ⟨e, he, b3⟩
    · omega
    · have := front_below e he
      omega
  have first := sealFront_sealed (s := s) f ((b, bin) :: rest) front hs hd hlen hb hwf front_above
  have queued : (front.foldl (State.sealOne i f) s).path.bookkeeping.length = s.path.bookkeeping.length + front.length := by
    have bursts := congrArg List.length first.run.bursts
    simpa using bursts
  have waits := first.run.waits
  rw [List.append_nil] at waits
  have full : (front.foldl (State.sealOne i f) s).canAppend = false := by
    rw [Bool.eq_false_iff, ne_eq, canAppend_iff, waits, queued]
    rintro ⟨hwait, hk⟩
    rcases hfull with ⟨rfl, hfull⟩ | ⟨-, hfull⟩
    · rw [List.length_nil] at hk
      rcases hfull with hfull | hfull
      · exact hfull hwait
      · omega
    · omega
  rw [hb, sealBins_front i lim f _ front s (fun e he => (front_below e he).le.trans hle)
    (hfull.imp And.left fun h => ⟨h.1, h.2.le⟩), sealBins_pause hle full]
  have hs' := first.tallied.serialsNodup hs
  have missing := missingStep_sealed hs' first.live (first.binLength ▸ hlen) low f
  have both := first.trans hs missing b1 low b2 nofun
  have paused : Sealed i f ((front.foldl (State.sealOne i f) s).missingStep i ((b : Int) - 1)) _
      { d with sealedBin := (b : Int) - 1, bins := (b, bin) :: rest }
      { d with sealedBin := (b : Int) - 1, bins := (b, bin) :: rest, paused := true } [] [.sealing i] :=
    ⟨run_none (pauseSealing_track ..) .., pauseSealing_run both.live⟩
  have all := both.trans hs paused (by dsimp only; omega) (le_refl _)
    (fun e he => by rw [List.append_nil] at he; have := front_below e he; dsimp only; omega) nofun
  rwa [List.append_nil, List.append_nil] at all

end

end Sys2Proof.Machine
end

section
/-! PROOF. What the sealing of a station does, as the rules state it (R96 to R100, R67 to R70; O55). -/

namespace Sys2Proof.Machine

theorem seal_idle {s : State} {i : Fin 8}
    (h : ∀ d, (s.station i).state = .live d → s.path.state ≠ .opened ∨ d.paused = true) : s.seal i = s := by
  unfold State.seal
  cases hl : (s.station i).live? with
  | none => rfl
  | some d =>
    dsimp only
    rw [if_neg]
    rintro ⟨hopen, hpaused⟩
    rcases h d (Station.live?_eq.1 hl) with h | h
    · exact h hopen
    · rw [hpaused] at h
      cases h

theorem seal_starts {s : State} {i : Fin 8} {d : LiveData} (h : (s.station i).state = .live d)
    (hopen : s.path.state = .opened) (hpaused : d.paused = false) :
    s.seal i = State.sealBins i (highestDue (s.station i).d (s.reference i)) false d.bins s := by
  unfold State.seal
  rw [Station.live?_eq.2 h]
  exact if_pos ⟨hopen, hpaused⟩

/-! ## The records (R67 to R70) -/

theorem ownedBins_owner {s : State} (hs : s.SerialsNodup) (i : Fin 8) (len : Nat) (front : List (Nat × OpenBin)) {r : Record}
    (hr : r ∈ s.track.table.records) :
    s.ownedBins i len front r = front.filter fun e => decide (s.owner i (e.1 * len) = some r) := by
  unfold State.ownedBins
  refine List.filter_congr fun e _ => decide_eq_decide.2 ?_
  constructor
  · intro serial
    obtain ⟨o, ho, same⟩ := Option.map_eq_some_iff.1 serial
    rw [ho, List.inj_on_of_nodup_map hs (owner_some ho).1 hr same]
  · intro ho
    rw [ho]
    rfl

theorem mem_missedBins {r : Record} {len : Nat} {S : Int} {front : List (Nat × OpenBin)} {b : Nat} :
    (decide (S < (b : Int)) && decide (∀ e ∈ front, e.1 ≠ b) && r.spans (b * len)) = true ↔
      S < (b : Int) ∧ (∀ e ∈ front, e.1 ≠ b) ∧ r.start ≤ b * len ∧ ∀ e, r.stop = some e → b * len < e := by
  rw [Bool.and_eq_true, Bool.and_eq_true, decide_eq_true_eq, decide_eq_true_eq, spans_iff, and_assoc]

/-- Numbers chosen from a list, read as integers. -/
theorem filter_cast {p : Int → Bool} {q : Nat → Bool} (h : ∀ b : Nat, p b = q b) (xs : List Nat) :
    ((xs.filter q).map fun b : Nat => (b : Int)) = List.filter p (do let b ← xs; pure (b : Int)) := by
  have cast : (do let b ← xs; pure (b : Int)) = xs.map fun b : Nat => (b : Int) := List.flatMap_pure_eq_map ..
  rw [cast, List.filter_map]
  refine congrArg _ (List.filter_congr fun b _ => ?_)
  exact (h b).symm

theorem runSettles_iff (i : Fin 8) (len : Nat) (S top : Int) (r : Record) : runSettles i len S top r = true ↔
    S < top ∧ r.station = i ∧ (r.state = .through ∨ r.state = .cut) ∧
      ∃ e, r.stop = some e ∧ e ≤ (top + 1).toNat * len := by
  unfold runSettles
  rw [Bool.and_eq_true, decide_eq_true_eq, endsBy_iff]

/-- What the tallies and settlings of a run leave of the table, the journal, the log and the flags. -/
theorem Tallied.rest {s u : State} {counts : Record → Tally} {settles : Record → Bool} (h : Tallied s u counts settles) :
    u.track.table.places = s.track.table.places.map (fun e => (e.1, { e.2 with
      tally := counts e.2, state := if settles e.2 then .settled else e.2.state })) ∧
    ∀ n, n = (s.track.table.records.filter settles).length → u.track.nextSeq = s.track.nextSeq + n ∧
      (s.track.backlog.length + n ≤ 128 →
        u.track.anomalies = s.track.anomalies ∧ u.track.anomalyCount = s.track.anomalyCount ∧
        u.track.trackingFlags = s.track.trackingFlags ||| (if n = 0 then 0 else 0x2) |||
          (if n ≠ 0 ∧ 96 ≤ s.track.backlog.length + n then 0x8 else 0) ∧
        ∃ new : List Record, new.Perm ((s.track.table.records.filter settles).map fun r =>
            { r with tally := counts r, state := .settled }) ∧
          u.track.backlog = s.track.backlog ++ new.mapIdx fun j r =>
            { seq := s.track.nextSeq + j, settledAt := s.track.clock, record := r }) := by
  refine ⟨h.places, ?_⟩
  rintro n rfl
  refine ⟨h.nextSeq, fun hroom => ?_⟩
  obtain ⟨entries, count, flags, new⟩ := h.fits hroom
  refine ⟨entries, count, ?_, new⟩
  rw [flags, BitVec.or_assoc]
  rfl

/-! ## The path well -/

section
variable {i : Fin 8} {s u : State} {d d' : LiveData} {bs : List WriteBurst} {ws : List Waiter}

theorem SealRun.track (h : SealRun i s u d d' bs ws) : u.track = { s.track with
    table := { s.track.table with places := u.track.table.places }, nextSeq := u.track.nextSeq
    backlog := u.track.backlog, anomalies := u.track.anomalies, anomalyCount := u.track.anomalyCount
    trackingFlags := u.track.trackingFlags } :=
  congrArg State.track h.shape

theorem SealRun.state (h : SealRun i s u d d' bs ws) : u = { s with
    track := u.track
    path.stations := s.path.stations.set i.val { s.station i with state := .live d' } i.isLt
    path.waitList := s.path.waitList ++ ws
    path.bookkeeping := u.path.bookkeeping, path.nextId := s.path.nextId + bs.length
    path.dirty := u.path.dirty } := by
  refine h.shape.trans ?_
  unfold State.withSeal
  rw [← h.track]
  rfl

end

/-! ## The run -/

/-- The places of a table from a place on. -/
theorem filter_from {α : Type} {front rest : List (Nat × α)} {b : Nat} {v : α} (h : tableWf (front ++ (b, v) :: rest) = true) :
    ((front ++ (b, v) :: rest).filter fun e => decide ((b : Int) - 1 < (e.1 : Int))) = (b, v) :: rest := by
  obtain ⟨-, hr, below⟩ := tableWf_append h
  have none : (front.filter fun e => decide ((b : Int) - 1 < (e.1 : Int))) = [] :=
    List.filter_eq_nil_iff.2 fun e he => by
      have := below e he (b, v) List.mem_cons_self
      simp only [decide_eq_true_eq]
      omega
  rw [List.filter_append, none, List.nil_append]
  refine List.filter_eq_self.2 fun e he => decide_eq_true ?_
  rcases List.mem_cons.1 he with rfl | he
  · dsimp only
    omega
  · have := (tableWf_cons.1 hr).1 e he
    omega

/-- The two ways a run ends: every due bin has a place for its header, or the run pauses below one that has none. -/
def RunEnds (s : State) (d : LiveData) (limit : Int) (due front : List (Nat × OpenBin)) (top : Int) (pause : Bool) : Prop :=
  (front = due ∧ top = max d.sealedBin limit ∧ pause = false ∧
      (due = [] ∨ s.path.waitList = [] ∧ s.path.bookkeeping.length + due.length ≤ 64)) ∨
    ∃ (b : Nat) (bin : OpenBin) (rest : List (Nat × OpenBin)), due = front ++ (b, bin) :: rest ∧
      top = (b : Int) - 1 ∧ pause = true ∧
      (front = [] ∧ (s.path.waitList ≠ [] ∨ 64 ≤ s.path.bookkeeping.length) ∨
        s.path.waitList = [] ∧ s.path.bookkeeping.length + front.length = 64)

theorem sealBins_sealed {s : State} {i : Fin 8} {d : LiveData} (hs : s.SerialsNodup)
    (hd : (s.station i).state = .live d) (hlen : 0 < (s.station i).d.binLength) (hok : d.Ok) {limit top : Int} (forced : Bool)
    {pause : Bool} {due front : List (Nat × OpenBin)} (hdue : due = d.bins.filter fun e => decide ((e.1 : Int) ≤ limit))
    (h : RunEnds s d limit due front top pause) :
    Sealed i forced s (State.sealBins i limit forced d.bins s) d { d with
      sealedBin := top, bins := d.bins.filter fun e => decide (top < (e.1 : Int)), paused := d.paused || pause } front
      (if pause then [.sealing i] else []) := by
  rcases h with ⟨rfl, rfl, rfl, hroom⟩ | ⟨b, bin, rest, hsplit, rfl, rfl, hfull⟩
  · have whole := sealBins_whole (s := s) hs hd hlen hok limit forced (hdue ▸ hroom)
    have bins : (d.bins.filter fun e => decide (limit < (e.1 : Int))) =
        d.bins.filter fun e => decide (max d.sealedBin limit < (e.1 : Int)) :=
      List.filter_congr fun e he => decide_eq_decide.2 (by have := hok.2 e he; omega)
    rw [bins, ← hdue] at whole
    rw [Bool.or_false]
    exact whole
  · have split := tableWf_split limit hok.1
    rw [← hdue, hsplit, List.append_assoc, List.cons_append] at split
    have hle : (b : Int) ≤ limit := by
      have mem : (b, bin) ∈ due := hsplit ▸ List.mem_append_right _ List.mem_cons_self
      rw [hdue, List.mem_filter, decide_eq_true_eq] at mem
      exact mem.2
    have paused := sealBins_paused (s := s) hs hd hlen hok forced split hle hfull
    have bins := filter_from (split ▸ hok.1)
    rw [← split] at bins
    rw [bins, Bool.or_true]
    exact paused

/-- The tallies and settlings of a run, as the rules state them. -/
theorem Sealed.counted {s u : State} {i : Fin 8} {forced : Bool} {d d' : LiveData} {front : List (Nat × OpenBin)}
    {ws : List Waiter} (h : Sealed i forced s u d d' front ws) {len : Nat}
    (hlen : (s.station i).d.binLength = len) {counts : Record → Tally} {settles : Record → Bool}
    (hkept : ∀ r, r.state = .settled ∨ r.station ≠ i → counts r = r.tally)
    (hcounts : ∀ r ∈ s.track.table.records, r.state ≠ .settled → r.station = i → counts r =
      r.counted ((s.ownedBins i len front r).length + (r.missedBins len d.sealedBin d'.sealedBin front).length)
        ((s.ownedBins i len front r).filter fun e => evalChain (s.station i).chain e.2).length
        (r.missedBins len d.sealedBin d'.sealedBin front).length)
    (hsettles : ∀ r, settles r = true ↔ runSettles i len d.sealedBin d'.sealedBin r = true) :
    Tallied s u counts settles := by
  obtain ⟨tallied, -⟩ := h
  rw [hlen] at tallied
  refine tallied.congr (fun r hr => ?_) fun r _ => (Bool.eq_iff_iff.2 (hsettles r)).symm
  by_cases hst : r.state = .settled
  · rw [runTally_settled hst, hkept r (.inl hst)]
  · unfold State.runTally
    by_cases hi : r.station = i
    · rw [if_pos hi, hcounts r hr hst hi]
    · rw [if_neg hi, hkept r (.inr hi)]

/-- Settles O55: the run is the bins with a place for their header, then the missing run or the pause. -/
theorem sealingTakesTheDueBinsInOrder : Obligations.SealingTakesTheDueBinsInOrder := by
  unfold Obligations.SealingTakesTheDueBinsInOrder
  intro s i
  refine ⟨seal_idle, ?_⟩
  intro d sd forced limit due u hlive hdefn hlen hw habove hserials hu hdue front top pause hcase
  have hs : s.SerialsNodup := hserials.1
  have is : (s.station i).d = sd := Station.d_of_defn hdefn
  have run : u = State.sealBins i limit forced d.bins s := by
    rcases hu with ⟨rfl, hopen, hpaused, rfl, rfl⟩ | ⟨rfl, rfl⟩
    · rw [seal_starts hlive hopen hpaused, is]
      rfl
    · rfl
  have sealed := sealBins_sealed (s := s) hs hlive (is.symm ▸ hlen) ⟨hw, habove⟩ forced hdue hcase
  rw [← run] at sealed
  have path := sealed.run.state
  rw [List.length_map] at path
  refine ⟨sealed.run.track, path, sealed.run.marks, fun hne => sealed.run.moved (hne.imp id fun h => ?_), ?_, ?_⟩
  · obtain ⟨rfl, hpaused⟩ := h
    rw [hpaused]
    exact nofun
  · rw [sealed.run.bursts]
    refine congrArg _ (List.map_congr_left fun e _ => ?_)
    unfold State.headerFor Station.sealHeader
    rw [is]
    rfl
  · intro counts settles hkept hcounts hsettles
    refine (sealed.counted (congrArg _ is) hkept (fun r hr hst hi => ?_) fun r => ?_).rest
    · have given := hcounts r _ ((r.missedBins sd.binLength d.sealedBin top front).map fun b : Nat => (b : Int)) hst hi
        (ownedBins_owner hs i sd.binLength front hr) (filter_cast (fun b => by
          rw [Bool.eq_iff_iff, mem_missedBins, decide_eq_true_eq]
          norm_cast) _)
      rw [counted_live hst, given]
      refine if_congr ?_ rfl ?_
      · rw [List.map_eq_nil_iff, ← List.length_eq_zero_iff, ← List.length_eq_zero_iff, Nat.add_eq_zero_iff]
      · rw [List.length_map, Nat.add_assoc]
    · rw [hsettles, runSettles_iff]

end Sys2Proof.Machine
end
